-- ==== Sys2Proof/Word.lean ====
section
/-! DEFINITION. The word types of the machine: bytes, 16-bit words (`00_scope.md` R5, R7) and 19-bit
byte addresses of VDP1 VRAM (`10_state.md` R24). -/

namespace Sys2Proof

/-- One byte of a memory or register bank. -/
abbrev Byte := BitVec 8

/-- `WORD` of R5: the unit of every register and command field. -/
abbrev Word := BitVec 16

/-- A byte address in VDP1 VRAM (0x80000 bytes, R5). -/
abbrev Addr := BitVec 19

end Sys2Proof
end

