-- ==== Sys2Proof/Syntax.lean ====
section
/-! DEFINITION. The command-table entries of VDP1 as syntax: one constructor of `Instr` per row of
`spec/opcode_table.json` (`30_encoding.md` R50 to R63). Bits the spec gives no field are kept under the
`spare` names, because the cost of a command is a function of the whole latched entry (R73). -/

namespace Sys2Proof

/-- The jump mode `JP`, CMDCTRL bits 13:12 (R51, R71). -/
inductive JumpMode where
  | next
  | assign
  | call
  | ret
  deriving DecidableEq, Repr, Inhabited

/-- A zoom-point selector of a scaled sprite, one for each axis (R51, R112). -/
inductive ZoomSel where
  | twoPoint
  | low
  | centre
  | high
  deriving DecidableEq, Repr, Inhabited

/-- The colour mode `CM` of textured commands, CMDPMOD bits 5:3 (R90). -/
inductive ColourMode where
  | bank16
  | lut16
  | bank64
  | bank128
  | bank256
  | direct
  | reserved6
  | reserved7
  deriving DecidableEq, Repr, Inhabited

/-- The colour calculation `CC`, CMDPMOD bits 2:0 (R100). -/
inductive CalcMode where
  | replace
  | shadow
  | halfLuminance
  | halfTransparency
  | gouraud
  | reserved5
  | gouraudHalfLuminance
  | gouraudHalfTransparency
  deriving DecidableEq, Repr, Inhabited

/-- CMDPMOD, the draw mode word (R55). -/
structure DrawMode where
  /-- bit 15: only the MSB flag of the destination is set (R101) -/
  mon : Bool
  /-- bits 14:13, ignored -/
  spare : BitVec 2
  /-- bit 12, high-speed shrink: no effect (D28) -/
  hss : Bool
  /-- bit 11, pre-clipping disable: no effect (D28) -/
  pclp : Bool
  /-- bit 10: user clipping is applied (R87) -/
  clip : Bool
  /-- bit 9: true draws outside the user clip area (R87) -/
  cmod : Bool
  /-- bit 8: mesh (R88) -/
  mesh : Bool
  /-- bit 7: end-code disable (R94) -/
  ecd : Bool
  /-- bit 6: transparent-pixel disable (R93) -/
  spd : Bool
  /-- bits 5:3 (R90) -/
  cm : ColourMode
  /-- bits 2:0 (R100) -/
  cc : CalcMode
  deriving DecidableEq, Repr, Inhabited

/-- The content of one 32-byte entry but for END, SKIP and COMM, which choose the constructor (R50, R51). -/
structure Entry where
  /-- CMDCTRL 13:12 -/
  jp : JumpMode
  /-- CMDCTRL 11:10, the vertical zoom selector -/
  zoomY : ZoomSel
  /-- CMDCTRL 9:8, the horizontal zoom selector -/
  zoomX : ZoomSel
  /-- CMDCTRL 7:6, ignored -/
  ctrlSpare : BitVec 2
  /-- CMDCTRL 5 -/
  dirV : Bool
  /-- CMDCTRL 4 -/
  dirH : Bool
  /-- the jump target `(CMDLINK & 0xFFFC) << 3` (R54) -/
  linkAddr : Addr
  /-- CMDLINK 1:0, ignored -/
  linkSpare : BitVec 2
  /-- CMDPMOD -/
  pmod : DrawMode
  /-- CMDCOLR (R56) -/
  colr : Word
  /-- the texture's byte address `CMDSRCA * 8` (R57) -/
  srcAddr : Addr
  /-- CMDSIZE 15:14, ignored -/
  sizeSpare : BitVec 2
  /-- the texture width in texels, `CMDSIZE[13:8] * 8` (R58) -/
  texW : Nat
  /-- the texture height in texels, `CMDSIZE[7:0]` (R58) -/
  texH : Nat
  /-- coordinate words 6 to 13 as they stand in memory (R59) -/
  xa : Word
  ya : Word
  xb : Word
  yb : Word
  xc : Word
  yc : Word
  xd : Word
  yd : Word
  /-- the gouraud table's byte address `CMDGRDA * 8` (R60) -/
  grdAddr : Addr
  /-- word 15, fetched and ignored (R61) -/
  word15 : Word
  deriving DecidableEq, Repr, Inhabited

/-- The commands, one constructor per row of the opcode table (R52, R53). `END` ignores every other bit
and is charged nothing, so it carries no entry (R69); a skipped entry keeps its unexamined code (R70). -/
inductive Instr where
  | endList
  | skip (comm : BitVec 4) (e : Entry)
  | nspr (e : Entry)
  | sspr (e : Entry)
  | dspr (e : Entry)
  | illegal3 (e : Entry)
  | poly (e : Entry)
  | plin (e : Entry)
  | line (e : Entry)
  | illegal7 (e : Entry)
  | uclp (e : Entry)
  | sclp (e : Entry)
  | lcrd (e : Entry)
  | illegalB (e : Entry)
  | illegalC (e : Entry)
  | illegalD (e : Entry)
  | illegalE (e : Entry)
  | illegalF (e : Entry)
  deriving DecidableEq, Repr, Inhabited

end Sys2Proof
end

