-- ==== Sys2Proof/WellFormed.lean ====
section
/-! DEFINITION. The instructions the encoding can express: each field at a value its bits can hold
(`30_encoding.md` R54, R57, R58, R60). -/

namespace Sys2Proof

/-- The link address is a multiple of 32 (R54). -/
def Entry.linkOk (e : Entry) : Bool := e.linkAddr.toNat % 32 == 0

/-- The texture address is a multiple of 8 (R57). -/
def Entry.srcOk (e : Entry) : Bool := e.srcAddr.toNat % 8 == 0

/-- The texture width is a multiple of 8, at most 504 (R58). -/
def Entry.widthOk (e : Entry) : Bool := e.texW % 8 == 0 && e.texW ≤ 504

/-- The texture height is at most 255 (R58). -/
def Entry.heightOk (e : Entry) : Bool := e.texH ≤ 255

/-- The gouraud table address is a multiple of 8 (R60). -/
def Entry.grdOk (e : Entry) : Bool := e.grdAddr.toNat % 8 == 0

/-- Every field of the entry has a value its bits can hold. -/
def Entry.wellFormed (e : Entry) : Bool :=
  e.linkOk && e.srcOk && e.widthOk && e.heightOk && e.grdOk

/-- The entry an instruction carries, if any. -/
def Instr.entry? : Instr → Option Entry
  | .endList => none
  | .skip _ e => some e
  | .nspr e => some e
  | .sspr e => some e
  | .dspr e => some e
  | .illegal3 e => some e
  | .poly e => some e
  | .plin e => some e
  | .line e => some e
  | .illegal7 e => some e
  | .uclp e => some e
  | .sclp e => some e
  | .lcrd e => some e
  | .illegalB e => some e
  | .illegalC e => some e
  | .illegalD e => some e
  | .illegalE e => some e
  | .illegalF e => some e

/-- An instruction is well formed when its entry is. -/
def Instr.wellFormed (i : Instr) : Bool :=
  match i.entry? with
  | none => true
  | some e => e.wellFormed

end Sys2Proof
end

