-- ==== Sys2Proof/Decode.lean ====
section
/-! DEFINITION. The decoder and the encoder of command entries, from the tables of `30_encoding.md`
(R50 to R61) and `spec/opcode_table.json`; words are big-endian (`20_memory.md` R35). -/

namespace Sys2Proof

/-- Why bytes are no entry. -/
inductive DecodeError where
  /-- fewer than the 32 bytes of one entry (R50) -/
  | truncatedEntry
  deriving DecidableEq, Repr

/-! ### Bit fields -/

/-- `w[hi:lo]` of R7 with `n = hi − lo + 1` bits. -/
def bits (w : Word) (lo n : Nat) : BitVec n := w.extractLsb' lo n

/-- One bit of a word as a one-bit vector. -/
def bitOf (b : Bool) : BitVec 1 := BitVec.ofBool b

def JumpMode.ofBits (b : BitVec 2) : JumpMode :=
  match b.toNat with
  | 0 => .next
  | 1 => .assign
  | 2 => .call
  | _ => .ret

def JumpMode.toBits : JumpMode → BitVec 2
  | .next => 0
  | .assign => 1
  | .call => 2
  | .ret => 3

def ZoomSel.ofBits (b : BitVec 2) : ZoomSel :=
  match b.toNat with
  | 0 => .twoPoint
  | 1 => .low
  | 2 => .centre
  | _ => .high

def ZoomSel.toBits : ZoomSel → BitVec 2
  | .twoPoint => 0
  | .low => 1
  | .centre => 2
  | .high => 3

def ColourMode.ofBits (b : BitVec 3) : ColourMode :=
  match b.toNat with
  | 0 => .bank16
  | 1 => .lut16
  | 2 => .bank64
  | 3 => .bank128
  | 4 => .bank256
  | 5 => .direct
  | 6 => .reserved6
  | _ => .reserved7

def ColourMode.toBits : ColourMode → BitVec 3
  | .bank16 => 0
  | .lut16 => 1
  | .bank64 => 2
  | .bank128 => 3
  | .bank256 => 4
  | .direct => 5
  | .reserved6 => 6
  | .reserved7 => 7

def CalcMode.ofBits (b : BitVec 3) : CalcMode :=
  match b.toNat with
  | 0 => .replace
  | 1 => .shadow
  | 2 => .halfLuminance
  | 3 => .halfTransparency
  | 4 => .gouraud
  | 5 => .reserved5
  | 6 => .gouraudHalfLuminance
  | _ => .gouraudHalfTransparency

def CalcMode.toBits : CalcMode → BitVec 3
  | .replace => 0
  | .shadow => 1
  | .halfLuminance => 2
  | .halfTransparency => 3
  | .gouraud => 4
  | .reserved5 => 5
  | .gouraudHalfLuminance => 6
  | .gouraudHalfTransparency => 7

/-! ### Decoding -/

/-- The fields of CMDPMOD (R55). -/
def decodePmod (w : Word) : DrawMode where
  mon := w.getLsbD 15
  spare := bits w 13 2
  hss := w.getLsbD 12
  pclp := w.getLsbD 11
  clip := w.getLsbD 10
  cmod := w.getLsbD 9
  mesh := w.getLsbD 8
  ecd := w.getLsbD 7
  spd := w.getLsbD 6
  cm := .ofBits (bits w 3 3)
  cc := .ofBits (bits w 0 3)

/-- The sixteen words of one entry, named as in R50 (words 6 to 13 keep their coordinate names). -/
structure RawEntry where
  ctrl : Word
  link : Word
  pmod : Word
  colr : Word
  srca : Word
  size : Word
  xa : Word
  ya : Word
  xb : Word
  yb : Word
  xc : Word
  yc : Word
  xd : Word
  yd : Word
  grda : Word
  word15 : Word
  deriving DecidableEq, Repr

/-- The fields of an entry that is not END (R51, R54 to R61). -/
def decodeEntry (r : RawEntry) : Entry where
  jp := .ofBits (bits r.ctrl 12 2)
  zoomY := .ofBits (bits r.ctrl 10 2)
  zoomX := .ofBits (bits r.ctrl 8 2)
  ctrlSpare := bits r.ctrl 6 2
  dirV := r.ctrl.getLsbD 5
  dirH := r.ctrl.getLsbD 4
  linkAddr := bits r.link 2 14 ++ 0#5
  linkSpare := bits r.link 0 2
  pmod := decodePmod r.pmod
  colr := r.colr
  srcAddr := r.srca ++ 0#3
  sizeSpare := bits r.size 14 2
  texW := (bits r.size 8 6).toNat * 8
  texH := (bits r.size 0 8).toNat
  xa := r.xa
  ya := r.ya
  xb := r.xb
  yb := r.yb
  xc := r.xc
  yc := r.yc
  xd := r.xd
  yd := r.yd
  grdAddr := r.grda ++ 0#3
  word15 := r.word15

/-- The command a code selects (R52). -/
def instrOfCode (comm : BitVec 4) (e : Entry) : Instr :=
  match comm.toNat with
  | 0 => .nspr e
  | 1 => .sspr e
  | 2 => .dspr e
  | 3 => .illegal3 e
  | 4 => .poly e
  | 5 => .plin e
  | 6 => .line e
  | 7 => .illegal7 e
  | 8 => .uclp e
  | 9 => .sclp e
  | 10 => .lcrd e
  | 11 => .illegalB e
  | 12 => .illegalC e
  | 13 => .illegalD e
  | 14 => .illegalE e
  | _ => .illegalF e

/-- Decode order: END, then SKIP, then the code (R53, R68). -/
def decodeRaw (r : RawEntry) : Instr :=
  if r.ctrl.getLsbD 15 then .endList
  else if r.ctrl.getLsbD 14 then .skip (bits r.ctrl 0 4) (decodeEntry r)
  else instrOfCode (bits r.ctrl 0 4) (decodeEntry r)

/-- Bytes read as big-endian words (R35). -/
def wordsOfBytes : List Byte → List Word
  | hi :: lo :: rest => (hi ++ lo) :: wordsOfBytes rest
  | _ => []

/-- Sixteen words as one entry. -/
def rawOfWords : List Word → Except DecodeError RawEntry
  | [ctrl, link, pmod, colr, srca, size, xa, ya, xb, yb, xc, yc, xd, yd, grda, word15] =>
    .ok { ctrl, link, pmod, colr, srca, size, xa, ya, xb, yb, xc, yc, xd, yd, grda, word15 }
  | _ => .error .truncatedEntry

/-- One instruction from the front of a list of bytes, with the bytes after it (R50, R63). -/
def decode (bs : List Byte) : Except DecodeError (Instr × List Byte) :=
  match rawOfWords (wordsOfBytes (bs.take 32)) with
  | .ok r => .ok (decodeRaw r, bs.drop 32)
  | .error err => .error err

/-! ### Encoding -/

/-- CMDPMOD from its fields (R55). -/
def encodePmod (m : DrawMode) : Word :=
  bitOf m.mon ++ m.spare ++ bitOf m.hss ++ bitOf m.pclp ++ bitOf m.clip ++ bitOf m.cmod ++
    bitOf m.mesh ++ bitOf m.ecd ++ bitOf m.spd ++ m.cm.toBits ++ m.cc.toBits

/-- CMDCTRL of an entry with END = 0 (R51). -/
def encodeCtrl (skip : Bool) (comm : BitVec 4) (e : Entry) : Word :=
  0#1 ++ bitOf skip ++ e.jp.toBits ++ e.zoomY.toBits ++ e.zoomX.toBits ++ e.ctrlSpare ++
    bitOf e.dirV ++ bitOf e.dirH ++ comm

/-- The sixteen words of an entry with END = 0 (R50). -/
def encodeEntry (skip : Bool) (comm : BitVec 4) (e : Entry) : RawEntry where
  ctrl := encodeCtrl skip comm e
  link := e.linkAddr.extractLsb' 5 14 ++ e.linkSpare
  pmod := encodePmod e.pmod
  colr := e.colr
  srca := e.srcAddr.extractLsb' 3 16
  size := e.sizeSpare ++ BitVec.ofNat 6 (e.texW / 8) ++ BitVec.ofNat 8 e.texH
  xa := e.xa
  ya := e.ya
  xb := e.xb
  yb := e.yb
  xc := e.xc
  yc := e.yc
  xd := e.xd
  yd := e.yd
  grda := e.grdAddr.extractLsb' 3 16
  word15 := e.word15

/-- The END entry `8000 0000 … 0000` (R64). -/
def endEntry : RawEntry where
  ctrl := 0x8000
  link := 0
  pmod := 0
  colr := 0
  srca := 0
  size := 0
  xa := 0
  ya := 0
  xb := 0
  yb := 0
  xc := 0
  yc := 0
  xd := 0
  yd := 0
  grda := 0
  word15 := 0

/-- The entry of an instruction (R51, R52). -/
def encodeRaw : Instr → RawEntry
  | .endList => endEntry
  | .skip comm e => encodeEntry true comm e
  | .nspr e => encodeEntry false 0x0 e
  | .sspr e => encodeEntry false 0x1 e
  | .dspr e => encodeEntry false 0x2 e
  | .illegal3 e => encodeEntry false 0x3 e
  | .poly e => encodeEntry false 0x4 e
  | .plin e => encodeEntry false 0x5 e
  | .line e => encodeEntry false 0x6 e
  | .illegal7 e => encodeEntry false 0x7 e
  | .uclp e => encodeEntry false 0x8 e
  | .sclp e => encodeEntry false 0x9 e
  | .lcrd e => encodeEntry false 0xA e
  | .illegalB e => encodeEntry false 0xB e
  | .illegalC e => encodeEntry false 0xC e
  | .illegalD e => encodeEntry false 0xD e
  | .illegalE e => encodeEntry false 0xE e
  | .illegalF e => encodeEntry false 0xF e

/-- The words of an entry in memory order (R50). -/
def RawEntry.words (r : RawEntry) : List Word :=
  [r.ctrl, r.link, r.pmod, r.colr, r.srca, r.size, r.xa, r.ya, r.xb, r.yb, r.xc, r.yc, r.xd, r.yd,
    r.grda, r.word15]

/-- The words of a well-formed instruction. -/
def encode (i : Instr) : List Word := (encodeRaw i).words

/-- A word as its two bytes, high byte first (R35). -/
def bytesOfWord (w : Word) : List Byte := [w.extractLsb' 8 8, w.extractLsb' 0 8]

/-- Words as bytes in memory order. -/
def bytesOfWords (ws : List Word) : List Byte := ws.flatMap bytesOfWord

/-- The 32 bytes of an instruction. -/
def encodeBytes (i : Instr) : List Byte := bytesOfWords (encode i)

/-! ### The host's table words -/

/-- Word `k` of an instruction whose bits are `w`, the first word in the low 16 bits. -/
def tableWord (nbits w k : Nat) : Word := BitVec.ofNat 16 ((w % 2 ^ nbits) / 2 ^ (16 * k))

/-- The 32 bytes of the instruction whose low `nbits` bits are `w` and whose other bits are 0. -/
def tableBytes (nbits w : Nat) : List Byte :=
  bytesOfWords ((List.range 16).map (tableWord nbits w))

/-- The instruction the decoder reads from a table word. -/
def decodeTableWord (nbits w : Nat) : Option Instr :=
  match decode (tableBytes nbits w) with
  | .ok (i, _) => some i
  | .error _ => none

end Sys2Proof
end

