-- ==== Sys2Proof/Machine/Types.lean ====
section
/-! DEFINITION. The plain types that configuration and state share: phases, resolutions, layers, the decoded
VDP2 configuration (`10_state.md` R29, R30; `44_vdp2_compositor.md` R145), memory regions and the callbacks
(`60_exceptions.md` R190). -/

namespace Sys2Proof.Machine

/-! ### Phases and resolutions (R29, R166) -/

/-- The horizontal phases, in their cyclic order (R166). -/
inductive HPhase where
  | active
  | rightBorder
  | sync
  | leftBorder
  deriving DecidableEq, Repr, Inhabited

/-- The vertical phases, in their cyclic order (R166). -/
inductive VPhase where
  | active
  | bottomBorder
  | blankingAndSync
  | vCounterSkip
  | topBorder
  | lastLine
  deriving DecidableEq, Repr, Inhabited

/-- The horizontal resolutions (R29). -/
inductive HRes where
  | h320
  | h352
  | h640
  | h704
  deriving DecidableEq, Repr, Inhabited

/-- The vertical resolutions (R29). -/
inductive VRes where
  | v224
  | v240
  | v256
  deriving DecidableEq, Repr, Inhabited

/-- The interlace modes (R29). -/
inductive Interlace where
  | none
  | single
  | double
  deriving DecidableEq, Repr, Inhabited

/-- A resolution (R29, R177). -/
structure Resolution where
  h : HRes
  exclusive : Bool
  v : VRes
  interlace : Interlace
  deriving DecidableEq, Repr, Inhabited

/-- The video standards of R6. -/
inductive Standard where
  | ntsc
  | pal
  deriving DecidableEq, Repr, Inhabited

/-! ### Layers (R147) and pixels (R30) -/

/-- The six background layers. -/
inductive BgLayer where
  | rbg0
  | rbg1
  | nbg0
  | nbg1
  | nbg2
  | nbg3
  deriving DecidableEq, Repr, Inhabited

/-- The seven layers (R147). -/
inductive Layer where
  | sprite
  | bg (b : BgLayer)
  deriving DecidableEq, Repr, Inhabited

/-- One value for each background layer. -/
structure BgTable (α : Type) where
  rbg0 : α
  rbg1 : α
  nbg0 : α
  nbg1 : α
  nbg2 : α
  nbg3 : α
  deriving DecidableEq, Repr, Inhabited

/-- One value for each layer. -/
structure LayerTable (α : Type) where
  sprite : α
  bg : BgTable α
  deriving DecidableEq, Repr, Inhabited

/-- Two different normal backgrounds: the possible values of `RbgDisabledNbgs` (R6, R148). -/
inductive NbgPair where
  | nbg01
  | nbg02
  | nbg03
  | nbg12
  | nbg13
  | nbg23
  deriving DecidableEq, Repr, Inhabited

/-- A colour of the output picture. -/
structure Rgb888 where
  r : Byte
  g : Byte
  b : Byte
  deriving DecidableEq, Repr, Inhabited

/-- One pixel of a layer row (R30). -/
structure LayerPx where
  color : Rgb888
  priority : BitVec 3
  transparent : Bool
  specialCC : Bool
  deriving DecidableEq, Repr, Inhabited

/-! ### The decoded VDP2 configuration (R145) -/

/-- The content of a component the spec calls opaque: uninterpreted bytes. -/
abbrev ParamBlock := List Byte

/-- The colour formats (R145, R157). -/
inductive ColourFormat where
  | pal16
  | pal256
  | pal2048
  | rgb555
  | rgb888
  deriving DecidableEq, Repr, Inhabited

/-- The character modes (R145, R157). -/
inductive CharMode where
  | twoWord
  | oneWordStandard
  | oneWordExtended
  deriving DecidableEq, Repr, Inhabited

/-- The character sizes (R145, R157). -/
inductive CharSize where
  | one
  | two
  deriving DecidableEq, Repr, Inhabited

/-- Character or bitmap addressing (R157). -/
inductive Plane where
  | cell (mode : CharMode) (size : CharSize)
  | bitmap
  deriving DecidableEq, Repr, Inhabited

/-- `BGParams` (R145): the addressing mode and whether dot value 0 is opaque (R152); scroll offsets, bitmap
size, base addresses, priority and special functions stay uninterpreted. -/
structure BgParams where
  plane : Plane
  zeroIsOpaque : Bool
  params : ParamBlock
  deriving DecidableEq, Repr, Inhabited

/-- `RotationParams` (R145): table address and coefficient-table control, uninterpreted. -/
structure RotationParams where
  params : ParamBlock
  deriving DecidableEq, Repr, Inhabited

/-- A coordinate window (R145, R149). -/
inductive Window where
  | rectangle (xs ys xe ye : Nat)
  | lineTable (addr ys ye : Nat)
  deriving DecidableEq, Repr, Inhabited

/-- Which side of a window counts (R149). -/
inductive Area where
  | inside
  | outside
  deriving DecidableEq, Repr, Inhabited

/-- How windows combine (R149). -/
inductive Logic where
  | and
  | or
  deriving DecidableEq, Repr, Inhabited

/-- One window's place in a `WindowSet`. -/
structure WindowUse where
  enabled : Bool
  area : Area
  deriving DecidableEq, Repr, Inhabited

/-- `WindowSet` (R145): the uses of W0, W1 and the sprite window, and their combination. -/
structure WindowSet where
  w0 : WindowUse
  w1 : WindowUse
  sw : WindowUse
  logic : Logic
  deriving DecidableEq, Repr, Inhabited

/-- The colour-RAM modes (R145, R158). The spec gives "at least" the first two and leaves further modes open: they are
numbered (log 13). -/
inductive CramMode where
  | linear
  | shuffled
  | other (k : Nat)
  deriving DecidableEq, Repr, Inhabited

/-- The source of the back or the line colour (R145, R155): the address in VRAM2 and whether each line has a colour of
its own. -/
structure ColourSource where
  perLine : Bool
  addr : Nat
  deriving DecidableEq, Repr, Inhabited

/-- `Vdp2Config` (R145). -/
structure Vdp2Config where
  resolution : Resolution
  enableReq : BgTable Bool
  format : BgTable ColourFormat
  bg : BgTable BgParams
  rotA : RotationParams
  rotB : RotationParams
  win0 : Window
  win1 : Window
  winSet : LayerTable WindowSet
  winRotParam : WindowSet
  winColourCalc : WindowSet
  sprite : ParamBlock
  cc : ParamBlock
  cramMode : CramMode
  backColor : ColourSource
  lineColor : ColourSource
  deriving DecidableEq, Repr, Inhabited

/-- The VDP2 register bank, `VDP2_REG_SIZE` bytes (R5, R30). -/
abbrev Regs2 := Vector Byte 0x120

/-! ### Drawing results -/

/-- `result` of the command step: visited pixels and the visible flag (R65, R103). -/
structure DrawResult where
  visited : Nat
  visible : Bool
  deriving DecidableEq, Repr, Inhabited

/-! ### Outputs -/

/-- The nine callbacks (R190). -/
inductive Callback where
  | hBlankStateChange (hblank : Bool)
  | vBlankStateChange (vblank : Bool)
  | vBlankEntry
  | spriteDrawEnd
  | statusReadHint
  | vdp1FrameDrawn
  | framebufferSwap
  | resolutionChanged (width height : Nat)
  | vdp2FrameDrawn
  deriving DecidableEq, Repr, Inhabited

/-! ### Host operations (R32, R165, R177, R206) -/

/-- The six regions the host reaches (R32). -/
inductive Region where
  | vdp1Vram
  | vdp1Framebuffer
  | vdp1Regs
  | vdp2Vram
  | vdp2Cram
  | vdp2Regs
  deriving DecidableEq, Repr, Inhabited

/-- The operations of the host. Offsets are relative to the region's start (R32). -/
inductive HostOp where
  | read8 (r : Region) (off : Nat)
  | read16 (r : Region) (off : Nat)
  | write8 (r : Region) (off : Nat) (v : Byte)
  | write16 (r : Region) (off : Nat) (v : Word)
  | peek8 (r : Region) (off : Nat)
  | peek16 (r : Region) (off : Nat)
  | poke8 (r : Region) (off : Nat) (v : Byte)
  | poke16 (r : Region) (off : Nat) (v : Word)
  | advance (cycles : Nat)
  | requestResolution (res : Resolution)
  | reset (hard : Bool)
  deriving DecidableEq, Repr, Inhabited

/-- What a read or peek returned to the host. -/
inductive HostReply where
  | byte (v : Byte)
  | word (v : Word)
  deriving DecidableEq, Repr, Inhabited

end Sys2Proof.Machine
end

