-- ==== Sys2Proof/Config.lean ====
section
/-! DEFINITION. The open parameters (`00_scope.md` R6) and the unspecified values (`93_implementation_defined.md`
U1 to U4), each a constant without a body: whatever is proved holds for every value of it. -/

namespace Sys2Proof.Config

open Sys2Proof.Machine

/-! ### Unspecified values -/

/-- The byte at an address that nothing has written, in the memory contents numbered `fill` (U1, log 1). -/
opaque unwrittenByte (fill addr : Nat) : Byte

/-- A pixel of a layer's working row that no scanline has drawn, in the contents numbered `fill` (U2, log 14). -/
opaque freeLayerPx (fill : Nat) (l : Layer) (x : Nat) : LayerPx

/-- A pixel of the output row of a scanline that none has drawn (U2, log 14). -/
opaque freeOutPixel (fill x : Nat) : Rgb888

/-- A pixel of a line of the output picture that has not been drawn (U2, log 14). -/
opaque undrawnPixel (fill line x : Nat) : Rgb888

/-- What the `n`-th access to a register without a defined read value returns (U3, U4, log 5). -/
opaque freeWord (n : Nat) : Word

/-! ### VDP1 -/

/-- `CmdCost` (R6, R73): a function of the latched entry and the draw result (log 7). -/
opaque cmdCost : Instr → DrawResult → Nat

/-- `Vdp1FrameCycleLimit` (R6, R74); `none` is ∞. -/
opaque frameCycleLimit : Option Nat

/-- `VramWritePenalty` (R6, R48). -/
opaque vramWritePenalty : Nat

/-! ### Timing (R6, R168, R169) -/

/-- `Standard` (R6). -/
opaque standard : Standard

/-- The part of `HLen` without the constraint of R168; see `hLen`. -/
opaque hLenFree : Resolution → HPhase → Nat

/-- A phase of positive length, which the constraint `LineCycles ≥ 1` says every table has; see `hLen`. -/
opaque hLenPositive : Resolution → HPhase

/-- `HLen(res)(phase)` in cycles (R166, R169). Every table with `LineCycles ≥ 1`, and no other, has this form (log 8). -/
def hLen (res : Resolution) (p : HPhase) : Nat :=
  hLenFree res p + if p = hLenPositive res then 1 else 0

/-- The lengths of the four vertical phases that R169 leaves open; see `vLen`. -/
opaque vLenFree : Standard → Resolution → VPhase → Nat

/-- The lines of a vertical resolution (R29). -/
def VRes.lines : VRes → Nat
  | .v224 => 224
  | .v240 => 240
  | .v256 => 256

/-- `VLen(standard, res)(phase)` in lines, with `VLen(Active) = res.v` and `VLen(LastLine) = 1` (R169). -/
def vLen (res : Resolution) (p : VPhase) : Nat :=
  match p with
  | .active => VRes.lines res.v
  | .lastLine => 1
  | p => vLenFree standard res p

/-- `LineCycles(res)` (R168). -/
def lineCycles (res : Resolution) : Nat :=
  hLen res .active + hLen res .rightBorder + hLen res .sync + hLen res .leftBorder

/-- `VSkip(standard, res)` (R6, R174). -/
opaque vSkip : Standard → Resolution → Nat

/-! ### VDP2 (R6, R145)

Memory contents are passed as functions of the byte offset. `LayerPixel` (R6, R152) is open in steps, each of which sees
the layer and what stands among its arguments, and nothing else (log 11). -/

/-- `DecodeVdp2` (R145). -/
opaque decodeVdp2 : Regs2 → Vdp2Config

/-- `RbgDisabledNbgs`: exactly two normal backgrounds (R6, R148). -/
opaque rbgDisabledNbgs : NbgPair

/-- The pair `(xs, xe)` a line table at an address of VRAM2 stores for a line (R149). -/
opaque lineTablePair (addr y : Nat) (vram2 : Nat → Byte) : Nat × Nat

/-- `RotTables` (R150): rotation sets A and B, the scanline, VRAM2, CRAM. -/
opaque rotTables (rotA rotB : RotationParams) (y : Nat) (vram2 cram : Nat → Byte) : ParamBlock

/-- The coordinate transform of a rotation background (R152); `selB` chooses parameter set B (R149). -/
opaque rotCoord (l : BgLayer) (bg : BgParams) (rotTab : ParamBlock) (selB : Bool) (x y : Nat) : Int × Int

/-- The scrolled coordinate of a normal background, with its vertical cell scroll (R152). -/
opaque scrollCoord (l : BgLayer) (bg : BgParams) (x y : Nat) (vram2 : Nat → Byte) : Int × Int

/-- The number of a colour-RAM entry, and likewise a byte offset: colour RAM has `CRAM_SIZE` bytes (R5), so it cannot
have more entries (log 13). -/
abbrev CramIndex := Fin 0x1000

/-- A dot as fetched: its value, its colour-RAM entry index, and what the fetch found beside them (R152, R157). -/
structure Dot where
  value : Nat
  index : CramIndex
  attr : ParamBlock
  deriving DecidableEq, Repr, Inhabited

/-- What a pattern-name entry says: the character number, the flip and the palette bits, and what else it holds
(R157). -/
structure PatternName where
  charNumber : Nat
  flipH : Bool
  flipV : Bool
  palette : Nat
  attr : ParamBlock
  deriving DecidableEq, Repr, Inhabited

/-- A dot's place in its character: the cell, and the dot of that cell (R157). -/
structure CharPos where
  cellX : Nat
  cellY : Nat
  dotX : Nat
  dotY : Nat
  deriving DecidableEq, Repr, Inhabited

/-- The plane and page arithmetic: the address in VRAM2 of the pattern-name entry of a character, by the character's
column and row (R157, N15). -/
opaque patternNameAddr (l : BgLayer) (bg : BgParams) (mode : CharMode) (size : CharSize) (cx cy : Int) : Nat

/-- The bit layout of the words of a pattern-name entry (R157, N15). -/
opaque patternName (l : BgLayer) (bg : BgParams) (mode : CharMode) (size : CharSize) (fmt : ColourFormat)
    (words : List Word) : PatternName

/-- A dot of a cell of the named character, in the layer's colour format; how the flips apply is open too (R157). -/
opaque cellDot (l : BgLayer) (bg : BgParams) (size : CharSize) (fmt : ColourFormat) (name : PatternName)
    (pos : CharPos) (vram2 : Nat → Byte) : Dot

/-- A dot fetched through the bitmap path (R157). -/
opaque bitmapDot (l : BgLayer) (bg : BgParams) (fmt : ColourFormat) (at_ : Int × Int) (vram2 : Nat → Byte) : Dot

/-- The layer's priority at a dot (R152), from the layer, its parameters, the dot and colour RAM (log 11). -/
opaque dotPriority (l : BgLayer) (bg : BgParams) (d : Dot) (cram : Nat → Byte) : BitVec 3

/-- The layer's special-colour-calculation flag at a dot (R152, N25), from the layer, its parameters, the dot and colour
RAM (log 11). -/
opaque dotSpecialCC (l : BgLayer) (bg : BgParams) (d : Dot) (cram : Nat → Byte) : Bool

/-- An RGB555 or RGB888 dot as a colour (R158: such dots bypass CRAM). -/
opaque directColour (fmt : ColourFormat) (value : Nat) : Rgb888

/-- The bytes of one colour-RAM entry in a mode, whose width the source does not give (R158, log 13). -/
opaque cramEntryBytes : CramMode → Nat

/-- `CramMap` where R158 does not fix it: any injective map of entries to byte offsets, which on a finite range is any
permutation (R6, log 13). -/
opaque cramMapFree : CramMode → Equiv.Perm CramIndex

/-- A colour-RAM entry widened to RGB888 (R158). -/
opaque cramColour : CramMode → List Byte → Rgb888

/-- `SpriteDecode` on a datum other than 0 (R6, R151). -/
opaque spriteDecodeFree (ctl : ParamBlock) (datum : Nat) : LayerPx × Bool

/-- Whether colour calculation is enabled for the top pixel (R154). -/
opaque colourCalcOn (cc : ParamBlock) (ccMask : Bool) (top : LayerPx) : Bool

/-- The second input of `Blend`: a layer's pixel or the fallback as a pseudo-layer (R154). -/
inductive Second where
  | layer (px : LayerPx)
  | fallback (color : Rgb888)
  deriving DecidableEq, Repr, Inhabited

/-- `Blend` where colour calculation is enabled (R6, R154). -/
opaque blendFree (cc : ParamBlock) (ccMask : Bool) (top : LayerPx) (second : Second) (line : Rgb888) : Rgb888

/-- The address of a line's colour in a table with one colour per line (R155: the address arithmetic is open). -/
opaque perLineAddr (addr y : Nat) : Nat

/-- The bytes of a back colour in VRAM2, and of a line colour (R155: the widths are open). -/
opaque backColourBytes : Nat

opaque lineColourBytes : Nat

/-- The bytes of a back colour as a colour (R155). -/
opaque backColourOf : List Byte → Rgb888

/-- The bytes of a line colour as a colour-RAM entry index (R155). -/
opaque lineColourIndex : List Byte → CramIndex

/-! ### The offered defaults (R73, R176)

Tables and a cost the spec offers and uses in its test vectors. The machine does not use them: it holds for every
value of the parameters above. -/

/-- The offered command cost, `16 + visited` (R73). -/
def offeredCmdCost (r : DrawResult) : Nat := 16 + r.visited

/-- The offered split of a line (R176). -/
def offeredHLen (h : HRes) (p : HPhase) : Nat :=
  match h, p with
  | .h320, .active | .h640, .active => 1280
  | .h320, .sync | .h640, .sync => 236
  | .h352, .active | .h704, .active => 1408
  | .h352, .sync | .h704, .sync => 220
  | _, _ => 96

/-- The offered `LineCycles` (R176). -/
def offeredLineCycles : HRes → Nat
  | .h320 => 1708
  | .h640 => 1708
  | .h352 => 1820
  | .h704 => 1820

/-- The offered split of a frame, where R176 offers one. -/
def offeredVLen (std : Standard) (v : VRes) : Option (VPhase → Nat) :=
  let table (a bb bs sk tb : Nat) : VPhase → Nat
    | .active => a
    | .bottomBorder => bb
    | .blankingAndSync => bs
    | .vCounterSkip => sk
    | .topBorder => tb
    | .lastLine => 1
  match std, v with
  | .ntsc, .v224 => some (table 224 8 21 1 8)
  | .ntsc, .v240 => some (table 240 0 21 1 0)
  | .ntsc, .v256 => none
  | .pal, .v224 => some (table 224 32 23 1 32)
  | .pal, .v240 => some (table 240 24 23 1 24)
  | .pal, .v256 => some (table 256 16 23 1 16)

/-- The offered `FrameLines` (R176). -/
def offeredFrameLines : Standard → Nat
  | .ntsc => 263
  | .pal => 313

end Sys2Proof.Config
end

