-- ==== Sys2Proof/Machine/Layers.lean ====
section
/-! DEFINITION. The sizes of the picture, the layers of the compositor and the layer-enable table
(`44_vdp2_compositor.md` R147, R148, R156, `45_timing_controller.md` R178). -/

namespace Sys2Proof.Machine

/-! ### Sizes (R156, R178) -/

/-- The pixels of a line. -/
def HRes.dots : HRes → Nat
  | .h320 => 320
  | .h352 => 352
  | .h640 => 640
  | .h704 => 704

/-- `DispW` (R178). -/
def dispW (r : Resolution) : Nat := HRes.dots r.h

/-- `DispH` (R178). -/
def dispH (r : Resolution) : Nat :=
  if r.interlace = .double then Config.VRes.lines r.v * 2 else Config.VRes.lines r.v

/-! ### Layer tables -/

/-- The value of a background layer in a table. -/
def BgTable.get {α : Type} (t : BgTable α) : BgLayer → α
  | .rbg0 => t.rbg0
  | .rbg1 => t.rbg1
  | .nbg0 => t.nbg0
  | .nbg1 => t.nbg1
  | .nbg2 => t.nbg2
  | .nbg3 => t.nbg3

/-- The value of a layer in a table. -/
def LayerTable.get {α : Type} (t : LayerTable α) : Layer → α
  | .sprite => t.sprite
  | .bg b => t.bg.get b

/-- Whether a layer is one of the pair. -/
def NbgPair.has (p : NbgPair) (l : BgLayer) : Bool :=
  match p, l with
  | .nbg01, .nbg0 | .nbg01, .nbg1 => true
  | .nbg02, .nbg0 | .nbg02, .nbg2 => true
  | .nbg03, .nbg0 | .nbg03, .nbg3 => true
  | .nbg12, .nbg1 | .nbg12, .nbg2 => true
  | .nbg13, .nbg1 | .nbg13, .nbg3 => true
  | .nbg23, .nbg2 | .nbg23, .nbg3 => true
  | _, _ => false

/-- A normal background's colour format that disables another background (R148). -/
def ColourFormat.isWide : ColourFormat → Bool
  | .pal2048 => true
  | .rgb555 => true
  | _ => false

/-- `LayerEnable` (R148). -/
def layerEnableOf (cfg : Vdp2Config) : LayerTable Bool :=
  let req := cfg.enableReq
  let lost (l : BgLayer) : Bool := req.rbg0 && req.rbg1 && Config.rbgDisabledNbgs.has l
  let full0 := req.nbg0 && cfg.format.nbg0 == .rgb888
  let wide0 := req.nbg0 && cfg.format.nbg0.isWide
  let wide1 := req.nbg1 && cfg.format.nbg1.isWide
  { sprite := true
    bg :=
      { rbg0 := req.rbg0
        rbg1 := req.rbg1
        nbg0 := req.nbg0 && !lost .nbg0
        nbg1 := req.nbg1 && !lost .nbg1 && !full0
        nbg2 := req.nbg2 && !lost .nbg2 && !full0 && !wide0
        nbg3 := req.nbg3 && !lost .nbg3 && !full0 && !wide1 } }

end Sys2Proof.Machine
end

