-- ==== Sys2Proof/Machine/State.lean ====
section
/-! DEFINITION. The machine's state as plain data (`10_state.md` R10 to R30), the reasons a step can stop, and
the state after reset (`70_reset_and_hazards.md` R205). Fields of the model's own stand at the end of `State`. -/

namespace Sys2Proof.Machine

/-! ### Memory -/

/-- One byte-addressed memory: the bytes written since the last hard reset, by strictly rising address.
An address that is not listed holds no written byte; it reads as the free value
`Config.unwrittenByte fill address` (R28, U1, log 1). -/
structure Memory where
  /-- which unspecified contents the unwritten bytes have -/
  fill : Nat
  cells : List Host.Cell
  deriving DecidableEq, Repr

/-- Addresses rise strictly. -/
def Memory.rising : List Host.Cell → Bool
  | [] => true
  | [_] => true
  | (a, _) :: (b, v) :: rest => decide (a < b) && Memory.rising ((b, v) :: rest)

/-- The canonical form of a memory: addresses strictly rising. No listed byte can equal what an unlisted
address holds, because an unlisted address holds no written byte. -/
def Memory.wf (m : Memory) : Bool := Memory.rising m.cells

/-- Every listed address is below `size`. -/
def Memory.within (size : Nat) (m : Memory) : Bool := m.cells.all fun c => decide (c.1 < size)

/-- The two sprite framebuffers (R27). -/
inductive FbId where
  | fb0
  | fb1
  deriving DecidableEq, Repr, Inhabited

/-- The five memories of R28. -/
inductive Space where
  | vram1
  | fb (f : FbId)
  | vram2
  | cram
  deriving DecidableEq, Repr, Inhabited

/-- The sizes of R5; every offset is reduced modulo them (R33). -/
def Space.size : Space → Nat
  | .vram1 => 0x80000
  | .fb _ => 0x40000
  | .vram2 => 0x80000
  | .cram => 0x1000

/-! ### VDP1 -/

/-- The stored words of the VDP1 register bank (R11 to R21). ENDR and MODR store nothing. -/
structure Regs1 where
  tvmr : Word
  fbcr : Word
  ptmr : Word
  ewdr : Word
  ewlr : Word
  ewrr : Word
  edsr : Word
  lopr : Word
  copr : Word
  deriving DecidableEq, Repr

/-- The drawing context (R23). `none` in a clip or offset register is the spec's own state "unset", which a
draw command that reads it reports by the fault `UnsetContext` (R188). -/
structure Ctx where
  sysClipH : Option (BitVec 10)
  sysClipV : Option (BitVec 9)
  userX0 : Option (BitVec 10)
  userY0 : Option (BitVec 9)
  userX1 : Option (BitVec 10)
  userY1 : Option (BitVec 9)
  /-- signed -/
  localX : Option (BitVec 13)
  /-- signed -/
  localY : Option (BitVec 13)
  /-- the single return register (R71, R80) -/
  retAddr : Option Addr
  deriving DecidableEq, Repr

/-- The context registers that can be unset (R23). -/
inductive CtxReg where
  | localX
  | localY
  | sysClipH
  | sysClipV
  | userX0
  | userY0
  | userX1
  | userY1
  deriving DecidableEq, Repr

/-- The five faults of the command processor with the values R185 says they record. -/
inductive CmdFault where
  | illegalCommand (addr : Addr) (ctrl : Word)
  | unsetContext (addr : Addr) (reg : CtxReg)
  | reservedFbMode (addr : Addr) (tvm : BitVec 3)
  | reservedColourMode (addr : Addr) (pmod : Word)
  | reservedColourCalc (addr : Addr) (pmod : Word)
  deriving DecidableEq, Repr

/-- `proc.status` (R24). -/
inductive ProcStatus where
  | idle
  | busy
  | fault (f : CmdFault)
  deriving DecidableEq, Repr

/-- The command processor (R24 to R26). -/
structure Proc where
  cmdAddr : Addr
  status : ProcStatus
  cyclePool : Int
  frameCycles : Nat
  lastVisible : Bool
  deriving DecidableEq, Repr

/-- The framebuffer sequencer (R27). -/
structure Seq where
  drawFB : FbId
  manualSwapReq : Bool
  manualEraseReq : Bool
  deriving DecidableEq, Repr

/-! ### Timing controller and compositor -/

/-- The timing controller (R29). -/
structure Tim where
  hPhase : HPhase
  vPhase : VPhase
  hCyc : Nat
  vLine : Nat
  vCounter : Nat
  field : Bool
  hblank : Bool
  vblank : Bool
  resCur : Resolution
  resReq : Resolution
  resDirty : Bool
  deriving DecidableEq, Repr

/-- The frame-latched part of the configuration: the resolution (R145). -/
structure FrameCfg where
  resolution : Resolution
  deriving DecidableEq, Repr

/-- The compositor (R30). The working rows hold free values until a scanline draws them, and a line of the picture that
is not listed has not been drawn and reads as free values (U2, log 14). -/
structure Cmp where
  frameCfg : FrameCfg
  lineCfg : Vdp2Config
  layerEnable : LayerTable Bool
  rows : LayerTable (List LayerPx)
  outRow : List Rgb888
  /-- the output picture: drawn lines by strictly rising line number -/
  out : List (Nat × List Rgb888)
  /-- MODEL: which unspecified contents the lines that have not been drawn have -/
  fill : Nat
  deriving DecidableEq, Repr

/-! ### The model's own -/

/-- How far the host operation in hand has got: the control flow of `Advance` as data (R167, R172, log 3). -/
inductive Control where
  /-- between two host operations -/
  | hostTurn
  /-- at the top of Advance's loop, with the cycles that remain -/
  | advance (remaining : Nat)
  /-- VDP1 is being served a chunk; `remaining` counts from before the chunk -/
  | serve (chunk remaining : Nat)
  /-- the next horizontal phase is to be entered -/
  | enterH (remaining : Nat)
  /-- the next vertical phase is to be entered, inside the entry of horizontal Sync -/
  | enterV (remaining : Nat)
  deriving DecidableEq, Repr

/-- The machine state (R10), and after it the model's own fields. -/
structure State where
  regs1 : Regs1
  ctx : Ctx
  proc : Proc
  seq : Seq
  vram1 : Memory
  fb0 : Memory
  fb1 : Memory
  regs2 : Regs2
  vram2 : Memory
  cram : Memory
  tim : Tim
  cmp : Cmp
  /-- MODEL: progress of the host operation in hand (log 3) -/
  ctl : Control
  /-- MODEL: the host operations still to come (log 2) -/
  hostOps : List HostOp
  /-- MODEL: what reads and peeks returned, oldest first (log 3) -/
  replies : List HostReply
  /-- MODEL: the callbacks emitted, oldest first (R192, log 3) -/
  trace : List Callback
  /-- MODEL: how many free values have been used (log 4) -/
  freeCtr : Nat
  deriving DecidableEq, Repr

/-! ### Why a step stops -/

/-- The machine never stops with a fault: no memory access, compositor step or timing step faults (R185), and the
five command faults are next states with status `Fault` (R187). So there is no constructor. -/
inductive Fault where
  deriving DecidableEq, Repr

/-- The refusals. -/
inductive Refusal where
  /-- Raised by `exec` for an instruction without a meaning. Safe: the machine stops where the hardware goes on. No arm raises it. -/
  | notModelled (mnemonic : String)
  /-- Raised by a command step whose fetched bytes are fewer than one entry. Safe, and never reached: a fetch reads 32 bytes (R67). -/
  | truncatedEntry
  deriving DecidableEq, Repr

/-! ### Reset -/

/-- The resolution after reset: (320, non-exclusive, 224, none) (R29). -/
def resetResolution : Resolution := { h := .h320, exclusive := false, v := .v224, interlace := .none }

/-- The VDP2 register bank after reset (R205). -/
def resetRegs2 : Regs2 := Vector.replicate 0x120 0

/-- A layer's working row with unspecified contents (U2). -/
def freeRow (fill : Nat) (l : Layer) : List LayerPx :=
  (List.range (dispW resetResolution)).map (Config.freeLayerPx fill l)

/-- The compositor after reset: the rows and the picture have the unspecified contents numbered `fill` (R205, U2). -/
def resetCmp (fill : Nat) : Cmp where
  frameCfg := { resolution := (Config.decodeVdp2 resetRegs2).resolution }
  lineCfg := Config.decodeVdp2 resetRegs2
  layerEnable := layerEnableOf (Config.decodeVdp2 resetRegs2)
  rows :=
    { sprite := freeRow fill .sprite
      bg :=
        { rbg0 := freeRow fill (.bg .rbg0)
          rbg1 := freeRow fill (.bg .rbg1)
          nbg0 := freeRow fill (.bg .nbg0)
          nbg1 := freeRow fill (.bg .nbg1)
          nbg2 := freeRow fill (.bg .nbg2)
          nbg3 := freeRow fill (.bg .nbg3) } }
  outRow := (List.range (dispW resetResolution)).map (Config.freeOutPixel fill)
  out := []
  fill := fill

/-- The registers after reset (R205). -/
def resetRegs1 : Regs1 where
  tvmr := 0
  fbcr := 0
  ptmr := 0
  ewdr := 0
  ewlr := 0
  ewrr := 0
  edsr := 0
  lopr := 0
  copr := 0

/-- The drawing context after reset: everything unset, no return address (R205). -/
def resetCtx : Ctx where
  sysClipH := none
  sysClipV := none
  userX0 := none
  userY0 := none
  userX1 := none
  userY1 := none
  localX := none
  localY := none
  retAddr := none

/-- The command processor after reset (R205). -/
def resetProc : Proc where
  cmdAddr := 0
  status := .idle
  cyclePool := 0
  frameCycles := 0
  lastVisible := false

/-- The sequencer after reset (R205). -/
def resetSeq : Seq where
  drawFB := .fb0
  manualSwapReq := false
  manualEraseReq := false

/-- The timing controller after reset (R205). -/
def resetTim : Tim where
  hPhase := .active
  vPhase := .lastLine
  hCyc := 0
  vLine := 0
  vCounter := 0
  field := false
  hblank := false
  vblank := false
  resCur := resetResolution
  resReq := resetResolution
  resDirty := false

/-- The machine right after a hard reset, no host operation pending (R205, R206). Each memory, and the compositor's rows
and picture, have unspecified contents of their own (U1, U2); the model's own fields have the values of log 2 to log 4. -/
def State.reset : State where
  regs1 := resetRegs1
  ctx := resetCtx
  proc := resetProc
  seq := resetSeq
  vram1 := { fill := 0, cells := [] }
  fb0 := { fill := 1, cells := [] }
  fb1 := { fill := 2, cells := [] }
  regs2 := resetRegs2
  vram2 := { fill := 3, cells := [] }
  cram := { fill := 4, cells := [] }
  tim := resetTim
  cmp := resetCmp 5
  ctl := .hostTurn
  hostOps := []
  replies := []
  trace := []
  freeCtr := 6

end Sys2Proof.Machine
end

