-- ==== Sys2Proof/Machine/Ops.lean ====
section
/-! DEFINITION. The named operations over memory and registers: byte and word access (`20_memory.md` R33 to R35),
events (R192), the register bank's fields (`10_state.md` R12 to R22), taking a fault (`60_exceptions.md` R187),
starting and stopping the processor (R125, R126), fetch (R67), jump (R71) and cost (R73). -/

namespace Sys2Proof.Machine

/-! ### Cells -/

/-- The byte listed at an address. -/
def cellAt : List Host.Cell → Nat → Option Byte
  | [], _ => none
  | (k, v) :: rest, a => if a = k then some v else cellAt rest a

/-- A byte put at an address, in canonical form. -/
def putCell : List Host.Cell → Nat → Byte → List Host.Cell
  | [], a, b => [(a, b)]
  | (k, v) :: rest, a, b =>
    if a < k then (a, b) :: (k, v) :: rest
    else if a = k then (a, b) :: rest
    else (k, v) :: putCell rest a b

/-- The byte at an address: the written one, or the unspecified one (U1, log 1). -/
def Memory.byte (m : Memory) (a : Nat) : Byte :=
  (cellAt m.cells a).getD (Config.unwrittenByte m.fill a)

/-- One byte stored. -/
def Memory.put (m : Memory) (a : Nat) (b : Byte) : Memory := { m with cells := putCell m.cells a b }

/-! ### Accesses of a memory of `size` bytes: wrapping (R33), alignment (R34), byte order (R35) -/

/-- The even offset a 16-bit operation acts on (R33, R34). -/
def wordOffset (size a : Nat) : Nat := a % size / 2 * 2

def Memory.read8 (size : Nat) (m : Memory) (a : Nat) : Byte := m.byte (a % size)

def Memory.read16 (size : Nat) (m : Memory) (a : Nat) : Word :=
  m.byte (wordOffset size a) ++ m.byte (wordOffset size a + 1)

def Memory.write8 (size : Nat) (m : Memory) (a : Nat) (b : Byte) : Memory := m.put (a % size) b

def Memory.write16 (size : Nat) (m : Memory) (a : Nat) (w : Word) : Memory :=
  (m.put (wordOffset size a) (w.extractLsb' 8 8)).put (wordOffset size a + 1) (w.extractLsb' 0 8)

/-- Bytes stored at consecutive offsets. -/
def Memory.writeBytes (size : Nat) : Memory → Nat → List Byte → Memory
  | m, _, [] => m
  | m, a, b :: bs => Memory.writeBytes size (m.write8 size a b) (a + 1) bs

/-! ### The memories of the state (R28) -/

def FbId.other : FbId → FbId
  | .fb0 => .fb1
  | .fb1 => .fb0

def State.mem (s : State) : Space → Memory
  | .vram1 => s.vram1
  | .fb .fb0 => s.fb0
  | .fb .fb1 => s.fb1
  | .vram2 => s.vram2
  | .cram => s.cram

def State.setMem (s : State) (sp : Space) (m : Memory) : State :=
  match sp with
  | .vram1 => { s with vram1 := m }
  | .fb .fb0 => { s with fb0 := m }
  | .fb .fb1 => { s with fb1 := m }
  | .vram2 => { s with vram2 := m }
  | .cram => { s with cram := m }

/-- `MemRead(S, addr, 1)` (R8). -/
def State.memRead8 (s : State) (sp : Space) (a : Nat) : Byte := (s.mem sp).read8 sp.size a

/-- `MemRead(S, addr, 2)` (R8). -/
def State.memRead16 (s : State) (sp : Space) (a : Nat) : Word := (s.mem sp).read16 sp.size a

/-- `MemWrite(S, addr, 1, v)` (R8). -/
def State.memWrite8 (s : State) (sp : Space) (a : Nat) (b : Byte) : State :=
  s.setMem sp ((s.mem sp).write8 sp.size a b)

/-- `MemWrite(S, addr, 2, v)` (R8). -/
def State.memWrite16 (s : State) (sp : Space) (a : Nat) (w : Word) : State :=
  s.setMem sp ((s.mem sp).write16 sp.size a w)

/-- The draw framebuffer (R27). -/
def State.drawSpace (s : State) : Space := .fb s.seq.drawFB

/-- The display framebuffer (R27). -/
def State.displaySpace (s : State) : Space := .fb s.seq.drawFB.other

/-! ### Output events and free values -/

/-- `emit` (R192). -/
def State.emit (s : State) (c : Callback) : State := { s with trace := s.trace ++ [c] }

/-- What a read returned. -/
def State.reply (s : State) (r : HostReply) : State := { s with replies := s.replies ++ [r] }

/-- The next unspecified word (U3, U4, log 5). -/
def State.freeWord (s : State) : Word := Config.freeWord s.freeCtr

/-- A free value has been used. -/
def State.useFree (s : State) : State := { s with freeCtr := s.freeCtr + 1 }

/-! ### Fields of the VDP1 registers (R12 to R22) -/

/-- TVMR.TVM (R12). -/
def State.tvm (s : State) : BitVec 3 := s.regs1.tvmr.extractLsb' 0 3

/-- TVMR.VBE (R12). -/
def State.vbe (s : State) : Bool := s.regs1.tvmr.getLsbD 3

/-- FBCR.EOS (R13). -/
def State.eos (s : State) : Bool := s.regs1.fbcr.getLsbD 4

/-- FBCR.DIE (R13). -/
def State.die (s : State) : Bool := s.regs1.fbcr.getLsbD 3

/-- FBCR.DIL (R13). -/
def State.dil (s : State) : Bool := s.regs1.fbcr.getLsbD 2

/-- FBCR.FCM (R13). -/
def State.fcm (s : State) : Bool := s.regs1.fbcr.getLsbD 1

/-- PTMR.PTM (R14). -/
def State.ptm (s : State) : BitVec 2 := s.regs1.ptmr.extractLsb' 0 2

/-- EWLR.X1, in units of 8 cells (R16). -/
def State.eraseX1 (s : State) : Nat := (s.regs1.ewlr.extractLsb' 9 6).toNat

/-- EWLR.Y1 (R16). -/
def State.eraseY1 (s : State) : Nat := (s.regs1.ewlr.extractLsb' 0 9).toNat

/-- EWRR.X3, in units of 8 cells, exclusive (R17). -/
def State.eraseX3 (s : State) : Nat := (s.regs1.ewrr.extractLsb' 9 7).toNat

/-- EWRR.Y3, inclusive (R17). -/
def State.eraseY3 (s : State) : Nat := (s.regs1.ewrr.extractLsb' 0 9).toNat

/-- MODR (R22). -/
def State.modr (s : State) : Word :=
  0b0001#4 ++ 0#3 ++ bitOf (s.regs1.ptmr.getLsbD 1) ++ bitOf s.eos ++ bitOf s.die ++ bitOf s.dil ++
    bitOf s.fcm ++ bitOf s.vbe ++ s.tvm

/-! ### Processor control -/

/-- `proc.status <- st`. -/
def State.setStatus (s : State) (st : ProcStatus) : State :=
  { s with proc := { s.proc with status := st } }

/-- `raise F(args)` (R187): the status becomes `Fault`, nothing else changes. -/
def State.raise (s : State) (f : CmdFault) : State := s.setStatus (.fault f)

/-- `StartDrawing` (R125), also the way out of `Fault` (R186). CEF is bit 1 of EDSR (R19). -/
def State.startDrawing (s : State) : State :=
  { s with
    proc := { s.proc with status := .busy, cmdAddr := 0, frameCycles := 0, cyclePool := 0 }
    ctx := { s.ctx with retAddr := none }
    regs1 := { s.regs1 with edsr := s.regs1.edsr &&& 0xFFFD#16 } }

/-- The forced termination of an ENDR write (R126). -/
def State.forceEnd (s : State) : State :=
  match s.proc.status with
  | .idle => s
  | _ => s.setStatus .idle

/-- Whether a command step is enabled (R66). -/
def State.vdp1Enabled (s : State) : Bool :=
  decide (s.proc.status = .busy) && decide (0 < s.proc.cyclePool)

/-- `proc.frameCycles > Vdp1FrameCycleLimit` (R74). -/
def overLimit : Nat → Bool
  | 0 => false
  | n + 1 =>
    match Config.frameCycleLimit with
    | none => false
    | some limit => decide (limit < n + 1)

/-! ### Fetch (R67) -/

/-- Word `k` of the entry at the command address (R67). -/
def State.fetchWord (s : State) (k : Nat) : Word := s.memRead16 .vram1 (s.proc.cmdAddr.toNat + 2 * k)

/-- The sixteen words at the command address, named as in R50 (R67). -/
def State.fetchEntry (s : State) : RawEntry where
  ctrl := s.fetchWord 0
  link := s.fetchWord 1
  pmod := s.fetchWord 2
  colr := s.fetchWord 3
  srca := s.fetchWord 4
  size := s.fetchWord 5
  xa := s.fetchWord 6
  ya := s.fetchWord 7
  xb := s.fetchWord 8
  yb := s.fetchWord 9
  xc := s.fetchWord 10
  yc := s.fetchWord 11
  xd := s.fetchWord 12
  yd := s.fetchWord 13
  grda := s.fetchWord 14
  word15 := s.fetchWord 15

/-- The same as the 32 bytes in memory order. -/
def State.fetchBytes (s : State) : List Byte := bytesOfWords s.fetchEntry.words

/-- `COPR <- a >> 3` (R67, R21). -/
def State.latchCopr (s : State) : State :=
  { s with regs1 := { s.regs1 with copr := s.proc.cmdAddr.extractLsb' 3 16 } }

/-- An entry's bytes stored at the command address, and the processor ready to fetch it: `Busy` with a positive
pool (R66) and no cycle of this list charged yet (R74). -/
def State.placeEntry (s : State) (bs : List Byte) : State :=
  { s with
    vram1 := Memory.writeBytes Space.vram1.size s.vram1 s.proc.cmdAddr.toNat bs
    proc := { s.proc with status := .busy, cyclePool := 1, frameCycles := 0 } }

/-! ### Jump and cost (R71, R73) -/

/-- `next = (a + 0x20) & 0x7FFE0` (R71). -/
def nextEntry (a : Addr) : Addr := (a + 0x20#19) &&& 0x7FFE0#19

/-- `JumpTarget` (R71): the next command address and the return register. -/
def jumpTarget (e : Entry) (a : Addr) (retAddr : Option Addr) : Addr × Option Addr :=
  match e.jp with
  | .next => (nextEntry a, retAddr)
  | .assign => (e.linkAddr, retAddr)
  | .call =>
    match retAddr with
    | none => (e.linkAddr, some (nextEntry a))
    | some r => (e.linkAddr, some r)
  | .ret =>
    match retAddr with
    | some r => (r, none)
    | none => (nextEntry a, none)

/-- The jump of an entry (R71). -/
def State.jump (s : State) (e : Entry) : State :=
  let t := jumpTarget e s.proc.cmdAddr s.ctx.retAddr
  { s with
    proc := { s.proc with cmdAddr := t.1 }
    ctx := { s.ctx with retAddr := t.2 } }

/-- The cost of a command taken from the pool and counted (R26, R73). -/
def State.charge (s : State) (c : Nat) : State :=
  { s with
    proc := { s.proc with cyclePool := s.proc.cyclePool - c, frameCycles := s.proc.frameCycles + c } }

/-- The end of a command that did not fault: jump, then cost (R65). -/
def State.finish (s : State) (i : Instr) (e : Entry) (r : DrawResult) : State :=
  (s.jump e).charge (Config.cmdCost i r)

end Sys2Proof.Machine
end

