-- ==== Sys2Proof/Machine/Flags.lean ====
section
/-! DEFINITION. The status flags (`10_state.md` R25) and the signals that are functions of the state
(`45_timing_controller.md` R175, R179). -/

namespace Sys2Proof.Machine

/-- EDSR.CEF, bit 1 (R19). -/
def State.cef (s : State) : Bool := s.regs1.edsr.getLsbD 1

/-- EDSR.BEF, bit 0 (R19). -/
def State.bef (s : State) : Bool := s.regs1.edsr.getLsbD 0

/-- EDSR with its two flags; bits 15:2 read 0 (R19). -/
def edsrWord (cef bef : Bool) : Word := 0#14 ++ bitOf cef ++ bitOf bef

/-- `EDSR.CEF <- 1` (R69). -/
def State.setCef (s : State) : State :=
  { s with regs1 := { s.regs1 with edsr := s.regs1.edsr ||| 0x0002#16 } }

/-- `EDSR.BEF <- EDSR.CEF ; EDSR.CEF <- 0` (R132). -/
def State.shiftCef (s : State) : State :=
  { s with regs1 := { s.regs1 with edsr := edsrWord false s.cef } }

/-- `proc.lastVisible <- v` (R103). -/
def State.setLastVisible (s : State) (v : Bool) : State :=
  { s with proc := { s.proc with lastVisible := v } }

/-- A change of HBLANK with its callback and hint (R170, R171, R180). -/
def State.changeHblank (s : State) (b : Bool) : State :=
  ({ s with tim := { s.tim with hblank := b } }.emit (.hBlankStateChange b)).emit .statusReadHint

/-- A change of VBLANK with its callback (R173, R175). -/
def State.changeVblank (s : State) (b : Bool) : State :=
  { s with tim := { s.tim with vblank := b } }.emit (.vBlankStateChange b)

/-! ### Signals (R175, R179) -/

/-- `NewFrameNext` (R175). -/
def Tim.newFrameNext (t : Tim) : Bool := t.vPhase == .lastLine

/-- HSYNC (R179). -/
def Tim.hsync (t : Tim) : Bool := t.hPhase == .sync

/-- VSYNC (R179). -/
def Tim.vsync (t : Tim) : Bool := t.vPhase == .blankingAndSync

/-- Display enable (R179). -/
def Tim.disp (t : Tim) : Bool := t.hPhase == .active && t.vPhase == .active

/-- Border (R179). -/
def Tim.border (t : Tim) : Bool :=
  (t.hPhase == .rightBorder || t.hPhase == .leftBorder || t.vPhase == .bottomBorder ||
    t.vPhase == .topBorder || t.vPhase == .lastLine) && !t.hsync && !t.vsync

end Sys2Proof.Machine
end

