-- ==== Sys2Proof/Machine/Control.lean ====
section
/-! DEFINITION. List control (`40_vdp1_command_control.md` R69, R70, R72): `END`, `SKIP` and the illegal codes.
Each answers the outcome of one command step after its fetch. -/

namespace Sys2Proof.Machine

/-- The outcome type of a step. -/
abbrev StepResult := Host.Outcome State Fault Refusal

/-- `result` of a command that draws nothing (R65). -/
def noPixels : DrawResult := { visited := 0, visible := false }

/-- `END` (R69): CEF set, `Idle`, two callbacks; no jump, no cost. -/
def execEnd (s : State) : StepResult :=
  .next (((s.setCef.setStatus .idle).emit .spriteDrawEnd).emit .vdp1FrameDrawn)

/-- `SKIP` (R70): only the jump and the cost. -/
def execSkip (comm : BitVec 4) (e : Entry) (s : State) : StepResult :=
  .next (s.finish (.skip comm e) e noPixels)

/-- An illegal code (R72, R187): the fault with the entry's address and CMDCTRL; no jump, no cost. -/
def State.raiseIllegal (s : State) (comm : BitVec 4) (e : Entry) : State :=
  s.raise (.illegalCommand s.proc.cmdAddr (encodeCtrl false comm e))

/-- Code 0x3 (R72). -/
def execIllegal3 (e : Entry) (s : State) : StepResult := .next (s.raiseIllegal 0x3 e)

/-- Code 0x7 (R72). -/
def execIllegal7 (e : Entry) (s : State) : StepResult := .next (s.raiseIllegal 0x7 e)

/-- Code 0xB (R72). -/
def execIllegalB (e : Entry) (s : State) : StepResult := .next (s.raiseIllegal 0xB e)

/-- Code 0xC (R72). -/
def execIllegalC (e : Entry) (s : State) : StepResult := .next (s.raiseIllegal 0xC e)

/-- Code 0xD (R72). -/
def execIllegalD (e : Entry) (s : State) : StepResult := .next (s.raiseIllegal 0xD e)

/-- Code 0xE (R72). -/
def execIllegalE (e : Entry) (s : State) : StepResult := .next (s.raiseIllegal 0xE e)

/-- Code 0xF (R72). -/
def execIllegalF (e : Entry) (s : State) : StepResult := .next (s.raiseIllegal 0xF e)

end Sys2Proof.Machine
end

