-- ==== Sys2Proof/Machine/Operands.lean ====
section
/-! DEFINITION. The operand forms of the commands: signed and clip coordinates (`30_encoding.md` R59), vertices
(`42_vdp1_draw_commands.md` R110), colour words and channels (`00_scope.md` R9), the gouraud table (R99), and the
integer laws `rdiv`, `lerp` and `clamp` (R7, R8, R106). -/

namespace Sys2Proof.Machine

/-! ### Integer laws (R7, R8) -/

/-- Rounding division: to nearest, halves away from zero; 0 when `n = 0` (R8). -/
def rdiv (a : Int) (n : Nat) : Int :=
  if n = 0 then 0 else a.sign * ((2 * (a.natAbs : Int) + n) / (2 * n))

/-- Linear interpolation with floor division; `a` when `n = 0` (R8). -/
def lerp (a b : Int) (k n : Nat) : Int :=
  if n = 0 then a else a + ((b - a) * k) / n

/-- `clamp(v, lo, hi)` (R7). -/
def clamp (v lo hi : Int) : Int := min hi (max lo v)

/-! ### Coordinates -/

/-- `sext_13` (R8, R59). -/
def sext13 (w : Word) : Int := (w.extractLsb' 0 13).toInt

/-- A clip x coordinate, `word & 0x3FF` (R59). -/
def clipX (w : Word) : BitVec 10 := w.extractLsb' 0 10

/-- A clip y coordinate, `word & 0x1FF` (R59). -/
def clipY (w : Word) : BitVec 9 := w.extractLsb' 0 9

/-- A local coordinate: the low 13 bits, read as signed (R78). -/
def localWord (w : Word) : BitVec 13 := w.extractLsb' 0 13

/-- A point of the framebuffer plane. -/
structure Point where
  x : Int
  y : Int
  deriving DecidableEq, Repr

/-- A vertex from its two words and the local offset (R110). -/
def vertex (localX localY : Int) (wx wy : Word) : Point :=
  { x := sext13 wx + localX, y := sext13 wy + localY }

/-- The pair of edges a zoom selector gives on one axis (R112). -/
def axisPair (z : ZoomSel) (a b c : Int) : Int × Int :=
  match z with
  | .twoPoint => (a, c)
  | .low => (a, a + b)
  | .centre => (a - b / 2, a + (b + 1) / 2)
  | .high => (a - b, a)

/-! ### Colour words (R9) -/

/-- Three channels. -/
structure Rgb where
  r : Int
  g : Int
  b : Int
  deriving DecidableEq, Repr

/-- `unpack` (R9). -/
def unpack (w : Word) : Rgb where
  r := (w.extractLsb' 0 5).toNat
  g := (w.extractLsb' 5 5).toNat
  b := (w.extractLsb' 10 5).toNat

/-- `pack(m, …)`: bit 15 of `m` with three channels (R9). -/
def pack (m : Word) (c : Rgb) : Word :=
  m.extractLsb' 15 1 ++ BitVec.ofInt 5 c.b ++ BitVec.ofInt 5 c.g ++ BitVec.ofInt 5 c.r

/-- A function of one channel applied to two colours channel by channel. -/
def Rgb.zip (f : Int → Int → Int) (a b : Rgb) : Rgb where
  r := f a.r b.r
  g := f a.g b.g
  b := f a.b b.b

/-- `Lerp3` (R99). -/
def lerp3 (a b : Rgb) (k n : Nat) : Rgb := Rgb.zip (fun x y => lerp x y k n) a b

/-- `CC[2] = 1`: the command uses the gouraud table (R60, R99). -/
def usesGouraud : CalcMode → Bool
  | .replace => false
  | .shadow => false
  | .halfLuminance => false
  | .halfTransparency => false
  | .gouraud => true
  | .reserved5 => true
  | .gouraudHalfLuminance => true
  | .gouraudHalfTransparency => true

/-- The four corner colours of a command (R99). -/
structure Corners where
  a : Rgb
  b : Rgb
  c : Rgb
  d : Rgb
  deriving DecidableEq, Repr

/-- No gouraud value: never read when `CC[2] = 0` (R98). -/
def noShade : Rgb := { r := 0, g := 0, b := 0 }

/-- The gouraud table of a command, read when `CC[2] = 1` (R60, R99). -/
def gouraudTable (vram1 : Memory) (e : Entry) : Corners :=
  if usesGouraud e.pmod.cc then
    let w (k : Nat) : Rgb := unpack (vram1.read16 Space.vram1.size (e.grdAddr.toNat + 2 * k))
    { a := w 0, b := w 1, c := w 2, d := w 3 }
  else
    { a := noShade, b := noShade, c := noShade, d := noShade }

end Sys2Proof.Machine
end

