-- ==== Sys2Proof/Machine/Context.lean ====
section
/-! DEFINITION. The context commands (`40_vdp1_command_control.md` R76 to R78). The context is written before the
jump (R71); the clip coordinates are absolute and unsigned (R59). -/

namespace Sys2Proof.Machine

/-- The four user-clip registers (R76). -/
def State.setUserClip (s : State) (x0 : BitVec 10) (y0 : BitVec 9) (x1 : BitVec 10) (y1 : BitVec 9) : State :=
  { s with
    ctx := { s.ctx with userX0 := some x0, userY0 := some y0, userX1 := some x1, userY1 := some y1 } }

/-- The two system-clip registers (R77). -/
def State.setSysClip (s : State) (h : BitVec 10) (v : BitVec 9) : State :=
  { s with ctx := { s.ctx with sysClipH := some h, sysClipV := some v } }

/-- The two local coordinates (R78). -/
def State.setLocal (s : State) (x y : BitVec 13) : State :=
  { s with ctx := { s.ctx with localX := some x, localY := some y } }

/-- `UCLP` (R76). -/
def execUclp (e : Entry) (s : State) : StepResult :=
  .next ((s.setUserClip (clipX e.xa) (clipY e.ya) (clipX e.xc) (clipY e.yc)).finish (.uclp e) e noPixels)

/-- `SCLP` (R77). -/
def execSclp (e : Entry) (s : State) : StepResult :=
  .next ((s.setSysClip (clipX e.xc) (clipY e.yc)).finish (.sclp e) e noPixels)

/-- `LCRD` (R78). -/
def execLcrd (e : Entry) (s : State) : StepResult :=
  .next ((s.setLocal (localWord e.xa) (localWord e.ya)).finish (.lcrd e) e noPixels)

end Sys2Proof.Machine
end

