-- ==== Sys2Proof/Machine/Raster.lean ====
section
/-! DEFINITION. The pixel pipeline shared by the six draw commands (`41_vdp1_pixel_pipeline.md` R85 to R105,
`20_memory.md` R37). It maps the draw framebuffer to the draw framebuffer and only reads VRAM1, so that a draw
command can change no other memory (R118). -/

namespace Sys2Proof.Machine

/-! ### Framebuffer geometry (R37) -/

/-- Width and height in pixels, bits per pixel. -/
structure Geometry where
  width : Nat
  height : Nat
  bpp : Nat
  deriving DecidableEq, Repr

/-- The geometry a TVM value selects; none for the reserved values 5 to 7 (R37). -/
def geometry (tvm : BitVec 3) : Option Geometry :=
  match tvm.toNat with
  | 0 => some { width := 512, height := 256, bpp := 16 }
  | 1 => some { width := 1024, height := 256, bpp := 8 }
  | 2 => some { width := 512, height := 256, bpp := 16 }
  | 3 => some { width := 512, height := 512, bpp := 8 }
  | 4 => some { width := 512, height := 256, bpp := 16 }
  | _ => none

/-- The size of each framebuffer (R5). -/
def fbSize : Nat := 0x40000

/-- `FbAddr(x, y)` (R37). -/
def Geometry.addr (g : Geometry) (x y : Nat) : Nat :=
  if g.bpp = 16 then (y * g.width + x) * 2 % fbSize else (y * g.width + x) % fbSize

/-- `lineWords`, the 16-bit cells of a line (R37). -/
def Geometry.lineWords (g : Geometry) : Nat := g.width * g.bpp / 16

/-! ### What a draw command reads -/

/-- The user clip area (R23). -/
structure UserClip where
  x0 : Int
  y0 : Int
  x1 : Int
  y1 : Int
  deriving DecidableEq, Repr

/-- All that a draw command reads besides the draw framebuffer. `user` is read only when `Clip = 1` (R87). -/
structure DrawEnv where
  e : Entry
  localX : Int
  localY : Int
  sysH : Int
  sysV : Int
  user : UserClip
  geom : Geometry
  die : Bool
  dil : Bool
  vram1 : Memory
  deriving DecidableEq, Repr

/-- The first context register a draw command needs and finds unset, in the order R85 names them. -/
def firstUnset (c : Ctx) (clip : Bool) : Option CtxReg :=
  if c.localX = none then some .localX
  else if c.localY = none then some .localY
  else if c.sysClipH = none then some .sysClipH
  else if c.sysClipV = none then some .sysClipV
  else if clip && c.userX0 == none then some .userX0
  else if clip && c.userY0 == none then some .userY0
  else if clip && c.userX1 == none then some .userX1
  else if clip && c.userY1 == none then some .userY1
  else none

/-- The colour modes of R90 that fault in a textured command. -/
def reservedColour : ColourMode → Bool
  | .reserved6 => true
  | .reserved7 => true
  | _ => false

/-- The environment of a draw command whose prologue has found nothing (R85). -/
def drawEnv (s : State) (e : Entry) (g : Geometry) : DrawEnv where
  e := e
  localX := (s.ctx.localX.getD 0).toInt
  localY := (s.ctx.localY.getD 0).toInt
  sysH := ((s.ctx.sysClipH.getD 0).toNat : Int)
  sysV := ((s.ctx.sysClipV.getD 0).toNat : Int)
  user :=
    { x0 := ((s.ctx.userX0.getD 0).toNat : Int)
      y0 := ((s.ctx.userY0.getD 0).toNat : Int)
      x1 := ((s.ctx.userX1.getD 0).toNat : Int)
      y1 := ((s.ctx.userY1.getD 0).toNat : Int) }
  geom := g
  die := s.die
  dil := s.dil
  vram1 := s.vram1

/-- The prologue of every draw command: the first fault that applies, or the environment (R85). -/
def prologue (textured : Bool) (e : Entry) (s : State) : Except CmdFault DrawEnv :=
  match firstUnset s.ctx e.pmod.clip with
  | some reg => .error (.unsetContext s.proc.cmdAddr reg)
  | none =>
    match geometry s.tvm with
    | none => .error (.reservedFbMode s.proc.cmdAddr s.tvm)
    | some g =>
      if textured && reservedColour e.pmod.cm then
        .error (.reservedColourMode s.proc.cmdAddr (encodePmod e.pmod))
      else if e.pmod.cc = .reserved5 then
        .error (.reservedColourCalc s.proc.cmdAddr (encodePmod e.pmod))
      else .ok (drawEnv s e g)

/-! ### PlotPixel (R86 to R89, R100 to R102) -/

/-- `InSysClip` (R86). -/
def DrawEnv.inSysClip (v : DrawEnv) (p : Point) : Bool :=
  decide (0 ≤ p.x) && decide (p.x ≤ v.sysH) && decide (0 ≤ p.y) && decide (p.y ≤ v.sysV)

/-- The inside test of user clipping (R87). -/
def DrawEnv.inUserClip (v : DrawEnv) (p : Point) : Bool :=
  decide (v.user.x0 ≤ p.x) && decide (p.x ≤ v.user.x1) &&
    decide (v.user.y0 ≤ p.y) && decide (p.y ≤ v.user.y1)

/-- `UserClipPass`, true when user clipping is off (R86, R87). -/
def DrawEnv.userPass (v : DrawEnv) (p : Point) : Bool :=
  !v.e.pmod.clip || (v.inUserClip p != v.e.pmod.cmod)

/-- The mesh test, true when mesh is off (R88). -/
def DrawEnv.meshPass (v : DrawEnv) (p : Point) : Bool :=
  !v.e.pmod.mesh || decide ((p.x + p.y) % 2 = 0)

/-- The double-interlace test, true when it is off (R89). -/
def DrawEnv.linePass (v : DrawEnv) (p : Point) : Bool :=
  !v.die || decide (p.y % 2 = if v.dil then 1 else 0)

/-- All the tests of `PlotPixel` (R86). -/
def DrawEnv.plots (v : DrawEnv) (p : Point) : Bool :=
  v.inSysClip p && v.userPass p && v.meshPass p && v.linePass p

/-- The framebuffer line a pixel is stored at (R89). -/
def DrawEnv.storedLine (v : DrawEnv) (y : Int) : Int := if v.die then y / 2 else y

/-- The framebuffer offset a pixel is stored at (R37, R89). -/
def DrawEnv.pixelAddr (v : DrawEnv) (p : Point) : Nat :=
  v.geom.addr p.x.toNat (v.storedLine p.y).toNat

/-- The gouraud addition `clamp(s + g − 16, 0, 31)` on each channel (R100). -/
def shade (s g : Rgb) : Rgb := Rgb.zip (fun a b => clamp (a + b - 16) 0 31) s g

/-- Each channel halved (R100). -/
def halve (c : Rgb) : Rgb := Rgb.zip (fun a _ => a / 2) c c

/-- The mean of two colours, rounded down (R100). -/
def mean (a b : Rgb) : Rgb := Rgb.zip (fun x y => (x + y) / 2) a b

/-- Colour calculation: the datum to write, or none for "no write" (R100). The prologue keeps the reserved
mode out (R85). -/
def colourCalc (cc : CalcMode) (src dst : Word) (g : Rgb) : Option Word :=
  let s := unpack src
  let d := unpack dst
  match cc with
  | .replace => some src
  | .shadow => if dst.getLsbD 15 then some (pack dst (halve d)) else none
  | .halfLuminance => some (pack src (halve s))
  | .halfTransparency => if dst.getLsbD 15 then some (pack src (mean s d)) else some src
  | .gouraud => some (pack src (shade s g))
  | .reserved5 => none
  | .gouraudHalfLuminance => some (pack src (halve (shade s g)))
  | .gouraudHalfTransparency =>
    if dst.getLsbD 15 then some (pack src (mean (shade s g) d)) else some (pack src (shade s g))

/-- The datum the 16-bpp write stores (R101). -/
def writeDatum (m : DrawMode) (src dst : Word) (g : Rgb) : Option Word :=
  if m.mon then some (dst ||| 0x8000#16) else colourCalc m.cc src dst g

/-- `Write16bpp` (R101). -/
def write16bpp (v : DrawEnv) (fb : Memory) (p : Point) (src : Word) (g : Rgb) : Memory :=
  match writeDatum v.e.pmod src (fb.read16 fbSize (v.pixelAddr p)) g with
  | some out => fb.write16 fbSize (v.pixelAddr p) out
  | none => fb

/-- `Write8bpp` (R102). -/
def write8bpp (v : DrawEnv) (fb : Memory) (p : Point) (src : Word) : Memory :=
  fb.write8 fbSize (v.pixelAddr p) (src.extractLsb' 0 8)

/-- `PlotPixel` (R86). -/
def plotPixel (v : DrawEnv) (fb : Memory) (p : Point) (src : Word) (g : Rgb) : Memory :=
  if v.plots p then
    if v.geom.bpp = 16 then write16bpp v fb p src g else write8bpp v fb p src
  else fb

/-! ### Texels (R90 to R94) -/

/-- The texel as fetched (R91), its end code and its colour (R90, R92). -/
def texel (v : DrawEnv) (x y : Nat) : Nat :=
  let base := v.e.srcAddr.toNat
  let idx := y * v.e.texW + x
  match v.e.pmod.cm with
  | .bank16 | .lut16 =>
    let b := v.vram1.read8 Space.vram1.size (base + idx / 2)
    if idx % 2 = 0 then (b.extractLsb' 4 4).toNat else (b.extractLsb' 0 4).toNat
  | .bank64 | .bank128 | .bank256 => (v.vram1.read8 Space.vram1.size (base + idx)).toNat
  | .direct | .reserved6 | .reserved7 => (v.vram1.read16 Space.vram1.size (base + idx * 2)).toNat

/-- The end code of a colour mode (R90). -/
def endCode : ColourMode → Nat
  | .bank16 => 0xF
  | .lut16 => 0xF
  | .bank64 => 0xFF
  | .bank128 => 0xFF
  | .bank256 => 0xFF
  | .direct => 0x7FFF
  | .reserved6 => 0x7FFF
  | .reserved7 => 0x7FFF

/-- `Colour(e, t)` (R92). -/
def texelColour (v : DrawEnv) (t : Nat) : Word :=
  let w : Word := BitVec.ofNat 16 t
  match v.e.pmod.cm with
  | .bank16 => (v.e.colr &&& 0xFFF0#16) ||| w
  | .lut16 => v.vram1.read16 Space.vram1.size (v.e.colr.toNat * 8 + t * 2)
  | .bank64 => (v.e.colr &&& 0xFFC0#16) ||| (w &&& 0x003F#16)
  | .bank128 => (v.e.colr &&& 0xFF80#16) ||| (w &&& 0x007F#16)
  | .bank256 => (v.e.colr &&& 0xFF00#16) ||| w
  | .direct | .reserved6 | .reserved7 => w

/-- Whether a texel is an honoured end code (R94). -/
def DrawEnv.isEnd (v : DrawEnv) (t : Nat) : Bool := !v.e.pmod.ecd && t == endCode v.e.pmod.cm

/-- Whether a texel is transparent (R93, R94). -/
def DrawEnv.isTransparent (v : DrawEnv) (t : Nat) : Bool := v.isEnd t || (!v.e.pmod.spd && t == 0)

/-! ### Steppers (R95 to R97) -/

/-- `max(|dx|, |dy|)`, the number of steps of a line (R95). -/
def steps (p q : Point) : Nat := max (q.x - p.x).natAbs (q.y - p.y).natAbs

/-- Point `j` of `n` on the way from `p` to `q` (R95, R104). -/
def linePoint (p q : Point) (j n : Nat) : Point where
  x := p.x + rdiv ((q.x - p.x) * j) n
  y := p.y + rdiv ((q.y - p.y) * j) n

/-- Whether a line is x-major (R95). -/
def xMajor (p q : Point) : Bool := decide ((q.y - p.y).natAbs ≤ (q.x - p.x).natAbs)

/-- `AaPoint` (R96). -/
def aaPoint (prev p : Point) (xmajor : Bool) : Point :=
  if xmajor then { x := p.x, y := prev.y } else { x := prev.x, y := p.y }

/-- The texture stepper: position `j` of `m` over `size` texels, mirrored on demand (R97). -/
def texCoord (flip : Bool) (size j m : Nat) : Nat :=
  if flip then size - 1 - j * size / m else j * size / m

/-! ### DrawLine (R98) -/

/-- The arguments of one `DrawLine` (R98). -/
structure LineSpec where
  p : Point
  q : Point
  /-- the texture row, none for untextured drawing -/
  tex : Option Nat
  g0 : Rgb
  g1 : Rgb
  aa : Bool
  deriving DecidableEq, Repr

/-- What `DrawLine` carries from pixel to pixel (R98). -/
structure LineAcc where
  fb : Memory
  visited : Nat
  visible : Bool
  endCount : Nat
  prevU : Option Nat
  prev : Option Point
  deriving DecidableEq, Repr

/-- The AA pixel of a step, if the step has one (R96); also where every visited pixel of the command is clipped (R117,
log 20). -/
def plotAa (v : DrawEnv) (l : LineSpec) (fb : Memory) (prev : Option Point) (p : Point) (src : Word) (g : Rgb) :
    Memory :=
  match prev with
  | some q =>
    if l.aa && q.x != p.x && q.y != p.y then plotPixel v fb (aaPoint q p (xMajor l.p l.q)) src g else fb
  | none => fb

/-- A pixel that does not end its line: the visible flag, then the AA pixel and the pixel unless transparent (R98). -/
def linePixel (v : DrawEnv) (l : LineSpec) (p : Point) (src : Word) (g : Rgb) (transparent : Bool) (a : LineAcc) :
    LineAcc :=
  { a with
    fb := if transparent then a.fb else plotPixel v (plotAa v l a.fb a.prev p src g) p src g
    visited := a.visited + 1
    visible := a.visible || v.inSysClip p
    prev := some p }

/-- The gouraud value of pixel `j` of `n` (R98, R99). -/
def lineShade (v : DrawEnv) (l : LineSpec) (j n : Nat) : Rgb :=
  if usesGouraud v.e.pmod.cc then lerp3 l.g0 l.g1 j n else noShade

/-- Whether a texel in column `u` is counted as an end code: a column counts once (R94). -/
def DrawEnv.countsEnd (v : DrawEnv) (a : LineAcc) (u t : Nat) : Bool := v.isEnd t && a.prevU != some u

/-- The end-code count after a texel (R94, R98). -/
def DrawEnv.endCountAfter (v : DrawEnv) (a : LineAcc) (u t : Nat) : Nat :=
  a.endCount + if v.countsEnd a u t then 1 else 0

/-- Whether a texel is the second end code that counts, which ends its line (R94, R98). -/
def DrawEnv.endsLine (v : DrawEnv) (a : LineAcc) (u t : Nat) : Bool := v.countsEnd a u t && v.endCountAfter a u t == 2

/-- One textured pixel: whether it ends the line, and the result (R98). The pixel that ends the line is visited and
nothing else. -/
def texturedStep (v : DrawEnv) (l : LineSpec) (row j n : Nat) (a : LineAcc) : Bool × LineAcc :=
  let u := j * v.e.texW / (n + 1)
  let t := texel v (texCoord v.e.dirH v.e.texW j (n + 1)) row
  if v.endsLine a u t then
    (true, { a with visited := a.visited + 1, endCount := v.endCountAfter a u t })
  else
    (false, linePixel v l (linePoint l.p l.q j n) (texelColour v t) (lineShade v l j n) (v.isTransparent t)
      { a with endCount := v.endCountAfter a u t, prevU := some u })

/-- One pixel of a line: whether it ends the line, and the result (R98). -/
def lineStep (v : DrawEnv) (l : LineSpec) (j n : Nat) (a : LineAcc) : Bool × LineAcc :=
  match l.tex with
  | some row => texturedStep v l row j n a
  | none => (false, linePixel v l (linePoint l.p l.q j n) v.e.colr (lineShade v l j n) false a)

/-- Pixels `j`, `j + 1`, … of a line, `k` of them at most (R98). -/
def lineLoop (v : DrawEnv) (l : LineSpec) (n : Nat) : (k j : Nat) → LineAcc → LineAcc
  | 0, _, a => a
  | k + 1, j, a =>
    let r := lineStep v l j n a
    if r.1 then r.2 else lineLoop v l n k (j + 1) r.2

/-- The result of drawing: the framebuffer and what R103 reports. -/
structure Drawn where
  fb : Memory
  result : DrawResult
  deriving DecidableEq, Repr

/-- `DrawLine` (R98). -/
def drawLine (v : DrawEnv) (l : LineSpec) (fb : Memory) : Drawn :=
  let n := steps l.p l.q
  let a := lineLoop v l n (n + 1) 0
    { fb := fb, visited := 0, visible := false, endCount := 0, prevU := none, prev := none }
  { fb := a.fb, result := { visited := a.visited, visible := a.visible } }

/-- A further line drawn after what is drawn already; counts add and flags combine (R103). -/
def Drawn.andLine (v : DrawEnv) (d : Drawn) (l : LineSpec) : Drawn :=
  let r := drawLine v l d.fb
  { fb := r.fb
    result := { visited := d.result.visited + r.result.visited, visible := d.result.visible || r.result.visible } }

/-- Nothing drawn yet. -/
def nothingDrawn (fb : Memory) : Drawn := { fb := fb, result := { visited := 0, visible := false } }

/-! ### FillQuad (R104) -/

/-- Four vertices in order around the figure (R104). -/
structure Quad where
  a : Point
  b : Point
  c : Point
  d : Point
  deriving DecidableEq, Repr

/-- `Ns`: the steps of the longer edge (R104). -/
def Quad.steps (q : Quad) : Nat := max (Machine.steps q.a q.d) (Machine.steps q.b q.c)

/-- Line `i` of a fill (R104). -/
def Quad.line (q : Quad) (v : DrawEnv) (t : Corners) (textured : Bool) (i : Nat) : LineSpec where
  p := linePoint q.a q.d i q.steps
  q := linePoint q.b q.c i q.steps
  tex := if textured then some (texCoord v.e.dirV v.e.texH i (q.steps + 1)) else none
  g0 := lerp3 t.a t.d i q.steps
  g1 := lerp3 t.b t.c i q.steps
  aa := true

/-- Lines `i`, `i + 1`, … of a fill, `k` of them (R104). -/
def fillLoop (v : DrawEnv) (q : Quad) (t : Corners) (textured : Bool) : (k i : Nat) → Drawn → Drawn
  | 0, _, d => d
  | k + 1, i, d => fillLoop v q t textured k (i + 1) (d.andLine v (q.line v t textured i))

/-- `FillQuad` (R104). -/
def fillQuad (v : DrawEnv) (q : Quad) (textured : Bool) (fb : Memory) : Drawn :=
  fillLoop v q (gouraudTable v.vram1 v.e) textured (q.steps + 1) 0 (nothingDrawn fb)

/-! ### The frame of a draw command -/

/-- A draw command: the prologue's fault (R85, R187), or the drawing stored in the draw framebuffer, `lastVisible`,
the jump and the cost (R65, R103). -/
def runDraw (textured : Bool) (i : Instr) (e : Entry) (draw : DrawEnv → Memory → Drawn) (s : State) : State :=
  match prologue textured e s with
  | .error f => s.raise f
  | .ok v =>
    let d := draw v (s.mem s.drawSpace)
    ((s.setMem s.drawSpace d.fb).setLastVisible d.result.visible).finish i e d.result

/-- A textured fill, or nothing when the texture has no texel (R110). -/
def textureQuad (quad : DrawEnv → Quad) (v : DrawEnv) (fb : Memory) : Drawn :=
  if v.e.texW = 0 ∨ v.e.texH = 0 then nothingDrawn fb else fillQuad v (quad v) true fb

/-- The axis-aligned rectangle `l..r` by `t..b` as a quadrilateral (R105). -/
def rectQuad (l t r b : Int) : Quad where
  a := { x := l, y := t }
  b := { x := r, y := t }
  c := { x := r, y := b }
  d := { x := l, y := b }

/-- The quadrilateral of the four vertices of the entry (R110). -/
def entryQuad (v : DrawEnv) : Quad where
  a := vertex v.localX v.localY v.e.xa v.e.ya
  b := vertex v.localX v.localY v.e.xb v.e.yb
  c := vertex v.localX v.localY v.e.xc v.e.yc
  d := vertex v.localX v.localY v.e.xd v.e.yd

/-- An untextured line of the entry, without AA pixels (R115, R116). -/
def plainLine (p q : Point) (g0 g1 : Rgb) : LineSpec where
  p := p
  q := q
  tex := none
  g0 := g0
  g1 := g1
  aa := false

end Sys2Proof.Machine
end

