-- ==== Sys2Proof/Machine/Polygons.lean ====
section
/-! DEFINITION. The untextured draw commands (`42_vdp1_draw_commands.md` R114 to R116). -/

namespace Sys2Proof.Machine

/-- The four edges of a polyline, in order (R115). -/
def drawOutline (v : DrawEnv) (fb : Memory) : Drawn :=
  let q := entryQuad v
  let t := gouraudTable v.vram1 v.e
  ((((nothingDrawn fb).andLine v (plainLine q.a q.b t.a t.b)).andLine v (plainLine q.b q.c t.b t.c)).andLine v
    (plainLine q.c q.d t.c t.d)).andLine v (plainLine q.d q.a t.d t.a)

/-- The line from A to B (R116). -/
def drawSegment (v : DrawEnv) (fb : Memory) : Drawn :=
  let q := entryQuad v
  let t := gouraudTable v.vram1 v.e
  drawLine v (plainLine q.a q.b t.a t.b) fb

/-- `POLY` (R114). -/
def execPoly (e : Entry) (s : State) : StepResult :=
  .next (runDraw false (.poly e) e (fun v fb => fillQuad v (entryQuad v) false fb) s)

/-- `PLIN` (R115). -/
def execPlin (e : Entry) (s : State) : StepResult :=
  .next (runDraw false (.plin e) e drawOutline s)

/-- `LINE` (R116). -/
def execLine (e : Entry) (s : State) : StepResult :=
  .next (runDraw false (.line e) e drawSegment s)

end Sys2Proof.Machine
end

