-- ==== Sys2Proof/Machine/Sprites.lean ====
section
/-! DEFINITION. The textured draw commands (`42_vdp1_draw_commands.md` R111 to R113). -/

namespace Sys2Proof.Machine

/-- The rectangle of a normal sprite: the texture's size at vertex A (R111). -/
def normalQuad (v : DrawEnv) : Quad :=
  let a := vertex v.localX v.localY v.e.xa v.e.ya
  rectQuad a.x a.y (a.x + v.e.texW - 1) (a.y + v.e.texH - 1)

/-- The rectangle of a scaled sprite (R112). -/
def scaledQuad (v : DrawEnv) : Quad :=
  let h := axisPair v.e.zoomX (sext13 v.e.xa) (sext13 v.e.xb) (sext13 v.e.xc)
  let w := axisPair v.e.zoomY (sext13 v.e.ya) (sext13 v.e.yb) (sext13 v.e.yc)
  rectQuad (h.1 + v.localX) (w.1 + v.localY) (h.2 + v.localX) (w.2 + v.localY)

/-- `NSPR` (R111). -/
def execNspr (e : Entry) (s : State) : StepResult :=
  .next (runDraw true (.nspr e) e (textureQuad normalQuad) s)

/-- `SSPR` (R112). -/
def execSspr (e : Entry) (s : State) : StepResult :=
  .next (runDraw true (.sspr e) e (textureQuad scaledQuad) s)

/-- `DSPR` (R113). -/
def execDspr (e : Entry) (s : State) : StepResult :=
  .next (runDraw true (.dspr e) e (textureQuad entryQuad) s)

end Sys2Proof.Machine
end

