-- ==== Sys2Proof/Machine/Dispatch.lean ====
section
/-! DEFINITION. The meaning of every command, one arm for each constructor of `Instr`. -/

namespace Sys2Proof.Machine

def exec (i : Instr) (s : State) : Host.Outcome State Fault Refusal :=
  match i with
  | .endList => Sys2Proof.Machine.execEnd s
  | .skip comm e => Sys2Proof.Machine.execSkip comm e s
  | .nspr e => Sys2Proof.Machine.execNspr e s
  | .sspr e => Sys2Proof.Machine.execSspr e s
  | .dspr e => Sys2Proof.Machine.execDspr e s
  | .illegal3 e => Sys2Proof.Machine.execIllegal3 e s
  | .poly e => Sys2Proof.Machine.execPoly e s
  | .plin e => Sys2Proof.Machine.execPlin e s
  | .line e => Sys2Proof.Machine.execLine e s
  | .illegal7 e => Sys2Proof.Machine.execIllegal7 e s
  | .uclp e => Sys2Proof.Machine.execUclp e s
  | .sclp e => Sys2Proof.Machine.execSclp e s
  | .lcrd e => Sys2Proof.Machine.execLcrd e s
  | .illegalB e => Sys2Proof.Machine.execIllegalB e s
  | .illegalC e => Sys2Proof.Machine.execIllegalC e s
  | .illegalD e => Sys2Proof.Machine.execIllegalD e s
  | .illegalE e => Sys2Proof.Machine.execIllegalE e s
  | .illegalF e => Sys2Proof.Machine.execIllegalF e s

end Sys2Proof.Machine
end

