-- ==== Sys2Proof/Machine/Compositor.lean ====
section
/-! DEFINITION. The VDP2 scanline compositor (`44_vdp2_compositor.md` R145 to R160). It writes nothing but `cmp`
(R160). Memory contents are handed to the open parameters as functions of the byte offset. -/

namespace Sys2Proof.Machine

/-- A memory's contents, wrapped (R33). -/
def State.content (s : State) (sp : Space) : Nat → Byte := fun a => s.memRead8 sp a

/-- A big-endian word of a memory's contents, at an even offset (R34, R35). -/
def contentWord (content : Nat → Byte) (a : Nat) : Word := content (a / 2 * 2) ++ content (a / 2 * 2 + 1)

/-- Bytes of a memory's contents at consecutive offsets. -/
def contentBytes (content : Nat → Byte) (a n : Nat) : List Byte := (List.range n).map fun k => content (a + k)

/-! ### Output lines -/

/-- `OutLine(y)` (R156). -/
def outLine (t : Tim) (y : Nat) : Nat :=
  if t.resCur.interlace = .double then 2 * y + (if t.field then 1 else 0) else y

/-! ### Windows (R149) -/

/-- `InWin(k, x, y)` for a coordinate window (R149). -/
def inWindow (w : Window) (x y : Nat) (vram2 : Nat → Byte) : Bool :=
  match w with
  | .rectangle xs ys xe ye => decide (xs ≤ x) && decide (x ≤ xe) && decide (ys ≤ y) && decide (y ≤ ye)
  | .lineTable a ys ye =>
    let p := Config.lineTablePair a y vram2
    decide (ys ≤ y) && decide (y ≤ ye) && decide (p.1 ≤ x) && decide (x ≤ p.2)

/-- `Term(ws, w, x, y)` (R149). -/
def windowTerm (u : WindowUse) (inside : Bool) : Bool := inside == (u.area == .inside)

/-- `WindowMask` from the three inside tests (R149). -/
def windowMask (ws : WindowSet) (in0 in1 inSw : Bool) : Bool :=
  let enabled := [(ws.w0, in0), (ws.w1, in1), (ws.sw, inSw)].filter fun u => u.1.enabled
  if enabled.isEmpty then false
  else
    match ws.logic with
    | .or => enabled.any fun u => windowTerm u.1 u.2
    | .and => enabled.all fun u => windowTerm u.1 u.2

/-! ### Colour RAM (R158) -/

/-- `CramMap` (R6, R158): `i * 2` for 16-bit entries in the linear mode; injective in every mode. -/
def cramMap (mode : CramMode) (i : Config.CramIndex) : Nat :=
  if mode = .linear ∧ Config.cramEntryBytes mode = 2 then i.val * 2 else (Config.cramMapFree mode i).val

/-- The colour of a colour-RAM entry (R158). -/
def cramEntry (mode : CramMode) (i : Config.CramIndex) (cram : Nat → Byte) : Rgb888 :=
  Config.cramColour mode (contentBytes cram (cramMap mode i) (Config.cramEntryBytes mode))

/-! ### Back and line colour (R155) -/

/-- The address in VRAM2 of a source's colour for a line: the one of the whole screen, or that of the line. -/
def ColourSource.addrAt (src : ColourSource) (y : Nat) : Nat :=
  if src.perLine then Config.perLineAddr src.addr y else src.addr

/-- `Fallback` (R155): the back-screen colour of a line, read from VRAM2. -/
def backColour (cfg : Vdp2Config) (y : Nat) (vram2 : Nat → Byte) : Rgb888 :=
  Config.backColourOf (contentBytes vram2 (cfg.backColor.addrAt y) Config.backColourBytes)

/-- `LineColour` (R155): a source in VRAM2 likewise, through colour RAM. -/
def lineColour (cfg : Vdp2Config) (y : Nat) (vram2 cram : Nat → Byte) : Rgb888 :=
  cramEntry cfg.cramMode
    (Config.lineColourIndex (contentBytes vram2 (cfg.lineColor.addrAt y) Config.lineColourBytes)) cram

/-! ### Layers -/

/-- `SpriteDecode` (R6, R151): datum 0 is transparent and outside the sprite window. -/
def spriteDecode (ctl : ParamBlock) (datum : Nat) : LayerPx × Bool :=
  let p := Config.spriteDecodeFree ctl datum
  if datum = 0 then ({ p.1 with transparent := true }, false) else p

/-- The framebuffer column of output column `x` (R151). -/
def spriteColumn (s : State) (x : Nat) : Nat :=
  match s.tim.resCur.h with
  | .h640 | .h704 => if s.tvm = 1 then x else x / 2
  | _ => x

/-- The datum of the sprite layer at `(x, y)`; 0, which is transparent, where TVM is reserved (R151, U5). -/
def spriteDatum (s : State) (x y : Nat) : Nat :=
  match geometry s.tvm with
  | none => 0
  | some g =>
    if g.bpp = 16 then (s.memRead16 s.displaySpace (g.addr (spriteColumn s x) y)).toNat
    else (s.memRead8 s.displaySpace (g.addr (spriteColumn s x) y)).toNat

/-- A dot's colour by the layer's format (R152, R158). -/
def dotColour (cfg : Vdp2Config) (fmt : ColourFormat) (d : Config.Dot) (cram : Nat → Byte) : Rgb888 :=
  match fmt with
  | .pal16 | .pal256 | .pal2048 => cramEntry cfg.cramMode d.index cram
  | .rgb555 | .rgb888 => Config.directColour fmt d.value

/-- The 16-bit words of a pattern-name entry (R157). -/
def CharMode.words : CharMode → Nat
  | .twoWord => 2
  | .oneWordStandard => 1
  | .oneWordExtended => 1

/-- The cells of a character along each axis (R157). -/
def CharSize.cells : CharSize → Nat
  | .one => 1
  | .two => 2

/-- The dots of a character along each axis: a cell is 8 by 8 dots (R157). -/
def CharSize.dots (size : CharSize) : Nat := 8 * size.cells

/-- The pattern-name entry of the character at a column and row, read from VRAM2 (R157). -/
def readPatternName (l : BgLayer) (bg : BgParams) (mode : CharMode) (size : CharSize) (fmt : ColourFormat)
    (cx cy : Int) (vram2 : Nat → Byte) : Config.PatternName :=
  Config.patternName l bg mode size fmt
    ((List.range mode.words).map fun k => contentWord vram2 (Config.patternNameAddr l bg mode size cx cy + 2 * k))

/-- The place of a coordinate in its character (R157). -/
def charPos (size : CharSize) (p : Int × Int) : Config.CharPos where
  cellX := (p.1 % size.dots).toNat / 8
  cellY := (p.2 % size.dots).toNat / 8
  dotX := (p.1 % size.dots).toNat % 8
  dotY := (p.2 % size.dots).toNat % 8

/-- A dot fetched through the character path: the pattern-name entry, then the dot of a cell of its character
(R157). -/
def charDot (l : BgLayer) (bg : BgParams) (mode : CharMode) (size : CharSize) (fmt : ColourFormat) (p : Int × Int)
    (vram2 : Nat → Byte) : Config.Dot :=
  Config.cellDot l bg size fmt (readPatternName l bg mode size fmt (p.1 / size.dots) (p.2 / size.dots) vram2)
    (charPos size p) vram2

/-- The dot fetch through the character path or the bitmap path, which bypasses character lookup (R157). -/
def fetchDot (l : BgLayer) (bg : BgParams) (fmt : ColourFormat) (p : Int × Int) (vram2 : Nat → Byte) : Config.Dot :=
  match bg.plane with
  | .cell mode size => charDot l bg mode size fmt p vram2
  | .bitmap => Config.bitmapDot l bg fmt p vram2

/-- A pixel from a fetched dot: colour, priority, transparency, special colour calculation (R152). -/
def dotPixel (cfg : Vdp2Config) (l : BgLayer) (bg : BgParams) (fmt : ColourFormat) (d : Config.Dot)
    (cram : Nat → Byte) : LayerPx where
  color := dotColour cfg fmt d cram
  priority := Config.dotPriority l bg d cram
  transparent := d.value == 0 && !bg.zeroIsOpaque
  specialCC := Config.dotSpecialCC l bg d cram

/-- The coordinate step of a background: affine for RBG, linear scroll for NBG (R152). -/
def layerCoord (l : BgLayer) (bg : BgParams) (rotTab : ParamBlock) (selB : Bool) (x y : Nat) (vram2 : Nat → Byte) :
    Int × Int :=
  match l with
  | .rbg0 | .rbg1 => Config.rotCoord l bg rotTab selB x y
  | .nbg0 | .nbg1 | .nbg2 | .nbg3 => Config.scrollCoord l bg x y vram2

/-- `LayerPixel` (R6, R152), in the steps of log 11. -/
def layerPixel (l : BgLayer) (cfg : Vdp2Config) (rotTab : ParamBlock) (selB : Bool) (x y : Nat)
    (vram2 cram : Nat → Byte) : LayerPx :=
  let bg := cfg.bg.get l
  let fmt := cfg.format.get l
  dotPixel cfg l bg fmt (fetchDot l bg fmt (layerCoord l bg rotTab selB x y vram2) vram2) cram

/-! ### Composition (R154, R155) -/

/-- The layers in tie-break order (R154). -/
def layerOrder : List Layer :=
  [.sprite, .bg .rbg0, .bg .rbg1, .bg .nbg0, .bg .nbg1, .bg .nbg2, .bg .nbg3]

/-- `cand`: the layers that contribute at a pixel (R154). -/
def candidates (en : LayerTable Bool) (px : Layer → LayerPx) (masked : Layer → Bool) : List Layer :=
  layerOrder.filter fun l =>
    en.get l && !(px l).transparent && !masked l && decide (1 ≤ (px l).priority.toNat)

/-- `ranked`: the candidates by priority 7 down to 1, in tie-break order (R154). -/
def ranked (px : Layer → LayerPx) (cand : List Layer) : List Layer :=
  [7, 6, 5, 4, 3, 2, 1].flatMap fun p => cand.filter fun l => (px l).priority.toNat == p

/-- `Blend` (R6, R154): the top colour unchanged where colour calculation is disabled. -/
def blend (cc : ParamBlock) (ccMask : Bool) (top : LayerPx) (second : Config.Second) (line : Rgb888) : Rgb888 :=
  if Config.colourCalcOn cc ccMask top then Config.blendFree cc ccMask top second line else top.color

/-- `Compose` (R154). -/
def compose (cfg : Vdp2Config) (en : LayerTable Bool) (px : Layer → LayerPx) (masked : Layer → Bool) (ccMask : Bool)
    (back line : Rgb888) : Rgb888 :=
  match ranked px (candidates en px masked) with
  | [] => back
  | [t] => blend cfg.cc ccMask (px t) (.fallback back) line
  | t :: u :: _ => blend cfg.cc ccMask (px t) (.layer (px u)) line

/-! ### The scanline step (R146) -/

/-- What a scanline computes at every column (R146). -/
structure Scan where
  cfg : Vdp2Config
  en : LayerTable Bool
  y : Nat
  rotTab : ParamBlock
  deriving DecidableEq, Repr

/-- Step (1) of R146: the line latch, the layer table and the rotation tables, which are computed only if a rotation
background is active (R150). -/
def State.scan (s : State) (y : Nat) : Scan :=
  let cfg := Config.decodeVdp2 s.regs2
  let en := s.cmp.layerEnable
  { cfg := cfg
    en := en
    y := y
    rotTab :=
      if en.bg.rbg0 || en.bg.rbg1 then
        Config.rotTables cfg.rotA cfg.rotB y (s.content .vram2) (s.content .cram)
      else [] }

/-- The sprite layer at a column: pixel and window bit (R151). -/
def State.spriteAt (s : State) (c : Scan) (x : Nat) : LayerPx × Bool :=
  spriteDecode c.cfg.sprite (spriteDatum s x c.y)

/-- Step (2) of R146: a window set's mask at a column. -/
def State.maskAt (s : State) (c : Scan) (ws : WindowSet) (x : Nat) : Bool :=
  windowMask ws (inWindow c.cfg.win0 x c.y (s.content .vram2)) (inWindow c.cfg.win1 x c.y (s.content .vram2))
    (s.spriteAt c x).2

/-- Step (3) of R146: a layer's pixel at a column. -/
def State.layerAt (s : State) (c : Scan) (l : Layer) (x : Nat) : LayerPx :=
  match l with
  | .sprite => (s.spriteAt c x).1
  | .bg b =>
    let selB :=
      match b with
      | .rbg0 | .rbg1 => s.maskAt c c.cfg.winRotParam x
      | _ => false
    layerPixel b c.cfg c.rotTab selB x c.y (s.content .vram2) (s.content .cram)

/-- Step (4) of R146: the output pixel at a column. -/
def State.pixelAt (s : State) (c : Scan) (x : Nat) : Rgb888 :=
  compose c.cfg c.en (fun l => s.layerAt c l x) (fun l => s.maskAt c (c.cfg.winSet.get l) x)
    (s.maskAt c c.cfg.winColourCalc x)
    (backColour c.cfg c.y (s.content .vram2)) (lineColour c.cfg c.y (s.content .vram2) (s.content .cram))

/-- A layer's row; a layer that is not enabled draws none and keeps the row it had (R147, log 14). -/
def State.rowOf (s : State) (c : Scan) (l : Layer) : List LayerPx :=
  if c.en.get l then (List.range (dispW s.tim.resCur)).map fun x => s.layerAt c l x else s.cmp.rows.get l

/-- A drawn line put into the picture. -/
def putLine : List (Nat × List Rgb888) → Nat → List Rgb888 → List (Nat × List Rgb888)
  | [], n, row => [(n, row)]
  | (k, r) :: rest, n, row =>
    if n < k then (n, row) :: (k, r) :: rest
    else if n = k then (n, row) :: rest
    else (k, r) :: putLine rest n row

/-- The lines of a picture that belong to a picture of a resolution: numbered below `DispH`, `DispW` pixels wide
(R156). -/
def fitPicture (res : Resolution) (out : List (Nat × List Rgb888)) : List (Nat × List Rgb888) :=
  out.filter fun l => decide (l.1 < dispH res) && l.2.length == dispW res

/-- A line of the picture, if it has been drawn. -/
def Cmp.lineAt (c : Cmp) (n : Nat) : Option (List Rgb888) := (c.out.find? fun l => l.1 == n).map Prod.snd

/-- The output picture, `DispW` by `DispH` pixels (R156); a pixel of a line that has not been drawn is a free value
(U2, log 14). -/
def State.picture (s : State) : List (List Rgb888) :=
  (List.range (dispH s.tim.resCur)).map fun n =>
    (s.cmp.lineAt n).getD ((List.range (dispW s.tim.resCur)).map (Config.undrawnPixel s.cmp.fill n))

/-- `DrawScanline(y)` (R146). -/
def State.drawScanline (s : State) (y : Nat) : State :=
  let c := s.scan y
  let row := (List.range (dispW s.tim.resCur)).map fun x => s.pixelAt c x
  { s with
    cmp :=
      { s.cmp with
        lineCfg := c.cfg
        rows :=
          { sprite := s.rowOf c .sprite
            bg :=
              { rbg0 := s.rowOf c (.bg .rbg0)
                rbg1 := s.rowOf c (.bg .rbg1)
                nbg0 := s.rowOf c (.bg .nbg0)
                nbg1 := s.rowOf c (.bg .nbg1)
                nbg2 := s.rowOf c (.bg .nbg2)
                nbg3 := s.rowOf c (.bg .nbg3) } }
        outRow := row
        out := putLine s.cmp.out (outLine s.tim y) row } }

end Sys2Proof.Machine
end

