-- ==== Sys2Proof/Machine/Framebuffer.lean ====
section
/-! DEFINITION. The framebuffer sequencer: erase, swap and the frame boundary
(`43_vdp1_framebuffer_control.md` R129 to R133). -/

namespace Sys2Proof.Machine

/-- `k` cells from byte offset `a` on, each filled with a word (R129). -/
def eraseCells (data : Word) : (k a : Nat) → Memory → Memory
  | 0, _, m => m
  | k + 1, a, m => eraseCells data k (a + 2) (m.write16 fbSize a data)

/-- `k` lines from line `y` on, the cells `x1 ≤ w < x3` of each filled (R129). -/
def eraseLines (lw x1 x3 : Nat) (data : Word) : (k y : Nat) → Memory → Memory
  | 0, _, m => m
  | k + 1, y, m => eraseLines lw x1 x3 data k (y + 1) (eraseCells data (x3 - x1) ((y * lw + x1) * 2) m)

/-- The erase area, clamped to the framebuffer: first line, line count, first cell, cell end (R129). -/
structure EraseArea where
  y1 : Nat
  lines : Nat
  x1 : Nat
  x3 : Nat
  deriving DecidableEq, Repr

/-- The area EWLR and EWRR select in a geometry (R129). -/
def State.eraseArea (s : State) (g : Geometry) : EraseArea where
  y1 := s.eraseY1
  lines := min s.eraseY3 (g.height - 1) + 1 - s.eraseY1
  x1 := s.eraseX1 * 8
  x3 := min (s.eraseX3 * 8) g.lineWords

/-- `Erase(f)` (R129). With a reserved geometry nothing is written (U5). -/
def State.erase (s : State) (f : FbId) : State :=
  match geometry s.tvm with
  | none => s
  | some g =>
    let a := s.eraseArea g
    s.setMem (.fb f) (eraseLines g.lineWords a.x1 a.x3 s.regs1.ewdr a.lines a.y1 (s.mem (.fb f)))

/-- The erase of the framebuffer just displayed (R131). -/
def State.eraseDisplay (s : State) : State := s.erase s.seq.drawFB.other

/-- The VBlank erase (R130). -/
def State.vblankErase (s : State) : State :=
  if s.vbe && s.fcm && s.seq.manualSwapReq then s.eraseDisplay else s

/-- A running list is abandoned by a swap (R132). -/
def State.abandonList (s : State) : State :=
  match s.proc.status with
  | .busy => s.setStatus .idle
  | _ => s

/-- The registers of a swap: the sequencer, EDSR, LOPR and COPR (R132). -/
def State.swapRegisters (s : State) : State :=
  let t := { s with seq := { s.seq with manualSwapReq := false, drawFB := s.seq.drawFB.other } }.shiftCef
  { t with regs1 := { t.regs1 with lopr := t.regs1.copr, copr := 0 } }

/-- `Swap` (R132). -/
def State.swap (s : State) : State :=
  let t := s.swapRegisters.abandonList.emit .framebufferSwap
  if t.ptm = 2 then t.startDrawing else t

/-- The erase part of the frame boundary (R133). -/
def State.boundaryErase (s : State) : State :=
  if !s.fcm || s.seq.manualEraseReq then
    { s with seq := { s.seq with manualEraseReq := false } }.eraseDisplay
  else s

/-- `Vdp1FrameBoundary` (R133). -/
def State.frameBoundary (s : State) : State :=
  let t := s.boundaryErase
  if !t.fcm || t.seq.manualSwapReq then t.swap else t

end Sys2Proof.Machine
end

