-- ==== Sys2Proof/Machine/Timing.lean ====
section
/-! DEFINITION. The timing/phase controller (`45_timing_controller.md` R165 to R178): `Advance` as small steps, its
control flow held in `ctl` (log 3). One step is one phase entry, or the bookkeeping of one chunk. -/

namespace Sys2Proof.Machine

/-- The successor of a horizontal phase (R166). -/
def HPhase.succ : HPhase → HPhase
  | .active => .rightBorder
  | .rightBorder => .sync
  | .sync => .leftBorder
  | .leftBorder => .active

/-- The successor of a vertical phase (R166). -/
def VPhase.succ : VPhase → VPhase
  | .active => .bottomBorder
  | .bottomBorder => .blankingAndSync
  | .blankingAndSync => .vCounterSkip
  | .vCounterSkip => .topBorder
  | .topBorder => .lastLine
  | .lastLine => .active

/-- The length of the current horizontal phase (R169). -/
def State.hLength (s : State) : Nat := Config.hLen s.tim.resCur s.tim.hPhase

/-- The length of the current vertical phase (R169). -/
def State.vLength (s : State) : Nat := Config.vLen s.tim.resCur s.tim.vPhase

def State.setCtl (s : State) (c : Control) : State := { s with ctl := c }

/-! ### Vertical phase entries (R173 to R175, R178) -/

/-- The latch of a pending resolution change (R178). The picture is then one of the new size: lines that are not lines
of such a picture are gone, and undrawn lines have fresh unspecified contents (R156, U2, log 14). -/
def State.latchResolution (s : State) : State :=
  if s.tim.resDirty then
    { s with
      tim := { s.tim with resCur := s.tim.resReq, resDirty := false }
      cmp := { s.cmp with out := fitPicture s.tim.resReq s.cmp.out, fill := s.freeCtr }
      freeCtr := s.freeCtr + 1 }.emit
      (.resolutionChanged (dispW s.tim.resReq) (dispH s.tim.resReq))
  else s

/-- `cmp.frameCfg <- …` (R178). -/
def State.latchFrame (s : State) : State :=
  { s with cmp := { s.cmp with frameCfg := { resolution := (Config.decodeVdp2 s.regs2).resolution } } }

/-- `EnterVActive` (R178). -/
def State.enterVActive (s : State) : State :=
  ({ s with tim := { s.tim with vCounter := 0, field := !s.tim.field } }.latchResolution).latchFrame

/-- Entry of vertical `BottomBorder` (R173). -/
def State.enterBottomBorder (s : State) : State :=
  ((((s.changeVblank true).emit .vBlankEntry).emit .statusReadHint).vblankErase).emit .vdp2FrameDrawn

/-- Entry of vertical `VCounterSkip` (R174). -/
def State.enterVCounterSkip (s : State) : State :=
  { s with tim := { s.tim with vCounter := s.tim.vCounter + Config.vSkip Config.standard s.tim.resCur } }

/-- Entry of vertical `LastLine` (R175). -/
def State.enterLastLine (s : State) : State :=
  ((s.changeVblank false).emit .statusReadHint).frameBoundary

/-- The entry action of the current vertical phase (R173 to R175, R178). -/
def State.vEntryAction (s : State) : State :=
  match s.tim.vPhase with
  | .active => s.enterVActive
  | .bottomBorder => s.enterBottomBorder
  | .blankingAndSync => s
  | .vCounterSkip => s.enterVCounterSkip
  | .topBorder => s
  | .lastLine => s.enterLastLine

/-! ### Horizontal phase entries (R170 to R172) -/

/-- Entry of horizontal `Active` (R170). -/
def State.enterHActive (s : State) : State :=
  let t := s.changeHblank false
  if t.tim.vPhase = .active then t.drawScanline t.tim.vLine else t

/-- Entry of horizontal `RightBorder` (R171). -/
def State.enterRightBorder (s : State) : State := s.changeHblank true

/-- The line count at the entry of horizontal `Sync` (R172). -/
def State.countLine (s : State) : State :=
  { s with tim := { s.tim with vLine := s.tim.vLine + 1, vCounter := s.tim.vCounter + 1 } }

/-! ### Advance (R167) -/

/-- The end of a horizontal phase entry: a phase of length 0 is left at once (R167, R168). -/
def State.leaveHEntry (s : State) (remaining : Nat) : State :=
  s.setCtl (if 0 < s.hLength then .advance remaining else .enterH remaining)

/-- One iteration of the vertical `repeat` (R172). -/
def State.enterVStep (s : State) (remaining : Nat) : State :=
  let t := { s with tim := { s.tim with vPhase := s.tim.vPhase.succ, vLine := 0 } }.vEntryAction
  if 0 < t.vLength then t.leaveHEntry remaining else t.setCtl (.enterV remaining)

/-- Entry of horizontal `Sync`, with the vertical phase change to follow if the phase is complete (R172). -/
def State.enterHSync (s : State) (remaining : Nat) : State :=
  let t := s.countLine
  if t.tim.vLine = t.vLength then t.setCtl (.enterV remaining) else t.leaveHEntry remaining

/-- One iteration of `NextHPhase` (R167). -/
def State.enterHStep (s : State) (remaining : Nat) : State :=
  let t := { s with tim := { s.tim with hPhase := s.tim.hPhase.succ, hCyc := 0 } }
  match t.tim.hPhase with
  | .active => t.enterHActive.leaveHEntry remaining
  | .rightBorder => t.enterRightBorder.leaveHEntry remaining
  | .sync => t.enterHSync remaining
  | .leftBorder => t.leaveHEntry remaining

/-- The cycles of the next chunk (R167). -/
def State.chunkOf (s : State) (remaining : Nat) : Nat := min remaining (s.hLength - s.tim.hCyc)

/-- The grant of a chunk: a processor that is not `Busy` loses it (R167). -/
def State.grant (s : State) (chunk : Nat) : State :=
  match s.proc.status with
  | .busy => { s with proc := { s.proc with cyclePool := s.proc.cyclePool + chunk } }
  | _ => s

/-- The top of Advance's loop (R167). -/
def State.beginChunk (s : State) (remaining : Nat) : State :=
  if remaining = 0 then s.setCtl .hostTurn
  else (s.grant (s.chunkOf remaining)).setCtl (.serve (s.chunkOf remaining) remaining)

/-- The end of a chunk, when VDP1 has no enabled step (R167). -/
def State.endChunk (s : State) (chunk remaining : Nat) : State :=
  let t := { s with tim := { s.tim with hCyc := s.tim.hCyc + chunk } }
  t.setCtl (if t.tim.hCyc = t.hLength then .enterH (remaining - chunk) else .advance (remaining - chunk))

end Sys2Proof.Machine
end

