-- ==== Sys2Proof/Machine/HostOps.lean ====
section
/-! DEFINITION. The host's operations: reads, writes, peeks and pokes of the six regions (`20_memory.md` R32 to R38,
R47 to R49), register actions (`43_vdp1_framebuffer_control.md` R126 to R128), resolution requests
(`45_timing_controller.md` R177) and reset (`70_reset_and_hazards.md` R205, R206). -/

namespace Sys2Proof.Machine

/-! ### The VDP1 register region (R11, R49) -/

/-- The eleven registers of R11. -/
inductive Reg1 where
  | tvmr
  | fbcr
  | ptmr
  | ewdr
  | ewlr
  | ewrr
  | endr
  | edsr
  | lopr
  | copr
  | modr
  deriving DecidableEq, Repr

/-- The register at an offset of the region, which wraps at 0x20; none at 0x0E and from 0x18 on (R11, R32, R34). -/
def reg1At (off : Nat) : Option Reg1 :=
  match wordOffset 0x20 off with
  | 0x00 => some .tvmr
  | 0x02 => some .fbcr
  | 0x04 => some .ptmr
  | 0x06 => some .ewdr
  | 0x08 => some .ewlr
  | 0x0A => some .ewrr
  | 0x0C => some .endr
  | 0x10 => some .edsr
  | 0x12 => some .lopr
  | 0x14 => some .copr
  | 0x16 => some .modr
  | _ => none

/-- The stored word of a register: 0 for ENDR, the derived value for MODR (R47, R49). -/
def State.reg1Word (s : State) : Reg1 → Word
  | .tvmr => s.regs1.tvmr
  | .fbcr => s.regs1.fbcr
  | .ptmr => s.regs1.ptmr
  | .ewdr => s.regs1.ewdr
  | .ewlr => s.regs1.ewlr
  | .ewrr => s.regs1.ewrr
  | .endr => 0
  | .edsr => s.regs1.edsr
  | .lopr => s.regs1.lopr
  | .copr => s.regs1.copr
  | .modr => s.modr

/-- Whether a normal read has a defined value (R11). -/
def Reg1.readable : Reg1 → Bool
  | .edsr => true
  | .lopr => true
  | .copr => true
  | .modr => true
  | _ => false

/-- The stored bits of a register replaced from a word (R12 to R21). ENDR and MODR store nothing. -/
def State.storeReg1 (s : State) (r : Reg1) (v : Word) : State :=
  match r with
  | .tvmr => { s with regs1 := { s.regs1 with tvmr := v &&& 0x000F#16 } }
  | .fbcr => { s with regs1 := { s.regs1 with fbcr := v &&& 0x001F#16 } }
  | .ptmr => { s with regs1 := { s.regs1 with ptmr := v &&& 0x0003#16 } }
  | .ewdr => { s with regs1 := { s.regs1 with ewdr := v } }
  | .ewlr => { s with regs1 := { s.regs1 with ewlr := v &&& 0x7FFF#16 } }
  | .ewrr => { s with regs1 := { s.regs1 with ewrr := v } }
  | .endr => s
  | .edsr => { s with regs1 := { s.regs1 with edsr := v &&& 0x0003#16 } }
  | .lopr => { s with regs1 := { s.regs1 with lopr := v } }
  | .copr => { s with regs1 := { s.regs1 with copr := v } }
  | .modr => s

/-- The requests of an FBCR write in manual mode (R127). -/
def State.requestChange (s : State) (v : Word) : State :=
  if v.getLsbD 1 then
    if v.getLsbD 0 then { s with seq := { s.seq with manualSwapReq := true } }
    else { s with seq := { s.seq with manualEraseReq := true } }
  else s

/-- A PTMR write of 1 starts drawing (R128). -/
def State.plotTrigger (s : State) (v : Word) : State :=
  if v.extractLsb' 0 2 = 1#2 then s.startDrawing else s

/-- `Write16` of a register: store, then the register's action; a read-only register ignores it (R49, R135). -/
def State.writeReg1 (s : State) (r : Reg1) (v : Word) : State :=
  match r with
  | .fbcr => (s.storeReg1 .fbcr v).requestChange v
  | .ptmr => (s.storeReg1 .ptmr v).plotTrigger v
  | .endr => s.forceEnd
  | .edsr => s
  | .lopr => s
  | .copr => s
  | .modr => s
  | r => s.storeReg1 r v

/-! ### Bytes of a word (R35, R49) -/

/-- The byte of a word that an offset addresses: the high byte at an even offset. -/
def byteAt (off : Nat) (w : Word) : Byte :=
  if off % 2 = 0 then w.extractLsb' 8 8 else w.extractLsb' 0 8

/-- A word with the byte that an offset addresses replaced. -/
def replaceByte (off : Nat) (w : Word) (b : Byte) : Word :=
  if off % 2 = 0 then b ++ w.extractLsb' 0 8 else w.extractLsb' 8 8 ++ b

/-! ### The VDP2 register region (R32, R36) -/

/-- A stored byte of the bank; none from 0x120 to 0x1FF (R32). That no read of the bank shows HBLANK or VBLANK, which R25
lets the host read through a status register "not laid out here", is a DESIGN CHOICE (log 26). -/
def State.regs2Byte (s : State) (off : Nat) : Option Byte := s.regs2[off % 0x200]?

/-- What follows every write or poke of the bank: the layer-enable table and the requested resolution (R148, R177). -/
def State.rederive (s : State) : State :=
  { s with
    cmp := { s.cmp with layerEnable := layerEnableOf (Config.decodeVdp2 s.regs2) }
    tim :=
      { s.tim with
        resReq := (Config.decodeVdp2 s.regs2).resolution
        resDirty := decide ((Config.decodeVdp2 s.regs2).resolution ≠ s.tim.resCur) } }

/-- A byte stored in the bank; ignored where there is no register (R32, log 6). -/
def State.writeRegs2Byte (s : State) (off : Nat) (b : Byte) : State :=
  if off % 0x200 < 0x120 then
    { s with regs2 := s.regs2.setIfInBounds (off % 0x200) b }.rederive
  else s

/-- A word stored in the bank (R34, R35). -/
def State.writeRegs2Word (s : State) (off : Nat) (w : Word) : State :=
  if off % 0x200 < 0x120 then
    { s with
      regs2 := (s.regs2.setIfInBounds (wordOffset 0x200 off) (w.extractLsb' 8 8)).setIfInBounds
        (wordOffset 0x200 off + 1) (w.extractLsb' 0 8) }.rederive
  else s

/-! ### Regions (R32) -/

/-- The memory behind a region; the two register regions have none. Framebuffer accesses reach the draw
framebuffer (R38). -/
def State.regionSpace (s : State) : Region → Option Space
  | .vdp1Vram => some .vram1
  | .vdp1Framebuffer => some s.drawSpace
  | .vdp1Regs => none
  | .vdp2Vram => some .vram2
  | .vdp2Cram => some .cram
  | .vdp2Regs => none

/-- The word of the VDP1 register region a read or a peek sees; none where it is unspecified (U3, U4, R47). -/
def State.viewReg1 (s : State) (peek : Bool) (off : Nat) : Option Word :=
  match reg1At off with
  | some r => if peek || r.readable then some (s.reg1Word r) else none
  | none => none

/-- A byte read or peeked; none where it is unspecified. -/
def State.view8 (s : State) (peek : Bool) (r : Region) (off : Nat) : Option Byte :=
  match s.regionSpace r, r with
  | some sp, _ => some (s.memRead8 sp off)
  | none, .vdp2Regs => s.regs2Byte off
  | none, _ => (s.viewReg1 peek off).map (byteAt off)

/-- A word read or peeked; none where it is unspecified. -/
def State.view16 (s : State) (peek : Bool) (r : Region) (off : Nat) : Option Word :=
  match s.regionSpace r, r with
  | some sp, _ => some (s.memRead16 sp off)
  | none, .vdp2Regs =>
    match s.regs2Byte (wordOffset 0x200 off), s.regs2Byte (wordOffset 0x200 off + 1) with
    | some hi, some lo => some (hi ++ lo)
    | _, _ => none
  | none, _ => s.viewReg1 peek off

/-- `Read8` and `Peek8`: an unspecified byte is a free value (U3, U4, log 5). -/
def State.answer8 (s : State) (peek : Bool) (r : Region) (off : Nat) : State :=
  match s.view8 peek r off with
  | some b => s.reply (.byte b)
  | none => (s.reply (.byte (byteAt off s.freeWord))).useFree

/-- `Read16` and `Peek16`: an unspecified word is a free value (U3, U4, log 5). -/
def State.answer16 (s : State) (peek : Bool) (r : Region) (off : Nat) : State :=
  match s.view16 peek r off with
  | some w => s.reply (.word w)
  | none => (s.reply (.word s.freeWord)).useFree

/-- The penalty of a normal VDP1 VRAM write while `Busy` (R48). -/
def State.writePenalty (s : State) (r : Region) : State :=
  match r, s.proc.status with
  | .vdp1Vram, .busy =>
    { s with proc := { s.proc with cyclePool := s.proc.cyclePool - Config.vramWritePenalty } }
  | _, _ => s

/-- The register of a byte write: the stored word with the byte replaced (R49). -/
def State.mergeByte (s : State) (r : Reg1) (off : Nat) (b : Byte) : Word := replaceByte off (s.reg1Word r) b

/-- `Poke8` (R47): the store of the matching write, none of its side effects. -/
def State.poke8 (s : State) (r : Region) (off : Nat) (b : Byte) : State :=
  match s.regionSpace r, r with
  | some sp, _ => s.memWrite8 sp off b
  | none, .vdp2Regs => s.writeRegs2Byte off b
  | none, _ =>
    match reg1At off with
    | some g => s.storeReg1 g (s.mergeByte g off b)
    | none => s

/-- `Poke16` (R47). -/
def State.poke16 (s : State) (r : Region) (off : Nat) (w : Word) : State :=
  match s.regionSpace r, r with
  | some sp, _ => s.memWrite16 sp off w
  | none, .vdp2Regs => s.writeRegs2Word off w
  | none, _ =>
    match reg1At off with
    | some g => s.storeReg1 g w
    | none => s

/-- `Write8` (R32, R48, R49). -/
def State.write8 (s : State) (r : Region) (off : Nat) (b : Byte) : State :=
  match r with
  | .vdp1Regs =>
    match reg1At off with
    | some g => s.writeReg1 g (s.mergeByte g off b)
    | none => s
  | r => (s.poke8 r off b).writePenalty r

/-- `Write16` (R32, R48, R49). -/
def State.write16 (s : State) (r : Region) (off : Nat) (w : Word) : State :=
  match r with
  | .vdp1Regs =>
    match reg1At off with
    | some g => s.writeReg1 g w
    | none => s
  | r => (s.poke16 r off w).writePenalty r

/-! ### Resolution requests and reset -/

/-- `RequestResolution` (R177). It stands for a register write, and leaves the register bank as it is: DESIGN CHOICE
(log 25). -/
def State.requestResolution (s : State) (res : Resolution) : State :=
  { s with tim := { s.tim with resReq := res, resDirty := decide (res ≠ s.tim.resCur) } }

/-- Everything a reset sets but the memories, with fresh unspecified rows and picture (R205, U2, log 14). What the host still has to do, what it has read and the events
it has seen are not the machine's and stay (log 3). -/
def State.resetControl (s : State) : State :=
  { s with
    regs1 := resetRegs1
    ctx := resetCtx
    proc := resetProc
    seq := resetSeq
    regs2 := resetRegs2
    tim := resetTim
    cmp := resetCmp s.freeCtr
    ctl := .hostTurn
    freeCtr := s.freeCtr + 1 }

/-- Five memories with fresh unspecified contents (R205, U1, log 4). -/
def State.forgetMemories (s : State) : State :=
  { s with
    vram1 := { fill := s.freeCtr, cells := [] }
    fb0 := { fill := s.freeCtr + 1, cells := [] }
    fb1 := { fill := s.freeCtr + 2, cells := [] }
    vram2 := { fill := s.freeCtr + 3, cells := [] }
    cram := { fill := s.freeCtr + 4, cells := [] }
    freeCtr := s.freeCtr + 5 }

/-- `Reset(hard)` (R205, R206): a soft reset leaves the memories unchanged. -/
def State.hostReset (s : State) (hard : Bool) : State :=
  if hard then s.resetControl.forgetMemories else s.resetControl

/-- One host operation. An `Advance` is only begun here; its steps follow (R167). -/
def State.hostOp (s : State) (op : HostOp) : State :=
  match op with
  | .read8 r off => s.answer8 false r off
  | .read16 r off => s.answer16 false r off
  | .write8 r off v => s.write8 r off v
  | .write16 r off v => s.write16 r off v
  | .peek8 r off => s.answer8 true r off
  | .peek16 r off => s.answer16 true r off
  | .poke8 r off v => s.poke8 r off v
  | .poke16 r off v => s.poke16 r off v
  | .advance n => s.setCtl (.advance n)
  | .requestResolution res => s.requestResolution res
  | .reset hard => s.hostReset hard

/-- The host's turn: its next operation, or nothing when it has none (R2, R40). -/
def State.hostStep (s : State) : State :=
  match s.hostOps with
  | [] => s
  | op :: rest => { s with hostOps := rest }.hostOp op

end Sys2Proof.Machine
end

