-- ==== Sys2Proof/Machine/Agents.lean ====
section
/-! DEFINITION. The step of each agent (`00_scope.md` R2): the command processor (`40_vdp1_command_control.md` R65
to R67, R74), and the host or the timing controller otherwise, as `ctl` says (`45_timing_controller.md` R167). -/

namespace Sys2Proof.Machine

/-- `Vdp1Step` (R65): the cut-off (R74), or fetch, decode and execute. -/
def vdp1Step (s : State) : StepResult :=
  if overLimit s.proc.frameCycles then .next (s.setStatus .idle)
  else
    match decode s.fetchBytes with
    | .ok (i, _) => exec i s.latchCopr
    | .error _ => .refused .truncatedEntry

/-- The step of the machine when no command step is enabled. -/
def State.agentStep (s : State) : State :=
  match s.ctl with
  | .hostTurn => s.hostStep
  | .advance remaining => s.beginChunk remaining
  | .serve chunk remaining => s.endChunk chunk remaining
  | .enterH remaining => s.enterHStep remaining
  | .enterV remaining => s.enterVStep remaining

end Sys2Proof.Machine
end

