-- ==== Sys2Proof/Machine/Step.lean ====
section
/-! DEFINITION. One step of the machine: an enabled command step of VDP1 (R66), else the step of the agent whose turn
it is; and the placing of an instruction where the next step fetches it. -/

namespace Sys2Proof.Machine

/-- One agent step (R40). -/
def step (s : State) : Host.Outcome State Fault Refusal :=
  if s.vdp1Enabled then vdp1Step s else .next s.agentStep

/-- `s` with an instruction of the opcode table stored at the command address and the processor about to fetch it
(log 2). -/
def State.withFetchWord (s : State) (nbits w : Nat) : State := s.placeEntry (tableBytes nbits w)

end Sys2Proof.Machine
end

