-- ==== Sys2Proof/Safety.lean ====
section
/-! DEFINITION. What claims are stated in: the conditions that every step keeps, the conditions under which a draw
command draws, reading and framing of memory, and runs of several steps. -/

namespace Sys2Proof.Machine

/-! ### Conditions every step keeps -/

/-- The five memories are in canonical form, inside their sizes (R5, R33). -/
structure State.MemoriesOk (s : State) : Prop where
  wf : ∀ sp, (s.mem sp).wf = true
  within : ∀ sp, (s.mem sp).within sp.size = true

/-- The bits a register does not store are 0 (R12 to R19). -/
structure State.RegistersOk (s : State) : Prop where
  tvmr : s.regs1.tvmr &&& 0xFFF0#16 = 0
  fbcr : s.regs1.fbcr &&& 0xFFE0#16 = 0
  ptmr : s.regs1.ptmr &&& 0xFFFC#16 = 0
  ewlr : s.regs1.ewlr &&& 0x8000#16 = 0
  edsr : s.regs1.edsr &&& 0xFFFC#16 = 0

/-- The command address and the return register are multiples of 0x20 (R23, R24). -/
structure State.AddressesOk (s : State) : Prop where
  cmdAddr : s.proc.cmdAddr.toNat % 32 = 0
  retAddr : ∀ a, s.ctx.retAddr = some a → a.toNat % 32 = 0

/-- Each group of context registers is wholly set or wholly unset (R188). -/
structure State.ContextOk (s : State) : Prop where
  local' : s.ctx.localX.isSome = s.ctx.localY.isSome
  sysClip : s.ctx.sysClipH.isSome = s.ctx.sysClipV.isSome
  userY0 : s.ctx.userX0.isSome = s.ctx.userY0.isSome
  userX1 : s.ctx.userX0.isSome = s.ctx.userX1.isSome
  userY1 : s.ctx.userX0.isSome = s.ctx.userY1.isSome

/-- HBLANK and VBLANK are what the phases say (R179). -/
structure State.BlankingOk (s : State) : Prop where
  hblank : s.tim.hblank = true ↔ s.tim.hPhase ≠ .active
  vblank : s.tim.vblank = true ↔ s.tim.vPhase ≠ .active ∧ s.tim.vPhase ≠ .lastLine

/-- The line counter is below the length of its phase, but while that phase is being left (R172). -/
def State.LinesOk (s : State) : Prop := (∀ r, s.ctl ≠ .enterV r) → s.tim.vLine < s.vLength

/-- The picture lists lines by rising number, each inside the picture of the latched resolution (R156). -/
structure State.PictureOk (s : State) : Prop where
  rising : (s.cmp.out.map Prod.fst).Pairwise (· < ·)
  fits : ∀ l ∈ s.cmp.out, l.1 < dispH s.tim.resCur ∧ l.2.length = dispW s.tim.resCur

/-- The layer-enable table and the pending-resolution flag are current (R148, R177). -/
structure State.DerivedOk (s : State) : Prop where
  layerEnable : s.cmp.layerEnable = layerEnableOf (Config.decodeVdp2 s.regs2)
  resDirty : s.tim.resDirty = decide (s.tim.resReq ≠ s.tim.resCur)

/-- The horizontal phase has not been overrun, and the chunk in hand fits into it (R167). -/
structure State.ChunkOk (s : State) : Prop where
  hCyc : s.tim.hCyc ≤ s.hLength
  serve : ∀ c r, s.ctl = .serve c r → s.tim.hCyc + c ≤ s.hLength ∧ c ≤ r
  enterV : ∀ r, s.ctl = .enterV r → s.tim.hCyc = 0

/-! ### Draw commands -/

/-- The context registers a draw command with this `Clip` bit reads are set (R85). -/
def Ctx.ready (c : Ctx) (clip : Bool) : Bool :=
  c.localX.isSome && c.localY.isSome && c.sysClipH.isSome && c.sysClipV.isSome &&
    (!clip || (c.userX0.isSome && c.userY0.isSome && c.userX1.isSome && c.userY1.isSome))

/-- The prologue of a draw command finds nothing (R85). -/
def State.canDraw (s : State) (textured : Bool) (e : Entry) : Bool :=
  s.ctx.ready e.pmod.clip && decide (s.tvm.toNat ≤ 4) &&
    !(textured && (e.pmod.cm == .reserved6 || e.pmod.cm == .reserved7)) && e.pmod.cc != .reserved5

end Sys2Proof.Machine

namespace Sys2Proof

open Machine

/-- The entry of a draw command, with whether it is textured. -/
def Instr.drawing : Instr → Option (Bool × Entry)
  | .nspr e => some (true, e)
  | .sspr e => some (true, e)
  | .dspr e => some (true, e)
  | .poly e => some (false, e)
  | .plin e => some (false, e)
  | .line e => some (false, e)
  | _ => none

/-- The illegal codes with their entries (R72). -/
def Instr.illegal : Instr → Option (BitVec 4 × Entry)
  | .illegal3 e => some (0x3, e)
  | .illegal7 e => some (0x7, e)
  | .illegalB e => some (0xB, e)
  | .illegalC e => some (0xC, e)
  | .illegalD e => some (0xD, e)
  | .illegalE e => some (0xE, e)
  | .illegalF e => some (0xF, e)
  | _ => none

/-- The drawing of a draw command, between its prologue and its jump (R111 to R116). -/
def Instr.draw (i : Instr) (v : DrawEnv) (fb : Memory) : Drawn :=
  match i with
  | .nspr _ => textureQuad normalQuad v fb
  | .sspr _ => textureQuad scaledQuad v fb
  | .dspr _ => textureQuad entryQuad v fb
  | .poly _ => fillQuad v (entryQuad v) false fb
  | .plin _ => drawOutline v fb
  | .line _ => drawSegment v fb
  | _ => nothingDrawn fb

end Sys2Proof

namespace Sys2Proof.Machine

/-! ### What a draw command may touch -/

/-- The framebuffer bytes a pixel is stored in: one word or one byte at its address (R101, R102). -/
def DrawEnv.storesAt (v : DrawEnv) (p : Point) (x : Nat) : Bool :=
  if v.geom.bpp = 16 then x == wordOffset fbSize (v.pixelAddr p) || x == wordOffset fbSize (v.pixelAddr p) + 1
  else x == v.pixelAddr p % fbSize

/-- The main pixels of the line from `p` to `q` (R95). -/
def OnLine (p q r : Point) : Prop := ∃ j ≤ steps p q, r = linePoint p q j (steps p q)

/-- The AA pixels a line of a fill can have (R96). -/
def OnAa (p q r : Point) : Prop :=
  ∃ j < steps p q,
    r = aaPoint (linePoint p q j (steps p q)) (linePoint p q (j + 1) (steps p q)) (xMajor p q)

/-- Line `i` of a fill, by its end points (R104). -/
def Quad.ends (q : Quad) (i : Nat) : Point × Point := (linePoint q.a q.d i q.steps, linePoint q.b q.c i q.steps)

/-- The pixels a fill can plot: main and AA pixels of its lines (R96, R104). -/
def Quad.Covers (q : Quad) (r : Point) : Prop :=
  ∃ i ≤ q.steps, OnLine (q.ends i).1 (q.ends i).2 r ∨ OnAa (q.ends i).1 (q.ends i).2 r

end Sys2Proof.Machine

namespace Sys2Proof

open Machine

/-- The pixels a draw command can plot in an environment (R111 to R116). -/
def Instr.Plots (i : Instr) (v : DrawEnv) (r : Point) : Prop :=
  match i with
  | .nspr _ => v.e.texW ≠ 0 ∧ v.e.texH ≠ 0 ∧ (normalQuad v).Covers r
  | .sspr _ => v.e.texW ≠ 0 ∧ v.e.texH ≠ 0 ∧ (scaledQuad v).Covers r
  | .dspr _ => v.e.texW ≠ 0 ∧ v.e.texH ≠ 0 ∧ (entryQuad v).Covers r
  | .poly _ => (entryQuad v).Covers r
  | .plin _ =>
    OnLine (entryQuad v).a (entryQuad v).b r ∨ OnLine (entryQuad v).b (entryQuad v).c r ∨
      OnLine (entryQuad v).c (entryQuad v).d r ∨ OnLine (entryQuad v).d (entryQuad v).a r
  | .line _ => OnLine (entryQuad v).a (entryQuad v).b r
  | _ => False

/-- The lines a draw command draws, in order (R104, R111 to R116). -/
def Instr.lines (i : Instr) (v : DrawEnv) : List LineSpec :=
  let t := gouraudTable v.vram1 v.e
  let fill (q : Quad) (textured : Bool) : List LineSpec := (List.range (q.steps + 1)).map (q.line v t textured)
  let sprite (q : Quad) : List LineSpec := if v.e.texW = 0 ∨ v.e.texH = 0 then [] else fill q true
  let q := entryQuad v
  match i with
  | .nspr _ => sprite (normalQuad v)
  | .sspr _ => sprite (scaledQuad v)
  | .dspr _ => sprite q
  | .poly _ => fill q false
  | .plin _ => [plainLine q.a q.b t.a t.b, plainLine q.b q.c t.b t.c, plainLine q.c q.d t.c t.d, plainLine q.d q.a t.d t.a]
  | .line _ => [plainLine q.a q.b t.a t.b]
  | _ => []

/-- The pixels a draw command visits: the first pixels of each of its lines, as many as the line reports (R95, R98,
R103). How many those are does not depend on the framebuffer `fb`. -/
def Instr.Visits (i : Instr) (v : DrawEnv) (fb : Memory) (r : Point) : Prop :=
  ∃ l ∈ i.lines v, ∃ j < (drawLine v l fb).result.visited, r = linePoint l.p l.q j (steps l.p l.q)

/-- The AA pixels a draw command plots: those of the diagonal steps between visited pixels of the lines of a fill
(R96). -/
def Instr.PlotsAa (i : Instr) (v : DrawEnv) (fb : Memory) (r : Point) : Prop :=
  ∃ l ∈ i.lines v, l.aa = true ∧ ∃ j, j + 1 < (drawLine v l fb).result.visited ∧
    let p := linePoint l.p l.q j (steps l.p l.q)
    let q := linePoint l.p l.q (j + 1) (steps l.p l.q)
    q.x ≠ p.x ∧ q.y ≠ p.y ∧ r = aaPoint p q (xMajor l.p l.q)

/-- The quadrilateral of a draw command; that of `LINE` is its segment (R110 to R116). -/
def Instr.quad (i : Instr) (v : DrawEnv) : Quad :=
  match i with
  | .nspr _ => normalQuad v
  | .sspr _ => scaledQuad v
  | .line _ => { a := (entryQuad v).a, b := (entryQuad v).b, c := (entryQuad v).b, d := (entryQuad v).a }
  | _ => entryQuad v

end Sys2Proof

namespace Sys2Proof.Machine

/-- All four vertices lie beyond the same side of the system clip area (R75). -/
def Quad.beyond (q : Quad) (v : DrawEnv) : Prop :=
  let all (P : Point → Prop) : Prop := P q.a ∧ P q.b ∧ P q.c ∧ P q.d
  all (fun p => p.x < 0) ∨ all (fun p => v.sysH < p.x) ∨ all (fun p => p.y < 0) ∨ all (fun p => v.sysV < p.y)

/-! ### Runs -/

/-- `k` agent steps of a machine whose command processor has no enabled step. -/
def State.agentRun : Nat → State → State
  | 0, s => s
  | k + 1, s => s.agentStep.agentRun k

/-- The processor is in status `Fault` (R187). -/
def State.faulted (s : State) : Bool :=
  match s.proc.status with
  | .fault _ => true
  | _ => false

end Sys2Proof.Machine
end

