-- ==== Sys2Proof/Certificates/Slice0/Obligations.lean ====
section
/-! DEFINITION. The statements for the provers. Each docstring names the rules of `spec/` a statement rests on, and the
log entry where a clause is the model's choice. -/

section Statements

open Sys2Proof Sys2Proof.Machine

/-! ### Encoding (`30_encoding.md`) -/

/-- The bytes of a well-formed instruction, followed by anything, decode to it (R50 to R61). -/
def Obligations.DecodeOfEncode : Prop :=
  ∀ (i : Instr) (rest : List Byte), i.wellFormed = true → decode (encodeBytes i ++ rest) = .ok (i, rest)

/-- Every entry decodes to a well-formed instruction, and an entry with END = 0 is encoded again word for word: no bit
of it is dropped (R50 to R61). -/
def Obligations.EncodeOfDecode : Prop :=
  ∀ r : RawEntry, (decodeRaw r).wellFormed = true ∧ (r.ctrl.getLsbD 15 = false → encodeRaw (decodeRaw r) = r)

/-- The mask and match pairs of the opcode table select the instruction, and the pairs of all its rows take in every
value of CMDCTRL (R52, R53). -/
def Obligations.OpcodeRowsSelectInstructions : Prop :=
  ∀ r : RawEntry,
    (r.ctrl &&& 0x8000#16 = 0x8000#16 → decodeRaw r = .endList) ∧
      (r.ctrl &&& 0xC000#16 = 0x4000#16 → decodeRaw r = .skip (r.ctrl.extractLsb' 0 4) (decodeEntry r)) ∧
      (r.ctrl &&& 0xC00F#16 = 0x0000#16 → decodeRaw r = .nspr (decodeEntry r)) ∧
      (r.ctrl &&& 0xC00F#16 = 0x0001#16 → decodeRaw r = .sspr (decodeEntry r)) ∧
      (r.ctrl &&& 0xC00F#16 = 0x0002#16 → decodeRaw r = .dspr (decodeEntry r)) ∧
      (r.ctrl &&& 0xC00F#16 = 0x0003#16 → decodeRaw r = .illegal3 (decodeEntry r)) ∧
      (r.ctrl &&& 0xC00F#16 = 0x0004#16 → decodeRaw r = .poly (decodeEntry r)) ∧
      (r.ctrl &&& 0xC00F#16 = 0x0005#16 → decodeRaw r = .plin (decodeEntry r)) ∧
      (r.ctrl &&& 0xC00F#16 = 0x0006#16 → decodeRaw r = .line (decodeEntry r)) ∧
      (r.ctrl &&& 0xC00F#16 = 0x0007#16 → decodeRaw r = .illegal7 (decodeEntry r)) ∧
      (r.ctrl &&& 0xC00F#16 = 0x0008#16 → decodeRaw r = .uclp (decodeEntry r)) ∧
      (r.ctrl &&& 0xC00F#16 = 0x0009#16 → decodeRaw r = .sclp (decodeEntry r)) ∧
      (r.ctrl &&& 0xC00F#16 = 0x000A#16 → decodeRaw r = .lcrd (decodeEntry r)) ∧
      (r.ctrl &&& 0xC00F#16 = 0x000B#16 → decodeRaw r = .illegalB (decodeEntry r)) ∧
      (r.ctrl &&& 0xC00F#16 = 0x000C#16 → decodeRaw r = .illegalC (decodeEntry r)) ∧
      (r.ctrl &&& 0xC00F#16 = 0x000D#16 → decodeRaw r = .illegalD (decodeEntry r)) ∧
      (r.ctrl &&& 0xC00F#16 = 0x000E#16 → decodeRaw r = .illegalE (decodeEntry r)) ∧
      (r.ctrl &&& 0xC00F#16 = 0x000F#16 → decodeRaw r = .illegalF (decodeEntry r)) ∧
      (r.ctrl.getLsbD 15 = true ∨ r.ctrl.getLsbD 14 = true ∨ ∃ c : BitVec 4, r.ctrl &&& 0xC00F#16 = 0#12 ++ c)

/-- The decoded fields as numbers: link, texture and gouraud addresses, texture size, draw mode; the eight coordinate
words are words 6 to 13 of the entry; and the three readings of a coordinate word (R50, R51, R54, R55, R57 to R60). -/
def Obligations.DecodedFieldsAsNumbers : Prop :=
  ∀ r : RawEntry,
    let e := decodeEntry r
    e.jp.toBits.toNat = r.ctrl.toNat / 0x1000 % 4 ∧ e.zoomY.toBits.toNat = r.ctrl.toNat / 0x400 % 4 ∧
      e.zoomX.toBits.toNat = r.ctrl.toNat / 0x100 % 4 ∧ e.dirV = r.ctrl.toNat.testBit 5 ∧
      e.dirH = r.ctrl.toNat.testBit 4 ∧ e.linkAddr.toNat = (r.link.toNat &&& 0xFFFC) <<< 3 ∧
      e.pmod.mon = r.pmod.toNat.testBit 15 ∧ e.pmod.clip = r.pmod.toNat.testBit 10 ∧
      e.pmod.cmod = r.pmod.toNat.testBit 9 ∧ e.pmod.mesh = r.pmod.toNat.testBit 8 ∧
      e.pmod.ecd = r.pmod.toNat.testBit 7 ∧ e.pmod.spd = r.pmod.toNat.testBit 6 ∧
      e.pmod.cm.toBits.toNat = r.pmod.toNat / 8 % 8 ∧ e.pmod.cc.toBits.toNat = r.pmod.toNat % 8 ∧ e.colr = r.colr ∧
      e.srcAddr.toNat = r.srca.toNat * 8 ∧ e.texW = r.size.toNat / 0x100 % 0x40 * 8 ∧
      e.texH = r.size.toNat % 0x100 ∧ e.grdAddr.toNat = r.grda.toNat * 8 ∧
      (e.xa = r.xa ∧ e.ya = r.ya ∧ e.xb = r.xb ∧ e.yb = r.yb ∧ e.xc = r.xc ∧ e.yc = r.yc ∧ e.xd = r.xd ∧
        e.yd = r.yd) ∧
      ∀ w : Word, (clipX w).toNat = w.toNat % 0x400 ∧ (clipY w).toNat = w.toNat % 0x200 ∧
        sext13 w = if w.toNat % 0x2000 < 0x1000 then (w.toNat % 0x2000 : Int) else (w.toNat % 0x2000 : Int) - 0x2000

/-- Three entries written out in the spec decode to what they stand for: the polygon of R64, the skipped polygon of
program P2 and the END entry. -/
def Obligations.WrittenEntriesDecode : Prop :=
  (∃ e, decode (bytesOfWords
        [0x0004, 0x0000, 0x00C0, 0x801F, 0x0000, 0x0000, 0x000A, 0x000A, 0x000D, 0x000A, 0x000D, 0x000C, 0x000A, 0x000C,
          0x0000, 0x0000]) = .ok (.poly e, []) ∧
      e.colr = 0x801F ∧ e.pmod.ecd = true ∧ e.pmod.spd = true ∧ e.pmod.cc = .replace ∧ e.jp = .next ∧
      (sext13 e.xa, sext13 e.ya, sext13 e.xc, sext13 e.yc) = (10, 10, 13, 12)) ∧
    (∃ e, decode (bytesOfWords
        [0x4004, 0x0000, 0x0000, 0xFFFF, 0x0000, 0x0000, 0x0000, 0x0000, 0x0032, 0x0000, 0x0032, 0x0032, 0x0000, 0x0032,
          0x0000, 0x0000]) = .ok (.skip 4 e, []) ∧ e.jp = .next) ∧
    decode (bytesOfWords [0x8000, 0, 0, 0, 0, 0, 0, 0, 0, 0, 0, 0, 0, 0, 0, 0]) = .ok (.endList, [])

/-! ### The step of the command processor (`40_vdp1_command_control.md`) -/

/-- When the bytes at the command address decode to a well-formed instruction, and the processor is `Busy` with a
positive pool and inside its cycle limit, a step is `exec` of that instruction in the state whose COPR holds the
address divided by 8 (R65 to R67). -/
def Obligations.StepRunsDecodedEntry : Prop :=
  ∀ (s : State) (i : Instr) (rest : List Byte),
    s.proc.status = .busy → 0 < s.proc.cyclePool → overLimit s.proc.frameCycles = false →
      decode s.fetchBytes = .ok (i, rest) → i.wellFormed = true →
      step s = exec i { s with regs1 := { s.regs1 with copr := BitVec.ofNat 16 (s.proc.cmdAddr.toNat / 8) } }

/-- The bytes a fetch reads are the 32 bytes of VRAM1 from the command address on (R67, R50). -/
def Obligations.FetchReadsTheEntry : Prop :=
  ∀ s : State, s.AddressesOk → s.fetchBytes.length = 32 ∧
    ∀ k < 32, s.fetchBytes[k]? = some (s.vram1.byte (s.proc.cmdAddr.toNat + k))

/-- An enabled step stops the list when the cycles of the list exceed the limit, with nothing but the status changed,
and else executes the entry at the command address (R65, R74). -/
def Obligations.CutOffStopsTheList : Prop :=
  ∀ s : State, s.proc.status = .busy → 0 < s.proc.cyclePool →
    step s =
      match Config.frameCycleLimit with
      | none => exec (decodeRaw s.fetchEntry) s.latchCopr
      | some limit =>
        if limit < s.proc.frameCycles then .next { s with proc := { s.proc with status := .idle } }
        else exec (decodeRaw s.fetchEntry) s.latchCopr

/-- Every step answers a next state, whatever the state; and a step that no command step is enabled for is the step of
the agent whose turn it is (R66, R185). At the host's turn that is the first of its operations, which is taken from its
queue, and nothing when it has none (R2, R40, R47, R177, R205); an `Advance` is begun there and goes on in later steps
(R167). The queue `hostOps` and the turns `ctl` are the model's (log 2, 3). That a zero-cost list makes no step hang is
the model's choice (log 7). -/
def Obligations.StepAlwaysAnswersNext : Prop :=
  ∀ s : State, (∃ t, step s = .next t) ∧
    (s.proc.status ≠ .busy ∨ s.proc.cyclePool ≤ 0 →
      step s = .next s.agentStep ∧
        (s.ctl = .hostTurn →
          (s.hostOps = [] → step s = .next s) ∧
            ∀ op rest, s.hostOps = op :: rest →
              let u : State := { s with hostOps := rest }
              step s =
                .next
                  (match op with
                    | .read8 r off => u.answer8 false r off
                    | .read16 r off => u.answer16 false r off
                    | .write8 r off b => u.write8 r off b
                    | .write16 r off w => u.write16 r off w
                    | .peek8 r off => u.answer8 true r off
                    | .peek16 r off => u.answer16 true r off
                    | .poke8 r off b => u.poke8 r off b
                    | .poke16 r off w => u.poke16 r off w
                    | .advance n => { u with ctl := .advance n }
                    | .requestResolution res => u.requestResolution res
                    | .reset hard => u.hostReset hard)))

/-- `END` sets EDSR.CEF, makes the processor `Idle` and emits its two callbacks in order; nothing else changes: no jump,
no cost, no context (R69). -/
def Obligations.EndCompletes : Prop :=
  ∀ s : State,
    exec .endList s =
      .next
        { s with
          regs1 := { s.regs1 with edsr := s.regs1.edsr ||| 0x0002#16 }
          proc := { s.proc with status := .idle }
          trace := s.trace ++ [.spriteDrawEnd, .vdp1FrameDrawn] }

/-- `SKIP` performs its jump, is charged its cost, and changes nothing else (R70, R71, R73). -/
def Obligations.SkipCompletes : Prop :=
  ∀ (comm : BitVec 4) (e : Entry) (s : State),
    let c := Config.cmdCost (.skip comm e) { visited := 0, visible := false }
    exec (.skip comm e) s =
      .next
        { s with
          proc :=
            { s.proc with
              cmdAddr := (jumpTarget e s.proc.cmdAddr s.ctx.retAddr).1
              cyclePool := s.proc.cyclePool - c
              frameCycles := s.proc.frameCycles + c }
          ctx := { s.ctx with retAddr := (jumpTarget e s.proc.cmdAddr s.ctx.retAddr).2 } }

/-- The four jump modes from a command address that is a multiple of 32, as numbers (R71). -/
def Obligations.JumpModesReachTheirTargets : Prop :=
  ∀ (e : Entry) (a : Addr) (ret : Option Addr), a.toNat % 32 = 0 →
    let next : Addr := BitVec.ofNat 19 (a.toNat + 32)
    (e.jp = .next → jumpTarget e a ret = (next, ret)) ∧
      (e.jp = .assign → jumpTarget e a ret = (e.linkAddr, ret)) ∧
      (e.jp = .call → ret = none → jumpTarget e a ret = (e.linkAddr, some next)) ∧
      (e.jp = .call → ∀ r, ret = some r → jumpTarget e a ret = (e.linkAddr, some r)) ∧
      (e.jp = .ret → ret = none → jumpTarget e a ret = (next, none)) ∧
      (e.jp = .ret → ∀ r, ret = some r → jumpTarget e a ret = (r, none))

/-- `UCLP`, `SCLP` and `LCRD` write their context registers from the low bits of their coordinate words, jump, are
charged, and change nothing else (R76, R77, R78, R71, R73). -/
def Obligations.ContextCommandsComplete : Prop :=
  ∀ (e : Entry) (s : State),
    let a := (jumpTarget e s.proc.cmdAddr s.ctx.retAddr).1
    let r := (jumpTarget e s.proc.cmdAddr s.ctx.retAddr).2
    let after (i : Instr) : Proc :=
      { s.proc with
        cmdAddr := a
        cyclePool := s.proc.cyclePool - Config.cmdCost i { visited := 0, visible := false }
        frameCycles := s.proc.frameCycles + Config.cmdCost i { visited := 0, visible := false } }
    exec (.uclp e) s =
        .next
          { s with
            proc := after (.uclp e)
            ctx :=
              { s.ctx with
                userX0 := some (BitVec.ofNat 10 e.xa.toNat)
                userY0 := some (BitVec.ofNat 9 e.ya.toNat)
                userX1 := some (BitVec.ofNat 10 e.xc.toNat)
                userY1 := some (BitVec.ofNat 9 e.yc.toNat)
                retAddr := r } } ∧
      exec (.sclp e) s =
        .next
          { s with
            proc := after (.sclp e)
            ctx :=
              { s.ctx with
                sysClipH := some (BitVec.ofNat 10 e.xc.toNat)
                sysClipV := some (BitVec.ofNat 9 e.yc.toNat)
                retAddr := r } } ∧
      exec (.lcrd e) s =
        .next
          { s with
            proc := after (.lcrd e)
            ctx :=
              { s.ctx with
                localX := some (BitVec.ofInt 13 (sext13 e.xa))
                localY := some (BitVec.ofInt 13 (sext13 e.ya))
                retAddr := r } }

/-- An illegal code takes the fault `IllegalCommand`, which records the entry's address and CMDCTRL; nothing but the
status changes: no jump, no cost, no CEF, no callback (R72, R187). The second clause says it of every fetched entry
with END = 0, SKIP = 0 and one of the seven codes. -/
def Obligations.IllegalCodesFault : Prop :=
  (∀ (i : Instr) (c : BitVec 4) (e : Entry) (s : State), i.illegal = some (c, e) →
      exec i s =
        .next
          { s with
            proc := { s.proc with status := .fault (.illegalCommand s.proc.cmdAddr (encodeCtrl false c e)) } }) ∧
    ∀ (r : RawEntry) (s : State),
      r.ctrl &&& 0xC000#16 = 0 → r.ctrl.toNat % 16 ∈ [0x3, 0x7, 0xB, 0xC, 0xD, 0xE, 0xF] →
        exec (decodeRaw r) s =
          .next { s with proc := { s.proc with status := .fault (.illegalCommand s.proc.cmdAddr r.ctrl) } }

/-- Whatever an instruction does, it leaves VRAM1, VRAM2, colour RAM, the display framebuffer, both register banks but
for EDSR, the sequencer, the timing controller, the compositor and the host's side as they are; and only `END` writes
EDSR or emits a callback (R39, R65, R69, R118). -/
def Obligations.CommandsTouchOnlyVdp1 : Prop :=
  ∀ (i : Instr) (s t : State), exec i s = .next t →
    (∀ sp, sp ≠ s.drawSpace → t.mem sp = s.mem sp) ∧ t.seq = s.seq ∧ t.regs2 = s.regs2 ∧ t.tim = s.tim ∧
      t.cmp = s.cmp ∧ t.ctl = s.ctl ∧ t.hostOps = s.hostOps ∧ t.replies = s.replies ∧ t.freeCtr = s.freeCtr ∧
      t.regs1 = { s.regs1 with edsr := t.regs1.edsr } ∧
      (i ≠ .endList → t.trace = s.trace ∧ t.regs1.edsr = s.regs1.edsr) ∧
      (i.drawing = none → t.mem s.drawSpace = s.mem s.drawSpace ∧ t.proc.lastVisible = s.proc.lastVisible)

/-! ### The draw commands (`41_vdp1_pixel_pipeline.md`, `42_vdp1_draw_commands.md`) -/

/-- A draw command whose prologue finds nothing completes: it stores its drawing in the draw framebuffer, sets
`lastVisible`, jumps, is charged for what it visited, and changes nothing else (R65, R71, R73, R85, R103, R118). The
drawing is `Instr.draw`, the lines or fill of the command. -/
def Obligations.DrawCommandsComplete : Prop :=
  ∀ (i : Instr) (tx : Bool) (e : Entry) (s : State) (g : Geometry),
    i.drawing = some (tx, e) → s.canDraw tx e = true → geometry s.tvm = some g →
      let d := i.draw (drawEnv s e g) (s.mem s.drawSpace)
      ∃ t, exec i s = .next t ∧ t.mem s.drawSpace = d.fb ∧ (∀ sp, sp ≠ s.drawSpace → t.mem sp = s.mem sp) ∧
        t.proc =
          { s.proc with
            cmdAddr := (jumpTarget e s.proc.cmdAddr s.ctx.retAddr).1
            cyclePool := s.proc.cyclePool - Config.cmdCost i d.result
            frameCycles := s.proc.frameCycles + Config.cmdCost i d.result
            lastVisible := d.result.visible } ∧
        t.ctx = { s.ctx with retAddr := (jumpTarget e s.proc.cmdAddr s.ctx.retAddr).2 } ∧ t.regs1 = s.regs1 ∧
        t.seq = s.seq ∧ t.regs2 = s.regs2 ∧ t.tim = s.tim ∧ t.cmp = s.cmp ∧ t.trace = s.trace ∧ t.ctl = s.ctl ∧
        t.hostOps = s.hostOps ∧ t.replies = s.replies ∧ t.freeCtr = s.freeCtr

/-- A draw command changes no byte of the draw framebuffer but those at which a pixel of its lines or fill, with the AA
pixels of a fill, is stored after passing every test of `PlotPixel` (R86, R96, R98, R101, R102, R104). -/
def Obligations.DrawStoresOnlyPlottedPixels : Prop :=
  ∀ (i : Instr) (tx : Bool) (e : Entry) (s t : State) (g : Geometry) (x : Nat),
    i.drawing = some (tx, e) → geometry s.tvm = some g → exec i s = .next t →
      (∀ p, i.Plots (drawEnv s e g) p → (drawEnv s e g).plots p = true → (drawEnv s e g).storesAt p x = false) →
      (t.mem s.drawSpace).byte x = (s.mem s.drawSpace).byte x

/-- The prologue of the six draw commands raises the first fault that applies, in the order of R85, and then nothing
but the status changes (R85, R187, R189). Which unset register is recorded first is the model's reading (log 17). -/
def Obligations.PrologueFaultsInOrder : Prop :=
  ∀ (i : Instr) (tx : Bool) (e : Entry) (s : State), i.drawing = some (tx, e) →
    let faulted (f : CmdFault) : State := { s with proc := { s.proc with status := .fault f } }
    (s.ctx.ready e.pmod.clip = false →
        ∃ reg, firstUnset s.ctx e.pmod.clip = some reg ∧
          exec i s = .next (faulted (.unsetContext s.proc.cmdAddr reg))) ∧
      (s.ctx.ready e.pmod.clip = true → 5 ≤ s.tvm.toNat →
        exec i s = .next (faulted (.reservedFbMode s.proc.cmdAddr s.tvm))) ∧
      (s.ctx.ready e.pmod.clip = true → s.tvm.toNat ≤ 4 → tx = true → 6 ≤ e.pmod.cm.toBits.toNat →
        exec i s = .next (faulted (.reservedColourMode s.proc.cmdAddr (encodePmod e.pmod)))) ∧
      (s.ctx.ready e.pmod.clip = true → s.tvm.toNat ≤ 4 → (tx = false ∨ e.pmod.cm.toBits.toNat ≤ 5) →
        e.pmod.cc = .reserved5 →
        exec i s = .next (faulted (.reservedColourCalc s.proc.cmdAddr (encodePmod e.pmod))))

/-- `rdiv` rounds to the nearest integer, halves away from zero, and is odd; an interpolated channel stays within 0 to
31, is exact at both ends, and rises or falls with the position (R8, R99, R106). -/
def Obligations.RoundingAndInterpolationLaws : Prop :=
  (∀ (a : Int) (n : Nat), 0 < n →
      2 * (rdiv a n * n - a).natAbs ≤ n ∧ rdiv (-a) n = -rdiv a n ∧
        (2 * (rdiv a n * n - a).natAbs = n → a.natAbs < (rdiv a n * n).natAbs)) ∧
    ∀ (a b : Int) (k n : Nat), 0 ≤ a → a ≤ 31 → 0 ≤ b → b ≤ 31 → k ≤ n →
      0 ≤ lerp a b k n ∧ lerp a b k n ≤ 31 ∧ lerp a b 0 n = a ∧ (0 < n → lerp a b n n = b) ∧
        (a ≤ b → k < n → lerp a b k n ≤ lerp a b (k + 1) n) ∧ (b ≤ a → k < n → lerp a b (k + 1) n ≤ lerp a b k n)

/-- A line visits its first end point first and its last one last, moves by exactly one along its major axis at every
step and by at most one along the other; and each coordinate of each of its pixels is the integer nearest to that of the
ideal line at that step, of two equally near ones the one farther from the first end point (R95, R8). -/
def Obligations.LineStepsAlongItsMajorAxis : Prop :=
  ∀ (p q : Point),
    let n := steps p q
    linePoint p q 0 n = p ∧ linePoint p q n n = q ∧
      (∀ j < n,
        let u := linePoint p q j n
        let w := linePoint p q (j + 1) n
        (w.x - u.x).natAbs ≤ 1 ∧ (w.y - u.y).natAbs ≤ 1 ∧
          (xMajor p q = true → w.x - u.x = (q.x - p.x).sign) ∧ (xMajor p q = false → w.y - u.y = (q.y - p.y).sign)) ∧
      ∀ j ≤ n,
        let u := linePoint p q j n
        let nearest (c ideal : Int) : Prop :=
          2 * (c * n - ideal).natAbs ≤ n ∧ (0 < n → 2 * (c * n - ideal).natAbs = n → ideal.natAbs < (c * n).natAbs)
        nearest (u.x - p.x) ((q.x - p.x) * j) ∧ nearest (u.y - p.y) ((q.y - p.y) * j)

/-- The texture stepper: columns stay inside the texture, with or without flip, and are those of the accumulator that
adds the width at every pixel and carries at the pixel count (R97). -/
def Obligations.TextureStepperIsTheAccumulator : Prop :=
  ∀ (size m : Nat), 0 < m →
    (∀ j, texCoord false size (j + 1) m = texCoord false size j m + (j * size % m + size) / m ∧
        (j + 1) * size % m = (j * size % m + size) % m) ∧
      texCoord false size 0 m = 0 ∧
      (∀ (flip : Bool) (j : Nat), 0 < size → j < m → texCoord flip size j m < size) ∧
      (∀ j, 0 < size → j < m → texCoord true size j m = size - 1 - texCoord false size j m) ∧
      (m = size → ∀ j, texCoord false size j m = j)

/-- A texel of four bits is the high or the low half of its byte, high half first, the rows packed without padding;
one of eight bits is a byte; one of sixteen is a big-endian word (R91). -/
def Obligations.TexelsArePackedByRows : Prop :=
  ∀ (v : DrawEnv) (x y : Nat), v.e.texW % 8 = 0 →
    let base := v.e.srcAddr.toNat
    let byte (k : Nat) : Nat := (v.vram1.byte ((base + k) % 0x80000)).toNat
    ((v.e.pmod.cm = .bank16 ∨ v.e.pmod.cm = .lut16) →
        texel v x y =
          if x % 2 = 0 then byte (y * (v.e.texW / 2) + x / 2) / 16 else byte (y * (v.e.texW / 2) + x / 2) % 16) ∧
      ((v.e.pmod.cm = .bank64 ∨ v.e.pmod.cm = .bank128 ∨ v.e.pmod.cm = .bank256) →
        texel v x y = byte (y * v.e.texW + x)) ∧
      (v.e.pmod.cm = .direct → base % 2 = 0 →
        texel v x y = byte ((y * v.e.texW + x) * 2) * 256 + byte ((y * v.e.texW + x) * 2 + 1))

/-- The colour of a texel: the bank's high bits with the texel's low bits, the entry of the lookup table, or the texel
itself (R92). -/
def Obligations.TexelColoursAreBankOrTable : Prop :=
  ∀ (v : DrawEnv) (t : Nat),
    (v.e.pmod.cm = .bank16 → t < 16 → (texelColour v t).toNat = v.e.colr.toNat / 16 * 16 + t) ∧
      (v.e.pmod.cm = .bank64 → t < 256 → (texelColour v t).toNat = v.e.colr.toNat / 64 * 64 + t % 64) ∧
      (v.e.pmod.cm = .bank128 → t < 256 → (texelColour v t).toNat = v.e.colr.toNat / 128 * 128 + t % 128) ∧
      (v.e.pmod.cm = .bank256 → t < 256 → (texelColour v t).toNat = v.e.colr.toNat / 256 * 256 + t) ∧
      (v.e.pmod.cm = .direct → t < 0x10000 → (texelColour v t).toNat = t) ∧
      (v.e.pmod.cm = .lut16 → t < 16 →
        (texelColour v t).toNat =
          (v.vram1.byte ((v.e.colr.toNat * 8 + t * 2) % 0x80000)).toNat * 256 +
            (v.vram1.byte ((v.e.colr.toNat * 8 + t * 2) % 0x80000 + 1)).toNat)

/-- The colour calculations channel by channel, with the MSB flag of the source or of the destination, and the MSB-on
write that leaves the colour untouched (R100, R101). -/
def Obligations.ColourCalculationByChannel : Prop :=
  ∀ (m : DrawMode) (src dst : Word) (g : Rgb),
    let s := unpack src
    let d := unpack dst
    let lit : Rgb := { r := clamp (s.r + g.r - 16) 0 31, g := clamp (s.g + g.g - 16) 0 31,
                       b := clamp (s.b + g.b - 16) 0 31 }
    let half (c : Rgb) : Rgb := { r := c.r / 2, g := c.g / 2, b := c.b / 2 }
    let mix (c : Rgb) : Rgb := { r := (c.r + d.r) / 2, g := (c.g + d.g) / 2, b := (c.b + d.b) / 2 }
    let is (flag : Bool) (c : Rgb) : Prop :=
      ∃ w, writeDatum m src dst g = some w ∧ w.getLsbD 15 = flag ∧ unpack w = c
    (m.mon = true → is true d) ∧
      (m.mon = false →
        (m.cc = .replace → writeDatum m src dst g = some src) ∧
          (m.cc = .shadow → dst.getLsbD 15 = true → is true (half d)) ∧
          (m.cc = .shadow → dst.getLsbD 15 = false → writeDatum m src dst g = none) ∧
          (m.cc = .halfLuminance → is (src.getLsbD 15) (half s)) ∧
          (m.cc = .halfTransparency → dst.getLsbD 15 = true → is (src.getLsbD 15) (mix s)) ∧
          (m.cc = .halfTransparency → dst.getLsbD 15 = false → writeDatum m src dst g = some src) ∧
          (m.cc = .gouraud → is (src.getLsbD 15) lit) ∧
          (m.cc = .gouraudHalfLuminance → is (src.getLsbD 15) (half lit)) ∧
          (m.cc = .gouraudHalfTransparency → dst.getLsbD 15 = true → is (src.getLsbD 15) (mix lit)) ∧
          (m.cc = .gouraudHalfTransparency → dst.getLsbD 15 = false → is (src.getLsbD 15) lit))

/-- The tests a pixel passes before it is stored: system clipping always, user clipping inside or outside, mesh, and
line parity in double interlace (R86 to R89). -/
def Obligations.PixelTests : Prop :=
  ∀ (v : DrawEnv) (p : Point),
    v.plots p = true ↔
      0 ≤ p.x ∧ p.x ≤ v.sysH ∧ 0 ≤ p.y ∧ p.y ≤ v.sysV ∧
        (v.e.pmod.clip = true →
          ((v.user.x0 ≤ p.x ∧ p.x ≤ v.user.x1 ∧ v.user.y0 ≤ p.y ∧ p.y ≤ v.user.y1) ↔ v.e.pmod.cmod = false)) ∧
        (v.e.pmod.mesh = true → (p.x.toNat ^^^ p.y.toNat) % 2 = 0) ∧
        (v.die = true → p.y.toNat % 2 = v.dil.toNat)

/-- What `PlotPixel` does to the framebuffer: nothing when a test fails; else the word at `FbAddr` becomes the result
of the colour calculation on the word that was there, or the byte at `FbAddr` becomes the low byte of the datum; and
every other byte stays (R37, R86, R89, R101, R102). -/
def Obligations.PlotPixelStoresOneDatum : Prop :=
  ∀ (v : DrawEnv) (fb : Memory) (p : Point) (src : Word) (g : Rgb),
    let y := if v.die then p.y.toNat / 2 else p.y.toNat
    let a16 := ((y * v.geom.width + p.x.toNat) * 2) &&& 0x3FFFE
    let a8 := (y * v.geom.width + p.x.toNat) &&& 0x3FFFF
    let after := plotPixel v fb p src g
    (v.plots p = false → after = fb) ∧
      (v.plots p = true → v.geom.bpp = 16 →
        after.read16 fbSize a16 = (writeDatum v.e.pmod src (fb.read16 fbSize a16) g).getD (fb.read16 fbSize a16) ∧
          ∀ x, x ≠ a16 → x ≠ a16 + 1 → after.byte x = fb.byte x) ∧
      (v.plots p = true → v.geom.bpp = 8 →
        after.byte a8 = BitVec.ofNat 8 src.toNat ∧ ∀ x, x ≠ a8 → after.byte x = fb.byte x)

/-- `LINE` and `PLIN` visit one pixel more than the steps of each of their lines, and are visible exactly when a
visited pixel lies in the system clip area (R95, R103, R115, R116). -/
def Obligations.LinesVisitTheirPixels : Prop :=
  ∀ (v : DrawEnv) (fb : Memory),
    let q := entryQuad v
    let seen (a b : Point) : Prop := ∃ j ≤ steps a b, v.inSysClip (linePoint a b j (steps a b)) = true
    (drawSegment v fb).result.visited = max (q.b.x - q.a.x).natAbs (q.b.y - q.a.y).natAbs + 1 ∧
      ((drawSegment v fb).result.visible = true ↔ seen q.a q.b) ∧
      (drawOutline v fb).result.visited = steps q.a q.b + steps q.b q.c + steps q.c q.d + steps q.d q.a + 4 ∧
      ((drawOutline v fb).result.visible = true ↔ seen q.a q.b ∨ seen q.b q.c ∨ seen q.c q.d ∨ seen q.d q.a)

/-- A fill of an axis-aligned rectangle covers exactly the pixels of the rectangle, in either direction on each axis,
and an untextured one visits each once (R105). -/
def Obligations.RectanglesAreCovered : Prop :=
  ∀ (l t r b : Int),
    (∀ p : Point, (rectQuad l t r b).Covers p ↔ min l r ≤ p.x ∧ p.x ≤ max l r ∧ min t b ≤ p.y ∧ p.y ≤ max t b) ∧
      ∀ (v : DrawEnv) (fb : Memory),
        (fillQuad v (rectQuad l t r b) false fb).result.visited = ((r - l).natAbs + 1) * ((b - t).natAbs + 1)

/-- Where a command's figure lies. The vertices of an entry are its sign-extended words with the local offset added
(R110); a normal sprite has the size of its texture at vertex A (R111); a scaled sprite spans on each axis what the
selector of that axis says, `ZP[1:0]` for x and `ZP[3:2]` for y, with the local offset added after (R112): two points,
or a display size at the low edge, at the centre or at the high edge. -/
def Obligations.VerticesAndZoomPoints : Prop :=
  ∀ (v : DrawEnv),
    let x (w : Word) : Int := sext13 w + v.localX
    let y (w : Word) : Int := sext13 w + v.localY
    let span (z : ZoomSel) (a b c : Int) : Int × Int :=
      match z with
      | .twoPoint => (a, c)
      | .low => (a, a + b)
      | .centre => (a - b / 2, a + (b + 1) / 2)
      | .high => (a - b, a)
    let h := span v.e.zoomX (sext13 v.e.xa) (sext13 v.e.xb) (sext13 v.e.xc)
    let w := span v.e.zoomY (sext13 v.e.ya) (sext13 v.e.yb) (sext13 v.e.yc)
    let rect (l t r b : Int) : Quad := { a := ⟨l, t⟩, b := ⟨r, t⟩, c := ⟨r, b⟩, d := ⟨l, b⟩ }
    entryQuad v =
        { a := ⟨x v.e.xa, y v.e.ya⟩, b := ⟨x v.e.xb, y v.e.yb⟩, c := ⟨x v.e.xc, y v.e.yc⟩,
          d := ⟨x v.e.xd, y v.e.yd⟩ } ∧
      normalQuad v =
        rect (x v.e.xa) (y v.e.ya) (x v.e.xa + v.e.texW - 1) (y v.e.ya + v.e.texH - 1) ∧
      scaledQuad v = rect (h.1 + v.localX) (w.1 + v.localY) (h.2 + v.localX) (w.2 + v.localY) ∧
      ∀ a b c : Int, (∀ z, z ≠ .twoPoint → (axisPair z a b c).2 - (axisPair z a b c).1 = b) ∧
        (axisPair .centre a b c).1 + (axisPair .centre a b c).2 - 2 * a = b % 2

/-- After `POLY`, `PLIN` or `LINE` in a 16-bit geometry with colour calculation "replace" and MSB-on off, every pixel of
the primitive that passes the tests, the AA pixels of a fill among them, holds CMDCOLR, whatever was there before
(R86, R96, R98, R100, R101, R104, R114 to R116). That this is so of the AA pixels of a fully clipped `POLY` too, as R96 and
R98 say and R117 does not, is the model's reading (log 20). -/
def Obligations.UntexturedPixelsTakeTheColour : Prop :=
  ∀ (i : Instr) (e : Entry) (s t : State) (g : Geometry) (p : Point),
    i.drawing = some (false, e) → s.canDraw false e = true → geometry s.tvm = some g → g.bpp = 16 →
      e.pmod.cc = .replace → e.pmod.mon = false → exec i s = .next t →
      i.Plots (drawEnv s e g) p → (drawEnv s e g).plots p = true →
      t.memRead16 s.drawSpace ((drawEnv s e g).pixelAddr p) = e.colr

/-- `NSPR` on a 512-pixel-wide 16-bit framebuffer (TVM 0, 2 or 4), with the sprite inside the clip area and the
framebuffer, no mesh, no double interlace, no user clipping and colour calculation "replace". The texel of pixel
`(A.x + j, A.y + k)` is texel `(j, k)`, mirrored as DirH and DirV say. The pixel gets the colour of its texel, unless the
texel is transparent: an honoured end code, or 0 with SPD = 0; or its row has ended at a second end code. A pixel not
drawn keeps its word. Of each row the pixels up to the one that ends it are visited (R91 to R94, R97, R98, R105,
R111). -/
def Obligations.NormalSpriteShowsItsTexture : Prop :=
  ∀ (e : Entry) (s : State),
    let g : Geometry := { width := 512, height := 256, bpp := 16 }
    s.canDraw true e = true → geometry s.tvm = some g → s.die = false → e.pmod.mon = false →
      e.pmod.clip = false → e.pmod.mesh = false → e.pmod.cc = .replace → 0 < e.texW → 0 < e.texH →
      let v := drawEnv s e g
      let a := vertex v.localX v.localY e.xa e.ya
      let t (j k : Nat) : Nat := texel v (if e.dirH then e.texW - 1 - j else j) (if e.dirV then e.texH - 1 - k else k)
      let code : Nat := if e.pmod.cm.toBits.toNat ≤ 1 then 0xF else if e.pmod.cm.toBits.toNat ≤ 4 then 0xFF else 0x7FFF
      let ends (j k : Nat) : Bool := !e.pmod.ecd && t j k == code
      let before (j k : Nat) : Nat := (List.range j).countP fun i => ends i k
      0 ≤ a.x → a.x + e.texW - 1 ≤ min v.sysH 511 → 0 ≤ a.y → a.y + e.texH - 1 ≤ min v.sysV 255 →
      ∃ u, exec (.nspr e) s = .next u ∧
        (∀ j < e.texW, ∀ k < e.texH,
          let at_ := ((a.y.toNat + k) * 512 + (a.x.toNat + j)) * 2
          u.memRead16 s.drawSpace at_ =
            if before j k < 2 ∧ ends j k = false ∧ (e.pmod.spd = true ∨ t j k ≠ 0) then texelColour v (t j k)
            else s.memRead16 s.drawSpace at_) ∧
        u.proc.frameCycles =
          s.proc.frameCycles +
            Config.cmdCost (.nspr e)
              { visited :=
                  ((List.range e.texH).map fun k => (List.range e.texW).countP fun j => decide (before j k < 2)).sum
                visible := true }

/-- A command none of whose visited pixels lies in the system clip area completes: it reports "contained no visible
pixels", is charged for what it visited, and stores nothing but AA pixels of a fill that pass the tests; so the commands
without diagonal AA steps (`NSPR`, `SSPR`, `PLIN`, `LINE`) change no memory (R75, R96, R103). A primitive whose vertices all
lie beyond one side of the clip area visits no pixel inside and changes no memory (R75, R86). The AA pixels are the one
place where R117, a consequence drawn from R86 and R103, says more than R96 and R98 do: the third clause is a polygon
that visits no pixel inside, and whose AA pixel is plotted at (0, 0). That R96 and R98 are followed there, by D18 and
U27, is the model's reading (log 20). -/
def Obligations.ClippedPrimitivesDrawNothing : Prop :=
  (∀ (i : Instr) (tx : Bool) (e : Entry) (s : State) (g : Geometry),
      i.drawing = some (tx, e) → s.canDraw tx e = true → geometry s.tvm = some g →
        let v := drawEnv s e g
        let fb := s.mem s.drawSpace
        ((∀ r, i.Visits v fb r → v.inSysClip r = false) →
            ∃ t, exec i s = .next t ∧ t.proc.lastVisible = false ∧
              t.proc.frameCycles =
                s.proc.frameCycles +
                  Config.cmdCost i
                    { visited := ((i.lines v).map fun l => (drawLine v l fb).result.visited).sum, visible := false } ∧
              (∀ sp, sp ≠ s.drawSpace → t.mem sp = s.mem sp) ∧
              (∀ x, (∀ r, i.PlotsAa v fb r → v.plots r = true → v.storesAt r x = false) →
                (t.mem s.drawSpace).byte x = fb.byte x) ∧
              (i ∈ [.nspr e, .sspr e, .plin e, .line e] → t.mem s.drawSpace = fb)) ∧
          ((i.quad v).beyond v →
            (∀ r, i.Visits v fb r → v.inSysClip r = false) ∧
              ∃ t, exec i s = .next t ∧ t.proc.lastVisible = false ∧ ∀ sp, t.mem sp = s.mem sp)) ∧
    ∃ (v : DrawEnv) (fb : Memory),
      v.geom = { width := 512, height := 256, bpp := 16 } ∧ v.sysH = 319 ∧ v.sysV = 223 ∧
        (∀ r, (Instr.poly v.e).Visits v fb r → v.inSysClip r = false) ∧
        ((Instr.poly v.e).draw v fb).result.visible = false ∧ fb.read16 fbSize 0 = 0 ∧ v.e.colr ≠ 0 ∧
        ((Instr.poly v.e).draw v fb).fb.read16 fbSize 0 = v.e.colr

/-- A textured line, column by column. A texel counts as an end code if it is honoured (ECD = 0), is the end code of its
colour mode, and its column is not the column of the pixel before. The line visits its pixels up to the one whose texel
is the second that counts. Nothing is stored at a pixel that ends the line or comes after it, or whose texel is an end
code, or is 0 with SPD = 0; nor at the AA pixel of its step. The line is visible if a visited pixel other than the one
that ends it lies in the clip area (R90, R93, R94, R96, R97, R98, R103). -/
def Obligations.LinesEndAtTheirSecondEndCode : Prop :=
  ∀ (v : DrawEnv) (l : LineSpec) (row : Nat) (fb : Memory), l.tex = some row → v.e.pmod.cm.toBits.toNat ≤ 5 →
    let n := steps l.p l.q
    let col (j : Nat) : Nat := j * v.e.texW / (n + 1)
    let t (j : Nat) : Nat := texel v (if v.e.dirH then v.e.texW - 1 - col j else col j) row
    let code : Nat :=
      if v.e.pmod.cm.toBits.toNat ≤ 1 then 0xF else if v.e.pmod.cm.toBits.toNat ≤ 4 then 0xFF else 0x7FFF
    let ends (j : Nat) : Bool := !v.e.pmod.ecd && t j == code
    let counted (j : Nat) : Bool := ends j && (j == 0 || col (j - 1) != col j)
    let before (j : Nat) : Nat := (List.range j).countP counted
    let at_ (j : Nat) : Point := linePoint l.p l.q j n
    let d := drawLine v l fb
    d.result.visited = (List.range (n + 1)).countP (fun j => decide (before j < 2)) ∧
      (d.result.visible = true ↔ ∃ j ≤ n, before (j + 1) < 2 ∧ v.inSysClip (at_ j) = true) ∧
      ∀ x,
        (∀ j ≤ n, before (j + 1) < 2 → ends j = false → (v.e.pmod.spd = true ∨ t j ≠ 0) →
          ∀ p, (p = at_ j ∨ (l.aa = true ∧ 0 < j ∧ p = aaPoint (at_ (j - 1)) (at_ j) (xMajor l.p l.q))) →
            v.plots p = true → v.storesAt p x = false) →
        d.fb.byte x = fb.byte x

/-! ### Faults (`60_exceptions.md`) -/

/-- The status `Fault` is left only by a host write to PTMR or ENDR, by a reset, or by the swap at the entry of
`LastLine` with PTM = 2 (R186). The queue `hostOps` and the small steps `ctl` are the model's (log 2, 3). -/
def Obligations.FaultIsLeftOnlyByRestartOrStop : Prop :=
  ∀ s t : State, s.faulted = true → step s = .next t →
    t.proc.status = s.proc.status ∨
      (∃ r, s.ctl = .enterV r ∧ s.tim.vPhase = .topBorder ∧ s.ptm = 2 ∧ t.proc.status = .busy ∧ t.proc.cmdAddr = 0) ∨
      ∃ op rest, s.ctl = .hostTurn ∧ s.hostOps = op :: rest ∧
        ((∃ hard, op = .reset hard) ∨
          ∃ off, ((∃ w, op = .write16 .vdp1Regs off w) ∨ ∃ b, op = .write8 .vdp1Regs off b) ∧
            (off % 0x20 / 2 * 2 = 0x04 ∧ t.proc.status = .busy ∨ off % 0x20 / 2 * 2 = 0x0C ∧ t.proc.status = .idle))

/-! ### Framebuffer control (`43_vdp1_framebuffer_control.md`) -/

/-- A step changes the display framebuffer only by an erase at the entry of `BottomBorder` or `LastLine`, outside the
vertical `Active` phase of the picture, and there its contents are those the erase leaves; or by a hard reset. Neither a
command nor a host access reaches it (R38, R118, R129, R131). The queue `hostOps` and the small steps `ctl` are the
model's (log 2, 3). -/
def Obligations.DisplayFramebufferIsStable : Prop :=
  ∀ s t : State, step s = .next t →
    t.mem s.displaySpace = s.mem s.displaySpace ∨
      (∃ r, s.ctl = .enterV r ∧
        (s.tim.vPhase = .active ∧ t.tim.vPhase = .bottomBorder ∨
          s.tim.vPhase = .topBorder ∧ t.tim.vPhase = .lastLine) ∧
        t.mem s.displaySpace = (s.erase s.seq.drawFB.other).mem s.displaySpace) ∨
      ∃ rest, s.ctl = .hostTurn ∧ s.hostOps = .reset true :: rest

/-- The erase fills exactly the cells of the clamped rectangle of EWLR and EWRR with EWDR; with a reserved geometry it
writes nothing; it changes nothing outside the framebuffer it erases (R129). -/
def Obligations.EraseFillsItsRectangle : Prop :=
  ∀ (s : State) (f : FbId),
    (geometry s.tvm = none → s.erase f = s) ∧
      ∀ g, geometry s.tvm = some g →
        (∃ m, s.erase f = s.setMem (.fb f) m) ∧
          ∀ y < g.height, ∀ w < g.lineWords,
            ((s.erase f).mem (.fb f)).read16 0x40000 ((y * g.lineWords + w) * 2) =
              if s.regs1.ewlr.toNat % 0x200 ≤ y ∧ y ≤ s.regs1.ewrr.toNat % 0x200 ∧
                  s.regs1.ewlr.toNat / 0x200 % 0x40 * 8 ≤ w ∧ w < s.regs1.ewrr.toNat / 0x200 * 8 then
                s.regs1.ewdr
              else (s.mem (.fb f)).read16 0x40000 ((y * g.lineWords + w) * 2)

/-- The swap: the request is consumed, the framebuffers exchanged, BEF takes CEF, LOPR takes COPR, a running list is
abandoned, the callback is emitted, and with PTM = 2 drawing starts at address 0 (R132, R125). -/
def Obligations.SwapResult : Prop :=
  ∀ s : State,
    let t : State :=
      { s with
        seq := { s.seq with drawFB := s.seq.drawFB.other, manualSwapReq := false }
        regs1 :=
          { s.regs1 with
            edsr := if s.regs1.edsr.getLsbD 1 then 0x0001 else 0x0000
            lopr := s.regs1.copr
            copr := 0 }
        proc := { s.proc with status := if s.proc.status = .busy then .idle else s.proc.status }
        trace := s.trace ++ [.framebufferSwap] }
    (s.regs1.ptmr.toNat % 4 ≠ 2 → s.swap = t) ∧
      (s.regs1.ptmr.toNat % 4 = 2 →
        s.swap =
          { t with
            proc := { t.proc with status := .busy, cmdAddr := 0, frameCycles := 0, cyclePool := 0 }
            ctx := { s.ctx with retAddr := none } })

/-- The frame boundary: in automatic mode erase and swap; in manual mode each only when requested (R133). -/
def Obligations.FrameBoundaryErasesThenSwaps : Prop :=
  ∀ s : State,
    let erased : State := { s with seq := { s.seq with manualEraseReq := false } }.erase s.seq.drawFB.other
    (s.fcm = false → s.frameBoundary = erased.swap) ∧
      (s.fcm = true → s.seq.manualEraseReq = true → s.seq.manualSwapReq = true → s.frameBoundary = erased.swap) ∧
      (s.fcm = true → s.seq.manualEraseReq = true → s.seq.manualSwapReq = false → s.frameBoundary = erased) ∧
      (s.fcm = true → s.seq.manualEraseReq = false → s.seq.manualSwapReq = true → s.frameBoundary = s.swap) ∧
      (s.fcm = true → s.seq.manualEraseReq = false → s.seq.manualSwapReq = false → s.frameBoundary = s)

/-! ### Host operations (`20_memory.md`, `10_state.md`, `70_reset_and_hazards.md`) -/

/-- Every write of the VDP1 register region, what it stores and the action it performs, with nothing else changed. TVMR,
FBCR, PTMR, EWDR, EWLR and EWRR store their bits, FBCR and PTMR with their requests, and ENDR stops the processor
(R12 to R18, R126 to R128); EDSR, LOPR, COPR, MODR and the offsets without a register ignore it (R11, R49). A byte write
is the word write of the stored word with that byte replaced, the high byte at an even offset (R49). -/
def Obligations.RegisterWriteActions : Prop :=
  ∀ (s : State) (off : Nat) (v : Word) (b : Byte),
    let reg := off % 0x20 / 2 * 2
    let held : Word :=
      if reg = 0x00 then s.regs1.tvmr
      else if reg = 0x02 then s.regs1.fbcr
      else if reg = 0x04 then s.regs1.ptmr
      else if reg = 0x06 then s.regs1.ewdr
      else if reg = 0x08 then s.regs1.ewlr
      else if reg = 0x0A then s.regs1.ewrr
      else 0
    (reg = 0x04 →
        let stored : State := { s with regs1 := { s.regs1 with ptmr := v &&& 0x0003#16 } }
        (v.toNat % 4 ≠ 1 → s.write16 .vdp1Regs off v = stored) ∧
          (v.toNat % 4 = 1 →
            s.write16 .vdp1Regs off v =
              { stored with
                regs1 := { stored.regs1 with edsr := s.regs1.edsr &&& 0xFFFD#16 }
                proc := { s.proc with status := .busy, cmdAddr := 0, frameCycles := 0, cyclePool := 0 }
                ctx := { s.ctx with retAddr := none } })) ∧
      (reg = 0x0C → s.write16 .vdp1Regs off v = { s with proc := { s.proc with status := .idle } }) ∧
      (reg = 0x02 →
        s.write16 .vdp1Regs off v =
          { s with
            regs1 := { s.regs1 with fbcr := v &&& 0x001F#16 }
            seq :=
              { s.seq with
                manualSwapReq := s.seq.manualSwapReq || (v.getLsbD 1 && v.getLsbD 0)
                manualEraseReq := s.seq.manualEraseReq || (v.getLsbD 1 && !v.getLsbD 0) } }) ∧
      (reg = 0x00 → s.write16 .vdp1Regs off v = { s with regs1 := { s.regs1 with tvmr := v &&& 0x000F#16 } }) ∧
      (reg = 0x06 → s.write16 .vdp1Regs off v = { s with regs1 := { s.regs1 with ewdr := v } }) ∧
      (reg = 0x08 → s.write16 .vdp1Regs off v = { s with regs1 := { s.regs1 with ewlr := v &&& 0x7FFF#16 } }) ∧
      (reg = 0x0A → s.write16 .vdp1Regs off v = { s with regs1 := { s.regs1 with ewrr := v } }) ∧
      (0x0E ≤ reg → s.write16 .vdp1Regs off v = s ∧ s.write8 .vdp1Regs off b = s) ∧
      s.write8 .vdp1Regs off b =
        s.write16 .vdp1Regs off
          (if off % 2 = 0 then b ++ BitVec.ofNat 8 held.toNat else BitVec.ofNat 8 (held.toNat / 0x100) ++ b)

/-- MODR as a number, what a read of its offset answers, its value after reset, and that a write or a poke of its offset
stores nothing: it is read-only and derived (R22). -/
def Obligations.ModrIsComposed : Prop :=
  ∀ s : State,
    s.modr.toNat =
        1 * 0x1000 + (s.regs1.ptmr.getLsbD 1).toNat * 0x100 + (s.regs1.fbcr.getLsbD 4).toNat * 0x80 +
            (s.regs1.fbcr.getLsbD 3).toNat * 0x40 + (s.regs1.fbcr.getLsbD 2).toNat * 0x20 +
            (s.regs1.fbcr.getLsbD 1).toNat * 0x10 + (s.regs1.tvmr.getLsbD 3).toNat * 8 + s.regs1.tvmr.toNat % 8 ∧
      (s.answer16 false .vdp1Regs 0x16).replies = s.replies ++ [.word s.modr] ∧ State.reset.modr = 0x1000 ∧
      ∀ (w : Word) (b : Byte),
        s.write16 .vdp1Regs 0x16 w = s ∧ s.poke16 .vdp1Regs 0x16 w = s ∧
          ∀ off ∈ [0x16, 0x17], s.write8 .vdp1Regs off b = s ∧ s.poke8 .vdp1Regs off b = s

/-- A read without a specified value answers a free value and changes nothing else: a read of a write-only VDP1 register,
a read or a peek of a VDP1 offset without a register (0x0E, and from 0x18 on), and a read or a peek of the VDP2 bank from
0x120 to 0x1FF. The free word is the one of the counter of free values, which moves on; of a byte access it is the byte
at the offset, the high byte at an even one. The statement holds for whatever value it is (R11, R32, R47, U3, U4,
log 5). -/
def Obligations.UnspecifiedReadsChangeNothing : Prop :=
  ∀ (s : State) (peek : Bool) (r : Region) (off : Nat),
    let reg := off % 0x20 / 2 * 2
    (r = .vdp1Regs ∧ (reg = 0x0E ∨ 0x18 ≤ reg ∨ peek = false ∧ reg < 0x0E)) ∨
        (r = .vdp2Regs ∧ 0x120 ≤ off % 0x200) →
      let w := Config.freeWord s.freeCtr
      s.answer16 peek r off = { s with replies := s.replies ++ [.word w], freeCtr := s.freeCtr + 1 } ∧
        s.answer8 peek r off =
          { s with
            replies := s.replies ++ [.byte (BitVec.ofNat 8 (if off % 2 = 0 then w.toNat / 0x100 else w.toNat))]
            freeCtr := s.freeCtr + 1 }

/-- A word or a byte the host writes to a memory region is what it reads back, high byte first, a word at an offset whose
bit 0 is ignored, and every offset wrapped at the region's size; every other byte of that memory and every other memory
stay (R33, R34, R35, R38). The same holds of the VDP2 register bank below 0x120, where a write also re-derives the
layer-enable table and the requested resolution and changes nothing else; from 0x120 to 0x1FF a write is ignored
(R32, R36, R49). That an ignored write re-derives nothing is the model's reading (log 6), and that no read of the bank
shows HBLANK or VBLANK its choice (log 26). -/
def Obligations.HostWritesReadBack : Prop :=
  (∀ (s : State) (r : Region) (sp : Space) (off : Nat) (w : Word) (b : Byte), s.regionSpace r = some sp →
      let t := s.write16 r off w
      let u := s.write8 r off b
      (t.answer16 false r off).replies = s.replies ++ [.word w] ∧
        (t.answer8 false r (off / 2 * 2)).replies = s.replies ++ [.byte (BitVec.ofNat 8 (w.toNat / 0x100))] ∧
        (t.answer8 false r (off / 2 * 2 + 1)).replies = s.replies ++ [.byte (BitVec.ofNat 8 w.toNat)] ∧
        (u.answer8 false r off).replies = s.replies ++ [.byte b] ∧
        s.write16 r (off + sp.size) w = t ∧ s.write8 r (off + sp.size) b = u ∧
        (∀ x, x ≠ off % sp.size / 2 * 2 → x ≠ off % sp.size / 2 * 2 + 1 → (t.mem sp).byte x = (s.mem sp).byte x) ∧
        (∀ x, x ≠ off % sp.size → (u.mem sp).byte x = (s.mem sp).byte x) ∧
        ∀ sp', sp' ≠ sp → t.mem sp' = s.mem sp' ∧ u.mem sp' = s.mem sp') ∧
    ∀ (s : State) (off : Nat) (w : Word) (b : Byte),
      let t := s.write16 .vdp2Regs off w
      let u := s.write8 .vdp2Regs off b
      let rederived (bank : Regs2) : State :=
        { s with
          regs2 := bank
          cmp := { s.cmp with layerEnable := layerEnableOf (Config.decodeVdp2 bank) }
          tim :=
            { s.tim with
              resReq := (Config.decodeVdp2 bank).resolution
              resDirty := decide ((Config.decodeVdp2 bank).resolution ≠ s.tim.resCur) } }
      (off % 0x200 < 0x120 →
          t = rederived t.regs2 ∧ u = rederived u.regs2 ∧
            (t.answer16 false .vdp2Regs off).replies = s.replies ++ [.word w] ∧
            (t.answer8 false .vdp2Regs (off / 2 * 2)).replies =
              s.replies ++ [.byte (BitVec.ofNat 8 (w.toNat / 0x100))] ∧
            (t.answer8 false .vdp2Regs (off / 2 * 2 + 1)).replies = s.replies ++ [.byte (BitVec.ofNat 8 w.toNat)] ∧
            (u.answer8 false .vdp2Regs off).replies = s.replies ++ [.byte b] ∧
            (∀ k : Fin 0x120, k.val / 2 ≠ off % 0x200 / 2 → t.regs2[k] = s.regs2[k]) ∧
            ∀ k : Fin 0x120, k.val ≠ off % 0x200 → u.regs2[k] = s.regs2[k]) ∧
        (0x120 ≤ off % 0x200 → t = s ∧ u = s)

/-- Pokes and peeks. A poke stores what the matching write stores and has none of its side effects: no start, no stop, no
request, no penalty, no callback. In the VDP1 register region it stores a register's bits and nothing else, those of
EDSR, LOPR and COPR too; a byte poke stores the stored word with the byte replaced. A peek answers the stored word of a
register, 0 for ENDR and the derived value for MODR, or one of its bytes; elsewhere it answers what a read answers; and
no read or peek changes anything but the replies and the count of free values (R36, R47). -/
def Obligations.PokesHaveNoSideEffects : Prop :=
  (∀ (s : State) (r : Region) (off : Nat) (w : Word) (b : Byte),
      let t := s.poke16 r off w
      let u := s.poke8 r off b
      (t.proc = s.proc ∧ t.ctx = s.ctx ∧ t.seq = s.seq ∧ t.trace = s.trace ∧ t.replies = s.replies) ∧
        (u.proc = s.proc ∧ u.ctx = s.ctx ∧ u.seq = s.seq ∧ u.trace = s.trace ∧ u.replies = s.replies) ∧
        (∀ sp, t.mem sp = (s.write16 r off w).mem sp ∧ u.mem sp = (s.write8 r off b).mem sp) ∧
        t.regs2 = (s.write16 r off w).regs2 ∧ u.regs2 = (s.write8 r off b).regs2 ∧
        (t.regs1.tvmr, t.regs1.fbcr, t.regs1.ptmr, t.regs1.ewdr, t.regs1.ewlr, t.regs1.ewrr) =
          ((s.write16 r off w).regs1.tvmr, (s.write16 r off w).regs1.fbcr, (s.write16 r off w).regs1.ptmr,
            (s.write16 r off w).regs1.ewdr, (s.write16 r off w).regs1.ewlr, (s.write16 r off w).regs1.ewrr)) ∧
    (∀ (s : State) (off : Nat) (w : Word) (b : Byte),
      let reg := off % 0x20 / 2 * 2
      let held : Word :=
        if reg = 0x00 then s.regs1.tvmr
        else if reg = 0x02 then s.regs1.fbcr
        else if reg = 0x04 then s.regs1.ptmr
        else if reg = 0x06 then s.regs1.ewdr
        else if reg = 0x08 then s.regs1.ewlr
        else if reg = 0x0A then s.regs1.ewrr
        else if reg = 0x10 then s.regs1.edsr
        else if reg = 0x12 then s.regs1.lopr
        else if reg = 0x14 then s.regs1.copr
        else if reg = 0x16 then s.modr
        else 0
      let poked (w : Word) : State :=
        if reg = 0x00 then { s with regs1 := { s.regs1 with tvmr := w &&& 0x000F#16 } }
        else if reg = 0x02 then { s with regs1 := { s.regs1 with fbcr := w &&& 0x001F#16 } }
        else if reg = 0x04 then { s with regs1 := { s.regs1 with ptmr := w &&& 0x0003#16 } }
        else if reg = 0x06 then { s with regs1 := { s.regs1 with ewdr := w } }
        else if reg = 0x08 then { s with regs1 := { s.regs1 with ewlr := w &&& 0x7FFF#16 } }
        else if reg = 0x0A then { s with regs1 := { s.regs1 with ewrr := w } }
        else if reg = 0x10 then { s with regs1 := { s.regs1 with edsr := w &&& 0x0003#16 } }
        else if reg = 0x12 then { s with regs1 := { s.regs1 with lopr := w } }
        else if reg = 0x14 then { s with regs1 := { s.regs1 with copr := w } }
        else s
      let high : Byte := BitVec.ofNat 8 (held.toNat / 0x100)
      let low : Byte := BitVec.ofNat 8 held.toNat
      s.poke16 .vdp1Regs off w = poked w ∧
        s.poke8 .vdp1Regs off b = poked (if off % 2 = 0 then b ++ low else high ++ b) ∧
        (reg ≤ 0x16 → reg ≠ 0x0E →
          s.answer16 true .vdp1Regs off = { s with replies := s.replies ++ [.word held] } ∧
            s.answer8 true .vdp1Regs off =
              { s with replies := s.replies ++ [.byte (if off % 2 = 0 then high else low)] })) ∧
    ∀ (s : State) (r : Region) (off : Nat),
      (r ≠ .vdp1Regs →
          s.answer16 true r off = s.answer16 false r off ∧ s.answer8 true r off = s.answer8 false r off) ∧
        ∀ peek,
          (∃ (w : Word) (n : Nat),
              s.answer16 peek r off = { s with replies := s.replies ++ [.word w], freeCtr := n }) ∧
            ∃ (b : Byte) (n : Nat), s.answer8 peek r off = { s with replies := s.replies ++ [.byte b], freeCtr := n }

/-- A host write to VRAM1 takes the write penalty from the pool exactly when the processor is `Busy`, and never counts
it in the cycles of the list; a poke costs nothing (R48). -/
def Obligations.WritePenaltyOnlyWhileBusy : Prop :=
  ∀ (s : State) (off : Nat) (w : Word) (b : Byte),
    let paid : Proc := { s.proc with cyclePool := s.proc.cyclePool - Config.vramWritePenalty }
    (s.proc.status = .busy →
        (s.write16 .vdp1Vram off w).proc = paid ∧ (s.write8 .vdp1Vram off b).proc = paid) ∧
      (s.proc.status ≠ .busy →
        (s.write16 .vdp1Vram off w).proc = s.proc ∧ (s.write8 .vdp1Vram off b).proc = s.proc) ∧
      (s.poke16 .vdp1Vram off w).proc = s.proc ∧ (s.poke8 .vdp1Vram off b).proc = s.proc

/-- Both resets set every register, flag and phase to the value of R205, and leave the compositor's working rows and every
pixel of its picture unspecified: free values, numbered from the counter of free values, which moves past them; that is
the model's form of U2 (log 14). A soft reset leaves the memories; a hard reset makes their contents unspecified: five
memories with nothing written, whose contents are free values numbered from that counter likewise, the model's form of it
(R205, R206, log 1, 4). That the host's own side, its operations, replies and trace, stays, is the model's choice
(log 3); no callback is emitted. -/
def Obligations.ResetSetsEveryRegister : Prop :=
  ∀ (s : State) (hard : Bool),
    let t := s.hostReset hard
    let res : Resolution := { h := .h320, exclusive := false, v := .v224, interlace := .none }
    (t.regs1 = { tvmr := 0, fbcr := 0, ptmr := 0, ewdr := 0, ewlr := 0, ewrr := 0, edsr := 0, lopr := 0, copr := 0 } ∧
        t.modr = 0x1000) ∧
      t.ctx =
        { sysClipH := none, sysClipV := none, userX0 := none, userY0 := none, userX1 := none, userY1 := none,
          localX := none, localY := none, retAddr := none } ∧
      t.proc = { cmdAddr := 0, status := .idle, cyclePool := 0, frameCycles := 0, lastVisible := false } ∧
      t.seq = { drawFB := .fb0, manualSwapReq := false, manualEraseReq := false } ∧
      (∀ k : Fin 0x120, t.regs2[k] = 0) ∧
      t.tim =
        { hPhase := .active, vPhase := .lastLine, hCyc := 0, vLine := 0, vCounter := 0, field := false,
          hblank := false, vblank := false, resCur := res, resReq := res, resDirty := false } ∧
      t.cmp.frameCfg.resolution = (Config.decodeVdp2 t.regs2).resolution ∧
      t.cmp.lineCfg = Config.decodeVdp2 t.regs2 ∧ t.cmp.layerEnable = layerEnableOf (Config.decodeVdp2 t.regs2) ∧
      (∀ l, ∀ x < 320, (t.cmp.rows.get l)[x]? = some (Config.freeLayerPx s.freeCtr l x)) ∧
      (∀ x < 320, t.cmp.outRow[x]? = some (Config.freeOutPixel s.freeCtr x)) ∧
      (∀ n < 224, ∀ x < 320, (t.picture[n]?.bind fun row => row[x]?) = some (Config.undrawnPixel s.freeCtr n x)) ∧
      t.trace = s.trace ∧ t.hostOps = s.hostOps ∧ t.replies = s.replies ∧
      (hard = false → t.mem = s.mem ∧ t.freeCtr = s.freeCtr + 1) ∧
      (hard = true →
        t.vram1 = { fill := s.freeCtr + 1, cells := [] } ∧ t.fb0 = { fill := s.freeCtr + 2, cells := [] } ∧
          t.fb1 = { fill := s.freeCtr + 3, cells := [] } ∧ t.vram2 = { fill := s.freeCtr + 4, cells := [] } ∧
          t.cram = { fill := s.freeCtr + 5, cells := [] } ∧ t.freeCtr = s.freeCtr + 6)

/-! ### The timing controller (`45_timing_controller.md`) -/

/-- The chunk of `Advance`: the smaller of what remains and what the phase has left; a `Busy` processor is granted it,
any other loses it; after it the cycles are counted and a completed phase is left (R167). The small steps `ctl` are the
model's (log 3). -/
def Obligations.AdvanceServesOneChunk : Prop :=
  ∀ (s : State) (r c : Nat), s.vdp1Enabled = false →
    (s.ctl = .advance 0 → step s = .next { s with ctl := .hostTurn }) ∧
      (s.ctl = .advance (r + 1) →
        let k := min (r + 1) (Config.hLen s.tim.resCur s.tim.hPhase - s.tim.hCyc)
        step s =
          .next
            { s with
              ctl := .serve k (r + 1)
              proc :=
                { s.proc with
                  cyclePool := if s.proc.status = .busy then s.proc.cyclePool + k else s.proc.cyclePool } }) ∧
      (s.ctl = .serve c r →
        step s =
          .next
            { s with
              tim := { s.tim with hCyc := s.tim.hCyc + c }
              ctl :=
                if s.tim.hCyc + c = Config.hLen s.tim.resCur s.tim.hPhase then .enterH (r - c) else .advance (r - c) })

/-- The entries of the four horizontal phases, by the phase that ends: HBLANK with its callback and hint at `RightBorder`
and `Active`, a scanline at `Active` while the picture is active, a counted line at `Sync`, nothing at `LeftBorder`
(R166, R167, R170, R171, R172). The small steps `ctl` are the model's (log 3). -/
def Obligations.HorizontalPhaseEntries : Prop :=
  ∀ (s : State) (r : Nat), s.vdp1Enabled = false → s.ctl = .enterH r →
    let goOn (p : HPhase) : Control := if 0 < Config.hLen s.tim.resCur p then .advance r else .enterH r
    (s.tim.hPhase = .active →
        step s =
          .next
            { s with
              tim := { s.tim with hPhase := .rightBorder, hCyc := 0, hblank := true }
              trace := s.trace ++ [.hBlankStateChange true, .statusReadHint]
              ctl := goOn .rightBorder }) ∧
      (s.tim.hPhase = .rightBorder →
        step s =
          .next
            { s with
              tim :=
                { s.tim with
                  hPhase := .sync
                  hCyc := 0
                  vLine := s.tim.vLine + 1
                  vCounter := s.tim.vCounter + 1 }
              ctl :=
                if s.tim.vLine + 1 = Config.vLen s.tim.resCur s.tim.vPhase then .enterV r else goOn .sync }) ∧
      (s.tim.hPhase = .sync →
        step s = .next { s with tim := { s.tim with hPhase := .leftBorder, hCyc := 0 }, ctl := goOn .leftBorder }) ∧
      (s.tim.hPhase = .leftBorder →
        let t : State :=
          { s with
            tim := { s.tim with hPhase := .active, hCyc := 0, hblank := false }
            trace := s.trace ++ [.hBlankStateChange false, .statusReadHint]
            ctl := goOn .active }
        step s = .next (if s.tim.vPhase = .active then t.drawScanline s.tim.vLine else t))

/-- The entries of the six vertical phases, by the phase that ends: the frame start with its resolution latch, the
callbacks of `BottomBorder` around the VBlank erase, the counter skip, and the frame boundary at `LastLine`
(R130, R172 to R175, R178). At the latch the picture keeps the lines that fit the new size, and its undrawn lines
have fresh free contents (R156, U2, log 14). The small
steps `ctl` are the model's (log 3). -/
def Obligations.VerticalPhaseEntries : Prop :=
  ∀ (s : State) (r : Nat), s.vdp1Enabled = false → s.ctl = .enterV r →
    let enter (p : VPhase) : State := { s with tim := { s.tim with vPhase := p, vLine := 0 } }
    let goOn (t : State) : State :=
      { t with
        ctl :=
          if 0 < Config.vLen t.tim.resCur t.tim.vPhase then
            if 0 < Config.hLen t.tim.resCur t.tim.hPhase then .advance r else .enterH r
          else .enterV r }
    (s.tim.vPhase = .lastLine →
        step s =
          .next
            (goOn
              { s with
                tim :=
                  { s.tim with
                    vPhase := .active
                    vLine := 0
                    vCounter := 0
                    field := !s.tim.field
                    resCur := if s.tim.resDirty then s.tim.resReq else s.tim.resCur
                    resDirty := false }
                cmp :=
                  { s.cmp with
                    frameCfg := { resolution := (Config.decodeVdp2 s.regs2).resolution }
                    out :=
                      if s.tim.resDirty then
                        s.cmp.out.filter fun l =>
                          decide (l.1 < dispH s.tim.resReq) && l.2.length == dispW s.tim.resReq
                      else s.cmp.out
                    fill := if s.tim.resDirty then s.freeCtr else s.cmp.fill }
                freeCtr := if s.tim.resDirty then s.freeCtr + 1 else s.freeCtr
                trace :=
                  s.trace ++
                    if s.tim.resDirty then [.resolutionChanged (dispW s.tim.resReq) (dispH s.tim.resReq)] else [] })) ∧
      (s.tim.vPhase = .active →
        let t : State :=
          { enter .bottomBorder with
            tim := { s.tim with vPhase := .bottomBorder, vLine := 0, vblank := true }
            trace := s.trace ++ [.vBlankStateChange true, .vBlankEntry, .statusReadHint] }
        let u : State := if s.vbe && s.fcm && s.seq.manualSwapReq then t.erase s.seq.drawFB.other else t
        step s = .next (goOn { u with trace := u.trace ++ [.vdp2FrameDrawn] })) ∧
      (s.tim.vPhase = .bottomBorder → step s = .next (goOn (enter .blankingAndSync))) ∧
      (s.tim.vPhase = .blankingAndSync →
        step s =
          .next
            (goOn
              { s with
                tim :=
                  { s.tim with
                    vPhase := .vCounterSkip
                    vLine := 0
                    vCounter := s.tim.vCounter + Config.vSkip Config.standard s.tim.resCur } })) ∧
      (s.tim.vPhase = .vCounterSkip → step s = .next (goOn (enter .topBorder))) ∧
      (s.tim.vPhase = .topBorder →
        step s =
          .next
            (goOn
              (State.frameBoundary
                { enter .lastLine with
                  tim := { s.tim with vPhase := .lastLine, vLine := 0, vblank := false }
                  trace := s.trace ++ [.vBlankStateChange false, .statusReadHint] })))

/-- The latched resolution changes only at the entry of vertical `Active` with a request pending, to the requested one,
with its notification; or by a reset (R178, R177). `RequestResolution` stores the request and whether it differs from
the latched resolution, and changes nothing else (R177); that it leaves the register bank as it is, too, is the model's
choice (log 25). The small steps `ctl` and the queue `hostOps` are the model's (log 2, 3). -/
def Obligations.ResolutionLatchesAtFrameStart : Prop :=
  (∀ s t : State, step s = .next t →
      t.tim.resCur = s.tim.resCur ∨
        (∃ r, s.ctl = .enterV r ∧ s.tim.vPhase = .lastLine ∧ s.tim.resDirty = true ∧ t.tim.resCur = s.tim.resReq ∧
          t.trace = s.trace ++ [.resolutionChanged (dispW s.tim.resReq) (dispH s.tim.resReq)]) ∨
        ∃ hard rest, s.ctl = .hostTurn ∧ s.hostOps = .reset hard :: rest ∧ t.tim.resCur = resetResolution) ∧
    ∀ (s : State) (res : Resolution),
      s.requestResolution res =
        { s with tim := { s.tim with resReq := res, resDirty := decide (res ≠ s.tim.resCur) } }

/-- Phase transitions do not stall: from the entry of a horizontal phase, with no command step enabled, at most nine
agent steps lead to the top of `Advance`'s loop with the cycles that remained, and no command step is enabled on the
way (R168). The count is that of the model's small steps (log 3). -/
def Obligations.PhaseEntriesDoNotStall : Prop :=
  ∀ (s : State) (r : Nat), s.ctl = .enterH r → s.vdp1Enabled = false →
    ∃ k ≤ 9, (s.agentRun k).ctl = .advance r ∧ ∀ j ≤ k, (s.agentRun j).vdp1Enabled = false

/-! ### The compositor (`44_vdp2_compositor.md`) -/

/-- The window mask is the union of the enabled windows under OR and their intersection under AND, each window taken
inside or outside, and empty when none is enabled (R149). -/
def Obligations.WindowMaskCombines : Prop :=
  ∀ (ws : WindowSet) (in0 in1 inSw : Bool),
    let term (u : WindowUse) (i : Bool) : Prop := u.enabled = true ∧ (i = true ↔ u.area = .inside)
    let miss (u : WindowUse) (i : Bool) : Prop := u.enabled = true ∧ ¬(i = true ↔ u.area = .inside)
    (ws.logic = .or → (windowMask ws in0 in1 inSw = true ↔ term ws.w0 in0 ∨ term ws.w1 in1 ∨ term ws.sw inSw)) ∧
      (ws.logic = .and →
        (windowMask ws in0 in1 inSw = true ↔
          (ws.w0.enabled = true ∨ ws.w1.enabled = true ∨ ws.sw.enabled = true) ∧
            ¬(miss ws.w0 in0 ∨ miss ws.w1 in1 ∨ miss ws.sw inSw)))

/-- The layer-enable table, background by background. The sprite layer is enabled; a rotation background is if it is
requested; a normal background is if it is requested, is not one of the pair that two requested rotation backgrounds
disable, and is not disabled by the format of a requested NBG0 (RGB888: NBG1, NBG2 and NBG3; 2048 colours or RGB555:
NBG2) or NBG1 (2048 colours or RGB555: NBG3). Nothing else is disabled. The pair has exactly two backgrounds (R148). -/
def Obligations.LayerAvailability : Prop :=
  ∀ cfg : Vdp2Config,
    let en := layerEnableOf cfg
    let req := cfg.enableReq
    let dropped (l : BgLayer) : Prop := req.rbg0 = true ∧ req.rbg1 = true ∧ Config.rbgDisabledNbgs.has l = true
    let full : Prop := req.nbg0 = true ∧ cfg.format.nbg0 = .rgb888
    let wide0 : Prop := req.nbg0 = true ∧ (cfg.format.nbg0 = .pal2048 ∨ cfg.format.nbg0 = .rgb555)
    let wide1 : Prop := req.nbg1 = true ∧ (cfg.format.nbg1 = .pal2048 ∨ cfg.format.nbg1 = .rgb555)
    en.sprite = true ∧ en.bg.rbg0 = req.rbg0 ∧ en.bg.rbg1 = req.rbg1 ∧
      (en.bg.nbg0 = true ↔ req.nbg0 = true ∧ ¬dropped .nbg0) ∧
      (en.bg.nbg1 = true ↔ req.nbg1 = true ∧ ¬dropped .nbg1 ∧ ¬full) ∧
      (en.bg.nbg2 = true ↔ req.nbg2 = true ∧ ¬dropped .nbg2 ∧ ¬full ∧ ¬wide0) ∧
      (en.bg.nbg3 = true ↔ req.nbg3 = true ∧ ¬dropped .nbg3 ∧ ¬full ∧ ¬wide1) ∧
      ([BgLayer.nbg0, .nbg1, .nbg2, .nbg3].filter Config.rbgDisabledNbgs.has).length = 2 ∧
      Config.rbgDisabledNbgs.has .rbg0 = false ∧ Config.rbgDisabledNbgs.has .rbg1 = false

/-- How the compositor reads VRAM2 and colour RAM. `CramMap` is injective in every mode, twice the index for two-byte
entries of the linear mode, and an offset of colour RAM otherwise (R6, R158); a palette dot takes its colour through it
and an RGB dot does not (R158). Through the character path, the dot at a coordinate is a dot of an 8 by 8 cell of a
character of one or of 2 by 2 cells, named by an entry of two words or of one word read from VRAM2; the bitmap path looks
up no character (R157). The back colour depends on the bytes of VRAM2 at the address its source gives for the line alone,
the same address for every line unless there is one colour per line; the line colour is the colour-RAM entry that such
bytes name (R155). That an index has at most 0x1000 values is the model's (log 13), and so is the form of the character path: that
the entry is found by the coordinate's character column and row, the coordinate divided by the size of a character and
rounded down, and that the layer with its parameters, the entry and the place in the character fix the dot (log 11). -/
def Obligations.Vdp2FetchesDotsAndColours : Prop :=
  (∀ mode : CramMode, Function.Injective (cramMap mode) ∧
      ∀ i, if mode = .linear ∧ Config.cramEntryBytes mode = 2 then cramMap mode i = 2 * i.val
        else cramMap mode i < 0x1000) ∧
    (∀ (cfg : Vdp2Config) (d : Config.Dot) (cram : Nat → Byte),
      (∀ fmt ∈ [ColourFormat.pal16, .pal256, .pal2048],
          dotColour cfg fmt d cram = cramEntry cfg.cramMode d.index cram) ∧
        ∀ fmt ∈ [ColourFormat.rgb555, .rgb888], dotColour cfg fmt d cram = Config.directColour fmt d.value) ∧
    (∀ (l : BgLayer) (bg : BgParams) (mode : CharMode) (fmt : ColourFormat) (m : Nat → Byte) (cx cy : Int)
        (kx ky dx dy : Nat),
      dx < 8 → dy < 8 →
      let dot (size : CharSize) : Config.Dot :=
        let a := Config.patternNameAddr l bg mode size cx cy
        let word (a : Nat) : Word := m (a / 2 * 2) ++ m (a / 2 * 2 + 1)
        let words : List Word := if mode = .twoWord then [word a, word (a + 2)] else [word a]
        Config.cellDot l bg size fmt (Config.patternName l bg mode size fmt words)
          { cellX := kx, cellY := ky, dotX := dx, dotY := dy } m
      (bg.plane = .cell mode .one → kx = 0 → ky = 0 →
          fetchDot l bg fmt (8 * cx + dx, 8 * cy + dy) m = dot .one) ∧
        (bg.plane = .cell mode .two → kx < 2 → ky < 2 →
          fetchDot l bg fmt (16 * cx + 8 * kx + dx, 16 * cy + 8 * ky + dy) m = dot .two)) ∧
    (∀ (l : BgLayer) (bg : BgParams) (fmt : ColourFormat) (p : Int × Int) (m : Nat → Byte), bg.plane = .bitmap →
      fetchDot l bg fmt p m = Config.bitmapDot l bg fmt p m) ∧
    ∀ (cfg : Vdp2Config) (y : Nat) (m : Nat → Byte),
      (∀ m' : Nat → Byte,
          (∀ k < Config.backColourBytes, m' (cfg.backColor.addrAt y + k) = m (cfg.backColor.addrAt y + k)) →
          backColour cfg y m' = backColour cfg y m) ∧
        (∃ i, ∀ m' : Nat → Byte,
          (∀ k < Config.lineColourBytes, m' (cfg.lineColor.addrAt y + k) = m (cfg.lineColor.addrAt y + k)) →
          ∀ cram, lineColour cfg y m' cram = cramEntry cfg.cramMode i cram) ∧
        ∀ src ∈ [cfg.backColor, cfg.lineColor], src.perLine = false → src.addrAt y = src.addr

/-- The pixel of the output is made from the contributing layer of highest priority, the earlier one in the tie-break
order among equals, and from the one that comes next in that ranking; where no other layer contributes, that second
input is the back colour as a pseudo-layer; and where no layer contributes the pixel is the back colour (R154, R155). -/
def Obligations.HighestPriorityLayerWins : Prop :=
  ∀ (cfg : Vdp2Config) (en : LayerTable Bool) (px : Layer → LayerPx) (masked : Layer → Bool) (ccMask : Bool)
    (back line : Rgb888),
    let shows (l : Layer) : Prop :=
      en.get l = true ∧ (px l).transparent = false ∧ masked l = false ∧ 1 ≤ (px l).priority.toNat
    let below (m l : Layer) : Prop :=
      (px m).priority.toNat < (px l).priority.toNat ∨
        ((px m).priority.toNat = (px l).priority.toNat ∧ layerOrder.idxOf l < layerOrder.idxOf m)
    ((∀ l, ¬shows l) → compose cfg en px masked ccMask back line = back) ∧
      ∀ l, shows l → (∀ m, shows m → m ≠ l → below m l) →
        ((∀ m, shows m → m = l) →
            compose cfg en px masked ccMask back line = blend cfg.cc ccMask (px l) (.fallback back) line) ∧
          ∀ u, shows u → u ≠ l → (∀ m, shows m → m ≠ l → m ≠ u → below m u) →
            compose cfg en px masked ccMask back line = blend cfg.cc ccMask (px l) (.layer (px u)) line

/-- Two states that agree on what R159 names, memories byte by byte, draw the same scanline at the same line of the
picture; drawing one changes only the compositor, and no other line of the picture (R156, R159, R160). -/
def Obligations.ScanlinesAreDetermined : Prop :=
  ∀ (s t : State) (y : Nat), s.DerivedOk → t.DerivedOk → s.regs2 = t.regs2 →
    (∀ a < 0x80000, s.vram2.byte a = t.vram2.byte a) → (∀ a < 0x1000, s.cram.byte a = t.cram.byte a) →
      (∀ a < 0x40000, (s.mem s.displaySpace).byte a = (t.mem t.displaySpace).byte a) →
      s.regs1.tvmr = t.regs1.tvmr → s.tim.resCur = t.tim.resCur → s.tim.field = t.tim.field →
      let n := outLine s.tim y
      outLine t.tim y = n ∧
        (∃ row, row.length = dispW s.tim.resCur ∧ (s.drawScanline y).cmp.lineAt n = some row ∧
          (t.drawScanline y).cmp.lineAt n = some row) ∧
        (∀ k, k ≠ n → (s.drawScanline y).cmp.lineAt k = s.cmp.lineAt k) ∧
        s.drawScanline y = { s with cmp := (s.drawScanline y).cmp }

/-! ### Invariants -/

/-- Every step keeps the five memories inside their sizes (R5, R33), and in canonical form, which is that of the model's
data: a list of the written bytes by strictly rising address (log 1). -/
def Obligations.StepKeepsMemories : Prop :=
  ∀ s t : State, s.MemoriesOk → step s = .next t → t.MemoriesOk

/-- Every step keeps the bits that a register does not store at 0, the command address and the return address multiples
of 0x20, and each group of context registers wholly set or wholly unset (R12 to R19, R23, R24, R188). -/
def Obligations.StepKeepsRegisterShapes : Prop :=
  ∀ s t : State, step s = .next t →
    (s.RegistersOk → s.AddressesOk → t.RegistersOk ∧ t.AddressesOk) ∧ (s.ContextOk → t.ContextOk)

/-- Every step keeps HBLANK and VBLANK functions of the phases, and the cycles of the phase in hand within its length
(R167, R179). The chunk in hand is the model's own field (log 3). -/
def Obligations.StepKeepsTiming : Prop :=
  ∀ s t : State, s.BlankingOk → s.ChunkOk → step s = .next t → t.BlankingOk ∧ t.ChunkOk

/-- Every step keeps the layer-enable table and the pending-resolution flag what the register bank and the two
resolutions say (R148, R177); it keeps the line counter below the length of its phase, and the output picture one of
`DispW` by `DispH` pixels: its drawn lines have different numbers below `DispH` and `DispW` pixels each (R156, R172,
R178). That a picture lists its drawn lines is the model's form of it (log 14). -/
def Obligations.StepKeepsCompositorState : Prop :=
  (∀ s t : State, step s = .next t →
      (s.DerivedOk → t.DerivedOk) ∧ (s.LinesOk → t.LinesOk ∧ (s.PictureOk → t.PictureOk))) ∧
    ∀ s : State, s.PictureOk →
      s.picture.length = dispH s.tim.resCur ∧ ∀ row ∈ s.picture, row.length = dispW s.tim.resCur

/-- The state after reset has every invariant (R205). -/
def Obligations.ResetHasTheInvariants : Prop :=
  State.reset.MemoriesOk ∧ State.reset.RegistersOk ∧ State.reset.AddressesOk ∧ State.reset.ContextOk ∧
    State.reset.BlankingOk ∧ State.reset.ChunkOk ∧ State.reset.DerivedOk ∧ State.reset.LinesOk ∧ State.reset.PictureOk

end Statements
end

