-- ==== Sys2Proof/Laws/State.lean ====
section
/-! SUPPORT. One lemma for each field and each named update of the state, true by `rfl`, so that no later proof
unfolds a record update. -/

namespace Sys2Proof.Machine

/-! ### Updates of the command processor and of the flags -/

/-! #### `emit` -/

@[simp] theorem State.emit_regs1 (s : State) (c : Callback) : (s.emit c).regs1 = s.regs1 := rfl
@[simp] theorem State.emit_ctx (s : State) (c : Callback) : (s.emit c).ctx = s.ctx := rfl
@[simp] theorem State.emit_proc (s : State) (c : Callback) : (s.emit c).proc = s.proc := rfl
@[simp] theorem State.emit_seq (s : State) (c : Callback) : (s.emit c).seq = s.seq := rfl
@[simp] theorem State.emit_vram1 (s : State) (c : Callback) : (s.emit c).vram1 = s.vram1 := rfl
@[simp] theorem State.emit_fb0 (s : State) (c : Callback) : (s.emit c).fb0 = s.fb0 := rfl
@[simp] theorem State.emit_fb1 (s : State) (c : Callback) : (s.emit c).fb1 = s.fb1 := rfl
@[simp] theorem State.emit_regs2 (s : State) (c : Callback) : (s.emit c).regs2 = s.regs2 := rfl
@[simp] theorem State.emit_vram2 (s : State) (c : Callback) : (s.emit c).vram2 = s.vram2 := rfl
@[simp] theorem State.emit_cram (s : State) (c : Callback) : (s.emit c).cram = s.cram := rfl
@[simp] theorem State.emit_tim (s : State) (c : Callback) : (s.emit c).tim = s.tim := rfl
@[simp] theorem State.emit_cmp (s : State) (c : Callback) : (s.emit c).cmp = s.cmp := rfl
@[simp] theorem State.emit_ctl (s : State) (c : Callback) : (s.emit c).ctl = s.ctl := rfl
@[simp] theorem State.emit_hostOps (s : State) (c : Callback) : (s.emit c).hostOps = s.hostOps := rfl
@[simp] theorem State.emit_replies (s : State) (c : Callback) : (s.emit c).replies = s.replies := rfl
@[simp] theorem State.emit_trace (s : State) (c : Callback) : (s.emit c).trace = s.trace ++ [c] := rfl
@[simp] theorem State.emit_freeCtr (s : State) (c : Callback) : (s.emit c).freeCtr = s.freeCtr := rfl
@[simp] theorem State.emit_mem (s : State) (c : Callback) :
    (s.emit c).mem = s.mem := by
  funext sp
  rcases sp with _ | (_ | _) | _ | _ <;> rfl

/-! #### `reply` -/

@[simp] theorem State.reply_regs1 (s : State) (r : HostReply) : (s.reply r).regs1 = s.regs1 := rfl
@[simp] theorem State.reply_ctx (s : State) (r : HostReply) : (s.reply r).ctx = s.ctx := rfl
@[simp] theorem State.reply_proc (s : State) (r : HostReply) : (s.reply r).proc = s.proc := rfl
@[simp] theorem State.reply_seq (s : State) (r : HostReply) : (s.reply r).seq = s.seq := rfl
@[simp] theorem State.reply_vram1 (s : State) (r : HostReply) : (s.reply r).vram1 = s.vram1 := rfl
@[simp] theorem State.reply_fb0 (s : State) (r : HostReply) : (s.reply r).fb0 = s.fb0 := rfl
@[simp] theorem State.reply_fb1 (s : State) (r : HostReply) : (s.reply r).fb1 = s.fb1 := rfl
@[simp] theorem State.reply_regs2 (s : State) (r : HostReply) : (s.reply r).regs2 = s.regs2 := rfl
@[simp] theorem State.reply_vram2 (s : State) (r : HostReply) : (s.reply r).vram2 = s.vram2 := rfl
@[simp] theorem State.reply_cram (s : State) (r : HostReply) : (s.reply r).cram = s.cram := rfl
@[simp] theorem State.reply_tim (s : State) (r : HostReply) : (s.reply r).tim = s.tim := rfl
@[simp] theorem State.reply_cmp (s : State) (r : HostReply) : (s.reply r).cmp = s.cmp := rfl
@[simp] theorem State.reply_ctl (s : State) (r : HostReply) : (s.reply r).ctl = s.ctl := rfl
@[simp] theorem State.reply_hostOps (s : State) (r : HostReply) : (s.reply r).hostOps = s.hostOps := rfl
@[simp] theorem State.reply_replies (s : State) (r : HostReply) : (s.reply r).replies = s.replies ++ [r] := rfl
@[simp] theorem State.reply_trace (s : State) (r : HostReply) : (s.reply r).trace = s.trace := rfl
@[simp] theorem State.reply_freeCtr (s : State) (r : HostReply) : (s.reply r).freeCtr = s.freeCtr := rfl
@[simp] theorem State.reply_mem (s : State) (r : HostReply) :
    (s.reply r).mem = s.mem := by
  funext sp
  rcases sp with _ | (_ | _) | _ | _ <;> rfl

/-! #### `useFree` -/

@[simp] theorem State.useFree_regs1 (s : State) : (s.useFree).regs1 = s.regs1 := rfl
@[simp] theorem State.useFree_ctx (s : State) : (s.useFree).ctx = s.ctx := rfl
@[simp] theorem State.useFree_proc (s : State) : (s.useFree).proc = s.proc := rfl
@[simp] theorem State.useFree_seq (s : State) : (s.useFree).seq = s.seq := rfl
@[simp] theorem State.useFree_vram1 (s : State) : (s.useFree).vram1 = s.vram1 := rfl
@[simp] theorem State.useFree_fb0 (s : State) : (s.useFree).fb0 = s.fb0 := rfl
@[simp] theorem State.useFree_fb1 (s : State) : (s.useFree).fb1 = s.fb1 := rfl
@[simp] theorem State.useFree_regs2 (s : State) : (s.useFree).regs2 = s.regs2 := rfl
@[simp] theorem State.useFree_vram2 (s : State) : (s.useFree).vram2 = s.vram2 := rfl
@[simp] theorem State.useFree_cram (s : State) : (s.useFree).cram = s.cram := rfl
@[simp] theorem State.useFree_tim (s : State) : (s.useFree).tim = s.tim := rfl
@[simp] theorem State.useFree_cmp (s : State) : (s.useFree).cmp = s.cmp := rfl
@[simp] theorem State.useFree_ctl (s : State) : (s.useFree).ctl = s.ctl := rfl
@[simp] theorem State.useFree_hostOps (s : State) : (s.useFree).hostOps = s.hostOps := rfl
@[simp] theorem State.useFree_replies (s : State) : (s.useFree).replies = s.replies := rfl
@[simp] theorem State.useFree_trace (s : State) : (s.useFree).trace = s.trace := rfl
@[simp] theorem State.useFree_freeCtr (s : State) : (s.useFree).freeCtr = s.freeCtr + 1 := rfl
@[simp] theorem State.useFree_mem (s : State) :
    (s.useFree).mem = s.mem := by
  funext sp
  rcases sp with _ | (_ | _) | _ | _ <;> rfl

/-! #### `setStatus` -/

@[simp] theorem State.setStatus_regs1 (s : State) (st : ProcStatus) : (s.setStatus st).regs1 = s.regs1 := rfl
@[simp] theorem State.setStatus_ctx (s : State) (st : ProcStatus) : (s.setStatus st).ctx = s.ctx := rfl
@[simp] theorem State.setStatus_proc_cmdAddr (s : State) (st : ProcStatus) :
    (s.setStatus st).proc.cmdAddr = s.proc.cmdAddr := rfl
@[simp] theorem State.setStatus_proc_status (s : State) (st : ProcStatus) : (s.setStatus st).proc.status = st := rfl
@[simp] theorem State.setStatus_proc_cyclePool (s : State) (st : ProcStatus) :
    (s.setStatus st).proc.cyclePool = s.proc.cyclePool := rfl
@[simp] theorem State.setStatus_proc_frameCycles (s : State) (st : ProcStatus) :
    (s.setStatus st).proc.frameCycles = s.proc.frameCycles := rfl
@[simp] theorem State.setStatus_proc_lastVisible (s : State) (st : ProcStatus) :
    (s.setStatus st).proc.lastVisible = s.proc.lastVisible := rfl
@[simp] theorem State.setStatus_seq (s : State) (st : ProcStatus) : (s.setStatus st).seq = s.seq := rfl
@[simp] theorem State.setStatus_vram1 (s : State) (st : ProcStatus) : (s.setStatus st).vram1 = s.vram1 := rfl
@[simp] theorem State.setStatus_fb0 (s : State) (st : ProcStatus) : (s.setStatus st).fb0 = s.fb0 := rfl
@[simp] theorem State.setStatus_fb1 (s : State) (st : ProcStatus) : (s.setStatus st).fb1 = s.fb1 := rfl
@[simp] theorem State.setStatus_regs2 (s : State) (st : ProcStatus) : (s.setStatus st).regs2 = s.regs2 := rfl
@[simp] theorem State.setStatus_vram2 (s : State) (st : ProcStatus) : (s.setStatus st).vram2 = s.vram2 := rfl
@[simp] theorem State.setStatus_cram (s : State) (st : ProcStatus) : (s.setStatus st).cram = s.cram := rfl
@[simp] theorem State.setStatus_tim (s : State) (st : ProcStatus) : (s.setStatus st).tim = s.tim := rfl
@[simp] theorem State.setStatus_cmp (s : State) (st : ProcStatus) : (s.setStatus st).cmp = s.cmp := rfl
@[simp] theorem State.setStatus_ctl (s : State) (st : ProcStatus) : (s.setStatus st).ctl = s.ctl := rfl
@[simp] theorem State.setStatus_hostOps (s : State) (st : ProcStatus) : (s.setStatus st).hostOps = s.hostOps := rfl
@[simp] theorem State.setStatus_replies (s : State) (st : ProcStatus) : (s.setStatus st).replies = s.replies := rfl
@[simp] theorem State.setStatus_trace (s : State) (st : ProcStatus) : (s.setStatus st).trace = s.trace := rfl
@[simp] theorem State.setStatus_freeCtr (s : State) (st : ProcStatus) : (s.setStatus st).freeCtr = s.freeCtr := rfl
@[simp] theorem State.setStatus_mem (s : State) (st : ProcStatus) :
    (s.setStatus st).mem = s.mem := by
  funext sp
  rcases sp with _ | (_ | _) | _ | _ <;> rfl

/-! #### `raise` -/

@[simp] theorem State.raise_regs1 (s : State) (f : CmdFault) : (s.raise f).regs1 = s.regs1 := rfl
@[simp] theorem State.raise_ctx (s : State) (f : CmdFault) : (s.raise f).ctx = s.ctx := rfl
@[simp] theorem State.raise_proc_cmdAddr (s : State) (f : CmdFault) : (s.raise f).proc.cmdAddr = s.proc.cmdAddr := rfl
@[simp] theorem State.raise_proc_status (s : State) (f : CmdFault) : (s.raise f).proc.status = .fault f := rfl
@[simp] theorem State.raise_proc_cyclePool (s : State) (f : CmdFault) :
    (s.raise f).proc.cyclePool = s.proc.cyclePool := rfl
@[simp] theorem State.raise_proc_frameCycles (s : State) (f : CmdFault) :
    (s.raise f).proc.frameCycles = s.proc.frameCycles := rfl
@[simp] theorem State.raise_proc_lastVisible (s : State) (f : CmdFault) :
    (s.raise f).proc.lastVisible = s.proc.lastVisible := rfl
@[simp] theorem State.raise_seq (s : State) (f : CmdFault) : (s.raise f).seq = s.seq := rfl
@[simp] theorem State.raise_vram1 (s : State) (f : CmdFault) : (s.raise f).vram1 = s.vram1 := rfl
@[simp] theorem State.raise_fb0 (s : State) (f : CmdFault) : (s.raise f).fb0 = s.fb0 := rfl
@[simp] theorem State.raise_fb1 (s : State) (f : CmdFault) : (s.raise f).fb1 = s.fb1 := rfl
@[simp] theorem State.raise_regs2 (s : State) (f : CmdFault) : (s.raise f).regs2 = s.regs2 := rfl
@[simp] theorem State.raise_vram2 (s : State) (f : CmdFault) : (s.raise f).vram2 = s.vram2 := rfl
@[simp] theorem State.raise_cram (s : State) (f : CmdFault) : (s.raise f).cram = s.cram := rfl
@[simp] theorem State.raise_tim (s : State) (f : CmdFault) : (s.raise f).tim = s.tim := rfl
@[simp] theorem State.raise_cmp (s : State) (f : CmdFault) : (s.raise f).cmp = s.cmp := rfl
@[simp] theorem State.raise_ctl (s : State) (f : CmdFault) : (s.raise f).ctl = s.ctl := rfl
@[simp] theorem State.raise_hostOps (s : State) (f : CmdFault) : (s.raise f).hostOps = s.hostOps := rfl
@[simp] theorem State.raise_replies (s : State) (f : CmdFault) : (s.raise f).replies = s.replies := rfl
@[simp] theorem State.raise_trace (s : State) (f : CmdFault) : (s.raise f).trace = s.trace := rfl
@[simp] theorem State.raise_freeCtr (s : State) (f : CmdFault) : (s.raise f).freeCtr = s.freeCtr := rfl
@[simp] theorem State.raise_mem (s : State) (f : CmdFault) :
    (s.raise f).mem = s.mem := by
  funext sp
  rcases sp with _ | (_ | _) | _ | _ <;> rfl

/-! #### `latchCopr` -/

@[simp] theorem State.latchCopr_regs1_tvmr (s : State) : (s.latchCopr).regs1.tvmr = s.regs1.tvmr := rfl
@[simp] theorem State.latchCopr_regs1_fbcr (s : State) : (s.latchCopr).regs1.fbcr = s.regs1.fbcr := rfl
@[simp] theorem State.latchCopr_regs1_ptmr (s : State) : (s.latchCopr).regs1.ptmr = s.regs1.ptmr := rfl
@[simp] theorem State.latchCopr_regs1_ewdr (s : State) : (s.latchCopr).regs1.ewdr = s.regs1.ewdr := rfl
@[simp] theorem State.latchCopr_regs1_ewlr (s : State) : (s.latchCopr).regs1.ewlr = s.regs1.ewlr := rfl
@[simp] theorem State.latchCopr_regs1_ewrr (s : State) : (s.latchCopr).regs1.ewrr = s.regs1.ewrr := rfl
@[simp] theorem State.latchCopr_regs1_edsr (s : State) : (s.latchCopr).regs1.edsr = s.regs1.edsr := rfl
@[simp] theorem State.latchCopr_regs1_lopr (s : State) : (s.latchCopr).regs1.lopr = s.regs1.lopr := rfl
@[simp] theorem State.latchCopr_regs1_copr (s : State) :
    (s.latchCopr).regs1.copr = s.proc.cmdAddr.extractLsb' 3 16 := rfl
@[simp] theorem State.latchCopr_ctx (s : State) : (s.latchCopr).ctx = s.ctx := rfl
@[simp] theorem State.latchCopr_proc (s : State) : (s.latchCopr).proc = s.proc := rfl
@[simp] theorem State.latchCopr_seq (s : State) : (s.latchCopr).seq = s.seq := rfl
@[simp] theorem State.latchCopr_vram1 (s : State) : (s.latchCopr).vram1 = s.vram1 := rfl
@[simp] theorem State.latchCopr_fb0 (s : State) : (s.latchCopr).fb0 = s.fb0 := rfl
@[simp] theorem State.latchCopr_fb1 (s : State) : (s.latchCopr).fb1 = s.fb1 := rfl
@[simp] theorem State.latchCopr_regs2 (s : State) : (s.latchCopr).regs2 = s.regs2 := rfl
@[simp] theorem State.latchCopr_vram2 (s : State) : (s.latchCopr).vram2 = s.vram2 := rfl
@[simp] theorem State.latchCopr_cram (s : State) : (s.latchCopr).cram = s.cram := rfl
@[simp] theorem State.latchCopr_tim (s : State) : (s.latchCopr).tim = s.tim := rfl
@[simp] theorem State.latchCopr_cmp (s : State) : (s.latchCopr).cmp = s.cmp := rfl
@[simp] theorem State.latchCopr_ctl (s : State) : (s.latchCopr).ctl = s.ctl := rfl
@[simp] theorem State.latchCopr_hostOps (s : State) : (s.latchCopr).hostOps = s.hostOps := rfl
@[simp] theorem State.latchCopr_replies (s : State) : (s.latchCopr).replies = s.replies := rfl
@[simp] theorem State.latchCopr_trace (s : State) : (s.latchCopr).trace = s.trace := rfl
@[simp] theorem State.latchCopr_freeCtr (s : State) : (s.latchCopr).freeCtr = s.freeCtr := rfl
@[simp] theorem State.latchCopr_mem (s : State) :
    (s.latchCopr).mem = s.mem := by
  funext sp
  rcases sp with _ | (_ | _) | _ | _ <;> rfl

/-! #### `startDrawing` -/

@[simp] theorem State.startDrawing_regs1_tvmr (s : State) : (s.startDrawing).regs1.tvmr = s.regs1.tvmr := rfl
@[simp] theorem State.startDrawing_regs1_fbcr (s : State) : (s.startDrawing).regs1.fbcr = s.regs1.fbcr := rfl
@[simp] theorem State.startDrawing_regs1_ptmr (s : State) : (s.startDrawing).regs1.ptmr = s.regs1.ptmr := rfl
@[simp] theorem State.startDrawing_regs1_ewdr (s : State) : (s.startDrawing).regs1.ewdr = s.regs1.ewdr := rfl
@[simp] theorem State.startDrawing_regs1_ewlr (s : State) : (s.startDrawing).regs1.ewlr = s.regs1.ewlr := rfl
@[simp] theorem State.startDrawing_regs1_ewrr (s : State) : (s.startDrawing).regs1.ewrr = s.regs1.ewrr := rfl
@[simp] theorem State.startDrawing_regs1_edsr (s : State) :
    (s.startDrawing).regs1.edsr = s.regs1.edsr &&& 0xFFFD#16 := rfl
@[simp] theorem State.startDrawing_regs1_lopr (s : State) : (s.startDrawing).regs1.lopr = s.regs1.lopr := rfl
@[simp] theorem State.startDrawing_regs1_copr (s : State) : (s.startDrawing).regs1.copr = s.regs1.copr := rfl
@[simp] theorem State.startDrawing_ctx_sysClipH (s : State) : (s.startDrawing).ctx.sysClipH = s.ctx.sysClipH := rfl
@[simp] theorem State.startDrawing_ctx_sysClipV (s : State) : (s.startDrawing).ctx.sysClipV = s.ctx.sysClipV := rfl
@[simp] theorem State.startDrawing_ctx_userX0 (s : State) : (s.startDrawing).ctx.userX0 = s.ctx.userX0 := rfl
@[simp] theorem State.startDrawing_ctx_userY0 (s : State) : (s.startDrawing).ctx.userY0 = s.ctx.userY0 := rfl
@[simp] theorem State.startDrawing_ctx_userX1 (s : State) : (s.startDrawing).ctx.userX1 = s.ctx.userX1 := rfl
@[simp] theorem State.startDrawing_ctx_userY1 (s : State) : (s.startDrawing).ctx.userY1 = s.ctx.userY1 := rfl
@[simp] theorem State.startDrawing_ctx_localX (s : State) : (s.startDrawing).ctx.localX = s.ctx.localX := rfl
@[simp] theorem State.startDrawing_ctx_localY (s : State) : (s.startDrawing).ctx.localY = s.ctx.localY := rfl
@[simp] theorem State.startDrawing_ctx_retAddr (s : State) : (s.startDrawing).ctx.retAddr = none := rfl
@[simp] theorem State.startDrawing_proc_cmdAddr (s : State) : (s.startDrawing).proc.cmdAddr = 0 := rfl
@[simp] theorem State.startDrawing_proc_status (s : State) : (s.startDrawing).proc.status = .busy := rfl
@[simp] theorem State.startDrawing_proc_cyclePool (s : State) : (s.startDrawing).proc.cyclePool = 0 := rfl
@[simp] theorem State.startDrawing_proc_frameCycles (s : State) : (s.startDrawing).proc.frameCycles = 0 := rfl
@[simp] theorem State.startDrawing_proc_lastVisible (s : State) :
    (s.startDrawing).proc.lastVisible = s.proc.lastVisible := rfl
@[simp] theorem State.startDrawing_seq (s : State) : (s.startDrawing).seq = s.seq := rfl
@[simp] theorem State.startDrawing_vram1 (s : State) : (s.startDrawing).vram1 = s.vram1 := rfl
@[simp] theorem State.startDrawing_fb0 (s : State) : (s.startDrawing).fb0 = s.fb0 := rfl
@[simp] theorem State.startDrawing_fb1 (s : State) : (s.startDrawing).fb1 = s.fb1 := rfl
@[simp] theorem State.startDrawing_regs2 (s : State) : (s.startDrawing).regs2 = s.regs2 := rfl
@[simp] theorem State.startDrawing_vram2 (s : State) : (s.startDrawing).vram2 = s.vram2 := rfl
@[simp] theorem State.startDrawing_cram (s : State) : (s.startDrawing).cram = s.cram := rfl
@[simp] theorem State.startDrawing_tim (s : State) : (s.startDrawing).tim = s.tim := rfl
@[simp] theorem State.startDrawing_cmp (s : State) : (s.startDrawing).cmp = s.cmp := rfl
@[simp] theorem State.startDrawing_ctl (s : State) : (s.startDrawing).ctl = s.ctl := rfl
@[simp] theorem State.startDrawing_hostOps (s : State) : (s.startDrawing).hostOps = s.hostOps := rfl
@[simp] theorem State.startDrawing_replies (s : State) : (s.startDrawing).replies = s.replies := rfl
@[simp] theorem State.startDrawing_trace (s : State) : (s.startDrawing).trace = s.trace := rfl
@[simp] theorem State.startDrawing_freeCtr (s : State) : (s.startDrawing).freeCtr = s.freeCtr := rfl
@[simp] theorem State.startDrawing_mem (s : State) :
    (s.startDrawing).mem = s.mem := by
  funext sp
  rcases sp with _ | (_ | _) | _ | _ <;> rfl

/-! #### `jump` -/

@[simp] theorem State.jump_regs1 (s : State) (e : Entry) : (s.jump e).regs1 = s.regs1 := rfl
@[simp] theorem State.jump_ctx_sysClipH (s : State) (e : Entry) : (s.jump e).ctx.sysClipH = s.ctx.sysClipH := rfl
@[simp] theorem State.jump_ctx_sysClipV (s : State) (e : Entry) : (s.jump e).ctx.sysClipV = s.ctx.sysClipV := rfl
@[simp] theorem State.jump_ctx_userX0 (s : State) (e : Entry) : (s.jump e).ctx.userX0 = s.ctx.userX0 := rfl
@[simp] theorem State.jump_ctx_userY0 (s : State) (e : Entry) : (s.jump e).ctx.userY0 = s.ctx.userY0 := rfl
@[simp] theorem State.jump_ctx_userX1 (s : State) (e : Entry) : (s.jump e).ctx.userX1 = s.ctx.userX1 := rfl
@[simp] theorem State.jump_ctx_userY1 (s : State) (e : Entry) : (s.jump e).ctx.userY1 = s.ctx.userY1 := rfl
@[simp] theorem State.jump_ctx_localX (s : State) (e : Entry) : (s.jump e).ctx.localX = s.ctx.localX := rfl
@[simp] theorem State.jump_ctx_localY (s : State) (e : Entry) : (s.jump e).ctx.localY = s.ctx.localY := rfl
@[simp] theorem State.jump_ctx_retAddr (s : State) (e : Entry) :
    (s.jump e).ctx.retAddr = (jumpTarget e s.proc.cmdAddr s.ctx.retAddr).2 := rfl
@[simp] theorem State.jump_proc_cmdAddr (s : State) (e : Entry) :
    (s.jump e).proc.cmdAddr = (jumpTarget e s.proc.cmdAddr s.ctx.retAddr).1 := rfl
@[simp] theorem State.jump_proc_status (s : State) (e : Entry) : (s.jump e).proc.status = s.proc.status := rfl
@[simp] theorem State.jump_proc_cyclePool (s : State) (e : Entry) : (s.jump e).proc.cyclePool = s.proc.cyclePool := rfl
@[simp] theorem State.jump_proc_frameCycles (s : State) (e : Entry) :
    (s.jump e).proc.frameCycles = s.proc.frameCycles := rfl
@[simp] theorem State.jump_proc_lastVisible (s : State) (e : Entry) :
    (s.jump e).proc.lastVisible = s.proc.lastVisible := rfl
@[simp] theorem State.jump_seq (s : State) (e : Entry) : (s.jump e).seq = s.seq := rfl
@[simp] theorem State.jump_vram1 (s : State) (e : Entry) : (s.jump e).vram1 = s.vram1 := rfl
@[simp] theorem State.jump_fb0 (s : State) (e : Entry) : (s.jump e).fb0 = s.fb0 := rfl
@[simp] theorem State.jump_fb1 (s : State) (e : Entry) : (s.jump e).fb1 = s.fb1 := rfl
@[simp] theorem State.jump_regs2 (s : State) (e : Entry) : (s.jump e).regs2 = s.regs2 := rfl
@[simp] theorem State.jump_vram2 (s : State) (e : Entry) : (s.jump e).vram2 = s.vram2 := rfl
@[simp] theorem State.jump_cram (s : State) (e : Entry) : (s.jump e).cram = s.cram := rfl
@[simp] theorem State.jump_tim (s : State) (e : Entry) : (s.jump e).tim = s.tim := rfl
@[simp] theorem State.jump_cmp (s : State) (e : Entry) : (s.jump e).cmp = s.cmp := rfl
@[simp] theorem State.jump_ctl (s : State) (e : Entry) : (s.jump e).ctl = s.ctl := rfl
@[simp] theorem State.jump_hostOps (s : State) (e : Entry) : (s.jump e).hostOps = s.hostOps := rfl
@[simp] theorem State.jump_replies (s : State) (e : Entry) : (s.jump e).replies = s.replies := rfl
@[simp] theorem State.jump_trace (s : State) (e : Entry) : (s.jump e).trace = s.trace := rfl
@[simp] theorem State.jump_freeCtr (s : State) (e : Entry) : (s.jump e).freeCtr = s.freeCtr := rfl
@[simp] theorem State.jump_mem (s : State) (e : Entry) :
    (s.jump e).mem = s.mem := by
  funext sp
  rcases sp with _ | (_ | _) | _ | _ <;> rfl

/-! #### `charge` -/

@[simp] theorem State.charge_regs1 (s : State) (c : Nat) : (s.charge c).regs1 = s.regs1 := rfl
@[simp] theorem State.charge_ctx (s : State) (c : Nat) : (s.charge c).ctx = s.ctx := rfl
@[simp] theorem State.charge_proc_cmdAddr (s : State) (c : Nat) : (s.charge c).proc.cmdAddr = s.proc.cmdAddr := rfl
@[simp] theorem State.charge_proc_status (s : State) (c : Nat) : (s.charge c).proc.status = s.proc.status := rfl
@[simp] theorem State.charge_proc_cyclePool (s : State) (c : Nat) :
    (s.charge c).proc.cyclePool = s.proc.cyclePool - c := rfl
@[simp] theorem State.charge_proc_frameCycles (s : State) (c : Nat) :
    (s.charge c).proc.frameCycles = s.proc.frameCycles + c := rfl
@[simp] theorem State.charge_proc_lastVisible (s : State) (c : Nat) :
    (s.charge c).proc.lastVisible = s.proc.lastVisible := rfl
@[simp] theorem State.charge_seq (s : State) (c : Nat) : (s.charge c).seq = s.seq := rfl
@[simp] theorem State.charge_vram1 (s : State) (c : Nat) : (s.charge c).vram1 = s.vram1 := rfl
@[simp] theorem State.charge_fb0 (s : State) (c : Nat) : (s.charge c).fb0 = s.fb0 := rfl
@[simp] theorem State.charge_fb1 (s : State) (c : Nat) : (s.charge c).fb1 = s.fb1 := rfl
@[simp] theorem State.charge_regs2 (s : State) (c : Nat) : (s.charge c).regs2 = s.regs2 := rfl
@[simp] theorem State.charge_vram2 (s : State) (c : Nat) : (s.charge c).vram2 = s.vram2 := rfl
@[simp] theorem State.charge_cram (s : State) (c : Nat) : (s.charge c).cram = s.cram := rfl
@[simp] theorem State.charge_tim (s : State) (c : Nat) : (s.charge c).tim = s.tim := rfl
@[simp] theorem State.charge_cmp (s : State) (c : Nat) : (s.charge c).cmp = s.cmp := rfl
@[simp] theorem State.charge_ctl (s : State) (c : Nat) : (s.charge c).ctl = s.ctl := rfl
@[simp] theorem State.charge_hostOps (s : State) (c : Nat) : (s.charge c).hostOps = s.hostOps := rfl
@[simp] theorem State.charge_replies (s : State) (c : Nat) : (s.charge c).replies = s.replies := rfl
@[simp] theorem State.charge_trace (s : State) (c : Nat) : (s.charge c).trace = s.trace := rfl
@[simp] theorem State.charge_freeCtr (s : State) (c : Nat) : (s.charge c).freeCtr = s.freeCtr := rfl
@[simp] theorem State.charge_mem (s : State) (c : Nat) :
    (s.charge c).mem = s.mem := by
  funext sp
  rcases sp with _ | (_ | _) | _ | _ <;> rfl

/-! #### `finish` -/

@[simp] theorem State.finish_regs1 (s : State) (i : Instr) (e : Entry) (r : DrawResult) :
    (s.finish i e r).regs1 = s.regs1 := rfl
@[simp] theorem State.finish_ctx_sysClipH (s : State) (i : Instr) (e : Entry) (r : DrawResult) :
    (s.finish i e r).ctx.sysClipH = s.ctx.sysClipH := rfl
@[simp] theorem State.finish_ctx_sysClipV (s : State) (i : Instr) (e : Entry) (r : DrawResult) :
    (s.finish i e r).ctx.sysClipV = s.ctx.sysClipV := rfl
@[simp] theorem State.finish_ctx_userX0 (s : State) (i : Instr) (e : Entry) (r : DrawResult) :
    (s.finish i e r).ctx.userX0 = s.ctx.userX0 := rfl
@[simp] theorem State.finish_ctx_userY0 (s : State) (i : Instr) (e : Entry) (r : DrawResult) :
    (s.finish i e r).ctx.userY0 = s.ctx.userY0 := rfl
@[simp] theorem State.finish_ctx_userX1 (s : State) (i : Instr) (e : Entry) (r : DrawResult) :
    (s.finish i e r).ctx.userX1 = s.ctx.userX1 := rfl
@[simp] theorem State.finish_ctx_userY1 (s : State) (i : Instr) (e : Entry) (r : DrawResult) :
    (s.finish i e r).ctx.userY1 = s.ctx.userY1 := rfl
@[simp] theorem State.finish_ctx_localX (s : State) (i : Instr) (e : Entry) (r : DrawResult) :
    (s.finish i e r).ctx.localX = s.ctx.localX := rfl
@[simp] theorem State.finish_ctx_localY (s : State) (i : Instr) (e : Entry) (r : DrawResult) :
    (s.finish i e r).ctx.localY = s.ctx.localY := rfl
@[simp] theorem State.finish_ctx_retAddr (s : State) (i : Instr) (e : Entry) (r : DrawResult) :
    (s.finish i e r).ctx.retAddr = (jumpTarget e s.proc.cmdAddr s.ctx.retAddr).2 := rfl
@[simp] theorem State.finish_proc_cmdAddr (s : State) (i : Instr) (e : Entry) (r : DrawResult) :
    (s.finish i e r).proc.cmdAddr = (jumpTarget e s.proc.cmdAddr s.ctx.retAddr).1 := rfl
@[simp] theorem State.finish_proc_status (s : State) (i : Instr) (e : Entry) (r : DrawResult) :
    (s.finish i e r).proc.status = s.proc.status := rfl
@[simp] theorem State.finish_proc_cyclePool (s : State) (i : Instr) (e : Entry) (r : DrawResult) :
    (s.finish i e r).proc.cyclePool = s.proc.cyclePool - Config.cmdCost i r := rfl
@[simp] theorem State.finish_proc_frameCycles (s : State) (i : Instr) (e : Entry) (r : DrawResult) :
    (s.finish i e r).proc.frameCycles = s.proc.frameCycles + Config.cmdCost i r := rfl
@[simp] theorem State.finish_proc_lastVisible (s : State) (i : Instr) (e : Entry) (r : DrawResult) :
    (s.finish i e r).proc.lastVisible = s.proc.lastVisible := rfl
@[simp] theorem State.finish_seq (s : State) (i : Instr) (e : Entry) (r : DrawResult) :
    (s.finish i e r).seq = s.seq := rfl
@[simp] theorem State.finish_vram1 (s : State) (i : Instr) (e : Entry) (r : DrawResult) :
    (s.finish i e r).vram1 = s.vram1 := rfl
@[simp] theorem State.finish_fb0 (s : State) (i : Instr) (e : Entry) (r : DrawResult) :
    (s.finish i e r).fb0 = s.fb0 := rfl
@[simp] theorem State.finish_fb1 (s : State) (i : Instr) (e : Entry) (r : DrawResult) :
    (s.finish i e r).fb1 = s.fb1 := rfl
@[simp] theorem State.finish_regs2 (s : State) (i : Instr) (e : Entry) (r : DrawResult) :
    (s.finish i e r).regs2 = s.regs2 := rfl
@[simp] theorem State.finish_vram2 (s : State) (i : Instr) (e : Entry) (r : DrawResult) :
    (s.finish i e r).vram2 = s.vram2 := rfl
@[simp] theorem State.finish_cram (s : State) (i : Instr) (e : Entry) (r : DrawResult) :
    (s.finish i e r).cram = s.cram := rfl
@[simp] theorem State.finish_tim (s : State) (i : Instr) (e : Entry) (r : DrawResult) :
    (s.finish i e r).tim = s.tim := rfl
@[simp] theorem State.finish_cmp (s : State) (i : Instr) (e : Entry) (r : DrawResult) :
    (s.finish i e r).cmp = s.cmp := rfl
@[simp] theorem State.finish_ctl (s : State) (i : Instr) (e : Entry) (r : DrawResult) :
    (s.finish i e r).ctl = s.ctl := rfl
@[simp] theorem State.finish_hostOps (s : State) (i : Instr) (e : Entry) (r : DrawResult) :
    (s.finish i e r).hostOps = s.hostOps := rfl
@[simp] theorem State.finish_replies (s : State) (i : Instr) (e : Entry) (r : DrawResult) :
    (s.finish i e r).replies = s.replies := rfl
@[simp] theorem State.finish_trace (s : State) (i : Instr) (e : Entry) (r : DrawResult) :
    (s.finish i e r).trace = s.trace := rfl
@[simp] theorem State.finish_freeCtr (s : State) (i : Instr) (e : Entry) (r : DrawResult) :
    (s.finish i e r).freeCtr = s.freeCtr := rfl
@[simp] theorem State.finish_mem (s : State) (i : Instr) (e : Entry) (r : DrawResult) :
    (s.finish i e r).mem = s.mem := by
  funext sp
  rcases sp with _ | (_ | _) | _ | _ <;> rfl

/-! #### `setCef` -/

@[simp] theorem State.setCef_regs1_tvmr (s : State) : (s.setCef).regs1.tvmr = s.regs1.tvmr := rfl
@[simp] theorem State.setCef_regs1_fbcr (s : State) : (s.setCef).regs1.fbcr = s.regs1.fbcr := rfl
@[simp] theorem State.setCef_regs1_ptmr (s : State) : (s.setCef).regs1.ptmr = s.regs1.ptmr := rfl
@[simp] theorem State.setCef_regs1_ewdr (s : State) : (s.setCef).regs1.ewdr = s.regs1.ewdr := rfl
@[simp] theorem State.setCef_regs1_ewlr (s : State) : (s.setCef).regs1.ewlr = s.regs1.ewlr := rfl
@[simp] theorem State.setCef_regs1_ewrr (s : State) : (s.setCef).regs1.ewrr = s.regs1.ewrr := rfl
@[simp] theorem State.setCef_regs1_edsr (s : State) : (s.setCef).regs1.edsr = s.regs1.edsr ||| 0x0002#16 := rfl
@[simp] theorem State.setCef_regs1_lopr (s : State) : (s.setCef).regs1.lopr = s.regs1.lopr := rfl
@[simp] theorem State.setCef_regs1_copr (s : State) : (s.setCef).regs1.copr = s.regs1.copr := rfl
@[simp] theorem State.setCef_ctx (s : State) : (s.setCef).ctx = s.ctx := rfl
@[simp] theorem State.setCef_proc (s : State) : (s.setCef).proc = s.proc := rfl
@[simp] theorem State.setCef_seq (s : State) : (s.setCef).seq = s.seq := rfl
@[simp] theorem State.setCef_vram1 (s : State) : (s.setCef).vram1 = s.vram1 := rfl
@[simp] theorem State.setCef_fb0 (s : State) : (s.setCef).fb0 = s.fb0 := rfl
@[simp] theorem State.setCef_fb1 (s : State) : (s.setCef).fb1 = s.fb1 := rfl
@[simp] theorem State.setCef_regs2 (s : State) : (s.setCef).regs2 = s.regs2 := rfl
@[simp] theorem State.setCef_vram2 (s : State) : (s.setCef).vram2 = s.vram2 := rfl
@[simp] theorem State.setCef_cram (s : State) : (s.setCef).cram = s.cram := rfl
@[simp] theorem State.setCef_tim (s : State) : (s.setCef).tim = s.tim := rfl
@[simp] theorem State.setCef_cmp (s : State) : (s.setCef).cmp = s.cmp := rfl
@[simp] theorem State.setCef_ctl (s : State) : (s.setCef).ctl = s.ctl := rfl
@[simp] theorem State.setCef_hostOps (s : State) : (s.setCef).hostOps = s.hostOps := rfl
@[simp] theorem State.setCef_replies (s : State) : (s.setCef).replies = s.replies := rfl
@[simp] theorem State.setCef_trace (s : State) : (s.setCef).trace = s.trace := rfl
@[simp] theorem State.setCef_freeCtr (s : State) : (s.setCef).freeCtr = s.freeCtr := rfl
@[simp] theorem State.setCef_mem (s : State) :
    (s.setCef).mem = s.mem := by
  funext sp
  rcases sp with _ | (_ | _) | _ | _ <;> rfl

/-! #### `shiftCef` -/

@[simp] theorem State.shiftCef_regs1_tvmr (s : State) : (s.shiftCef).regs1.tvmr = s.regs1.tvmr := rfl
@[simp] theorem State.shiftCef_regs1_fbcr (s : State) : (s.shiftCef).regs1.fbcr = s.regs1.fbcr := rfl
@[simp] theorem State.shiftCef_regs1_ptmr (s : State) : (s.shiftCef).regs1.ptmr = s.regs1.ptmr := rfl
@[simp] theorem State.shiftCef_regs1_ewdr (s : State) : (s.shiftCef).regs1.ewdr = s.regs1.ewdr := rfl
@[simp] theorem State.shiftCef_regs1_ewlr (s : State) : (s.shiftCef).regs1.ewlr = s.regs1.ewlr := rfl
@[simp] theorem State.shiftCef_regs1_ewrr (s : State) : (s.shiftCef).regs1.ewrr = s.regs1.ewrr := rfl
@[simp] theorem State.shiftCef_regs1_edsr (s : State) : (s.shiftCef).regs1.edsr = edsrWord false s.cef := rfl
@[simp] theorem State.shiftCef_regs1_lopr (s : State) : (s.shiftCef).regs1.lopr = s.regs1.lopr := rfl
@[simp] theorem State.shiftCef_regs1_copr (s : State) : (s.shiftCef).regs1.copr = s.regs1.copr := rfl
@[simp] theorem State.shiftCef_ctx (s : State) : (s.shiftCef).ctx = s.ctx := rfl
@[simp] theorem State.shiftCef_proc (s : State) : (s.shiftCef).proc = s.proc := rfl
@[simp] theorem State.shiftCef_seq (s : State) : (s.shiftCef).seq = s.seq := rfl
@[simp] theorem State.shiftCef_vram1 (s : State) : (s.shiftCef).vram1 = s.vram1 := rfl
@[simp] theorem State.shiftCef_fb0 (s : State) : (s.shiftCef).fb0 = s.fb0 := rfl
@[simp] theorem State.shiftCef_fb1 (s : State) : (s.shiftCef).fb1 = s.fb1 := rfl
@[simp] theorem State.shiftCef_regs2 (s : State) : (s.shiftCef).regs2 = s.regs2 := rfl
@[simp] theorem State.shiftCef_vram2 (s : State) : (s.shiftCef).vram2 = s.vram2 := rfl
@[simp] theorem State.shiftCef_cram (s : State) : (s.shiftCef).cram = s.cram := rfl
@[simp] theorem State.shiftCef_tim (s : State) : (s.shiftCef).tim = s.tim := rfl
@[simp] theorem State.shiftCef_cmp (s : State) : (s.shiftCef).cmp = s.cmp := rfl
@[simp] theorem State.shiftCef_ctl (s : State) : (s.shiftCef).ctl = s.ctl := rfl
@[simp] theorem State.shiftCef_hostOps (s : State) : (s.shiftCef).hostOps = s.hostOps := rfl
@[simp] theorem State.shiftCef_replies (s : State) : (s.shiftCef).replies = s.replies := rfl
@[simp] theorem State.shiftCef_trace (s : State) : (s.shiftCef).trace = s.trace := rfl
@[simp] theorem State.shiftCef_freeCtr (s : State) : (s.shiftCef).freeCtr = s.freeCtr := rfl
@[simp] theorem State.shiftCef_mem (s : State) :
    (s.shiftCef).mem = s.mem := by
  funext sp
  rcases sp with _ | (_ | _) | _ | _ <;> rfl

/-! #### `setLastVisible` -/

@[simp] theorem State.setLastVisible_regs1 (s : State) (v : Bool) : (s.setLastVisible v).regs1 = s.regs1 := rfl
@[simp] theorem State.setLastVisible_ctx (s : State) (v : Bool) : (s.setLastVisible v).ctx = s.ctx := rfl
@[simp] theorem State.setLastVisible_proc_cmdAddr (s : State) (v : Bool) :
    (s.setLastVisible v).proc.cmdAddr = s.proc.cmdAddr := rfl
@[simp] theorem State.setLastVisible_proc_status (s : State) (v : Bool) :
    (s.setLastVisible v).proc.status = s.proc.status := rfl
@[simp] theorem State.setLastVisible_proc_cyclePool (s : State) (v : Bool) :
    (s.setLastVisible v).proc.cyclePool = s.proc.cyclePool := rfl
@[simp] theorem State.setLastVisible_proc_frameCycles (s : State) (v : Bool) :
    (s.setLastVisible v).proc.frameCycles = s.proc.frameCycles := rfl
@[simp] theorem State.setLastVisible_proc_lastVisible (s : State) (v : Bool) :
    (s.setLastVisible v).proc.lastVisible = v := rfl
@[simp] theorem State.setLastVisible_seq (s : State) (v : Bool) : (s.setLastVisible v).seq = s.seq := rfl
@[simp] theorem State.setLastVisible_vram1 (s : State) (v : Bool) : (s.setLastVisible v).vram1 = s.vram1 := rfl
@[simp] theorem State.setLastVisible_fb0 (s : State) (v : Bool) : (s.setLastVisible v).fb0 = s.fb0 := rfl
@[simp] theorem State.setLastVisible_fb1 (s : State) (v : Bool) : (s.setLastVisible v).fb1 = s.fb1 := rfl
@[simp] theorem State.setLastVisible_regs2 (s : State) (v : Bool) : (s.setLastVisible v).regs2 = s.regs2 := rfl
@[simp] theorem State.setLastVisible_vram2 (s : State) (v : Bool) : (s.setLastVisible v).vram2 = s.vram2 := rfl
@[simp] theorem State.setLastVisible_cram (s : State) (v : Bool) : (s.setLastVisible v).cram = s.cram := rfl
@[simp] theorem State.setLastVisible_tim (s : State) (v : Bool) : (s.setLastVisible v).tim = s.tim := rfl
@[simp] theorem State.setLastVisible_cmp (s : State) (v : Bool) : (s.setLastVisible v).cmp = s.cmp := rfl
@[simp] theorem State.setLastVisible_ctl (s : State) (v : Bool) : (s.setLastVisible v).ctl = s.ctl := rfl
@[simp] theorem State.setLastVisible_hostOps (s : State) (v : Bool) : (s.setLastVisible v).hostOps = s.hostOps := rfl
@[simp] theorem State.setLastVisible_replies (s : State) (v : Bool) : (s.setLastVisible v).replies = s.replies := rfl
@[simp] theorem State.setLastVisible_trace (s : State) (v : Bool) : (s.setLastVisible v).trace = s.trace := rfl
@[simp] theorem State.setLastVisible_freeCtr (s : State) (v : Bool) : (s.setLastVisible v).freeCtr = s.freeCtr := rfl
@[simp] theorem State.setLastVisible_mem (s : State) (v : Bool) :
    (s.setLastVisible v).mem = s.mem := by
  funext sp
  rcases sp with _ | (_ | _) | _ | _ <;> rfl

/-! #### `changeHblank` -/

@[simp] theorem State.changeHblank_regs1 (s : State) (b : Bool) : (s.changeHblank b).regs1 = s.regs1 := rfl
@[simp] theorem State.changeHblank_ctx (s : State) (b : Bool) : (s.changeHblank b).ctx = s.ctx := rfl
@[simp] theorem State.changeHblank_proc (s : State) (b : Bool) : (s.changeHblank b).proc = s.proc := rfl
@[simp] theorem State.changeHblank_seq (s : State) (b : Bool) : (s.changeHblank b).seq = s.seq := rfl
@[simp] theorem State.changeHblank_vram1 (s : State) (b : Bool) : (s.changeHblank b).vram1 = s.vram1 := rfl
@[simp] theorem State.changeHblank_fb0 (s : State) (b : Bool) : (s.changeHblank b).fb0 = s.fb0 := rfl
@[simp] theorem State.changeHblank_fb1 (s : State) (b : Bool) : (s.changeHblank b).fb1 = s.fb1 := rfl
@[simp] theorem State.changeHblank_regs2 (s : State) (b : Bool) : (s.changeHblank b).regs2 = s.regs2 := rfl
@[simp] theorem State.changeHblank_vram2 (s : State) (b : Bool) : (s.changeHblank b).vram2 = s.vram2 := rfl
@[simp] theorem State.changeHblank_cram (s : State) (b : Bool) : (s.changeHblank b).cram = s.cram := rfl
@[simp] theorem State.changeHblank_tim_hPhase (s : State) (b : Bool) :
    (s.changeHblank b).tim.hPhase = s.tim.hPhase := rfl
@[simp] theorem State.changeHblank_tim_vPhase (s : State) (b : Bool) :
    (s.changeHblank b).tim.vPhase = s.tim.vPhase := rfl
@[simp] theorem State.changeHblank_tim_hCyc (s : State) (b : Bool) : (s.changeHblank b).tim.hCyc = s.tim.hCyc := rfl
@[simp] theorem State.changeHblank_tim_vLine (s : State) (b : Bool) : (s.changeHblank b).tim.vLine = s.tim.vLine := rfl
@[simp] theorem State.changeHblank_tim_vCounter (s : State) (b : Bool) :
    (s.changeHblank b).tim.vCounter = s.tim.vCounter := rfl
@[simp] theorem State.changeHblank_tim_field (s : State) (b : Bool) : (s.changeHblank b).tim.field = s.tim.field := rfl
@[simp] theorem State.changeHblank_tim_hblank (s : State) (b : Bool) : (s.changeHblank b).tim.hblank = b := rfl
@[simp] theorem State.changeHblank_tim_vblank (s : State) (b : Bool) :
    (s.changeHblank b).tim.vblank = s.tim.vblank := rfl
@[simp] theorem State.changeHblank_tim_resCur (s : State) (b : Bool) :
    (s.changeHblank b).tim.resCur = s.tim.resCur := rfl
@[simp] theorem State.changeHblank_tim_resReq (s : State) (b : Bool) :
    (s.changeHblank b).tim.resReq = s.tim.resReq := rfl
@[simp] theorem State.changeHblank_tim_resDirty (s : State) (b : Bool) :
    (s.changeHblank b).tim.resDirty = s.tim.resDirty := rfl
@[simp] theorem State.changeHblank_cmp (s : State) (b : Bool) : (s.changeHblank b).cmp = s.cmp := rfl
@[simp] theorem State.changeHblank_ctl (s : State) (b : Bool) : (s.changeHblank b).ctl = s.ctl := rfl
@[simp] theorem State.changeHblank_hostOps (s : State) (b : Bool) : (s.changeHblank b).hostOps = s.hostOps := rfl
@[simp] theorem State.changeHblank_replies (s : State) (b : Bool) : (s.changeHblank b).replies = s.replies := rfl
@[simp] theorem State.changeHblank_trace (s : State) (b : Bool) :
    (s.changeHblank b).trace = s.trace ++ [.hBlankStateChange b] ++ [.statusReadHint] := rfl
@[simp] theorem State.changeHblank_freeCtr (s : State) (b : Bool) : (s.changeHblank b).freeCtr = s.freeCtr := rfl
@[simp] theorem State.changeHblank_mem (s : State) (b : Bool) :
    (s.changeHblank b).mem = s.mem := by
  funext sp
  rcases sp with _ | (_ | _) | _ | _ <;> rfl

/-! #### `changeVblank` -/

@[simp] theorem State.changeVblank_regs1 (s : State) (b : Bool) : (s.changeVblank b).regs1 = s.regs1 := rfl
@[simp] theorem State.changeVblank_ctx (s : State) (b : Bool) : (s.changeVblank b).ctx = s.ctx := rfl
@[simp] theorem State.changeVblank_proc (s : State) (b : Bool) : (s.changeVblank b).proc = s.proc := rfl
@[simp] theorem State.changeVblank_seq (s : State) (b : Bool) : (s.changeVblank b).seq = s.seq := rfl
@[simp] theorem State.changeVblank_vram1 (s : State) (b : Bool) : (s.changeVblank b).vram1 = s.vram1 := rfl
@[simp] theorem State.changeVblank_fb0 (s : State) (b : Bool) : (s.changeVblank b).fb0 = s.fb0 := rfl
@[simp] theorem State.changeVblank_fb1 (s : State) (b : Bool) : (s.changeVblank b).fb1 = s.fb1 := rfl
@[simp] theorem State.changeVblank_regs2 (s : State) (b : Bool) : (s.changeVblank b).regs2 = s.regs2 := rfl
@[simp] theorem State.changeVblank_vram2 (s : State) (b : Bool) : (s.changeVblank b).vram2 = s.vram2 := rfl
@[simp] theorem State.changeVblank_cram (s : State) (b : Bool) : (s.changeVblank b).cram = s.cram := rfl
@[simp] theorem State.changeVblank_tim_hPhase (s : State) (b : Bool) :
    (s.changeVblank b).tim.hPhase = s.tim.hPhase := rfl
@[simp] theorem State.changeVblank_tim_vPhase (s : State) (b : Bool) :
    (s.changeVblank b).tim.vPhase = s.tim.vPhase := rfl
@[simp] theorem State.changeVblank_tim_hCyc (s : State) (b : Bool) : (s.changeVblank b).tim.hCyc = s.tim.hCyc := rfl
@[simp] theorem State.changeVblank_tim_vLine (s : State) (b : Bool) : (s.changeVblank b).tim.vLine = s.tim.vLine := rfl
@[simp] theorem State.changeVblank_tim_vCounter (s : State) (b : Bool) :
    (s.changeVblank b).tim.vCounter = s.tim.vCounter := rfl
@[simp] theorem State.changeVblank_tim_field (s : State) (b : Bool) : (s.changeVblank b).tim.field = s.tim.field := rfl
@[simp] theorem State.changeVblank_tim_hblank (s : State) (b : Bool) :
    (s.changeVblank b).tim.hblank = s.tim.hblank := rfl
@[simp] theorem State.changeVblank_tim_vblank (s : State) (b : Bool) : (s.changeVblank b).tim.vblank = b := rfl
@[simp] theorem State.changeVblank_tim_resCur (s : State) (b : Bool) :
    (s.changeVblank b).tim.resCur = s.tim.resCur := rfl
@[simp] theorem State.changeVblank_tim_resReq (s : State) (b : Bool) :
    (s.changeVblank b).tim.resReq = s.tim.resReq := rfl
@[simp] theorem State.changeVblank_tim_resDirty (s : State) (b : Bool) :
    (s.changeVblank b).tim.resDirty = s.tim.resDirty := rfl
@[simp] theorem State.changeVblank_cmp (s : State) (b : Bool) : (s.changeVblank b).cmp = s.cmp := rfl
@[simp] theorem State.changeVblank_ctl (s : State) (b : Bool) : (s.changeVblank b).ctl = s.ctl := rfl
@[simp] theorem State.changeVblank_hostOps (s : State) (b : Bool) : (s.changeVblank b).hostOps = s.hostOps := rfl
@[simp] theorem State.changeVblank_replies (s : State) (b : Bool) : (s.changeVblank b).replies = s.replies := rfl
@[simp] theorem State.changeVblank_trace (s : State) (b : Bool) :
    (s.changeVblank b).trace = s.trace ++ [.vBlankStateChange b] := rfl
@[simp] theorem State.changeVblank_freeCtr (s : State) (b : Bool) : (s.changeVblank b).freeCtr = s.freeCtr := rfl
@[simp] theorem State.changeVblank_mem (s : State) (b : Bool) :
    (s.changeVblank b).mem = s.mem := by
  funext sp
  rcases sp with _ | (_ | _) | _ | _ <;> rfl

/-! #### `setUserClip` -/

@[simp] theorem State.setUserClip_regs1 (s : State) (x0 : BitVec 10) (y0 : BitVec 9) (x1 : BitVec 10) (y1 : BitVec 9) :
    (s.setUserClip x0 y0 x1 y1).regs1 = s.regs1 := rfl
@[simp] theorem State.setUserClip_ctx_sysClipH (s : State) (x0 : BitVec 10) (y0 : BitVec 9) (x1 : BitVec 10) (y1 : BitVec 9) :
    (s.setUserClip x0 y0 x1 y1).ctx.sysClipH = s.ctx.sysClipH := rfl
@[simp] theorem State.setUserClip_ctx_sysClipV (s : State) (x0 : BitVec 10) (y0 : BitVec 9) (x1 : BitVec 10) (y1 : BitVec 9) :
    (s.setUserClip x0 y0 x1 y1).ctx.sysClipV = s.ctx.sysClipV := rfl
@[simp] theorem State.setUserClip_ctx_userX0 (s : State) (x0 : BitVec 10) (y0 : BitVec 9) (x1 : BitVec 10) (y1 : BitVec 9) :
    (s.setUserClip x0 y0 x1 y1).ctx.userX0 = some x0 := rfl
@[simp] theorem State.setUserClip_ctx_userY0 (s : State) (x0 : BitVec 10) (y0 : BitVec 9) (x1 : BitVec 10) (y1 : BitVec 9) :
    (s.setUserClip x0 y0 x1 y1).ctx.userY0 = some y0 := rfl
@[simp] theorem State.setUserClip_ctx_userX1 (s : State) (x0 : BitVec 10) (y0 : BitVec 9) (x1 : BitVec 10) (y1 : BitVec 9) :
    (s.setUserClip x0 y0 x1 y1).ctx.userX1 = some x1 := rfl
@[simp] theorem State.setUserClip_ctx_userY1 (s : State) (x0 : BitVec 10) (y0 : BitVec 9) (x1 : BitVec 10) (y1 : BitVec 9) :
    (s.setUserClip x0 y0 x1 y1).ctx.userY1 = some y1 := rfl
@[simp] theorem State.setUserClip_ctx_localX (s : State) (x0 : BitVec 10) (y0 : BitVec 9) (x1 : BitVec 10) (y1 : BitVec 9) :
    (s.setUserClip x0 y0 x1 y1).ctx.localX = s.ctx.localX := rfl
@[simp] theorem State.setUserClip_ctx_localY (s : State) (x0 : BitVec 10) (y0 : BitVec 9) (x1 : BitVec 10) (y1 : BitVec 9) :
    (s.setUserClip x0 y0 x1 y1).ctx.localY = s.ctx.localY := rfl
@[simp] theorem State.setUserClip_ctx_retAddr (s : State) (x0 : BitVec 10) (y0 : BitVec 9) (x1 : BitVec 10) (y1 : BitVec 9) :
    (s.setUserClip x0 y0 x1 y1).ctx.retAddr = s.ctx.retAddr := rfl
@[simp] theorem State.setUserClip_proc (s : State) (x0 : BitVec 10) (y0 : BitVec 9) (x1 : BitVec 10) (y1 : BitVec 9) :
    (s.setUserClip x0 y0 x1 y1).proc = s.proc := rfl
@[simp] theorem State.setUserClip_seq (s : State) (x0 : BitVec 10) (y0 : BitVec 9) (x1 : BitVec 10) (y1 : BitVec 9) :
    (s.setUserClip x0 y0 x1 y1).seq = s.seq := rfl
@[simp] theorem State.setUserClip_vram1 (s : State) (x0 : BitVec 10) (y0 : BitVec 9) (x1 : BitVec 10) (y1 : BitVec 9) :
    (s.setUserClip x0 y0 x1 y1).vram1 = s.vram1 := rfl
@[simp] theorem State.setUserClip_fb0 (s : State) (x0 : BitVec 10) (y0 : BitVec 9) (x1 : BitVec 10) (y1 : BitVec 9) :
    (s.setUserClip x0 y0 x1 y1).fb0 = s.fb0 := rfl
@[simp] theorem State.setUserClip_fb1 (s : State) (x0 : BitVec 10) (y0 : BitVec 9) (x1 : BitVec 10) (y1 : BitVec 9) :
    (s.setUserClip x0 y0 x1 y1).fb1 = s.fb1 := rfl
@[simp] theorem State.setUserClip_regs2 (s : State) (x0 : BitVec 10) (y0 : BitVec 9) (x1 : BitVec 10) (y1 : BitVec 9) :
    (s.setUserClip x0 y0 x1 y1).regs2 = s.regs2 := rfl
@[simp] theorem State.setUserClip_vram2 (s : State) (x0 : BitVec 10) (y0 : BitVec 9) (x1 : BitVec 10) (y1 : BitVec 9) :
    (s.setUserClip x0 y0 x1 y1).vram2 = s.vram2 := rfl
@[simp] theorem State.setUserClip_cram (s : State) (x0 : BitVec 10) (y0 : BitVec 9) (x1 : BitVec 10) (y1 : BitVec 9) :
    (s.setUserClip x0 y0 x1 y1).cram = s.cram := rfl
@[simp] theorem State.setUserClip_tim (s : State) (x0 : BitVec 10) (y0 : BitVec 9) (x1 : BitVec 10) (y1 : BitVec 9) :
    (s.setUserClip x0 y0 x1 y1).tim = s.tim := rfl
@[simp] theorem State.setUserClip_cmp (s : State) (x0 : BitVec 10) (y0 : BitVec 9) (x1 : BitVec 10) (y1 : BitVec 9) :
    (s.setUserClip x0 y0 x1 y1).cmp = s.cmp := rfl
@[simp] theorem State.setUserClip_ctl (s : State) (x0 : BitVec 10) (y0 : BitVec 9) (x1 : BitVec 10) (y1 : BitVec 9) :
    (s.setUserClip x0 y0 x1 y1).ctl = s.ctl := rfl
@[simp] theorem State.setUserClip_hostOps (s : State) (x0 : BitVec 10) (y0 : BitVec 9) (x1 : BitVec 10) (y1 : BitVec 9) :
    (s.setUserClip x0 y0 x1 y1).hostOps = s.hostOps := rfl
@[simp] theorem State.setUserClip_replies (s : State) (x0 : BitVec 10) (y0 : BitVec 9) (x1 : BitVec 10) (y1 : BitVec 9) :
    (s.setUserClip x0 y0 x1 y1).replies = s.replies := rfl
@[simp] theorem State.setUserClip_trace (s : State) (x0 : BitVec 10) (y0 : BitVec 9) (x1 : BitVec 10) (y1 : BitVec 9) :
    (s.setUserClip x0 y0 x1 y1).trace = s.trace := rfl
@[simp] theorem State.setUserClip_freeCtr (s : State) (x0 : BitVec 10) (y0 : BitVec 9) (x1 : BitVec 10) (y1 : BitVec 9) :
    (s.setUserClip x0 y0 x1 y1).freeCtr = s.freeCtr := rfl
@[simp] theorem State.setUserClip_mem (s : State) (x0 : BitVec 10) (y0 : BitVec 9) (x1 : BitVec 10) (y1 : BitVec 9) :
    (s.setUserClip x0 y0 x1 y1).mem = s.mem := by
  funext sp
  rcases sp with _ | (_ | _) | _ | _ <;> rfl

/-! #### `setSysClip` -/

@[simp] theorem State.setSysClip_regs1 (s : State) (h : BitVec 10) (v : BitVec 9) :
    (s.setSysClip h v).regs1 = s.regs1 := rfl
@[simp] theorem State.setSysClip_ctx_sysClipH (s : State) (h : BitVec 10) (v : BitVec 9) :
    (s.setSysClip h v).ctx.sysClipH = some h := rfl
@[simp] theorem State.setSysClip_ctx_sysClipV (s : State) (h : BitVec 10) (v : BitVec 9) :
    (s.setSysClip h v).ctx.sysClipV = some v := rfl
@[simp] theorem State.setSysClip_ctx_userX0 (s : State) (h : BitVec 10) (v : BitVec 9) :
    (s.setSysClip h v).ctx.userX0 = s.ctx.userX0 := rfl
@[simp] theorem State.setSysClip_ctx_userY0 (s : State) (h : BitVec 10) (v : BitVec 9) :
    (s.setSysClip h v).ctx.userY0 = s.ctx.userY0 := rfl
@[simp] theorem State.setSysClip_ctx_userX1 (s : State) (h : BitVec 10) (v : BitVec 9) :
    (s.setSysClip h v).ctx.userX1 = s.ctx.userX1 := rfl
@[simp] theorem State.setSysClip_ctx_userY1 (s : State) (h : BitVec 10) (v : BitVec 9) :
    (s.setSysClip h v).ctx.userY1 = s.ctx.userY1 := rfl
@[simp] theorem State.setSysClip_ctx_localX (s : State) (h : BitVec 10) (v : BitVec 9) :
    (s.setSysClip h v).ctx.localX = s.ctx.localX := rfl
@[simp] theorem State.setSysClip_ctx_localY (s : State) (h : BitVec 10) (v : BitVec 9) :
    (s.setSysClip h v).ctx.localY = s.ctx.localY := rfl
@[simp] theorem State.setSysClip_ctx_retAddr (s : State) (h : BitVec 10) (v : BitVec 9) :
    (s.setSysClip h v).ctx.retAddr = s.ctx.retAddr := rfl
@[simp] theorem State.setSysClip_proc (s : State) (h : BitVec 10) (v : BitVec 9) :
    (s.setSysClip h v).proc = s.proc := rfl
@[simp] theorem State.setSysClip_seq (s : State) (h : BitVec 10) (v : BitVec 9) : (s.setSysClip h v).seq = s.seq := rfl
@[simp] theorem State.setSysClip_vram1 (s : State) (h : BitVec 10) (v : BitVec 9) :
    (s.setSysClip h v).vram1 = s.vram1 := rfl
@[simp] theorem State.setSysClip_fb0 (s : State) (h : BitVec 10) (v : BitVec 9) : (s.setSysClip h v).fb0 = s.fb0 := rfl
@[simp] theorem State.setSysClip_fb1 (s : State) (h : BitVec 10) (v : BitVec 9) : (s.setSysClip h v).fb1 = s.fb1 := rfl
@[simp] theorem State.setSysClip_regs2 (s : State) (h : BitVec 10) (v : BitVec 9) :
    (s.setSysClip h v).regs2 = s.regs2 := rfl
@[simp] theorem State.setSysClip_vram2 (s : State) (h : BitVec 10) (v : BitVec 9) :
    (s.setSysClip h v).vram2 = s.vram2 := rfl
@[simp] theorem State.setSysClip_cram (s : State) (h : BitVec 10) (v : BitVec 9) :
    (s.setSysClip h v).cram = s.cram := rfl
@[simp] theorem State.setSysClip_tim (s : State) (h : BitVec 10) (v : BitVec 9) : (s.setSysClip h v).tim = s.tim := rfl
@[simp] theorem State.setSysClip_cmp (s : State) (h : BitVec 10) (v : BitVec 9) : (s.setSysClip h v).cmp = s.cmp := rfl
@[simp] theorem State.setSysClip_ctl (s : State) (h : BitVec 10) (v : BitVec 9) : (s.setSysClip h v).ctl = s.ctl := rfl
@[simp] theorem State.setSysClip_hostOps (s : State) (h : BitVec 10) (v : BitVec 9) :
    (s.setSysClip h v).hostOps = s.hostOps := rfl
@[simp] theorem State.setSysClip_replies (s : State) (h : BitVec 10) (v : BitVec 9) :
    (s.setSysClip h v).replies = s.replies := rfl
@[simp] theorem State.setSysClip_trace (s : State) (h : BitVec 10) (v : BitVec 9) :
    (s.setSysClip h v).trace = s.trace := rfl
@[simp] theorem State.setSysClip_freeCtr (s : State) (h : BitVec 10) (v : BitVec 9) :
    (s.setSysClip h v).freeCtr = s.freeCtr := rfl
@[simp] theorem State.setSysClip_mem (s : State) (h : BitVec 10) (v : BitVec 9) :
    (s.setSysClip h v).mem = s.mem := by
  funext sp
  rcases sp with _ | (_ | _) | _ | _ <;> rfl

/-! #### `setLocal` -/

@[simp] theorem State.setLocal_regs1 (s : State) (x y : BitVec 13) : (s.setLocal x y).regs1 = s.regs1 := rfl
@[simp] theorem State.setLocal_ctx_sysClipH (s : State) (x y : BitVec 13) :
    (s.setLocal x y).ctx.sysClipH = s.ctx.sysClipH := rfl
@[simp] theorem State.setLocal_ctx_sysClipV (s : State) (x y : BitVec 13) :
    (s.setLocal x y).ctx.sysClipV = s.ctx.sysClipV := rfl
@[simp] theorem State.setLocal_ctx_userX0 (s : State) (x y : BitVec 13) :
    (s.setLocal x y).ctx.userX0 = s.ctx.userX0 := rfl
@[simp] theorem State.setLocal_ctx_userY0 (s : State) (x y : BitVec 13) :
    (s.setLocal x y).ctx.userY0 = s.ctx.userY0 := rfl
@[simp] theorem State.setLocal_ctx_userX1 (s : State) (x y : BitVec 13) :
    (s.setLocal x y).ctx.userX1 = s.ctx.userX1 := rfl
@[simp] theorem State.setLocal_ctx_userY1 (s : State) (x y : BitVec 13) :
    (s.setLocal x y).ctx.userY1 = s.ctx.userY1 := rfl
@[simp] theorem State.setLocal_ctx_localX (s : State) (x y : BitVec 13) : (s.setLocal x y).ctx.localX = some x := rfl
@[simp] theorem State.setLocal_ctx_localY (s : State) (x y : BitVec 13) : (s.setLocal x y).ctx.localY = some y := rfl
@[simp] theorem State.setLocal_ctx_retAddr (s : State) (x y : BitVec 13) :
    (s.setLocal x y).ctx.retAddr = s.ctx.retAddr := rfl
@[simp] theorem State.setLocal_proc (s : State) (x y : BitVec 13) : (s.setLocal x y).proc = s.proc := rfl
@[simp] theorem State.setLocal_seq (s : State) (x y : BitVec 13) : (s.setLocal x y).seq = s.seq := rfl
@[simp] theorem State.setLocal_vram1 (s : State) (x y : BitVec 13) : (s.setLocal x y).vram1 = s.vram1 := rfl
@[simp] theorem State.setLocal_fb0 (s : State) (x y : BitVec 13) : (s.setLocal x y).fb0 = s.fb0 := rfl
@[simp] theorem State.setLocal_fb1 (s : State) (x y : BitVec 13) : (s.setLocal x y).fb1 = s.fb1 := rfl
@[simp] theorem State.setLocal_regs2 (s : State) (x y : BitVec 13) : (s.setLocal x y).regs2 = s.regs2 := rfl
@[simp] theorem State.setLocal_vram2 (s : State) (x y : BitVec 13) : (s.setLocal x y).vram2 = s.vram2 := rfl
@[simp] theorem State.setLocal_cram (s : State) (x y : BitVec 13) : (s.setLocal x y).cram = s.cram := rfl
@[simp] theorem State.setLocal_tim (s : State) (x y : BitVec 13) : (s.setLocal x y).tim = s.tim := rfl
@[simp] theorem State.setLocal_cmp (s : State) (x y : BitVec 13) : (s.setLocal x y).cmp = s.cmp := rfl
@[simp] theorem State.setLocal_ctl (s : State) (x y : BitVec 13) : (s.setLocal x y).ctl = s.ctl := rfl
@[simp] theorem State.setLocal_hostOps (s : State) (x y : BitVec 13) : (s.setLocal x y).hostOps = s.hostOps := rfl
@[simp] theorem State.setLocal_replies (s : State) (x y : BitVec 13) : (s.setLocal x y).replies = s.replies := rfl
@[simp] theorem State.setLocal_trace (s : State) (x y : BitVec 13) : (s.setLocal x y).trace = s.trace := rfl
@[simp] theorem State.setLocal_freeCtr (s : State) (x y : BitVec 13) : (s.setLocal x y).freeCtr = s.freeCtr := rfl
@[simp] theorem State.setLocal_mem (s : State) (x y : BitVec 13) :
    (s.setLocal x y).mem = s.mem := by
  funext sp
  rcases sp with _ | (_ | _) | _ | _ <;> rfl

/-! ### Updates of the other agents -/

/-! #### `swapRegisters` -/

@[simp] theorem State.swapRegisters_regs1_tvmr (s : State) : (s.swapRegisters).regs1.tvmr = s.regs1.tvmr := rfl
@[simp] theorem State.swapRegisters_regs1_fbcr (s : State) : (s.swapRegisters).regs1.fbcr = s.regs1.fbcr := rfl
@[simp] theorem State.swapRegisters_regs1_ptmr (s : State) : (s.swapRegisters).regs1.ptmr = s.regs1.ptmr := rfl
@[simp] theorem State.swapRegisters_regs1_ewdr (s : State) : (s.swapRegisters).regs1.ewdr = s.regs1.ewdr := rfl
@[simp] theorem State.swapRegisters_regs1_ewlr (s : State) : (s.swapRegisters).regs1.ewlr = s.regs1.ewlr := rfl
@[simp] theorem State.swapRegisters_regs1_ewrr (s : State) : (s.swapRegisters).regs1.ewrr = s.regs1.ewrr := rfl
@[simp] theorem State.swapRegisters_regs1_edsr (s : State) : (s.swapRegisters).regs1.edsr = edsrWord false s.cef := rfl
@[simp] theorem State.swapRegisters_regs1_lopr (s : State) : (s.swapRegisters).regs1.lopr = s.regs1.copr := rfl
@[simp] theorem State.swapRegisters_regs1_copr (s : State) : (s.swapRegisters).regs1.copr = 0 := rfl
@[simp] theorem State.swapRegisters_ctx (s : State) : (s.swapRegisters).ctx = s.ctx := rfl
@[simp] theorem State.swapRegisters_proc (s : State) : (s.swapRegisters).proc = s.proc := rfl
@[simp] theorem State.swapRegisters_seq_drawFB (s : State) : (s.swapRegisters).seq.drawFB = s.seq.drawFB.other := rfl
@[simp] theorem State.swapRegisters_seq_manualSwapReq (s : State) : (s.swapRegisters).seq.manualSwapReq = false := rfl
@[simp] theorem State.swapRegisters_seq_manualEraseReq (s : State) :
    (s.swapRegisters).seq.manualEraseReq = s.seq.manualEraseReq := rfl
@[simp] theorem State.swapRegisters_vram1 (s : State) : (s.swapRegisters).vram1 = s.vram1 := rfl
@[simp] theorem State.swapRegisters_fb0 (s : State) : (s.swapRegisters).fb0 = s.fb0 := rfl
@[simp] theorem State.swapRegisters_fb1 (s : State) : (s.swapRegisters).fb1 = s.fb1 := rfl
@[simp] theorem State.swapRegisters_regs2 (s : State) : (s.swapRegisters).regs2 = s.regs2 := rfl
@[simp] theorem State.swapRegisters_vram2 (s : State) : (s.swapRegisters).vram2 = s.vram2 := rfl
@[simp] theorem State.swapRegisters_cram (s : State) : (s.swapRegisters).cram = s.cram := rfl
@[simp] theorem State.swapRegisters_tim (s : State) : (s.swapRegisters).tim = s.tim := rfl
@[simp] theorem State.swapRegisters_cmp (s : State) : (s.swapRegisters).cmp = s.cmp := rfl
@[simp] theorem State.swapRegisters_ctl (s : State) : (s.swapRegisters).ctl = s.ctl := rfl
@[simp] theorem State.swapRegisters_hostOps (s : State) : (s.swapRegisters).hostOps = s.hostOps := rfl
@[simp] theorem State.swapRegisters_replies (s : State) : (s.swapRegisters).replies = s.replies := rfl
@[simp] theorem State.swapRegisters_trace (s : State) : (s.swapRegisters).trace = s.trace := rfl
@[simp] theorem State.swapRegisters_freeCtr (s : State) : (s.swapRegisters).freeCtr = s.freeCtr := rfl
@[simp] theorem State.swapRegisters_mem (s : State) :
    (s.swapRegisters).mem = s.mem := by
  funext sp
  rcases sp with _ | (_ | _) | _ | _ <;> rfl

/-! #### `latchFrame` -/

@[simp] theorem State.latchFrame_regs1 (s : State) : (s.latchFrame).regs1 = s.regs1 := rfl
@[simp] theorem State.latchFrame_ctx (s : State) : (s.latchFrame).ctx = s.ctx := rfl
@[simp] theorem State.latchFrame_proc (s : State) : (s.latchFrame).proc = s.proc := rfl
@[simp] theorem State.latchFrame_seq (s : State) : (s.latchFrame).seq = s.seq := rfl
@[simp] theorem State.latchFrame_vram1 (s : State) : (s.latchFrame).vram1 = s.vram1 := rfl
@[simp] theorem State.latchFrame_fb0 (s : State) : (s.latchFrame).fb0 = s.fb0 := rfl
@[simp] theorem State.latchFrame_fb1 (s : State) : (s.latchFrame).fb1 = s.fb1 := rfl
@[simp] theorem State.latchFrame_regs2 (s : State) : (s.latchFrame).regs2 = s.regs2 := rfl
@[simp] theorem State.latchFrame_vram2 (s : State) : (s.latchFrame).vram2 = s.vram2 := rfl
@[simp] theorem State.latchFrame_cram (s : State) : (s.latchFrame).cram = s.cram := rfl
@[simp] theorem State.latchFrame_tim (s : State) : (s.latchFrame).tim = s.tim := rfl
@[simp] theorem State.latchFrame_cmp_frameCfg (s : State) :
    (s.latchFrame).cmp.frameCfg = { resolution := (Config.decodeVdp2 s.regs2).resolution } := rfl
@[simp] theorem State.latchFrame_cmp_lineCfg (s : State) : (s.latchFrame).cmp.lineCfg = s.cmp.lineCfg := rfl
@[simp] theorem State.latchFrame_cmp_layerEnable (s : State) : (s.latchFrame).cmp.layerEnable = s.cmp.layerEnable := rfl
@[simp] theorem State.latchFrame_cmp_rows (s : State) : (s.latchFrame).cmp.rows = s.cmp.rows := rfl
@[simp] theorem State.latchFrame_cmp_outRow (s : State) : (s.latchFrame).cmp.outRow = s.cmp.outRow := rfl
@[simp] theorem State.latchFrame_cmp_out (s : State) : (s.latchFrame).cmp.out = s.cmp.out := rfl
@[simp] theorem State.latchFrame_cmp_fill (s : State) : (s.latchFrame).cmp.fill = s.cmp.fill := rfl
@[simp] theorem State.latchFrame_ctl (s : State) : (s.latchFrame).ctl = s.ctl := rfl
@[simp] theorem State.latchFrame_hostOps (s : State) : (s.latchFrame).hostOps = s.hostOps := rfl
@[simp] theorem State.latchFrame_replies (s : State) : (s.latchFrame).replies = s.replies := rfl
@[simp] theorem State.latchFrame_trace (s : State) : (s.latchFrame).trace = s.trace := rfl
@[simp] theorem State.latchFrame_freeCtr (s : State) : (s.latchFrame).freeCtr = s.freeCtr := rfl
@[simp] theorem State.latchFrame_mem (s : State) :
    (s.latchFrame).mem = s.mem := by
  funext sp
  rcases sp with _ | (_ | _) | _ | _ <;> rfl

/-! #### `countLine` -/

@[simp] theorem State.countLine_regs1 (s : State) : (s.countLine).regs1 = s.regs1 := rfl
@[simp] theorem State.countLine_ctx (s : State) : (s.countLine).ctx = s.ctx := rfl
@[simp] theorem State.countLine_proc (s : State) : (s.countLine).proc = s.proc := rfl
@[simp] theorem State.countLine_seq (s : State) : (s.countLine).seq = s.seq := rfl
@[simp] theorem State.countLine_vram1 (s : State) : (s.countLine).vram1 = s.vram1 := rfl
@[simp] theorem State.countLine_fb0 (s : State) : (s.countLine).fb0 = s.fb0 := rfl
@[simp] theorem State.countLine_fb1 (s : State) : (s.countLine).fb1 = s.fb1 := rfl
@[simp] theorem State.countLine_regs2 (s : State) : (s.countLine).regs2 = s.regs2 := rfl
@[simp] theorem State.countLine_vram2 (s : State) : (s.countLine).vram2 = s.vram2 := rfl
@[simp] theorem State.countLine_cram (s : State) : (s.countLine).cram = s.cram := rfl
@[simp] theorem State.countLine_tim_hPhase (s : State) : (s.countLine).tim.hPhase = s.tim.hPhase := rfl
@[simp] theorem State.countLine_tim_vPhase (s : State) : (s.countLine).tim.vPhase = s.tim.vPhase := rfl
@[simp] theorem State.countLine_tim_hCyc (s : State) : (s.countLine).tim.hCyc = s.tim.hCyc := rfl
@[simp] theorem State.countLine_tim_vLine (s : State) : (s.countLine).tim.vLine = s.tim.vLine + 1 := rfl
@[simp] theorem State.countLine_tim_vCounter (s : State) : (s.countLine).tim.vCounter = s.tim.vCounter + 1 := rfl
@[simp] theorem State.countLine_tim_field (s : State) : (s.countLine).tim.field = s.tim.field := rfl
@[simp] theorem State.countLine_tim_hblank (s : State) : (s.countLine).tim.hblank = s.tim.hblank := rfl
@[simp] theorem State.countLine_tim_vblank (s : State) : (s.countLine).tim.vblank = s.tim.vblank := rfl
@[simp] theorem State.countLine_tim_resCur (s : State) : (s.countLine).tim.resCur = s.tim.resCur := rfl
@[simp] theorem State.countLine_tim_resReq (s : State) : (s.countLine).tim.resReq = s.tim.resReq := rfl
@[simp] theorem State.countLine_tim_resDirty (s : State) : (s.countLine).tim.resDirty = s.tim.resDirty := rfl
@[simp] theorem State.countLine_cmp (s : State) : (s.countLine).cmp = s.cmp := rfl
@[simp] theorem State.countLine_ctl (s : State) : (s.countLine).ctl = s.ctl := rfl
@[simp] theorem State.countLine_hostOps (s : State) : (s.countLine).hostOps = s.hostOps := rfl
@[simp] theorem State.countLine_replies (s : State) : (s.countLine).replies = s.replies := rfl
@[simp] theorem State.countLine_trace (s : State) : (s.countLine).trace = s.trace := rfl
@[simp] theorem State.countLine_freeCtr (s : State) : (s.countLine).freeCtr = s.freeCtr := rfl
@[simp] theorem State.countLine_mem (s : State) :
    (s.countLine).mem = s.mem := by
  funext sp
  rcases sp with _ | (_ | _) | _ | _ <;> rfl

/-! #### `enterVCounterSkip` -/

@[simp] theorem State.enterVCounterSkip_regs1 (s : State) : (s.enterVCounterSkip).regs1 = s.regs1 := rfl
@[simp] theorem State.enterVCounterSkip_ctx (s : State) : (s.enterVCounterSkip).ctx = s.ctx := rfl
@[simp] theorem State.enterVCounterSkip_proc (s : State) : (s.enterVCounterSkip).proc = s.proc := rfl
@[simp] theorem State.enterVCounterSkip_seq (s : State) : (s.enterVCounterSkip).seq = s.seq := rfl
@[simp] theorem State.enterVCounterSkip_vram1 (s : State) : (s.enterVCounterSkip).vram1 = s.vram1 := rfl
@[simp] theorem State.enterVCounterSkip_fb0 (s : State) : (s.enterVCounterSkip).fb0 = s.fb0 := rfl
@[simp] theorem State.enterVCounterSkip_fb1 (s : State) : (s.enterVCounterSkip).fb1 = s.fb1 := rfl
@[simp] theorem State.enterVCounterSkip_regs2 (s : State) : (s.enterVCounterSkip).regs2 = s.regs2 := rfl
@[simp] theorem State.enterVCounterSkip_vram2 (s : State) : (s.enterVCounterSkip).vram2 = s.vram2 := rfl
@[simp] theorem State.enterVCounterSkip_cram (s : State) : (s.enterVCounterSkip).cram = s.cram := rfl
@[simp] theorem State.enterVCounterSkip_tim_hPhase (s : State) : (s.enterVCounterSkip).tim.hPhase = s.tim.hPhase := rfl
@[simp] theorem State.enterVCounterSkip_tim_vPhase (s : State) : (s.enterVCounterSkip).tim.vPhase = s.tim.vPhase := rfl
@[simp] theorem State.enterVCounterSkip_tim_hCyc (s : State) : (s.enterVCounterSkip).tim.hCyc = s.tim.hCyc := rfl
@[simp] theorem State.enterVCounterSkip_tim_vLine (s : State) : (s.enterVCounterSkip).tim.vLine = s.tim.vLine := rfl
@[simp] theorem State.enterVCounterSkip_tim_vCounter (s : State) :
    (s.enterVCounterSkip).tim.vCounter = s.tim.vCounter + Config.vSkip Config.standard s.tim.resCur := rfl
@[simp] theorem State.enterVCounterSkip_tim_field (s : State) : (s.enterVCounterSkip).tim.field = s.tim.field := rfl
@[simp] theorem State.enterVCounterSkip_tim_hblank (s : State) : (s.enterVCounterSkip).tim.hblank = s.tim.hblank := rfl
@[simp] theorem State.enterVCounterSkip_tim_vblank (s : State) : (s.enterVCounterSkip).tim.vblank = s.tim.vblank := rfl
@[simp] theorem State.enterVCounterSkip_tim_resCur (s : State) : (s.enterVCounterSkip).tim.resCur = s.tim.resCur := rfl
@[simp] theorem State.enterVCounterSkip_tim_resReq (s : State) : (s.enterVCounterSkip).tim.resReq = s.tim.resReq := rfl
@[simp] theorem State.enterVCounterSkip_tim_resDirty (s : State) :
    (s.enterVCounterSkip).tim.resDirty = s.tim.resDirty := rfl
@[simp] theorem State.enterVCounterSkip_cmp (s : State) : (s.enterVCounterSkip).cmp = s.cmp := rfl
@[simp] theorem State.enterVCounterSkip_ctl (s : State) : (s.enterVCounterSkip).ctl = s.ctl := rfl
@[simp] theorem State.enterVCounterSkip_hostOps (s : State) : (s.enterVCounterSkip).hostOps = s.hostOps := rfl
@[simp] theorem State.enterVCounterSkip_replies (s : State) : (s.enterVCounterSkip).replies = s.replies := rfl
@[simp] theorem State.enterVCounterSkip_trace (s : State) : (s.enterVCounterSkip).trace = s.trace := rfl
@[simp] theorem State.enterVCounterSkip_freeCtr (s : State) : (s.enterVCounterSkip).freeCtr = s.freeCtr := rfl
@[simp] theorem State.enterVCounterSkip_mem (s : State) :
    (s.enterVCounterSkip).mem = s.mem := by
  funext sp
  rcases sp with _ | (_ | _) | _ | _ <;> rfl

/-! #### `setCtl` -/

@[simp] theorem State.setCtl_regs1 (s : State) (c : Control) : (s.setCtl c).regs1 = s.regs1 := rfl
@[simp] theorem State.setCtl_ctx (s : State) (c : Control) : (s.setCtl c).ctx = s.ctx := rfl
@[simp] theorem State.setCtl_proc (s : State) (c : Control) : (s.setCtl c).proc = s.proc := rfl
@[simp] theorem State.setCtl_seq (s : State) (c : Control) : (s.setCtl c).seq = s.seq := rfl
@[simp] theorem State.setCtl_vram1 (s : State) (c : Control) : (s.setCtl c).vram1 = s.vram1 := rfl
@[simp] theorem State.setCtl_fb0 (s : State) (c : Control) : (s.setCtl c).fb0 = s.fb0 := rfl
@[simp] theorem State.setCtl_fb1 (s : State) (c : Control) : (s.setCtl c).fb1 = s.fb1 := rfl
@[simp] theorem State.setCtl_regs2 (s : State) (c : Control) : (s.setCtl c).regs2 = s.regs2 := rfl
@[simp] theorem State.setCtl_vram2 (s : State) (c : Control) : (s.setCtl c).vram2 = s.vram2 := rfl
@[simp] theorem State.setCtl_cram (s : State) (c : Control) : (s.setCtl c).cram = s.cram := rfl
@[simp] theorem State.setCtl_tim (s : State) (c : Control) : (s.setCtl c).tim = s.tim := rfl
@[simp] theorem State.setCtl_cmp (s : State) (c : Control) : (s.setCtl c).cmp = s.cmp := rfl
@[simp] theorem State.setCtl_ctl (s : State) (c : Control) : (s.setCtl c).ctl = c := rfl
@[simp] theorem State.setCtl_hostOps (s : State) (c : Control) : (s.setCtl c).hostOps = s.hostOps := rfl
@[simp] theorem State.setCtl_replies (s : State) (c : Control) : (s.setCtl c).replies = s.replies := rfl
@[simp] theorem State.setCtl_trace (s : State) (c : Control) : (s.setCtl c).trace = s.trace := rfl
@[simp] theorem State.setCtl_freeCtr (s : State) (c : Control) : (s.setCtl c).freeCtr = s.freeCtr := rfl
@[simp] theorem State.setCtl_mem (s : State) (c : Control) :
    (s.setCtl c).mem = s.mem := by
  funext sp
  rcases sp with _ | (_ | _) | _ | _ <;> rfl

/-! #### `rederive` -/

@[simp] theorem State.rederive_regs1 (s : State) : (s.rederive).regs1 = s.regs1 := rfl
@[simp] theorem State.rederive_ctx (s : State) : (s.rederive).ctx = s.ctx := rfl
@[simp] theorem State.rederive_proc (s : State) : (s.rederive).proc = s.proc := rfl
@[simp] theorem State.rederive_seq (s : State) : (s.rederive).seq = s.seq := rfl
@[simp] theorem State.rederive_vram1 (s : State) : (s.rederive).vram1 = s.vram1 := rfl
@[simp] theorem State.rederive_fb0 (s : State) : (s.rederive).fb0 = s.fb0 := rfl
@[simp] theorem State.rederive_fb1 (s : State) : (s.rederive).fb1 = s.fb1 := rfl
@[simp] theorem State.rederive_regs2 (s : State) : (s.rederive).regs2 = s.regs2 := rfl
@[simp] theorem State.rederive_vram2 (s : State) : (s.rederive).vram2 = s.vram2 := rfl
@[simp] theorem State.rederive_cram (s : State) : (s.rederive).cram = s.cram := rfl
@[simp] theorem State.rederive_tim_hPhase (s : State) : (s.rederive).tim.hPhase = s.tim.hPhase := rfl
@[simp] theorem State.rederive_tim_vPhase (s : State) : (s.rederive).tim.vPhase = s.tim.vPhase := rfl
@[simp] theorem State.rederive_tim_hCyc (s : State) : (s.rederive).tim.hCyc = s.tim.hCyc := rfl
@[simp] theorem State.rederive_tim_vLine (s : State) : (s.rederive).tim.vLine = s.tim.vLine := rfl
@[simp] theorem State.rederive_tim_vCounter (s : State) : (s.rederive).tim.vCounter = s.tim.vCounter := rfl
@[simp] theorem State.rederive_tim_field (s : State) : (s.rederive).tim.field = s.tim.field := rfl
@[simp] theorem State.rederive_tim_hblank (s : State) : (s.rederive).tim.hblank = s.tim.hblank := rfl
@[simp] theorem State.rederive_tim_vblank (s : State) : (s.rederive).tim.vblank = s.tim.vblank := rfl
@[simp] theorem State.rederive_tim_resCur (s : State) : (s.rederive).tim.resCur = s.tim.resCur := rfl
@[simp] theorem State.rederive_tim_resReq (s : State) :
    (s.rederive).tim.resReq = (Config.decodeVdp2 s.regs2).resolution := rfl
@[simp] theorem State.rederive_tim_resDirty (s : State) :
    (s.rederive).tim.resDirty = decide ((Config.decodeVdp2 s.regs2).resolution ≠ s.tim.resCur) := rfl
@[simp] theorem State.rederive_cmp_frameCfg (s : State) : (s.rederive).cmp.frameCfg = s.cmp.frameCfg := rfl
@[simp] theorem State.rederive_cmp_lineCfg (s : State) : (s.rederive).cmp.lineCfg = s.cmp.lineCfg := rfl
@[simp] theorem State.rederive_cmp_layerEnable (s : State) :
    (s.rederive).cmp.layerEnable = layerEnableOf (Config.decodeVdp2 s.regs2) := rfl
@[simp] theorem State.rederive_cmp_rows (s : State) : (s.rederive).cmp.rows = s.cmp.rows := rfl
@[simp] theorem State.rederive_cmp_outRow (s : State) : (s.rederive).cmp.outRow = s.cmp.outRow := rfl
@[simp] theorem State.rederive_cmp_out (s : State) : (s.rederive).cmp.out = s.cmp.out := rfl
@[simp] theorem State.rederive_cmp_fill (s : State) : (s.rederive).cmp.fill = s.cmp.fill := rfl
@[simp] theorem State.rederive_ctl (s : State) : (s.rederive).ctl = s.ctl := rfl
@[simp] theorem State.rederive_hostOps (s : State) : (s.rederive).hostOps = s.hostOps := rfl
@[simp] theorem State.rederive_replies (s : State) : (s.rederive).replies = s.replies := rfl
@[simp] theorem State.rederive_trace (s : State) : (s.rederive).trace = s.trace := rfl
@[simp] theorem State.rederive_freeCtr (s : State) : (s.rederive).freeCtr = s.freeCtr := rfl
@[simp] theorem State.rederive_mem (s : State) :
    (s.rederive).mem = s.mem := by
  funext sp
  rcases sp with _ | (_ | _) | _ | _ <;> rfl

/-! #### `requestResolution` -/

@[simp] theorem State.requestResolution_regs1 (s : State) (res : Resolution) :
    (s.requestResolution res).regs1 = s.regs1 := rfl
@[simp] theorem State.requestResolution_ctx (s : State) (res : Resolution) :
    (s.requestResolution res).ctx = s.ctx := rfl
@[simp] theorem State.requestResolution_proc (s : State) (res : Resolution) :
    (s.requestResolution res).proc = s.proc := rfl
@[simp] theorem State.requestResolution_seq (s : State) (res : Resolution) :
    (s.requestResolution res).seq = s.seq := rfl
@[simp] theorem State.requestResolution_vram1 (s : State) (res : Resolution) :
    (s.requestResolution res).vram1 = s.vram1 := rfl
@[simp] theorem State.requestResolution_fb0 (s : State) (res : Resolution) :
    (s.requestResolution res).fb0 = s.fb0 := rfl
@[simp] theorem State.requestResolution_fb1 (s : State) (res : Resolution) :
    (s.requestResolution res).fb1 = s.fb1 := rfl
@[simp] theorem State.requestResolution_regs2 (s : State) (res : Resolution) :
    (s.requestResolution res).regs2 = s.regs2 := rfl
@[simp] theorem State.requestResolution_vram2 (s : State) (res : Resolution) :
    (s.requestResolution res).vram2 = s.vram2 := rfl
@[simp] theorem State.requestResolution_cram (s : State) (res : Resolution) :
    (s.requestResolution res).cram = s.cram := rfl
@[simp] theorem State.requestResolution_tim_hPhase (s : State) (res : Resolution) :
    (s.requestResolution res).tim.hPhase = s.tim.hPhase := rfl
@[simp] theorem State.requestResolution_tim_vPhase (s : State) (res : Resolution) :
    (s.requestResolution res).tim.vPhase = s.tim.vPhase := rfl
@[simp] theorem State.requestResolution_tim_hCyc (s : State) (res : Resolution) :
    (s.requestResolution res).tim.hCyc = s.tim.hCyc := rfl
@[simp] theorem State.requestResolution_tim_vLine (s : State) (res : Resolution) :
    (s.requestResolution res).tim.vLine = s.tim.vLine := rfl
@[simp] theorem State.requestResolution_tim_vCounter (s : State) (res : Resolution) :
    (s.requestResolution res).tim.vCounter = s.tim.vCounter := rfl
@[simp] theorem State.requestResolution_tim_field (s : State) (res : Resolution) :
    (s.requestResolution res).tim.field = s.tim.field := rfl
@[simp] theorem State.requestResolution_tim_hblank (s : State) (res : Resolution) :
    (s.requestResolution res).tim.hblank = s.tim.hblank := rfl
@[simp] theorem State.requestResolution_tim_vblank (s : State) (res : Resolution) :
    (s.requestResolution res).tim.vblank = s.tim.vblank := rfl
@[simp] theorem State.requestResolution_tim_resCur (s : State) (res : Resolution) :
    (s.requestResolution res).tim.resCur = s.tim.resCur := rfl
@[simp] theorem State.requestResolution_tim_resReq (s : State) (res : Resolution) :
    (s.requestResolution res).tim.resReq = res := rfl
@[simp] theorem State.requestResolution_tim_resDirty (s : State) (res : Resolution) :
    (s.requestResolution res).tim.resDirty = decide (res ≠ s.tim.resCur) := rfl
@[simp] theorem State.requestResolution_cmp (s : State) (res : Resolution) :
    (s.requestResolution res).cmp = s.cmp := rfl
@[simp] theorem State.requestResolution_ctl (s : State) (res : Resolution) :
    (s.requestResolution res).ctl = s.ctl := rfl
@[simp] theorem State.requestResolution_hostOps (s : State) (res : Resolution) :
    (s.requestResolution res).hostOps = s.hostOps := rfl
@[simp] theorem State.requestResolution_replies (s : State) (res : Resolution) :
    (s.requestResolution res).replies = s.replies := rfl
@[simp] theorem State.requestResolution_trace (s : State) (res : Resolution) :
    (s.requestResolution res).trace = s.trace := rfl
@[simp] theorem State.requestResolution_freeCtr (s : State) (res : Resolution) :
    (s.requestResolution res).freeCtr = s.freeCtr := rfl
@[simp] theorem State.requestResolution_mem (s : State) (res : Resolution) :
    (s.requestResolution res).mem = s.mem := by
  funext sp
  rcases sp with _ | (_ | _) | _ | _ <;> rfl

/-! #### `drawScanline` -/

@[simp] theorem State.drawScanline_regs1 (s : State) (y : Nat) : (s.drawScanline y).regs1 = s.regs1 := rfl
@[simp] theorem State.drawScanline_ctx (s : State) (y : Nat) : (s.drawScanline y).ctx = s.ctx := rfl
@[simp] theorem State.drawScanline_proc (s : State) (y : Nat) : (s.drawScanline y).proc = s.proc := rfl
@[simp] theorem State.drawScanline_seq (s : State) (y : Nat) : (s.drawScanline y).seq = s.seq := rfl
@[simp] theorem State.drawScanline_vram1 (s : State) (y : Nat) : (s.drawScanline y).vram1 = s.vram1 := rfl
@[simp] theorem State.drawScanline_fb0 (s : State) (y : Nat) : (s.drawScanline y).fb0 = s.fb0 := rfl
@[simp] theorem State.drawScanline_fb1 (s : State) (y : Nat) : (s.drawScanline y).fb1 = s.fb1 := rfl
@[simp] theorem State.drawScanline_regs2 (s : State) (y : Nat) : (s.drawScanline y).regs2 = s.regs2 := rfl
@[simp] theorem State.drawScanline_vram2 (s : State) (y : Nat) : (s.drawScanline y).vram2 = s.vram2 := rfl
@[simp] theorem State.drawScanline_cram (s : State) (y : Nat) : (s.drawScanline y).cram = s.cram := rfl
@[simp] theorem State.drawScanline_tim (s : State) (y : Nat) : (s.drawScanline y).tim = s.tim := rfl
@[simp] theorem State.drawScanline_cmp_frameCfg (s : State) (y : Nat) :
    (s.drawScanline y).cmp.frameCfg = s.cmp.frameCfg := rfl
@[simp] theorem State.drawScanline_cmp_lineCfg (s : State) (y : Nat) :
    (s.drawScanline y).cmp.lineCfg = Config.decodeVdp2 s.regs2 := rfl
@[simp] theorem State.drawScanline_cmp_layerEnable (s : State) (y : Nat) :
    (s.drawScanline y).cmp.layerEnable = s.cmp.layerEnable := rfl
@[simp] theorem State.drawScanline_cmp_outRow (s : State) (y : Nat) :
    (s.drawScanline y).cmp.outRow = (List.range (dispW s.tim.resCur)).map fun x => s.pixelAt (s.scan y) x := rfl
@[simp] theorem State.drawScanline_cmp_out (s : State) (y : Nat) :
    (s.drawScanline y).cmp.out = putLine s.cmp.out (outLine s.tim y) ((List.range (dispW s.tim.resCur)).map fun x => s.pixelAt (s.scan y) x) := rfl
@[simp] theorem State.drawScanline_cmp_fill (s : State) (y : Nat) : (s.drawScanline y).cmp.fill = s.cmp.fill := rfl
@[simp] theorem State.drawScanline_ctl (s : State) (y : Nat) : (s.drawScanline y).ctl = s.ctl := rfl
@[simp] theorem State.drawScanline_hostOps (s : State) (y : Nat) : (s.drawScanline y).hostOps = s.hostOps := rfl
@[simp] theorem State.drawScanline_replies (s : State) (y : Nat) : (s.drawScanline y).replies = s.replies := rfl
@[simp] theorem State.drawScanline_trace (s : State) (y : Nat) : (s.drawScanline y).trace = s.trace := rfl
@[simp] theorem State.drawScanline_freeCtr (s : State) (y : Nat) : (s.drawScanline y).freeCtr = s.freeCtr := rfl
@[simp] theorem State.drawScanline_mem (s : State) (y : Nat) :
    (s.drawScanline y).mem = s.mem := by
  funext sp
  rcases sp with _ | (_ | _) | _ | _ <;> rfl

/-! ### `setMem` -/

@[simp] theorem State.setMem_regs1 (s : State) (sp : Space) (m : Memory) : (s.setMem sp m).regs1 = s.regs1 := by
  rcases sp with _ | (_ | _) | _ | _ <;> rfl

@[simp] theorem State.setMem_ctx (s : State) (sp : Space) (m : Memory) : (s.setMem sp m).ctx = s.ctx := by
  rcases sp with _ | (_ | _) | _ | _ <;> rfl

@[simp] theorem State.setMem_proc (s : State) (sp : Space) (m : Memory) : (s.setMem sp m).proc = s.proc := by
  rcases sp with _ | (_ | _) | _ | _ <;> rfl

@[simp] theorem State.setMem_seq (s : State) (sp : Space) (m : Memory) : (s.setMem sp m).seq = s.seq := by
  rcases sp with _ | (_ | _) | _ | _ <;> rfl

@[simp] theorem State.setMem_regs2 (s : State) (sp : Space) (m : Memory) : (s.setMem sp m).regs2 = s.regs2 := by
  rcases sp with _ | (_ | _) | _ | _ <;> rfl

@[simp] theorem State.setMem_tim (s : State) (sp : Space) (m : Memory) : (s.setMem sp m).tim = s.tim := by
  rcases sp with _ | (_ | _) | _ | _ <;> rfl

@[simp] theorem State.setMem_cmp (s : State) (sp : Space) (m : Memory) : (s.setMem sp m).cmp = s.cmp := by
  rcases sp with _ | (_ | _) | _ | _ <;> rfl

@[simp] theorem State.setMem_ctl (s : State) (sp : Space) (m : Memory) : (s.setMem sp m).ctl = s.ctl := by
  rcases sp with _ | (_ | _) | _ | _ <;> rfl

@[simp] theorem State.setMem_hostOps (s : State) (sp : Space) (m : Memory) : (s.setMem sp m).hostOps = s.hostOps := by
  rcases sp with _ | (_ | _) | _ | _ <;> rfl

@[simp] theorem State.setMem_replies (s : State) (sp : Space) (m : Memory) : (s.setMem sp m).replies = s.replies := by
  rcases sp with _ | (_ | _) | _ | _ <;> rfl

@[simp] theorem State.setMem_trace (s : State) (sp : Space) (m : Memory) : (s.setMem sp m).trace = s.trace := by
  rcases sp with _ | (_ | _) | _ | _ <;> rfl

@[simp] theorem State.setMem_freeCtr (s : State) (sp : Space) (m : Memory) : (s.setMem sp m).freeCtr = s.freeCtr := by
  rcases sp with _ | (_ | _) | _ | _ <;> rfl

@[simp] theorem State.mem_setMem_same (s : State) (sp : Space) (m : Memory) : (s.setMem sp m).mem sp = m := by
  rcases sp with _ | (_ | _) | _ | _ <;> rfl

theorem State.mem_setMem_ne (s : State) {sp sp' : Space} (m : Memory) (h : sp' ≠ sp) :
    (s.setMem sp m).mem sp' = s.mem sp' := by
  rcases sp with _ | (_ | _) | _ | _ <;> rcases sp' with _ | (_ | _) | _ | _ <;> first | rfl | exact absurd rfl h

end Sys2Proof.Machine
end

