-- ==== Sys2Proof/Laws/Compositor.lean ====
section
/-! SUPPORT. What the compositor's colour-RAM mapping and its picture can do, each said once. -/

namespace Sys2Proof.Machine

/-! ### Colour RAM (R6, R158) -/

/-- The offset of an entry, by the mode (R158). -/
theorem cramMap_cases (mode : CramMode) (i : Config.CramIndex) :
    (mode = .linear ∧ Config.cramEntryBytes mode = 2 ∧ cramMap mode i = i.val * 2) ∨
      (¬(mode = .linear ∧ Config.cramEntryBytes mode = 2) ∧ cramMap mode i = (Config.cramMapFree mode i).val) := by
  unfold cramMap
  split
  · rename_i h; exact .inl ⟨h.1, h.2, rfl⟩
  · rename_i h; exact .inr ⟨h, rfl⟩

/-- `CramMap` is injective in every mode (R6). -/
theorem cramMap_injective (mode : CramMode) : Function.Injective (cramMap mode) := by
  intro i j h
  unfold cramMap at h
  split at h
  · exact Fin.ext (by omega)
  · exact (Config.cramMapFree mode).injective (Fin.ext h)

/-! ### The picture (R156) -/

/-- A line that fits a picture has its number below `DispH` and is `DispW` pixels wide. -/
theorem mem_fitPicture {res : Resolution} {out : List (Nat × List Rgb888)} {l : Nat × List Rgb888} :
    l ∈ fitPicture res out ↔ l ∈ out ∧ l.1 < dispH res ∧ l.2.length = dispW res := by
  simp [fitPicture]

/-- Dropping lines keeps the line numbers rising. -/
theorem fitPicture_rising (res : Resolution) {out : List (Nat × List Rgb888)}
    (h : (out.map Prod.fst).Pairwise (· < ·)) : ((fitPicture res out).map Prod.fst).Pairwise (· < ·) :=
  h.sublist (List.filter_sublist.map _)

/-- A picture with a line put into it holds that line, or a line it held. -/
theorem mem_putLine {out : List (Nat × List Rgb888)} {n : Nat} {row : List Rgb888} {l : Nat × List Rgb888}
    (h : l ∈ putLine out n row) : l = (n, row) ∨ l ∈ out := by
  induction out with
  | nil => exact .inl (by simpa [putLine] using h)
  | cons c rest ih =>
    simp only [putLine] at h
    split at h
    · rcases List.mem_cons.1 h with h | h
      · exact .inl h
      · exact .inr h
    · split at h
      · rcases List.mem_cons.1 h with h | h
        · exact .inl h
        · exact .inr (List.mem_cons_of_mem _ h)
      · rcases List.mem_cons.1 h with h | h
        · exact .inr (h ▸ List.mem_cons_self)
        · exact (ih h).imp_right (List.mem_cons_of_mem _)

/-- Putting a line into a picture keeps the line numbers rising. -/
theorem putLine_rising {out : List (Nat × List Rgb888)} (n : Nat) (row : List Rgb888)
    (h : (out.map Prod.fst).Pairwise (· < ·)) : ((putLine out n row).map Prod.fst).Pairwise (· < ·) := by
  induction out with
  | nil => simp [putLine]
  | cons c rest ih =>
    obtain ⟨hc, hr⟩ := List.pairwise_cons.1 h
    simp only [putLine]
    split
    · rename_i hn
      refine List.pairwise_cons.2 ⟨fun m hm => ?_, h⟩
      rcases List.mem_cons.1 hm with rfl | hm
      · exact hn
      · exact hn.trans (hc m hm)
    · split
      · rename_i hn
        exact List.pairwise_cons.2 ⟨fun m hm => hn ▸ hc m hm, hr⟩
      · refine List.pairwise_cons.2 ⟨fun m hm => ?_, ih hr⟩
        obtain ⟨l, hl, rfl⟩ := List.mem_map.1 hm
        rcases mem_putLine hl with rfl | hl
        · exact (by omega : c.1 < n)
        · exact hc _ (List.mem_map_of_mem hl)

/-- The latch of a resolution changes nothing where none is pending, and else takes the requested one, fits the picture
to it, takes fresh contents for its undrawn lines and notifies (R156, R178, U2). -/
theorem latchResolution_cases (s : State) :
    (s.tim.resDirty = false ∧ s.latchResolution = s) ∨
      (s.tim.resDirty = true ∧
        s.latchResolution =
          { s with
            tim := { s.tim with resCur := s.tim.resReq, resDirty := false }
            cmp := { s.cmp with out := fitPicture s.tim.resReq s.cmp.out, fill := s.freeCtr }
            freeCtr := s.freeCtr + 1
            trace := s.trace ++ [.resolutionChanged (dispW s.tim.resReq) (dispH s.tim.resReq)] }) := by
  unfold State.latchResolution
  cases h : s.tim.resDirty
  · exact .inl ⟨rfl, by simp⟩
  · exact .inr ⟨rfl, by simp [State.emit]⟩

end Sys2Proof.Machine
end

