-- ==== Sys2Proof/Laws/Memory.lean ====
section
/-! SUPPORT. Laws of memory: read after write, the frame of a write, and that every write keeps the canonical form
and the size (`20_memory.md` R33 to R35). -/

namespace Sys2Proof.Machine

/-! ### Cells -/

@[simp] theorem cellAt_nil (a : Nat) : cellAt [] a = none := rfl

theorem cellAt_cons (k : Nat) (v : Byte) (rest : List Host.Cell) (a : Nat) :
    cellAt ((k, v) :: rest) a = if a = k then some v else cellAt rest a := rfl

theorem cellAt_putCell_same (cs : List Host.Cell) (a : Nat) (b : Byte) : cellAt (putCell cs a b) a = some b := by
  induction cs with
  | nil => simp [putCell, cellAt]
  | cons c rest ih =>
    obtain ⟨k, v⟩ := c
    by_cases h1 : a < k
    · simp [putCell, h1, cellAt]
    · by_cases h2 : a = k
      · simp [putCell, h2, cellAt]
      · simp [putCell, h1, h2, cellAt, ih]

theorem cellAt_putCell_ne (cs : List Host.Cell) {a x : Nat} (b : Byte) (h : x ≠ a) :
    cellAt (putCell cs a b) x = cellAt cs x := by
  induction cs with
  | nil => simp [putCell, cellAt, h]
  | cons c rest ih =>
    obtain ⟨k, v⟩ := c
    by_cases h1 : a < k
    · simp [putCell, h1, cellAt, h]
    · by_cases h2 : a = k
      · subst h2; simp [putCell, cellAt, h]
      · simp [putCell, h1, h2, cellAt, ih]

/-! ### One byte -/

@[simp] theorem Memory.put_fill (m : Memory) (a : Nat) (b : Byte) : (m.put a b).fill = m.fill := rfl

@[simp] theorem Memory.byte_put_same (m : Memory) (a : Nat) (b : Byte) : (m.put a b).byte a = b := by
  simp [Memory.byte, Memory.put, cellAt_putCell_same]

theorem Memory.byte_put_ne (m : Memory) {a x : Nat} (b : Byte) (h : x ≠ a) : (m.put a b).byte x = m.byte x := by
  simp [Memory.byte, Memory.put, cellAt_putCell_ne _ _ h]

/-! ### Canonical form -/

/-- A rising list starts above `lo`. -/
theorem rising_putCell_above (cs : List Host.Cell) (lo a : Nat) (v b : Byte) (hlo : lo < a)
    (h : Memory.rising ((lo, v) :: cs) = true) : Memory.rising ((lo, v) :: putCell cs a b) = true := by
  induction cs generalizing lo v with
  | nil => simp [putCell, Memory.rising, hlo]
  | cons c rest ih =>
    obtain ⟨k, w⟩ := c
    simp only [Memory.rising, Bool.and_eq_true, decide_eq_true_eq] at h
    by_cases h1 : a < k
    · simp [putCell, h1, Memory.rising, hlo, h.2]
    · by_cases h2 : a = k
      · subst h2
        simp only [putCell, lt_irrefl, if_false, if_true]
        cases rest with
        | nil => simp [Memory.rising, hlo]
        | cons d r =>
          obtain ⟨j, u⟩ := d
          simpa [Memory.rising, hlo] using h.2
      · simp only [putCell, h1, h2, if_false]
        simp only [Memory.rising, Bool.and_eq_true, decide_eq_true_eq]
        exact ⟨h.1, ih k w (by omega) h.2⟩

theorem rising_putCell (cs : List Host.Cell) (a : Nat) (b : Byte) (h : Memory.rising cs = true) :
    Memory.rising (putCell cs a b) = true := by
  cases cs with
  | nil => rfl
  | cons c rest =>
    obtain ⟨k, w⟩ := c
    by_cases h1 : a < k
    · simp [putCell, h1, Memory.rising, h]
    · by_cases h2 : a = k
      · subst h2
        cases rest with
        | nil => simp [putCell, Memory.rising]
        | cons d r =>
          obtain ⟨j, u⟩ := d
          simpa [putCell, Memory.rising] using h
      · simp only [putCell, h1, h2, if_false]
        exact rising_putCell_above rest k a w b (by omega) h

theorem all_below_putCell (cs : List Host.Cell) (n a : Nat) (b : Byte) (ha : a < n)
    (h : (cs.all fun c => decide (c.1 < n)) = true) : ((putCell cs a b).all fun c => decide (c.1 < n)) = true := by
  induction cs with
  | nil => simp [putCell, ha]
  | cons c rest ih =>
    obtain ⟨k, w⟩ := c
    simp only [List.all_cons, Bool.and_eq_true, decide_eq_true_eq] at h
    by_cases h1 : a < k
    · simp only [putCell, h1, if_true, List.all_cons, Bool.and_eq_true, decide_eq_true_eq]
      exact ⟨ha, h.1, h.2⟩
    · by_cases h2 : a = k
      · subst h2
        simp only [putCell, lt_irrefl, if_false, if_true, List.all_cons, Bool.and_eq_true, decide_eq_true_eq]
        exact ⟨ha, h.2⟩
      · simp only [putCell, h1, h2, if_false, List.all_cons, Bool.and_eq_true, decide_eq_true_eq]
        exact ⟨h.1, ih h.2⟩

/-- A memory in canonical form inside its size. -/
def Memory.Good (size : Nat) (m : Memory) : Prop := m.wf = true ∧ m.within size = true

theorem Memory.good_put {size : Nat} {m : Memory} (a : Nat) (b : Byte) (ha : a < size) (h : m.Good size) :
    (m.put a b).Good size :=
  ⟨rising_putCell _ _ _ h.1, all_below_putCell _ _ _ _ ha h.2⟩

theorem Memory.good_empty (size fill : Nat) : ({ fill := fill, cells := [] } : Memory).Good size := ⟨rfl, rfl⟩

theorem wordOffset_lt {size : Nat} (h : 0 < size) (a : Nat) : wordOffset size a < size := by
  have := Nat.mod_lt a h
  unfold wordOffset
  omega

theorem wordOffset_succ_lt {size : Nat} (h : 0 < size) (he : size % 2 = 0) (a : Nat) : wordOffset size a + 1 < size := by
  have := Nat.mod_lt a h
  unfold wordOffset
  omega

theorem Memory.good_write8 {size : Nat} {m : Memory} (a : Nat) (b : Byte) (hs : 0 < size) (h : m.Good size) :
    (m.write8 size a b).Good size :=
  Memory.good_put _ _ (Nat.mod_lt _ hs) h

theorem Memory.good_write16 {size : Nat} {m : Memory} (a : Nat) (w : Word) (hs : 0 < size) (he : size % 2 = 0)
    (h : m.Good size) : (m.write16 size a w).Good size :=
  Memory.good_put _ _ (wordOffset_succ_lt hs he a) (Memory.good_put _ _ (wordOffset_lt hs a) h)

theorem Memory.good_writeBytes {size : Nat} (bs : List Byte) (hs : 0 < size) :
    ∀ (m : Memory) (a : Nat), m.Good size → (m.writeBytes size a bs).Good size := by
  induction bs with
  | nil => intro m a h; exact h
  | cons b bs ih => intro m a h; exact ih _ _ (Memory.good_write8 a b hs h)

theorem Space.size_pos (sp : Space) : 0 < sp.size := by
  cases sp
  · show 0 < 0x80000
    norm_num
  · show 0 < 0x40000
    norm_num
  · show 0 < 0x80000
    norm_num
  · show 0 < 0x1000
    norm_num

theorem Space.size_even (sp : Space) : sp.size % 2 = 0 := by
  cases sp
  · show 0x80000 % 2 = 0
    norm_num
  · show 0x40000 % 2 = 0
    norm_num
  · show 0x80000 % 2 = 0
    norm_num
  · show 0x1000 % 2 = 0
    norm_num

/-! ### Accesses -/

theorem Memory.read8_write8_same (size : Nat) (m : Memory) (a : Nat) (b : Byte) :
    (m.write8 size a b).read8 size a = b := by
  simp [Memory.read8, Memory.write8]

theorem Memory.byte_write8_ne (size : Nat) (m : Memory) {a x : Nat} (b : Byte) (h : x ≠ a % size) :
    (m.write8 size a b).byte x = m.byte x :=
  Memory.byte_put_ne _ _ h

/-- A word write leaves every byte outside its two alone. -/
theorem Memory.byte_write16_ne (size : Nat) (m : Memory) {a x : Nat} (w : Word) (h0 : x ≠ wordOffset size a)
    (h1 : x ≠ wordOffset size a + 1) : (m.write16 size a w).byte x = m.byte x := by
  unfold Memory.write16
  rw [Memory.byte_put_ne _ _ h1, Memory.byte_put_ne _ _ h0]

theorem Memory.byte_write16_hi (size : Nat) (m : Memory) (a : Nat) (w : Word) :
    (m.write16 size a w).byte (wordOffset size a) = w.extractLsb' 8 8 := by
  unfold Memory.write16
  rw [Memory.byte_put_ne _ _ (by omega), Memory.byte_put_same]

theorem Memory.byte_write16_lo (size : Nat) (m : Memory) (a : Nat) (w : Word) :
    (m.write16 size a w).byte (wordOffset size a + 1) = w.extractLsb' 0 8 := by
  unfold Memory.write16
  rw [Memory.byte_put_same]

theorem word_of_bytes (w : Word) : w.extractLsb' 8 8 ++ w.extractLsb' 0 8 = w := by
  apply BitVec.eq_of_getLsbD_eq
  intro i hi
  simp only [BitVec.getLsbD_append, BitVec.getLsbD_extractLsb']
  by_cases h : i < 8
  · simp [h]
  · have h8 : i - 8 < 8 := by omega
    have : 8 + (i - 8) = i := by omega
    simp [h, h8, this]

theorem Memory.read16_write16_same (size : Nat) (m : Memory) (a : Nat) (w : Word) :
    (m.write16 size a w).read16 size a = w := by
  unfold Memory.read16
  rw [Memory.byte_write16_hi, Memory.byte_write16_lo, word_of_bytes]

/-! ### The memories of a state -/

/-- `MemoriesOk` is goodness of the five memories. -/
theorem State.memoriesOk_iff (s : State) : s.MemoriesOk ↔ ∀ sp, (s.mem sp).Good sp.size :=
  ⟨fun h sp => ⟨h.wf sp, h.within sp⟩, fun h => ⟨fun sp => (h sp).1, fun sp => (h sp).2⟩⟩

/-- Right after reset every memory is in canonical form: nothing is listed. -/
theorem State.reset_mem_good (sp : Space) : (State.reset.mem sp).Good sp.size := by
  rcases sp with _ | (_ | _) | _ | _ <;> exact ⟨rfl, rfl⟩

end Sys2Proof.Machine
end

