-- ==== Sys2Proof/Laws/Decode.lean ====
section
/-! SUPPORT. Laws of the decoder and of the fetch: words and bytes, 32 bytes always decode, and a decoded entry
is well formed. -/

namespace Sys2Proof

theorem wordsOfBytes_bytesOfWord (w : Word) (bs : List Byte) :
    wordsOfBytes (bytesOfWord w ++ bs) = w :: wordsOfBytes bs := by
  simp [bytesOfWord, wordsOfBytes, Machine.word_of_bytes]

theorem wordsOfBytes_bytesOfWords (ws : List Word) : wordsOfBytes (bytesOfWords ws) = ws := by
  induction ws with
  | nil => rfl
  | cons w ws ih =>
    have : bytesOfWords (w :: ws) = bytesOfWord w ++ bytesOfWords ws := rfl
    rw [this, wordsOfBytes_bytesOfWord, ih]

theorem length_bytesOfWords (ws : List Word) : (bytesOfWords ws).length = 2 * ws.length := by
  induction ws with
  | nil => rfl
  | cons w ws ih =>
    have : bytesOfWords (w :: ws) = bytesOfWord w ++ bytesOfWords ws := rfl
    rw [this, List.length_append, ih]
    simp [bytesOfWord]
    omega

@[simp] theorem rawOfWords_words (r : RawEntry) : rawOfWords r.words = .ok r := rfl

/-- The bytes of an entry, followed by anything, decode to the entry's instruction. -/
theorem decode_entry (r : RawEntry) (rest : List Byte) :
    decode (bytesOfWords r.words ++ rest) = .ok (decodeRaw r, rest) := by
  have h : (bytesOfWords r.words).length = 32 := length_bytesOfWords _
  have ht : (bytesOfWords r.words ++ rest).take 32 = bytesOfWords r.words := by
    rw [← h]; exact List.take_left
  have hd : (bytesOfWords r.words ++ rest).drop 32 = rest := by
    rw [← h]; exact List.drop_left
  unfold decode
  rw [ht, hd, wordsOfBytes_bytesOfWords, rawOfWords_words]

theorem toNat_append_zeros {n k : Nat} (a : BitVec n) : (a ++ 0#k).toNat = a.toNat * 2 ^ k := by
  simp [BitVec.toNat_append, Nat.shiftLeft_eq]

/-- Every decoded entry is well formed (R54, R57, R58, R60). -/
theorem decodeEntry_wellFormed (r : RawEntry) : (decodeEntry r).wellFormed = true := by
  have hl : (decodeEntry r).linkAddr.toNat % 32 = 0 := by
    show (bits r.link 2 14 ++ 0#5).toNat % 32 = 0
    rw [toNat_append_zeros]; omega
  have hs : (decodeEntry r).srcAddr.toNat % 8 = 0 := by
    show (r.srca ++ 0#3).toNat % 8 = 0
    rw [toNat_append_zeros]; omega
  have hg : (decodeEntry r).grdAddr.toNat % 8 = 0 := by
    show (r.grda ++ 0#3).toNat % 8 = 0
    rw [toNat_append_zeros]; omega
  have hw : (decodeEntry r).texW = (bits r.size 8 6).toNat * 8 := rfl
  have hh : (decodeEntry r).texH = (bits r.size 0 8).toNat := rfl
  have h6 := (bits r.size 8 6).isLt
  have h8 := (bits r.size 0 8).isLt
  simp only [Entry.wellFormed, Entry.linkOk, Entry.srcOk, Entry.widthOk, Entry.heightOk, Entry.grdOk, hl, hs, hg,
    hw, hh, Bool.and_eq_true, beq_iff_eq, decide_eq_true_eq, Nat.mul_mod_left, true_and, and_true]
  exact ⟨by omega, by omega⟩

theorem instrOfCode_entry (c : BitVec 4) (e : Entry) : (instrOfCode c e).entry? = some e := by
  unfold instrOfCode
  split <;> rfl

namespace Machine

/-- The fetched bytes always decode (R67). -/
theorem decode_fetchBytes (s : State) : decode s.fetchBytes = .ok (decodeRaw s.fetchEntry, []) := by
  have := decode_entry s.fetchEntry []
  rwa [List.append_nil] at this

end Machine

end Sys2Proof
end

