-- ==== Sys2Proof/Laws/Raster.lean ====
section
/-! SUPPORT. What the pixel pipeline can do to the draw framebuffer: one induction principle for each loop, and from
it canonical form; the frame of one pixel; the visited count of an untextured line. -/

namespace Sys2Proof.Machine

/-! ### One pixel -/

theorem fbSize_pos : 0 < fbSize := by
  show 0 < 0x40000
  norm_num

theorem fbSize_even : fbSize % 2 = 0 := by
  show 0x40000 % 2 = 0
  norm_num

/-- What a plotted pixel does: nothing, one word at its address, or one byte at its address. -/
theorem plotPixel_cases (v : DrawEnv) (fb : Memory) (p : Point) (src : Word) (g : Rgb) :
    plotPixel v fb p src g = fb ∨
      (v.plots p = true ∧ v.geom.bpp = 16 ∧
        ∃ out, plotPixel v fb p src g = fb.write16 fbSize (v.pixelAddr p) out) ∨
      (v.plots p = true ∧ v.geom.bpp ≠ 16 ∧
        plotPixel v fb p src g = fb.write8 fbSize (v.pixelAddr p) (src.extractLsb' 0 8)) := by
  by_cases hp : v.plots p = true
  · by_cases hb : v.geom.bpp = 16
    · simp only [plotPixel, hp, hb, if_true]
      unfold write16bpp
      split
      · exact .inr (.inl ⟨trivial, trivial, _, rfl⟩)
      · exact .inl rfl
    · exact .inr (.inr ⟨hp, hb, by simp [plotPixel, hp, hb, write8bpp]⟩)
  · exact .inl (by simp [plotPixel, hp])

theorem plotPixel_outside (v : DrawEnv) (fb : Memory) (p : Point) (src : Word) (g : Rgb) (h : v.inSysClip p = false) :
    plotPixel v fb p src g = fb := by
  simp [plotPixel, DrawEnv.plots, h]

theorem plotPixel_good (v : DrawEnv) {fb : Memory} (p : Point) (src : Word) (g : Rgb) (h : fb.Good fbSize) :
    (plotPixel v fb p src g).Good fbSize := by
  rcases plotPixel_cases v fb p src g with e | ⟨-, -, out, e⟩ | ⟨-, -, e⟩
  · rwa [e]
  · rw [e]; exact Memory.good_write16 _ _ fbSize_pos fbSize_even h
  · rw [e]; exact Memory.good_write8 _ _ fbSize_pos h

/-- A pixel leaves every byte alone that it is not stored in. -/
theorem plotPixel_frame (v : DrawEnv) (fb : Memory) (p : Point) (src : Word) (g : Rgb) (x : Nat)
    (h : v.plots p = true → v.storesAt p x = false) : (plotPixel v fb p src g).byte x = fb.byte x := by
  rcases plotPixel_cases v fb p src g with e | ⟨hp, hb, out, e⟩ | ⟨hp, hb, e⟩
  · rw [e]
  · have := h hp
    simp only [DrawEnv.storesAt, hb, if_true, Bool.or_eq_false_iff, beq_eq_false_iff_ne] at this
    rw [e, Memory.byte_write16_ne _ _ _ this.1 this.2]
  · have := h hp
    simp only [DrawEnv.storesAt, hb, if_false, beq_eq_false_iff_ne] at this
    rw [e, Memory.byte_write8_ne _ _ _ this]

/-! ### Lines

`Q` holds of the pixels a line or a fill can plot, `P` is kept by every pixel with `Q`: then the whole keeps `P`. -/

section
variable (v : DrawEnv) (Q : Point → Prop) (P : Memory → Prop)
  (hP : ∀ fb p src g, Q p → P fb → P (plotPixel v fb p src g))
include hP

theorem plotAa_keeps (l : LineSpec) (fb : Memory) (prev : Option Point) (p : Point) (src : Word) (g : Rgb)
    (hq : ∀ q, prev = some q → l.aa = true → Q (aaPoint q p (xMajor l.p l.q))) (h : P fb) :
    P (plotAa v l fb prev p src g) := by
  cases prev with
  | none => exact h
  | some q =>
    unfold plotAa
    dsimp only
    split
    · rename_i hc
      simp only [Bool.and_eq_true] at hc
      exact hP _ _ _ _ (hq q rfl hc.1.1) h
    · exact h

theorem linePixel_keeps (l : LineSpec) (p : Point) (src : Word) (g : Rgb) (t : Bool) (a : LineAcc) (hp : Q p)
    (hq : ∀ q, a.prev = some q → l.aa = true → Q (aaPoint q p (xMajor l.p l.q))) (h : P a.fb) :
    P (linePixel v l p src g t a).fb := by
  cases t
  · exact hP _ _ _ _ hp (plotAa_keeps v Q P hP l _ _ _ _ _ hq h)
  · exact h

theorem lineStep_keeps (l : LineSpec) (j n : Nat) (a : LineAcc) (hp : Q (linePoint l.p l.q j n))
    (hq : ∀ q, a.prev = some q → l.aa = true → Q (aaPoint q (linePoint l.p l.q j n) (xMajor l.p l.q)))
    (h : P a.fb) : P (lineStep v l j n a).2.fb := by
  unfold lineStep
  split
  · unfold texturedStep
    dsimp only
    split
    · exact h
    · exact linePixel_keeps v Q P hP l _ _ _ _ _ hp hq h
  · exact linePixel_keeps v Q P hP l _ _ _ _ _ hp hq h

omit hP in
/-- A pixel that does not end its line is the previous pixel of the next. -/
theorem lineStep_prev (l : LineSpec) (j n : Nat) (a : LineAcc) (h : (lineStep v l j n a).1 = false) :
    (lineStep v l j n a).2.prev = some (linePoint l.p l.q j n) := by
  unfold lineStep at h ⊢
  split
  · rename_i row htex
    simp only [htex] at h
    unfold texturedStep at h ⊢
    dsimp only at h ⊢
    split
    · rename_i hc
      simp [hc] at h
    · rfl
  · rfl

theorem lineLoop_keeps (l : LineSpec) (n : Nat) (hp : ∀ j ≤ n, Q (linePoint l.p l.q j n))
    (hq : ∀ j < n, l.aa = true → Q (aaPoint (linePoint l.p l.q j n) (linePoint l.p l.q (j + 1) n) (xMajor l.p l.q))) :
    ∀ (k j : Nat) (a : LineAcc), j + k ≤ n + 1 →
      (∀ q, a.prev = some q → ∃ i, j = i + 1 ∧ q = linePoint l.p l.q i n) →
      P a.fb → P (lineLoop v l n k j a).fb := by
  intro k
  induction k with
  | zero => intro j a _ _ h; exact h
  | succ k ih =>
    intro j a hj hprev h
    have hs : P (lineStep v l j n a).2.fb := by
      refine lineStep_keeps v Q P hP l j n a (hp j (by omega)) ?_ h
      intro q hqp haa
      obtain ⟨i, rfl, rfl⟩ := hprev q hqp
      exact hq i (by omega) haa
    simp only [lineLoop]
    split
    · exact hs
    · rename_i hc
      refine ih (j + 1) _ (by omega) ?_ hs
      intro q hqp
      rw [lineStep_prev v l j n a (by simpa using hc)] at hqp
      exact ⟨j, rfl, (Option.some.inj hqp).symm⟩

/-- What every pixel of a line keeps, the line keeps. -/
theorem drawLine_keeps (l : LineSpec) (fb : Memory) (hp : ∀ r, OnLine l.p l.q r → Q r)
    (hq : ∀ r, l.aa = true → OnAa l.p l.q r → Q r) (h : P fb) : P (drawLine v l fb).fb := by
  refine lineLoop_keeps v Q P hP l (steps l.p l.q) (fun j hj => hp _ ⟨j, hj, rfl⟩)
    (fun j hj haa => hq _ haa ⟨j, hj, rfl⟩) _ _ _ (by omega) ?_ h
  intro q hqp
  cases hqp

theorem andLine_keeps (d : Drawn) (l : LineSpec) (hp : ∀ r, OnLine l.p l.q r → Q r)
    (hq : ∀ r, l.aa = true → OnAa l.p l.q r → Q r) (h : P d.fb) : P (d.andLine v l).fb :=
  drawLine_keeps v Q P hP l _ hp hq h

theorem fillLoop_keeps (q : Quad) (t : Corners) (tx : Bool) (hp : ∀ r, q.Covers r → Q r) :
    ∀ (k i : Nat) (d : Drawn), i + k ≤ q.steps + 1 → P d.fb → P (fillLoop v q t tx k i d).fb := by
  intro k
  induction k with
  | zero => intro i d _ h; exact h
  | succ k ih =>
    intro i d hi h
    refine ih _ _ (by omega) (andLine_keeps v Q P hP d _ ?_ ?_ h)
    · exact fun r hr => hp r ⟨i, by omega, .inl hr⟩
    · exact fun r _ hr => hp r ⟨i, by omega, .inr hr⟩

/-- What every pixel a fill can plot keeps, the fill keeps. -/
theorem fillQuad_keeps (q : Quad) (tx : Bool) (fb : Memory) (hp : ∀ r, q.Covers r → Q r) (h : P fb) :
    P (fillQuad v q tx fb).fb :=
  fillLoop_keeps v Q P hP q _ tx hp _ _ _ (by omega) h

theorem textureQuad_keeps (quad : DrawEnv → Quad) (fb : Memory)
    (hp : ∀ r, v.e.texW ≠ 0 → v.e.texH ≠ 0 → (quad v).Covers r → Q r) (h : P fb) :
    P (textureQuad quad v fb).fb := by
  unfold textureQuad
  split
  · exact h
  · rename_i hc
    rw [not_or] at hc
    exact fillQuad_keeps v Q P hP _ true fb (fun r => hp r hc.1 hc.2) h

theorem drawOutline_keeps (fb : Memory)
    (hp : ∀ r, (OnLine (entryQuad v).a (entryQuad v).b r ∨ OnLine (entryQuad v).b (entryQuad v).c r ∨
      OnLine (entryQuad v).c (entryQuad v).d r ∨ OnLine (entryQuad v).d (entryQuad v).a r) → Q r)
    (h : P fb) : P (drawOutline v fb).fb := by
  have no : ∀ {p q : Point} {g0 g1 : Rgb} (r : Point), (plainLine p q g0 g1).aa = true →
      OnAa (plainLine p q g0 g1).p (plainLine p q g0 g1).q r → Q r := fun r h => by cases h
  exact andLine_keeps v Q P hP _ _ (fun r hr => hp r (.inr (.inr (.inr hr)))) no
    (andLine_keeps v Q P hP _ _ (fun r hr => hp r (.inr (.inr (.inl hr)))) no
      (andLine_keeps v Q P hP _ _ (fun r hr => hp r (.inr (.inl hr))) no
        (andLine_keeps v Q P hP _ _ (fun r hr => hp r (.inl hr)) no h)))

theorem drawSegment_keeps (fb : Memory) (hp : ∀ r, OnLine (entryQuad v).a (entryQuad v).b r → Q r) (h : P fb) :
    P (drawSegment v fb).fb :=
  drawLine_keeps v Q P hP _ fb hp (fun r h => by cases h) h

end

/-! ### Counting -/

theorem lineLoop_untextured_visited (v : DrawEnv) (l : LineSpec) (n : Nat) (h : l.tex = none) :
    ∀ (k j : Nat) (a : LineAcc), (lineLoop v l n k j a).visited = a.visited + k := by
  intro k
  induction k with
  | zero => intro j a; rfl
  | succ k ih =>
    intro j a
    have hs : lineStep v l j n a =
        (false, linePixel v l (linePoint l.p l.q j n) v.e.colr (lineShade v l j n) false a) := by
      simp [lineStep, h]
    simp only [lineLoop, hs, Bool.false_eq_true, if_false, ih]
    simp only [linePixel]
    omega

/-- An untextured line visits one pixel more than it has steps (R95). -/
theorem drawLine_untextured_visited (v : DrawEnv) (l : LineSpec) (fb : Memory) (h : l.tex = none) :
    (drawLine v l fb).result.visited = steps l.p l.q + 1 := by
  have := lineLoop_untextured_visited v l (steps l.p l.q) h (steps l.p l.q + 1) 0
    { fb := fb, visited := 0, visible := false, endCount := 0, prevU := none, prev := none }
  simpa [drawLine] using this

/-! ### Visited pixels

How many pixels are visited, and whether the line is visible, does not depend on the framebuffer. -/

/-- A pixel's effect on everything but the framebuffer does not depend on the framebuffer. -/
theorem lineStep_withFb (v : DrawEnv) (l : LineSpec) (j n : Nat) (a : LineAcc) (fb : Memory) :
    (lineStep v l j n { a with fb := fb }).1 = (lineStep v l j n a).1 ∧
      ∃ fb', (lineStep v l j n { a with fb := fb }).2 = { (lineStep v l j n a).2 with fb := fb' } := by
  unfold lineStep
  split
  · rename_i row _
    have he : ∀ u t, v.endsLine { a with fb := fb } u t = v.endsLine a u t := fun _ _ => rfl
    simp only [texturedStep, he]
    cases v.endsLine a _ _ <;> exact ⟨rfl, _, rfl⟩
  · exact ⟨rfl, _, rfl⟩

theorem lineLoop_withFb (v : DrawEnv) (l : LineSpec) (n : Nat) :
    ∀ (k j : Nat) (a : LineAcc) (fb : Memory),
      ∃ fb', lineLoop v l n k j { a with fb := fb } = { lineLoop v l n k j a with fb := fb' } := by
  intro k
  induction k with
  | zero => intro j a fb; exact ⟨fb, rfl⟩
  | succ k ih =>
    intro j a fb
    obtain ⟨h1, fb', h2⟩ := lineStep_withFb v l j n a fb
    simp only [lineLoop, h1, h2]
    split
    · exact ⟨fb', rfl⟩
    · exact ih (j + 1) _ fb'

/-- What a line reports does not depend on the framebuffer. -/
theorem drawLine_report (v : DrawEnv) (l : LineSpec) (fb fb' : Memory) :
    (drawLine v l fb).result = (drawLine v l fb').result := by
  obtain ⟨m, h⟩ := lineLoop_withFb v l (steps l.p l.q) (steps l.p l.q + 1) 0
    { fb := fb', visited := 0, visible := false, endCount := 0, prevU := none, prev := none } fb
  simp only [drawLine, h]

/-- A pixel is counted once, and makes the line visible only if it lies in the clip area (R103). -/
theorem lineStep_counts (v : DrawEnv) (l : LineSpec) (j n : Nat) (a : LineAcc) :
    (lineStep v l j n a).2.visited = a.visited + 1 ∧
      ((lineStep v l j n a).2.visible = true → a.visible = true ∨ v.inSysClip (linePoint l.p l.q j n) = true) := by
  unfold lineStep
  split
  · simp only [texturedStep]
    split
    · exact ⟨rfl, .inl⟩
    · exact ⟨rfl, fun h => by simpa [linePixel] using h⟩
  · exact ⟨rfl, fun h => by simpa [linePixel] using h⟩

theorem lineLoop_visible (v : DrawEnv) (l : LineSpec) (n : Nat) :
    ∀ (k j : Nat) (a : LineAcc), a.visited ≤ (lineLoop v l n k j a).visited ∧
      ((lineLoop v l n k j a).visible = true →
        a.visible = true ∨
          ∃ i, a.visited + i < (lineLoop v l n k j a).visited ∧ v.inSysClip (linePoint l.p l.q (j + i) n) = true) := by
  intro k
  induction k with
  | zero => intro j a; exact ⟨le_rfl, .inl⟩
  | succ k ih =>
    intro j a
    obtain ⟨hv, hi⟩ := lineStep_counts v l j n a
    simp only [lineLoop]
    split
    · exact ⟨by omega, fun h => (hi h).imp_right fun hc => ⟨0, by omega, hc⟩⟩
    · obtain ⟨h1, h2⟩ := ih (j + 1) (lineStep v l j n a).2
      refine ⟨by omega, fun h => ?_⟩
      rcases h2 h with h | ⟨i, h, hc⟩
      · exact (hi h).imp_right fun hc => ⟨0, by omega, hc⟩
      · exact .inr ⟨i + 1, by omega, by rwa [Nat.add_right_comm, Nat.add_assoc] at hc⟩

/-- A visible line has a visited pixel in the clip area (R103). -/
theorem drawLine_visible (v : DrawEnv) (l : LineSpec) (fb : Memory) (h : (drawLine v l fb).result.visible = true) :
    ∃ j < (drawLine v l fb).result.visited, v.inSysClip (linePoint l.p l.q j (steps l.p l.q)) = true := by
  rcases (lineLoop_visible v l (steps l.p l.q) (steps l.p l.q + 1) 0
    { fb := fb, visited := 0, visible := false, endCount := 0, prevU := none, prev := none }).2 h with h | ⟨i, hi, hc⟩
  · cases h
  · exact ⟨i, by simpa [drawLine] using hi, by simpa using hc⟩

/-- Lines drawn one after the other. -/
def Drawn.lines (v : DrawEnv) (d : Drawn) (ls : List LineSpec) : Drawn := ls.foldl (fun d l => d.andLine v l) d

theorem fillLoop_eq_lines (v : DrawEnv) (q : Quad) (t : Corners) (tx : Bool) :
    ∀ (k i : Nat) (d : Drawn),
      fillLoop v q t tx k i d = d.lines v ((List.range k).map fun m => q.line v t tx (i + m)) := by
  intro k
  induction k with
  | zero => intro i d; rfl
  | succ k ih =>
    intro i d
    rw [fillLoop, ih, List.range_succ_eq_map]
    simp only [Drawn.lines, List.map_cons, List.foldl_cons, List.map_map, Nat.add_zero]
    congr 1
    exact List.map_congr_left fun m _ => by simp [Nat.add_comm, Nat.add_left_comm]

/-- A fill is its lines (R104). -/
theorem fillQuad_eq_lines (v : DrawEnv) (q : Quad) (tx : Bool) (fb : Memory) :
    fillQuad v q tx fb =
      (nothingDrawn fb).lines v ((List.range (q.steps + 1)).map (q.line v (gouraudTable v.vram1 v.e) tx)) := by
  rw [fillQuad, fillLoop_eq_lines]
  simp

/-- Lines are visible exactly when one of them is (R103). -/
theorem lines_visible (v : DrawEnv) (fb : Memory) :
    ∀ (ls : List LineSpec) (d : Drawn),
      (d.lines v ls).result.visible = true ↔
        d.result.visible = true ∨ ∃ l ∈ ls, (drawLine v l fb).result.visible = true := by
  intro ls
  induction ls with
  | nil => intro d; simp [Drawn.lines]
  | cons l ls ih =>
    intro d
    have h := ih (d.andLine v l)
    simp only [Drawn.lines, List.foldl_cons] at h ⊢
    rw [h]
    simp only [Drawn.andLine, Bool.or_eq_true, drawLine_report v l d.fb fb, List.exists_mem_cons_iff, or_assoc]

end Sys2Proof.Machine
end

