-- ==== Sys2Proof/Laws/Exec.lean ====
section
/-! SUPPORT. What the shared operation of the draw commands can do, and that every command answers a next state. -/

namespace Sys2Proof.Machine

/-! ### The prologue -/

theorem firstUnset_eq_none_iff (c : Ctx) (clip : Bool) : firstUnset c clip = none ↔ c.ready clip = true := by
  rcases c with ⟨a, b, c1, d, e, f, g, h, r⟩
  cases clip <;> cases a <;> cases b <;> cases c1 <;> cases d <;> cases e <;> cases f <;> cases g <;> cases h <;>
    simp [firstUnset, Ctx.ready]

theorem geometry_isSome_iff (t : BitVec 3) : (geometry t).isSome = decide (t.toNat ≤ 4) := by
  revert t
  decide

/-- A draw command whose prologue finds nothing draws in the environment of the state (R85). -/
theorem prologue_of_canDraw {s : State} {tx : Bool} {e : Entry} (h : s.canDraw tx e = true) :
    ∃ g, geometry s.tvm = some g ∧ prologue tx e s = .ok (drawEnv s e g) := by
  simp only [State.canDraw, Bool.and_eq_true, bne_iff_ne, ne_eq] at h
  obtain ⟨⟨⟨hr, ht⟩, hm⟩, hc⟩ := h
  have hg : (geometry s.tvm).isSome = true := by rw [geometry_isSome_iff]; exact ht
  obtain ⟨g, hg⟩ := Option.isSome_iff_exists.1 hg
  refine ⟨g, hg, ?_⟩
  have hu := (firstUnset_eq_none_iff s.ctx e.pmod.clip).2 hr
  have hres : (tx && reservedColour e.pmod.cm) = false := by
    cases tx <;> cases hcm : e.pmod.cm <;> simp_all [reservedColour]
  simp [prologue, hu, hg, hres, hc]

/-- The environment a successful prologue answers is that of the state (R85). -/
theorem prologue_ok {s : State} {tx : Bool} {e : Entry} {v : DrawEnv} (h : prologue tx e s = .ok v) :
    ∃ g, geometry s.tvm = some g ∧ v = drawEnv s e g := by
  unfold prologue at h
  split at h
  · cases h
  · split at h
    · cases h
    · rename_i g hg
      split at h
      · cases h
      · split at h
        · cases h
        · exact ⟨g, hg, by cases h; rfl⟩

/-! ### The shared draw operation -/

/-- A draw command either raises one fault, or stores what it has drawn in the draw framebuffer, sets `lastVisible`,
jumps and is charged (R65, R85, R103). -/
theorem runDraw_cases (tx : Bool) (i : Instr) (e : Entry) (draw : DrawEnv → Memory → Drawn) (s : State) :
    (∃ f, prologue tx e s = .error f ∧ runDraw tx i e draw s = s.raise f) ∨
      ∃ v, prologue tx e s = .ok v ∧
        runDraw tx i e draw s =
          ((s.setMem s.drawSpace (draw v (s.mem s.drawSpace)).fb).setLastVisible
            (draw v (s.mem s.drawSpace)).result.visible).finish i e (draw v (s.mem s.drawSpace)).result := by
  unfold runDraw
  cases h : prologue tx e s with
  | error f => exact .inl ⟨f, rfl, rfl⟩
  | ok v => exact .inr ⟨v, rfl, rfl⟩

/-- Each of the six draw commands is the shared operation with its own drawing. -/
theorem exec_drawing {i : Instr} {tx : Bool} {e : Entry} (h : i.drawing = some (tx, e)) (s : State) :
    exec i s = .next (runDraw tx i e i.draw s) := by
  cases i <;> cases h <;> rfl

/-- What every pixel a draw command can plot keeps, its drawing keeps. -/
theorem draw_keeps (i : Instr) (v : DrawEnv) (Q : Point → Prop) (P : Memory → Prop)
    (hP : ∀ fb p src g, Q p → P fb → P (plotPixel v fb p src g)) (hQ : ∀ r, i.Plots v r → Q r) (fb : Memory)
    (h : P fb) : P (i.draw v fb).fb := by
  cases i
  case nspr e => exact textureQuad_keeps v Q P hP _ fb (fun r h1 h2 h3 => hQ r ⟨h1, h2, h3⟩) h
  case sspr e => exact textureQuad_keeps v Q P hP _ fb (fun r h1 h2 h3 => hQ r ⟨h1, h2, h3⟩) h
  case dspr e => exact textureQuad_keeps v Q P hP _ fb (fun r h1 h2 h3 => hQ r ⟨h1, h2, h3⟩) h
  case poly e => exact fillQuad_keeps v Q P hP _ false fb hQ h
  case plin e => exact drawOutline_keeps v Q P hP fb hQ h
  case line e => exact drawSegment_keeps v Q P hP fb hQ h
  all_goals exact h

/-- A drawing keeps the framebuffer's canonical form. -/
theorem draw_good (i : Instr) (v : DrawEnv) (fb : Memory) (h : fb.Good fbSize) : (i.draw v fb).fb.Good fbSize :=
  draw_keeps i v (fun _ => True) (Memory.Good fbSize) (fun _ p src g _ hf => plotPixel_good v p src g hf)
    (fun _ _ => trivial) fb h

/-- A command's drawing is its lines, in order (R104, R111 to R116). -/
theorem draw_eq_lines {i : Instr} {tx : Bool} {e : Entry} (h : i.drawing = some (tx, e)) (v : DrawEnv) (fb : Memory) :
    i.draw v fb = (nothingDrawn fb).lines v (i.lines v) := by
  have hs : ∀ quad : DrawEnv → Quad, textureQuad quad v fb =
      (nothingDrawn fb).lines v (if v.e.texW = 0 ∨ v.e.texH = 0 then []
        else (List.range ((quad v).steps + 1)).map ((quad v).line v (gouraudTable v.vram1 v.e) true)) := by
    intro quad
    unfold textureQuad
    split
    · rfl
    · exact fillQuad_eq_lines v _ true fb
  cases i <;> cases h
  case nspr => exact hs _
  case sspr => exact hs _
  case dspr => exact hs _
  case poly => exact fillQuad_eq_lines v _ false fb
  case plin => rfl
  case line => simp [Instr.draw, Instr.lines, drawSegment, Drawn.lines, Drawn.andLine, nothingDrawn]

/-- A command that reports a visible pixel visits one in the system clip area (R103). -/
theorem draw_visible {i : Instr} {tx : Bool} {e : Entry} (h : i.drawing = some (tx, e)) (v : DrawEnv) (fb : Memory)
    (hv : (i.draw v fb).result.visible = true) : ∃ r, i.Visits v fb r ∧ v.inSysClip r = true := by
  rw [draw_eq_lines h, lines_visible v fb] at hv
  rcases hv with hv | ⟨l, hl, hv⟩
  · cases hv
  · obtain ⟨j, hj, hc⟩ := drawLine_visible v l fb hv
    exact ⟨_, ⟨l, hl, j, hj, rfl⟩, hc⟩

/-! ### Every command answers a next state -/

/-- The state a command leads to. -/
theorem exec_next (i : Instr) (s : State) : ∃ t, exec i s = .next t := by
  cases i <;> exact ⟨_, rfl⟩

/-- What no command touches (R118, R69 to R78): the sequencer, the VDP2 side, the timing controller and the host's side. -/
structure SameOutside (s t : State) : Prop where
  seq : t.seq = s.seq
  regs2 : t.regs2 = s.regs2
  vram1 : t.vram1 = s.vram1
  vram2 : t.vram2 = s.vram2
  cram : t.cram = s.cram
  tim : t.tim = s.tim
  cmp : t.cmp = s.cmp
  ctl : t.ctl = s.ctl
  hostOps : t.hostOps = s.hostOps
  replies : t.replies = s.replies
  freeCtr : t.freeCtr = s.freeCtr

theorem setMem_fb_vram1 (s : State) (f : FbId) (m : Memory) : (s.setMem (.fb f) m).vram1 = s.vram1 := by
  cases f <;> rfl

theorem setMem_fb_vram2 (s : State) (f : FbId) (m : Memory) : (s.setMem (.fb f) m).vram2 = s.vram2 := by
  cases f <;> rfl

theorem setMem_fb_cram (s : State) (f : FbId) (m : Memory) : (s.setMem (.fb f) m).cram = s.cram := by
  cases f <;> rfl

theorem runDraw_sameOutside (tx : Bool) (i : Instr) (e : Entry) (draw : DrawEnv → Memory → Drawn) (s : State) :
    SameOutside s (runDraw tx i e draw s) := by
  rcases runDraw_cases tx i e draw s with ⟨f, -, h⟩ | ⟨v, -, h⟩
  · rw [h]; constructor <;> simp
  · rw [h]
    constructor <;> simp [State.drawSpace, setMem_fb_vram1, setMem_fb_vram2, setMem_fb_cram]

/-- A command step leaves the rest of the machine as it is. -/
theorem exec_sameOutside {i : Instr} {s t : State} (h : exec i s = .next t) : SameOutside s t := by
  cases i <;> simp only [exec, execEnd, execSkip, execNspr, execSspr, execDspr, execIllegal3, execIllegal7,
    execIllegalB, execIllegalC, execIllegalD, execIllegalE, execIllegalF, execPoly, execPlin, execLine, execUclp,
    execSclp, execLcrd, Host.Outcome.next.injEq] at h <;> subst h <;>
    first
      | exact runDraw_sameOutside _ _ _ _ _
      | (constructor <;> simp [State.raiseIllegal])

end Sys2Proof.Machine
end

