-- ==== Sys2Proof/Laws/Framebuffer.lean ====
section
/-! SUPPORT. What the erase, the swap, the frame boundary and the jump can do, each said once. -/

namespace Sys2Proof.Machine

/-! ### Erase (R129) -/

theorem eraseCells_good (data : Word) :
    ∀ (k a : Nat) (m : Memory), m.Good fbSize → (eraseCells data k a m).Good fbSize := by
  intro k
  induction k with
  | zero => intro a m h; exact h
  | succ k ih => intro a m h; exact ih _ _ (Memory.good_write16 _ _ fbSize_pos fbSize_even h)

/-- An erase keeps a framebuffer's canonical form. -/
theorem eraseLines_good (lw x1 x3 : Nat) (data : Word) :
    ∀ (k y : Nat) (m : Memory), m.Good fbSize → (eraseLines lw x1 x3 data k y m).Good fbSize := by
  intro k
  induction k with
  | zero => intro y m h; exact h
  | succ k ih => intro y m h; exact ih _ _ (eraseCells_good _ _ _ _ h)

/-- An erase does nothing, or stores the erased framebuffer. -/
theorem erase_cases (s : State) (f : FbId) :
    s.erase f = s ∨
      ∃ g, geometry s.tvm = some g ∧
        s.erase f =
          s.setMem (.fb f)
            (eraseLines g.lineWords (s.eraseArea g).x1 (s.eraseArea g).x3 s.regs1.ewdr (s.eraseArea g).lines
              (s.eraseArea g).y1 (s.mem (.fb f))) := by
  unfold State.erase
  cases h : geometry s.tvm with
  | none => exact .inl rfl
  | some g => exact .inr ⟨g, rfl, rfl⟩

/-- The VBlank erase does nothing, or erases the display framebuffer (R130). -/
theorem vblankErase_cases (s : State) : s.vblankErase = s ∨ s.vblankErase = s.erase s.seq.drawFB.other := by
  unfold State.vblankErase State.eraseDisplay
  split
  · exact .inr rfl
  · exact .inl rfl

/-- The erase part of the frame boundary does nothing, or consumes the request and erases the display framebuffer
(R133). -/
theorem boundaryErase_cases (s : State) :
    s.boundaryErase = s ∨
      s.boundaryErase = ({ s with seq := { s.seq with manualEraseReq := false } } : State).erase s.seq.drawFB.other := by
  unfold State.boundaryErase State.eraseDisplay
  split
  · exact .inr rfl
  · exact .inl rfl

/-- The frame boundary ends with its erase, or with a swap after it (R133). -/
theorem frameBoundary_cases (s : State) :
    s.frameBoundary = s.boundaryErase ∨ s.frameBoundary = s.boundaryErase.swap := by
  simp only [State.frameBoundary]
  split
  · exact .inr rfl
  · exact .inl rfl

/-- A swap is the change of its registers, the end of the running list and the callback, and then a start of drawing
if PTM = 2 (R132). -/
theorem swap_cases (s : State) :
    (s.ptm ≠ 2 ∧ s.swap = s.swapRegisters.abandonList.emit .framebufferSwap) ∨
      (s.ptm = 2 ∧ s.swap = (s.swapRegisters.abandonList.emit .framebufferSwap).startDrawing) := by
  have hp : (s.swapRegisters.abandonList.emit .framebufferSwap).ptm = s.ptm := by
    unfold State.ptm
    have : s.swapRegisters.abandonList.regs1.ptmr = s.regs1.ptmr := by
      unfold State.abandonList
      split <;> rfl
    simp [this]
  unfold State.swap
  simp only [hp]
  by_cases h : s.ptm = 2
  · exact .inr ⟨h, by rw [if_pos h]⟩
  · exact .inl ⟨h, by rw [if_neg h]⟩

/-- An abandoned list changes the status alone (R132). -/
theorem abandonList_cases (s : State) :
    (s.proc.status = .busy ∧ s.abandonList = s.setStatus .idle) ∨ (s.proc.status ≠ .busy ∧ s.abandonList = s) := by
  unfold State.abandonList
  split
  · rename_i h; exact .inl ⟨h, rfl⟩
  · rename_i h; exact .inr ⟨h, rfl⟩

/-! ### The jump (R71) -/

/-- The next command address is the following entry, the link, or the return address. -/
theorem jumpTarget_cases (e : Entry) (a : Addr) (ret : Option Addr) :
    ((jumpTarget e a ret).1 = nextEntry a ∨ (jumpTarget e a ret).1 = e.linkAddr ∨
        ret = some (jumpTarget e a ret).1) ∧
      ((jumpTarget e a ret).2 = ret ∨ (jumpTarget e a ret).2 = none ∨ (jumpTarget e a ret).2 = some (nextEntry a)) := by
  unfold jumpTarget
  cases e.jp <;> cases ret <;> simp

end Sys2Proof.Machine
end

