-- ==== Sys2Proof/Laws/PerInstr.lean ====
section
/-! SUPPORT. Statements about every instruction, one lemma for each constructor. -/

namespace Sys2Proof.Laws

/-- The mask and the match of an instruction's row of the opcode table (R53). -/
def row : Instr → Word × Word
  | .endList => (0x8000, 0x8000)
  | .skip _ _ => (0xC000, 0x4000)
  | .nspr _ => (0xC00F, 0x0000)
  | .sspr _ => (0xC00F, 0x0001)
  | .dspr _ => (0xC00F, 0x0002)
  | .illegal3 _ => (0xC00F, 0x0003)
  | .poly _ => (0xC00F, 0x0004)
  | .plin _ => (0xC00F, 0x0005)
  | .line _ => (0xC00F, 0x0006)
  | .illegal7 _ => (0xC00F, 0x0007)
  | .uclp _ => (0xC00F, 0x0008)
  | .sclp _ => (0xC00F, 0x0009)
  | .lcrd _ => (0xC00F, 0x000A)
  | .illegalB _ => (0xC00F, 0x000B)
  | .illegalC _ => (0xC00F, 0x000C)
  | .illegalD _ => (0xC00F, 0x000D)
  | .illegalE _ => (0xC00F, 0x000E)
  | .illegalF _ => (0xC00F, 0x000F)

/-- The first word an instruction is encoded with matches its row of the opcode table. -/
def TableRow.Statement (i : Instr) : Prop := (encodeRaw i).ctrl &&& (row i).1 = (row i).2

theorem ctrl_and_mask (skip : Bool) (comm : BitVec 4) (e : Entry) :
    encodeCtrl skip comm e &&& 0xC00F#16 = 0#1 ++ bitOf skip ++ 0#10 ++ comm := by
  apply BitVec.eq_of_getLsbD_eq
  intro i hi
  unfold encodeCtrl
  simp only [BitVec.getLsbD_and, BitVec.getLsbD_append]
  interval_cases i <;> simp [bitOf]

theorem ctrl_and_skip_mask (comm : BitVec 4) (e : Entry) : encodeCtrl true comm e &&& 0xC000#16 = 0x4000#16 := by
  apply BitVec.eq_of_getLsbD_eq
  intro i hi
  unfold encodeCtrl
  simp only [BitVec.getLsbD_and, BitVec.getLsbD_append]
  interval_cases i <;> simp [bitOf]

theorem TableRow.endList : TableRow.Statement .endList := by unfold TableRow.Statement; decide
theorem TableRow.skip (comm : BitVec 4) (e : Entry) : TableRow.Statement (.skip comm e) := ctrl_and_skip_mask comm e
theorem TableRow.nspr (e : Entry) : TableRow.Statement (.nspr e) := ctrl_and_mask false 0x0 e
theorem TableRow.sspr (e : Entry) : TableRow.Statement (.sspr e) := ctrl_and_mask false 0x1 e
theorem TableRow.dspr (e : Entry) : TableRow.Statement (.dspr e) := ctrl_and_mask false 0x2 e
theorem TableRow.illegal3 (e : Entry) : TableRow.Statement (.illegal3 e) := ctrl_and_mask false 0x3 e
theorem TableRow.poly (e : Entry) : TableRow.Statement (.poly e) := ctrl_and_mask false 0x4 e
theorem TableRow.plin (e : Entry) : TableRow.Statement (.plin e) := ctrl_and_mask false 0x5 e
theorem TableRow.line (e : Entry) : TableRow.Statement (.line e) := ctrl_and_mask false 0x6 e
theorem TableRow.illegal7 (e : Entry) : TableRow.Statement (.illegal7 e) := ctrl_and_mask false 0x7 e
theorem TableRow.uclp (e : Entry) : TableRow.Statement (.uclp e) := ctrl_and_mask false 0x8 e
theorem TableRow.sclp (e : Entry) : TableRow.Statement (.sclp e) := ctrl_and_mask false 0x9 e
theorem TableRow.lcrd (e : Entry) : TableRow.Statement (.lcrd e) := ctrl_and_mask false 0xA e
theorem TableRow.illegalB (e : Entry) : TableRow.Statement (.illegalB e) := ctrl_and_mask false 0xB e
theorem TableRow.illegalC (e : Entry) : TableRow.Statement (.illegalC e) := ctrl_and_mask false 0xC e
theorem TableRow.illegalD (e : Entry) : TableRow.Statement (.illegalD e) := ctrl_and_mask false 0xD e
theorem TableRow.illegalE (e : Entry) : TableRow.Statement (.illegalE e) := ctrl_and_mask false 0xE e
theorem TableRow.illegalF (e : Entry) : TableRow.Statement (.illegalF e) := ctrl_and_mask false 0xF e

end Sys2Proof.Laws
end

