-- ==== Sys2Proof/Laws/Step.lean ====
section
/-! SUPPORT. What one step of the machine can do, said once: the cut-off, a decoded command, or an agent's step. -/

namespace Sys2Proof.Machine

/-- A command step stops the list or executes the entry it fetches (R65, R74). -/
theorem vdp1Step_cases (s : State) :
    (overLimit s.proc.frameCycles = true ∧ vdp1Step s = .next (s.setStatus .idle)) ∨
      (overLimit s.proc.frameCycles = false ∧ vdp1Step s = exec (decodeRaw s.fetchEntry) s.latchCopr) := by
  cases h : overLimit s.proc.frameCycles
  · exact .inr ⟨rfl, by simp [vdp1Step, h, decode_fetchBytes]⟩
  · exact .inl ⟨rfl, by simp [vdp1Step, h]⟩

/-- A step is a command step where one is enabled, and else the step of the agent whose turn it is (R66, R167). -/
theorem step_cases {s t : State} (h : step s = .next t) :
    (s.vdp1Enabled = true ∧ overLimit s.proc.frameCycles = true ∧ t = s.setStatus .idle) ∨
      (s.vdp1Enabled = true ∧ overLimit s.proc.frameCycles = false ∧
        exec (decodeRaw s.fetchEntry) s.latchCopr = .next t) ∨
      (s.vdp1Enabled = false ∧ t = s.agentStep) := by
  unfold step at h
  cases he : s.vdp1Enabled
  · rw [he] at h
    exact .inr (.inr ⟨rfl, by injection h with h; exact h.symm⟩)
  · rw [he, if_pos rfl] at h
    rcases vdp1Step_cases s with ⟨hl, hv⟩ | ⟨hl, hv⟩
    · rw [hv] at h
      exact .inl ⟨rfl, hl, by injection h with h; exact h.symm⟩
    · rw [hv] at h
      exact .inr (.inl ⟨rfl, hl, h⟩)

/-- An agent's step, by what is in progress. -/
theorem agentStep_cases (s : State) :
    (s.ctl = .hostTurn ∧ s.hostOps = [] ∧ s.agentStep = s) ∨
      (∃ op rest, s.ctl = .hostTurn ∧ s.hostOps = op :: rest ∧
        s.agentStep = { s with hostOps := rest }.hostOp op) ∨
      (∃ r, s.ctl = .advance r ∧ s.agentStep = s.beginChunk r) ∨
      (∃ c r, s.ctl = .serve c r ∧ s.agentStep = s.endChunk c r) ∨
      (∃ r, s.ctl = .enterH r ∧ s.agentStep = s.enterHStep r) ∨
      (∃ r, s.ctl = .enterV r ∧ s.agentStep = s.enterVStep r) := by
  cases hc : s.ctl with
  | hostTurn =>
    have h : s.agentStep = s.hostStep := by simp only [State.agentStep, hc]
    cases ho : s.hostOps with
    | nil => exact .inl ⟨rfl, rfl, by rw [h, State.hostStep, ho]⟩
    | cons op rest => exact .inr (.inl ⟨op, rest, rfl, rfl, by simp only [h, State.hostStep, ho, hc]⟩)
  | advance r => exact .inr (.inr (.inl ⟨r, rfl, by simp only [State.agentStep, hc]⟩))
  | serve c r => exact .inr (.inr (.inr (.inl ⟨c, r, rfl, by simp only [State.agentStep, hc]⟩)))
  | enterH r => exact .inr (.inr (.inr (.inr (.inl ⟨r, rfl, by simp only [State.agentStep, hc]⟩))))
  | enterV r => exact .inr (.inr (.inr (.inr (.inr ⟨r, rfl, by simp only [State.agentStep, hc]⟩))))

end Sys2Proof.Machine
end

