-- ==== Sys2Proof/Tests/Slice0.lean ====
section
/-! SUPPORT. Tests. Their expected results are the vectors of `spec/95_test_vectors.md` (named V, K, M, W, T, P there)
and the worked examples of the rules, or hand calculation from a rule where the comment says so. -/

namespace Sys2Proof.Tests

open Sys2Proof.Machine

/-! ### Helpers -/

/-- The entry whose sixteen words are 0, but for the command code. -/
def zeroEntry : Entry := default

/-- The instruction sixteen words decode to. -/
def read (ws : List Word) : Option Instr :=
  match decode (bytesOfWords ws) with
  | .ok (i, _) => some i
  | .error _ => none

/-- The state an instruction leads to. -/
def after (i : Instr) (s : State) : State :=
  match exec i s with
  | .next t => t
  | _ => s

/-- The state a step leads to. -/
def stepped (s : State) : State :=
  match step s with
  | .next t => t
  | _ => s

/-- The state of the base list: system clip (319, 223), local offset (0, 0). -/
def ready : State :=
  { State.reset with
    ctx := { resetCtx with sysClipH := some 319, sysClipV := some 223, localX := some 0, localY := some 0 } }

/-- Words put into a memory. -/
def fill (sp : Space) (s : State) : Nat → List Word → State
  | _, [] => s
  | a, w :: ws => fill sp (s.memWrite16 sp a w) (a + 2) ws

/-- Pixels of a line of the 16-bit draw framebuffer. -/
def row (s : State) (y x n : Nat) : List Word :=
  (List.range n).map fun k => s.memRead16 s.drawSpace ((y * 512 + x + k) * 2)

/-- The instruction of sixteen words executed; `none` decodes to nothing. -/
def run (ws : List Word) (s : State) : State :=
  match read ws with
  | some i => after i s
  | none => s

/-- What the words' command visits, in the environment of a 16-bit geometry. -/
def visits (ws : List Word) (s : State) : Option Nat :=
  match read ws with
  | some i =>
    match i.drawing, geometry s.tvm with
    | some (_, e), some g => some (i.draw (drawEnv s e g) (s.mem s.drawSpace)).result.visited
    | _, _ => none
  | none => none

/-! ### Well-formedness: an ill-formed term for each check -/

theorem test_zero_entry_wellFormed : (Instr.poly zeroEntry).wellFormed = true := by decide
theorem test_link_not_multiple_of_32 : (Instr.poly { zeroEntry with linkAddr := 0x10 }).wellFormed = false := by decide
theorem test_source_not_multiple_of_8 : (Instr.nspr { zeroEntry with srcAddr := 4 }).wellFormed = false := by decide
theorem test_width_not_multiple_of_8 : (Instr.nspr { zeroEntry with texW := 12 }).wellFormed = false := by decide
theorem test_width_too_large : (Instr.nspr { zeroEntry with texW := 512 }).wellFormed = false := by decide
theorem test_height_too_large : (Instr.nspr { zeroEntry with texH := 256 }).wellFormed = false := by decide
theorem test_gouraud_not_multiple_of_8 : (Instr.line { zeroEntry with grdAddr := 2 }).wellFormed = false := by decide

/-! ### Decoding: one word for every constructor, from the table of R52 and the bits of R51 -/

theorem test_decode_end : decodeTableWord 16 0x8000 = some .endList := by decide
theorem test_decode_skip : decodeTableWord 16 0x4004 = some (.skip 4 zeroEntry) := by decide
theorem test_decode_nspr : decodeTableWord 16 0x0000 = some (.nspr zeroEntry) := by decide
theorem test_decode_sspr : decodeTableWord 16 0x0A01 =
    some (.sspr { zeroEntry with zoomY := .centre, zoomX := .centre }) := by decide
theorem test_decode_dspr : decodeTableWord 16 0x0032 = some (.dspr { zeroEntry with dirV := true, dirH := true }) := by
  decide
theorem test_decode_illegal3 : decodeTableWord 16 0x0003 = some (.illegal3 zeroEntry) := by decide
theorem test_decode_poly : decodeTableWord 16 0x1004 = some (.poly { zeroEntry with jp := .assign }) := by decide
theorem test_decode_plin : decodeTableWord 16 0x0005 = some (.plin zeroEntry) := by decide
theorem test_decode_line : decodeTableWord 16 0x3006 = some (.line { zeroEntry with jp := .ret }) := by decide
theorem test_decode_illegal7 : decodeTableWord 16 0x0007 = some (.illegal7 zeroEntry) := by decide
theorem test_decode_uclp : decodeTableWord 16 0x2008 = some (.uclp { zeroEntry with jp := .call }) := by decide
theorem test_decode_sclp : decodeTableWord 16 0x0009 = some (.sclp zeroEntry) := by decide
theorem test_decode_lcrd : decodeTableWord 16 0x000A = some (.lcrd zeroEntry) := by decide
theorem test_decode_illegalB : decodeTableWord 16 0x000B = some (.illegalB zeroEntry) := by decide
theorem test_decode_illegalC : decodeTableWord 16 0x000C = some (.illegalC zeroEntry) := by decide
theorem test_decode_illegalD : decodeTableWord 16 0x000D = some (.illegalD zeroEntry) := by decide
theorem test_decode_illegalE : decodeTableWord 16 0x000E = some (.illegalE zeroEntry) := by decide
theorem test_decode_illegalF : decodeTableWord 16 0x000F = some (.illegalF zeroEntry) := by decide

/-- Bit 15 wins over every other bit, bit 14 over the code (R53). -/
theorem test_decode_order :
    decodeTableWord 16 0xFFFF = some .endList ∧
      decodeTableWord 16 0x400C = some (.skip 0xC zeroEntry) := by decide

/-- The LINE of program P2 at 0x60: link 0x200, user clipping on, green. -/
def p2Line : List Word := [0x2006, 0x0040, 0x0400, 0x83E0, 0, 0, 0, 0, 3, 0, 0, 0, 0, 0, 0, 0]

theorem test_decode_p2_line :
    read p2Line =
      some (.line
        { zeroEntry with
          jp := .call, linkAddr := 0x200, pmod := { zeroEntry.pmod with clip := true }, colr := 0x83E0, xb := 3 }) := by
  decide

/-- The third sprite of program P3: ECD = SPD = 1, texture at 0x1000, 8 by 2 texels. -/
theorem test_decode_p3_sprite :
    read [0x0000, 0x0000, 0x00C0, 0x0120, 0x0200, 0x0102, 4, 8, 0, 0, 0, 0, 0, 0, 0, 0] =
      some (.nspr
        { zeroEntry with
          pmod := { zeroEntry.pmod with ecd := true, spd := true }, colr := 0x0120, srcAddr := 0x1000, texW := 8,
          texH := 2, xa := 4, ya := 8 }) := by
  decide

/-- Every field of CMDPMOD at once (R55): 0xBEEF is 1 01 1 1 1 1 0 1 1 101 111. -/
theorem test_decode_pmod :
    decodePmod 0xBEEF =
      { mon := true, spare := 1, hss := true, pclp := true, clip := true, cmod := true, mesh := false, ecd := true,
        spd := true, cm := .direct, cc := .gouraudHalfTransparency } := by decide

theorem test_decode_truncated : (decode (List.replicate 31 0)) = .error .truncatedEntry := by rfl

/-! ### Arithmetic (2.1, 2.2) -/

theorem test_rdiv :
    [rdiv 0 5, rdiv 1 2, rdiv (-1) 2, rdiv 3 2, rdiv (-3) 2, rdiv 5 10, rdiv 4 10, rdiv (-5) 10, rdiv 6 4, rdiv (-6) 4,
      rdiv 7 0] = [0, 1, -1, 2, -2, 1, 0, -1, 2, -2, 0] := by decide

theorem test_lerp :
    [lerp 0 31 1 3, lerp 31 0 1 3, lerp 16 16 5 9, lerp 0 31 3 3, lerp 10 0 1 4, lerp 5 9 0 0] =
      [10, 20, 16, 31, 7, 5] := by decide

theorem test_sext13 :
    [sext13 0x0064, sext13 0xFFFE, sext13 0x1FFE, sext13 0x1000, sext13 0x0FFF, sext13 0xF000] =
      [100, -2, -2, -4096, 4095, -4096] := by decide

theorem test_colour_calculation :
    [colourCalc .shadow 0 0x8007 noShade, colourCalc .shadow 0 0x0007 noShade,
      colourCalc .halfLuminance 0xFD40 0 noShade, colourCalc .halfTransparency 0xFD40 0x800F noShade,
      colourCalc .halfTransparency 0xFD40 0x000F noShade] =
      [some 0x8003, none, some 0xBCA0, some 0xBCA7, some 0xFD40] := by decide

theorem test_line_points :
    (List.range 6).map (fun j => linePoint ⟨0, 0⟩ ⟨5, 2⟩ j 5) =
        [⟨0, 0⟩, ⟨1, 0⟩, ⟨2, 1⟩, ⟨3, 1⟩, ⟨4, 2⟩, ⟨5, 2⟩] ∧
      (List.range 4).map (fun j => linePoint ⟨0, 0⟩ ⟨-3, 3⟩ j 3) = [⟨0, 0⟩, ⟨-1, 1⟩, ⟨-2, 2⟩, ⟨-3, 3⟩] := by decide

theorem test_texture_columns :
    (List.range 12).map (fun j => texCoord false 8 j 12) = [0, 0, 1, 2, 2, 3, 4, 4, 5, 6, 6, 7] ∧
      (List.range 4).map (fun j => texCoord true 8 j 4) = [7, 5, 3, 1] := by decide

/-! ### List control and context commands -/

/-- K1: an END entry. -/
theorem test_end :
    let t := stepped (State.reset.withFetchWord 16 0x8000)
    t.proc.status = .idle ∧ t.regs1.edsr = 2 ∧ t.regs1.copr = 0 ∧ t.proc.frameCycles = 0 ∧
      t.trace = [.spriteDrawEnd, .vdp1FrameDrawn] ∧ t.fb0.cells = [] := by decide

/-- R70: a skipped polygon at 0x80. -/
theorem test_skip :
    let t := after (.skip 4 zeroEntry) { ready with proc := { resetProc with cmdAddr := 0x80 } }
    t.proc.cmdAddr = 0xA0 ∧ t.proc.lastVisible = false ∧ t.fb0.cells = [] := by decide

/-- R71: the call at 0x60, the return at 0x200, and the wrap from 0x7FFE0. -/
theorem test_jumps :
    jumpTarget { zeroEntry with jp := .call, linkAddr := 0x200 } 0x60 none = (0x200, some 0x80) ∧
      jumpTarget { zeroEntry with jp := .ret } 0x200 (some 0x80) = (0x80, none) ∧
      jumpTarget zeroEntry 0x7FFE0 none = (0, none) := by decide

/-- K2: an illegal code at 0x40, whose jump is not taken. -/
theorem test_illegal3 :
    let s := { ready with proc := { resetProc with cmdAddr := 0x40 } }
    let t := stepped (s.withFetchWord 16 0x1003)
    t.proc.status = .fault (.illegalCommand 0x40 0x1003) ∧ t.regs1.copr = 8 ∧ t.proc.cmdAddr = 0x40 ∧
      t.regs1.edsr = 0 ∧ t.trace = [] := by decide

/-- R72: CMDCTRL = 0x000C, and the other five codes, record the code. -/
theorem test_illegal_others :
    ((after (.illegal7 zeroEntry) ready).proc.status = .fault (.illegalCommand 0 0x7)) ∧
      ((after (.illegalB zeroEntry) ready).proc.status = .fault (.illegalCommand 0 0xB)) ∧
      ((after (.illegalC zeroEntry) ready).proc.status = .fault (.illegalCommand 0 0xC)) ∧
      ((after (.illegalD zeroEntry) ready).proc.status = .fault (.illegalCommand 0 0xD)) ∧
      ((after (.illegalE zeroEntry) ready).proc.status = .fault (.illegalCommand 0 0xE)) ∧
      ((after (.illegalF zeroEntry) ready).proc.status = .fault (.illegalCommand 0 0xF)) := by decide

/-- R76: user clip (101, 50)-(102, 60); bits above the fields are dropped (hand calculation). -/
theorem test_uclp :
    let t := run [0x0008, 0, 0, 0, 0, 0, 0x0065, 0xFE32, 0, 0, 0xFC66, 0x003C, 0, 0, 0, 0] State.reset
    t.ctx = { resetCtx with userX0 := some 101, userY0 := some 50, userX1 := some 102, userY1 := some 60 } ∧
      t.proc.cmdAddr = 0x20 := by decide

/-- R77: system clip (319, 223). -/
theorem test_sclp :
    (run [0x0009, 0, 0, 0, 0, 0, 0, 0, 0, 0, 0x013F, 0x00DF, 0, 0, 0, 0] State.reset).ctx =
      { resetCtx with sysClipH := some 319, sysClipV := some 223 } := by decide

/-- R78: local offset (-2, -4096), and the jump Call after it. -/
theorem test_lcrd :
    let t := run [0x200A, 0x0040, 0, 0, 0, 0, 0xFFFE, 0x1000, 0, 0, 0, 0, 0, 0, 0, 0] State.reset
    t.ctx.localX.map BitVec.toInt = some (-2) ∧ t.ctx.localY.map BitVec.toInt = some (-4096) ∧
      t.ctx.retAddr = some 0x20 ∧ t.proc.cmdAddr = 0x200 := by decide

/-! ### Draw commands -/

/-- K3, K4: the prologue's faults. -/
theorem test_prologue_faults :
    (run [4, 0, 0, 0x8001, 0, 0, 0, 0, 0, 0, 0, 0, 0, 0, 0, 0] State.reset).proc.status =
        .fault (.unsetContext 0 .localX) ∧
      (run [0, 0, 0x30, 0, 0, 0, 0, 0, 0, 0, 0, 0, 0, 0, 0, 0] ready).proc.status =
        .fault (.reservedColourMode 0 0x30) ∧
      (run [4, 0, 0x35, 0, 0, 0, 0, 0, 0, 0, 0, 0, 0, 0, 0, 0] ready).proc.status =
        .fault (.reservedColourCalc 0 0x35) ∧
      (run [6, 0, 0, 0, 0, 0, 0, 0, 0, 0, 0, 0, 0, 0, 0, 0]
          { ready with regs1 := { resetRegs1 with tvmr := 5 } }).proc.status = .fault (.reservedFbMode 0 5) := by
  decide

/-- V1: a diamond, with its AA pixels. -/
def diamond : List Word := [4, 0, 0, 0x8001, 0, 0, 3, 0, 6, 3, 3, 6, 0, 3, 0, 0]

theorem test_poly_diamond :
    let t := run diamond ready
    let c : Word := 0x8001
    row t 0 3 2 = [c, c] ∧ row t 1 2 4 = [c, c, c, c] ∧ row t 2 1 6 = [c, c, c, c, c, c] ∧
      row t 3 0 7 = [c, c, c, c, c, c, c] ∧ row t 4 1 5 = [c, c, c, c, c] ∧ row t 5 2 3 = [c, c, c] ∧
      row t 6 3 1 = [c] ∧ t.fb0.cells.length = 2 * 28 ∧ visits diamond ready = some 16 ∧
      t.proc.lastVisible = true := by decide +kernel

/-- V6: beyond the clip area, 33 visited pixels and none plotted; and a polygon clipped at the corner. -/
theorem test_poly_clipped :
    let far : List Word := [4, 0, 0, 0x8004, 0, 0, 400, 10, 410, 10, 410, 12, 400, 12, 0, 0]
    let corner : List Word := [4, 0, 0, 0x8004, 0, 0, 0xFFFE, 0xFFFF, 1, 0xFFFF, 1, 1, 0xFFFE, 1, 0, 0]
    (run far ready).fb0.cells = [] ∧ (run far ready).proc.lastVisible = false ∧ visits far ready = some 33 ∧
      row (run corner ready) 0 0 2 = [0x8004, 0x8004] ∧ row (run corner ready) 1 0 2 = [0x8004, 0x8004] ∧
      (run corner ready).fb0.cells.length = 8 ∧ (run corner ready).proc.lastVisible = true := by decide +kernel

/-- V2: a scaled sprite, zoom point at the centre. -/
theorem test_sspr_centre :
    let s := fill .vram1 ready 0x1000 [0x8001, 0x8002, 0x8003, 0x8004, 0x8005, 0x8006, 0x8007, 0x8008]
    let t := run [0x0A01, 0, 0x0028, 0, 0x0200, 0x0101, 10, 10, 3, 1, 0, 0, 0, 0, 0, 0] s
    row t 10 9 4 = [0x8001, 0x8003, 0x8005, 0x8007] ∧ row t 11 9 4 = [0x8001, 0x8003, 0x8005, 0x8007] ∧
      t.fb0.cells.length = 16 := by decide +kernel

/-- V2c: two points, mirrored. -/
theorem test_sspr_mirrored :
    let s := fill .vram1 ready 0x1000 [0x8001, 0x8002, 0x8003, 0x8004, 0x8005, 0x8006, 0x8007, 0x8008]
    row (run [0x0001, 0, 0x0028, 0, 0x0200, 0x0101, 7, 0, 0, 0, 0, 0, 0, 0, 0, 0] s) 0 0 8 =
      [0x8008, 0x8007, 0x8006, 0x8005, 0x8004, 0x8003, 0x8002, 0x8001] := by decide +kernel

/-- The texture of P3. -/
def p3 : State := fill .vram1 ready 0x1000 [0x1203, 0x4567, 0x1F2F, 0x3456]

/-- P3, first sprite: transparency, and the line that ends at its second end code. -/
theorem test_nspr_end_codes :
    let ws : List Word := [0, 0, 0, 0x0120, 0x0200, 0x0102, 4, 2, 0, 0, 0, 0, 0, 0, 0, 0]
    let t := run ws p3
    row t 2 4 2 = [0x0121, 0x0122] ∧ row t 2 7 5 = [0x0123, 0x0124, 0x0125, 0x0126, 0x0127] ∧
      row t 3 4 1 = [0x0121] ∧ row t 3 6 1 = [0x0122] ∧ t.fb0.cells.length = 18 ∧ visits ws p3 = some 12 := by
  decide +kernel

/-- V3: a sprite in the 8-bit framebuffer. -/
theorem test_nspr_8bpp :
    let s := fill .vram1 { ready with regs1 := { resetRegs1 with tvmr := 1 } } 0x1000 [0x1100, 0x33FF, 0x55FF, 0x7788]
    (run [0, 0, 0x0020, 0x0100, 0x0200, 0x0101, 2, 1, 0, 0, 0, 0, 0, 0, 0, 0] s).fb0.cells =
      [(1026, 0x11), (1028, 0x33), (1030, 0x55)] := by decide +kernel

/-- V10: a distorted sprite. -/
theorem test_dspr :
    let s := fill .vram1 ready 0x1000
      [0x8001, 0x8002, 0x8003, 0x8004, 0x8005, 0x8006, 0x8007, 0x8008, 0x8101, 0x8102, 0x8103, 0x8104, 0x8105, 0x8106,
        0x8107, 0x8108]
    let t := run [2, 0, 0x0028, 0, 0x0200, 0x0102, 0, 0, 3, 0, 3, 3, 0, 3, 0, 0] s
    row t 0 0 4 = [0x8001, 0x8003, 0x8005, 0x8007] ∧ row t 1 0 4 = row t 0 0 4 ∧
      row t 2 0 4 = [0x8101, 0x8103, 0x8105, 0x8107] ∧ row t 3 0 4 = row t 2 0 4 := by decide +kernel

/-- V8: a colour lookup table. -/
theorem test_dspr_lookup_table :
    let s := fill .vram1 (fill .vram1 ready 0x1000 [0x0123, 0x0000]) 0x3000 [0x8000, 0x8002, 0x8004, 0x8006]
    let t := run [0, 0, 0x0008, 0x0600, 0x0200, 0x0101, 0, 0, 0, 0, 0, 0, 0, 0, 0, 0] s
    row t 0 1 3 = [0x8002, 0x8004, 0x8006] ∧ t.fb0.cells.length = 6 := by decide +kernel

/-- V9: the outline of a square. -/
theorem test_plin :
    let ws : List Word := [5, 0, 0x00C0, 0x8005, 0, 0, 0, 0, 2, 0, 2, 2, 0, 2, 0, 0]
    let t := run ws ready
    row t 0 0 3 = [0x8005, 0x8005, 0x8005] ∧ row t 1 0 1 = [0x8005] ∧ row t 1 2 1 = [0x8005] ∧
      row t 2 0 3 = [0x8005, 0x8005, 0x8005] ∧ t.fb0.cells.length = 16 ∧ visits ws ready = some 12 := by
  decide +kernel

/-- P4: a line with gouraud shading (V11). -/
theorem test_line_gouraud :
    let s := fill .vram1 ready 0x2000 [0x8000, 0x801F, 0x83E0, 0xFC00]
    row (run [6, 0, 0x0004, 0xC210, 0, 0, 0, 0, 4, 0, 0, 0, 0, 0, 0x0400, 0] s) 0 0 5 =
      [0x8000, 0x8007, 0x800F, 0x8017, 0x801F] := by decide +kernel

/-- P2: a line inside the user clip area, with its local offset and its call. -/
theorem test_line_user_clip :
    let s :=
      { ready with
        ctx :=
          { ready.ctx with
            userX0 := some 101, userY0 := some 50, userX1 := some 102, userY1 := some 60, localX := some 100,
            localY := some 50 } }
    let t := run p2Line s
    row t 50 101 2 = [0x83E0, 0x83E0] ∧ t.fb0.cells.length = 4 ∧ t.proc.cmdAddr = 0x200 := by decide +kernel

/-- V4, V5: double interlace stores the odd lines at their halves; mesh keeps the even sums. -/
theorem test_poly_interlace_and_mesh :
    let die := run [4, 0, 0, 0x8002, 0, 0, 0, 0, 1, 0, 1, 3, 0, 3, 0, 0]
      { ready with regs1 := { resetRegs1 with fbcr := 0x000C } }
    let mesh := run [4, 0, 0x0100, 0x8003, 0, 0, 0, 0, 3, 0, 3, 1, 0, 1, 0, 0] ready
    row die 0 0 2 = [0x8002, 0x8002] ∧ row die 1 0 2 = [0x8002, 0x8002] ∧ die.fb0.cells.length = 8 ∧
      mesh.fb0.cells.map Prod.fst = [0, 1, 4, 5, 1026, 1027, 1030, 1031] := by decide +kernel

/-- P4: half transparency over a lit pixel, then shadow. -/
theorem test_poly_reads_destination :
    let s := fill (.fb .fb0) ready 0 [0x800F]
    row (run [4, 0, 0x0003, 0xFD40, 0, 0, 0, 0, 0, 0, 0, 0, 0, 0, 0, 0] s) 0 0 1 = [0xBCA7] ∧
      row (run [4, 0, 0x0001, 0x0000, 0, 0, 0, 0, 0, 0, 0, 0, 0, 0, 0, 0] s) 0 0 1 = [0x8007] := by decide +kernel

/-! ### Registers, erase, swap -/

/-- M4, M5, R22: byte writes of TVMR, and MODR with PTM = 2. -/
theorem test_registers :
    let s := State.reset.write16 .vdp1Regs 0 8
    s.regs1.tvmr = 8 ∧ (s.write8 .vdp1Regs 1 1).regs1.tvmr = 1 ∧ (s.write8 .vdp1Regs 0 0xFF).regs1.tvmr = 8 ∧
      State.reset.modr = 0x1000 ∧ (State.reset.write16 .vdp1Regs 4 2).modr = 0x1100 ∧
      (State.reset.write16 .vdp1Regs 2 3).seq.manualSwapReq = true := by decide

/-- M1, M2: byte order, alignment and wrap. -/
theorem test_memory :
    let s := State.reset.write16 .vdp1Vram 0x80100 0x1234
    s.memRead8 .vram1 0x100 = 0x12 ∧ s.memRead8 .vram1 0x101 = 0x34 ∧ s.memRead16 .vram1 0x101 = 0x1234 ∧
      (s.write8 .vdp1Vram 0x101 0xAB).memRead16 .vram1 0x100 = 0x12AB := by decide +kernel

/-- K7: the erase of sixteen cells. -/
theorem test_erase :
    let s := { State.reset with regs1 := { resetRegs1 with ewdr := 0x1234, ewlr := 0x0202, ewrr := 0x0403 } }
    let t := s.erase .fb1
    t.fb1.cells.map Prod.fst = ((List.range 16).map (· + 2 * (2 * 512 + 8))) ++ (List.range 16).map (· + 2 * (3 * 512 + 8)) ∧
      t.fb1.read16 0x40000 (2 * (2 * 512 + 8)) = 0x1234 ∧ t.fb0.cells = [] := by decide +kernel

/-- R132: the swap of its example. -/
theorem test_swap :
    let s :=
      { State.reset with
        regs1 := { resetRegs1 with edsr := 2, copr := 0x14, ptmr := 2 }
        seq := { resetSeq with drawFB := .fb1 } }
    let t := s.swap
    t.seq.drawFB = .fb0 ∧ t.regs1.edsr = 1 ∧ t.regs1.lopr = 0x14 ∧ t.regs1.copr = 0 ∧ t.proc.status = .busy ∧
      t.proc.cmdAddr = 0 ∧ t.trace = [.framebufferSwap] := by decide

/-- T3: a request for 352 by 224 is pending, and latched at the entry of `Active` with its notification. -/
theorem test_resolution :
    let s := State.reset.requestResolution { resetResolution with h := .h352 }
    let t := { s with tim := { s.tim with vPhase := .active } }.enterVActive
    s.tim.resDirty = true ∧ t.tim.resCur.h = .h352 ∧ t.trace = [.resolutionChanged 352 224] ∧
      t.tim.field = true := by decide

/-! ### Compositor -/

/-- W1: windows x 2..4 and x 6..7 over x = 0..9. -/
theorem test_windows :
    let w0 (x : Nat) := decide (2 ≤ x) && decide (x ≤ 4)
    let w1 (x : Nat) := decide (6 ≤ x) && decide (x ≤ 7)
    let use (e : Bool) (a : Area) : WindowUse := { enabled := e, area := a }
    let mask (l : Logic) (a1 : Area) : List Nat :=
      (List.range 10).filter fun x =>
        windowMask { w0 := use true .inside, w1 := use true a1, sw := use false .inside, logic := l } (w0 x) (w1 x) false
    mask .or .inside = [2, 3, 4, 6, 7] ∧ mask .and .inside = [] ∧ mask .and .outside = [2, 3, 4] := by decide

/-- W2: priorities 3, 7 (transparent), 5, 5, 0. -/
theorem test_ranking :
    let px (l : Layer) : LayerPx :=
      { color := { r := 0, g := 0, b := 0 }
        priority :=
          match l with
          | .sprite => 3
          | .bg .rbg0 => 7
          | .bg .nbg0 => 5
          | .bg .nbg1 => 5
          | _ => 0
        transparent := l == .bg .rbg0 || l == .bg .rbg1 || l == .bg .nbg3
        specialCC := false }
    let on : LayerTable Bool := { sprite := true, bg := { rbg0 := true, rbg1 := true, nbg0 := true, nbg1 := true, nbg2 := true, nbg3 := true } }
    ranked px (candidates on px fun _ => false) = [.bg .nbg0, .bg .nbg1, .sprite] ∧
      ranked px (candidates on px fun l => l == .bg .nbg0) = [.bg .nbg1, .sprite] := by decide

/-! ### Witnesses: states and operands that meet the hypotheses of each statement -/

/-- A state about to run an instruction of the opcode table. -/
def fetching (w : Nat) : State := State.reset.withFetchWord 16 w

theorem witness_DecodeOfEncode :
    (Instr.nspr { zeroEntry with texW := 504, texH := 255, linkAddr := 0x7FFE0, srcAddr := 0x7FFF8 }).wellFormed = true := by
  decide

theorem witness_EncodeOfDecode : (encodeRaw (.poly zeroEntry)).ctrl.getLsbD 15 = false := by decide

/-- One value of CMDCTRL for each row, in the order of the statement. -/
theorem witness_OpcodeRowsSelectInstructions :
    (0xFFFF#16 &&& 0x8000#16 = 0x8000#16) ∧ (0x7FFF#16 &&& 0xC000#16 = 0x4000#16) ∧
      ∀ c : BitVec 4, (0b0011111111110000#16 ||| c.zeroExtend 16) &&& 0xC00F#16 = c.zeroExtend 16 := by decide

theorem witness_StepRunsDecodedEntry :
    let s := fetching 0x8000
    s.proc.status = .busy ∧ 0 < s.proc.cyclePool ∧ overLimit s.proc.frameCycles = false ∧
      Instr.endList.wellFormed = true := by decide

theorem witness_StepRunsDecodedEntry_decode : decode (fetching 0x8000).fetchBytes = .ok (.endList, []) := by rfl

theorem witness_FetchReadsTheEntry : (fetching 0x8000).AddressesOk := ⟨by decide, fun a h => by cases h⟩

theorem witness_CutOffStopsTheList : (fetching 4).proc.status = .busy ∧ 0 < (fetching 4).proc.cyclePool := by decide

/-- The host's turn, with nothing to do and with a request to perform. -/
theorem witness_StepAlwaysAnswersNext :
    (State.reset.proc.status ≠ .busy ∨ State.reset.proc.cyclePool ≤ 0) ∧ State.reset.ctl = .hostTurn ∧
      State.reset.hostOps = [] ∧
      (stepped { State.reset with
        hostOps := [.requestResolution { resetResolution with h := .h352 }] }).tim.resDirty = true := by decide

/-- The last address of VRAM1, and a return address that is held. -/
theorem witness_JumpModesReachTheirTargets :
    (0x7FFE0 : Addr).toNat % 32 = 0 ∧ zeroEntry.jp = .next ∧ { zeroEntry with jp := .assign }.jp = .assign ∧
      { zeroEntry with jp := .call }.jp = .call ∧ { zeroEntry with jp := .ret }.jp = .ret := by decide

theorem witness_IllegalCodesFault :
    [Instr.illegal3 zeroEntry, .illegal7 zeroEntry, .illegalB zeroEntry, .illegalC zeroEntry, .illegalD zeroEntry,
        .illegalE zeroEntry, .illegalF zeroEntry].map (fun i => i.illegal.map Prod.fst) =
      [some 0x3, some 0x7, some 0xB, some 0xC, some 0xD, some 0xE, some 0xF] ∧
      ∀ k ∈ [0x3, 0x7, 0xB, 0xC, 0xD, 0xE, 0xF], (0x3FF0 + k) % 16 ∈ [0x3, 0x7, 0xB, 0xC, 0xD, 0xE, 0xF] ∧
        BitVec.ofNat 16 (0x3FF0 + k) &&& 0xC000#16 = 0 := by decide

theorem witness_CommandsTouchOnlyVdp1 :
    (∃ t, exec (.lcrd zeroEntry) State.reset = .next t) ∧ (Instr.lcrd zeroEntry) ≠ .endList ∧
      (Instr.lcrd zeroEntry).drawing = none := ⟨⟨_, rfl⟩, by decide, rfl⟩

/-- The six draw commands in the state of the base list. -/
theorem witness_DrawCommandsComplete :
    [Instr.nspr zeroEntry, .sspr zeroEntry, .dspr zeroEntry, .poly zeroEntry, .plin zeroEntry, .line zeroEntry].map
        Instr.drawing =
      [some (true, zeroEntry), some (true, zeroEntry), some (true, zeroEntry), some (false, zeroEntry),
        some (false, zeroEntry), some (false, zeroEntry)] ∧
      ready.canDraw true zeroEntry = true ∧ ready.canDraw false zeroEntry = true ∧
      geometry ready.tvm = some { width := 512, height := 256, bpp := 16 } := by decide

/-- A line of two pixels, which stores nothing at offset 4. -/
def shortLine : Entry := { zeroEntry with xb := 1, colr := 0x8001 }

theorem shortLine_ends :
    entryQuad (drawEnv ready shortLine { width := 512, height := 256, bpp := 16 }) =
      { a := ⟨0, 0⟩, b := ⟨1, 0⟩, c := ⟨0, 0⟩, d := ⟨0, 0⟩ } := by decide

theorem witness_DrawStoresOnlyPlottedPixels :
    let v := drawEnv ready shortLine { width := 512, height := 256, bpp := 16 }
    (∃ t, exec (.line shortLine) ready = .next t) ∧
      ∀ p, (Instr.line shortLine).Plots v p → v.plots p = true → v.storesAt p 4 = false := by
  refine ⟨⟨_, rfl⟩, fun p hp _ => ?_⟩
  simp only [Instr.Plots, shortLine_ends] at hp
  obtain ⟨j, hj, rfl⟩ := hp
  have h1 : steps ⟨0, 0⟩ ⟨1, 0⟩ = 1 := by decide
  rw [h1] at hj ⊢
  interval_cases j <;> decide

/-- Each of the four causes alone, at the boundary values 5 of TVM, 6 of CM and 5 of CC. -/
theorem witness_PrologueFaultsInOrder :
    State.reset.ctx.ready false = false ∧
      (ready.ctx.ready false = true ∧ 5 ≤ ({ ready with regs1 := { resetRegs1 with tvmr := 5 } }).tvm.toNat) ∧
      (ready.tvm.toNat ≤ 4 ∧ 6 ≤ (ColourMode.reserved6).toBits.toNat) ∧
      (ColourMode.direct.toBits.toNat ≤ 5 ∧ { zeroEntry.pmod with cc := .reserved5 }.cc = .reserved5) := by decide

/-- Ties on both sides of 0, and both directions of an interpolation, up to its last step. -/
theorem witness_RoundingAndInterpolationLaws :
    2 * (rdiv 1 2 * (2 : Nat) - 1).natAbs = 2 ∧ 2 * (rdiv (-3) 2 * (2 : Nat) - (-3)).natAbs = 2 ∧
      (0 : Int) ≤ 31 ∧ (2 : Nat) < 3 ∧ lerp 0 31 2 3 ≤ lerp 0 31 3 3 ∧ lerp 31 0 3 3 ≤ lerp 31 0 2 3 := by decide

/-- Both axes, a diagonal, and a step whose ideal coordinate is half-way (3 of a line of 5 by 6). -/
theorem witness_LineStepsAlongItsMajorAxis :
    4 < steps ⟨0, 0⟩ ⟨5, 2⟩ ∧ xMajor ⟨0, 0⟩ ⟨5, 2⟩ = true ∧ xMajor ⟨0, 0⟩ ⟨2, 5⟩ = false ∧
      xMajor ⟨0, 0⟩ ⟨-3, 3⟩ = true ∧ 3 ≤ steps ⟨0, 0⟩ ⟨6, -5⟩ ∧ linePoint ⟨0, 0⟩ ⟨6, -5⟩ 3 6 = ⟨3, -3⟩ := by decide

theorem witness_TextureStepperIsTheAccumulator : 0 < 12 ∧ 0 < 8 ∧ texCoord true 8 11 12 < 8 := by decide

/-- The environment of an entry in the state of the base list. -/
def envOf (e : Entry) : DrawEnv := drawEnv ready e { width := 512, height := 256, bpp := 16 }

/-- A texture width and a source address the encoding admits, in every colour mode. -/
theorem witness_TexelsArePackedByRows :
    ∀ cm ∈ [ColourMode.bank16, .lut16, .bank64, .bank128, .bank256, .direct],
      (envOf { zeroEntry with texW := 504, srcAddr := 0x7FFF8, pmod := { zeroEntry.pmod with cm := cm } }).e.texW % 8 = 0 ∧
        (0x7FFF8 : Addr).toNat % 2 = 0 := by decide

/-- The largest texel of each width. -/
theorem witness_TexelColoursAreBankOrTable : 15 < 16 ∧ 255 < 256 ∧ 0xFFFF < 0x10000 := by decide

/-- MSB-on, and each calculation with the destination's flag set and clear. -/
theorem witness_ColourCalculationByChannel :
    { zeroEntry.pmod with mon := true }.mon = true ∧ zeroEntry.pmod.mon = false ∧ (0x8000#16).getLsbD 15 = true ∧
      (0x7FFF#16).getLsbD 15 = false ∧
      ∀ cc : CalcMode, { zeroEntry.pmod with cc := cc }.cc = cc := ⟨rfl, rfl, rfl, rfl, fun _ => rfl⟩

/-- A pixel at each corner of the clip area passes; one beyond it does not. -/
theorem witness_PlotPixelStoresOneDatum :
    (envOf zeroEntry).plots ⟨0, 0⟩ = true ∧ (envOf zeroEntry).plots ⟨319, 223⟩ = true ∧
      (envOf zeroEntry).plots ⟨320, 0⟩ = false ∧ (envOf zeroEntry).geom.bpp = 16 ∧
      (drawEnv ready zeroEntry { width := 1024, height := 256, bpp := 8 }).plots ⟨0, 0⟩ = true := by decide

theorem witness_UntexturedPixelsTakeTheColour :
    ready.canDraw false shortLine = true ∧ shortLine.pmod.cc = .replace ∧ shortLine.pmod.mon = false ∧
      (Instr.line shortLine).Plots (envOf shortLine) ⟨1, 0⟩ ∧ (envOf shortLine).plots ⟨1, 0⟩ = true ∧
      ∃ t, exec (.line shortLine) ready = .next t := by
  refine ⟨by decide, rfl, rfl, ⟨1, ?_, ?_⟩, by decide, ⟨_, rfl⟩⟩ <;> decide +kernel

/-- An 8 by 2 sprite whose last pixel is the corner of the clip area. -/
def cornerSprite : Entry :=
  { zeroEntry with
    texW := 8, texH := 2, xa := 312, ya := 222, pmod := { zeroEntry.pmod with ecd := true, spd := true } }

theorem witness_NormalSpriteShowsItsTexture :
    let v := envOf cornerSprite
    let a := vertex v.localX v.localY cornerSprite.xa cornerSprite.ya
    ready.canDraw true cornerSprite = true ∧ ready.die = false ∧ 0 ≤ a.x ∧
      a.x + cornerSprite.texW - 1 ≤ min v.sysH 511 ∧ 0 ≤ a.y ∧ a.y + cornerSprite.texH - 1 ≤ min v.sysV 255 ∧
      ∀ tvm ∈ [0, 2, 4], geometry tvm = some { width := 512, height := 256, bpp := 16 } := by
  decide

/-- A point just beyond each side of the clip area, as a polygon of one pixel. -/
theorem witness_ClippedPrimitivesDrawNothing_beyond :
    ∀ w ∈ [((0xFFFF : Word), (0 : Word)), (320, 0), (0, 0xFFFF), (0, 224)],
      ((Instr.poly zeroEntry).quad (envOf { zeroEntry with
        xa := w.1, ya := w.2, xb := w.1, yb := w.2, xc := w.1, yc := w.2, xd := w.1, yd := w.2 })).beyond
        (envOf zeroEntry) := by
  intro w hw
  simp only [List.mem_cons, List.not_mem_nil, or_false] at hw
  rcases hw with rfl | rfl | rfl | rfl <;> unfold Quad.beyond <;> decide

/-- A polygon that visits (-1, 0) and (0, -1), and whose AA pixel is (0, 0). -/
def unseen : Entry := { zeroEntry with colr := 0x8001, xa := 0xFFFF, yb := 0xFFFF, yc := 0xFFFF, xd := 0xFFFF }

theorem witness_ClippedPrimitivesDrawNothing :
    ready.canDraw false unseen = true ∧
      (∀ r, (Instr.poly unseen).Visits (envOf unseen) (ready.mem ready.drawSpace) r →
        (envOf unseen).inSysClip r = false) ∧
      ∀ r, (Instr.poly unseen).PlotsAa (envOf unseen) (ready.mem ready.drawSpace) r →
        (envOf unseen).storesAt r 4 = false := by
  let v := envOf unseen
  let fb := ready.mem ready.drawSpace
  have h1 : ∀ l ∈ (Instr.poly unseen).lines v, ∀ j < (drawLine v l fb).result.visited,
      v.inSysClip (linePoint l.p l.q j (steps l.p l.q)) = false := by decide +kernel
  have h2 : ∀ l ∈ (Instr.poly unseen).lines v, ∀ j < (drawLine v l fb).result.visited,
      v.storesAt (aaPoint (linePoint l.p l.q j (steps l.p l.q)) (linePoint l.p l.q (j + 1) (steps l.p l.q))
        (xMajor l.p l.q)) 4 = false := by decide +kernel
  refine ⟨by decide, ?_, ?_⟩
  · rintro r ⟨l, hl, j, hj, rfl⟩
    exact h1 l hl j hj
  · rintro r ⟨l, hl, -, j, hj, -, -, rfl⟩
    exact h2 l hl j (Nat.lt_of_succ_lt hj)

/-- The AA pixel of that polygon is one of the pixels the statement speaks of (log 20). -/
theorem witness_UntexturedPixelsTakeTheColour_clipped :
    (Instr.poly unseen).Plots (envOf unseen) ⟨0, 0⟩ ∧ (envOf unseen).plots ⟨0, 0⟩ = true ∧
      unseen.pmod.cc = .replace ∧ unseen.pmod.mon = false := by
  refine ⟨⟨0, Nat.zero_le _, .inr ⟨0, ?_, ?_⟩⟩, by decide, rfl, rfl⟩ <;> decide +kernel

/-- R96, R98: that polygon plots its AA pixel (0, 0), and is not visible (hand calculation); so does the one at the
corner of a clip area of one pixel. -/
theorem test_poly_unseen :
    let t := after (.poly unseen) ready
    let one : State := { ready with ctx := { ready.ctx with sysClipH := some 0, sysClipV := some 0 } }
    let diamond : Entry := { zeroEntry with colr := 0x8001, ya := 0xFFFD, xb := 3, yc := 3, xd := 0xFFFD }
    let u := after (.poly diamond) one
    t.memRead16 t.drawSpace 0 = 0x8001 ∧ t.fb0.cells.length = 2 ∧ t.proc.lastVisible = false ∧
      u.memRead16 u.drawSpace 0 = 0x8001 ∧ u.fb0.cells.length = 2 ∧ u.proc.lastVisible = false := by decide +kernel

/-- A textured line in each colour mode that does not fault. -/
theorem witness_LinesEndAtTheirSecondEndCode :
    ({ plainLine ⟨0, 0⟩ ⟨7, 0⟩ noShade noShade with tex := some 0 } : LineSpec).tex = some 0 ∧
      ∀ cm ∈ [ColourMode.bank16, .lut16, .bank64, .bank128, .bank256, .direct],
        (envOf { zeroEntry with pmod := { zeroEntry.pmod with cm := cm } }).e.pmod.cm.toBits.toNat ≤ 5 := by decide

/-- A faulted processor whose next host operation is an ENDR write. -/
def faultedState : State :=
  { State.reset with
    proc := { resetProc with status := .fault (.illegalCommand 0 3) }, hostOps := [.write16 .vdp1Regs 0x0C 0] }

theorem witness_FaultIsLeftOnlyByRestartOrStop :
    faultedState.faulted = true ∧ (∃ t, step faultedState = .next t) ∧ (stepped faultedState).proc.status = .idle :=
  ⟨rfl, ⟨_, rfl⟩, by decide⟩

theorem witness_DisplayFramebufferIsStable : ∃ t, step (fetching 0x8000) = .next t := ⟨_, rfl⟩

/-- The host operation stores its request (R177, hand calculation). -/
theorem test_request_resolution :
    let t := State.reset.requestResolution { resetResolution with h := .h352 }
    t.tim.resReq.h = .h352 ∧ t.tim.resDirty = true ∧ t.tim.resCur.h = .h320 ∧
      (t.requestResolution resetResolution).tim.resDirty = false := by decide

/-- A geometry, a reserved one, and cells at the corners of an erase area and beside them. -/
theorem witness_EraseFillsItsRectangle :
    geometry State.reset.tvm = some { width := 512, height := 256, bpp := 16 } ∧
      geometry ({ State.reset with regs1 := { resetRegs1 with tvmr := 7 } }).tvm = none ∧
      (0x0202#16).toNat % 0x200 ≤ 2 ∧ 3 ≤ (0x0403#16).toNat % 0x200 ∧ (0x0202#16).toNat / 0x200 % 0x40 * 8 ≤ 8 ∧
      15 < (0x0403#16).toNat / 0x200 * 8 ∧ ¬16 < (0x0403#16).toNat / 0x200 * 8 := by decide

theorem witness_SwapResult :
    (0x0003#16).toNat % 4 ≠ 2 ∧ (0x0002#16).toNat % 4 = 2 := by decide

/-- Automatic mode, and manual mode with each pair of requests. -/
theorem witness_FrameBoundaryErasesThenSwaps :
    State.reset.fcm = false ∧ ({ State.reset with regs1 := { resetRegs1 with fbcr := 2 } }).fcm = true ∧
      ∀ e w : Bool, { resetSeq with manualEraseReq := e, manualSwapReq := w }.manualEraseReq = e := by decide

/-- Each register by an even and an odd offset, and by one that wraps; the first and the last offset that is ignored. -/
theorem witness_RegisterWriteActions :
    [0x00, 0x01, 0x02, 0x04, 0x25, 0x06, 0x08, 0x0B, 0x0D, 0x0E, 0x1F].map (fun off => off % 0x20 / 2 * 2) =
        [0x00, 0x00, 0x02, 0x04, 0x04, 0x06, 0x08, 0x0A, 0x0C, 0x0E, 0x1E] ∧
      (0xFFFD#16).toNat % 4 = 1 ∧ (2#16).toNat % 4 ≠ 1 := by decide

/-- The first and the last offset of each range, and one that wraps. -/
theorem witness_UnspecifiedReadsChangeNothing :
    0x00 % 0x20 / 2 * 2 < 0x0E ∧ 0x0D % 0x20 / 2 * 2 < 0x0E ∧ 0x0F % 0x20 / 2 * 2 = 0x0E ∧
      0x18 ≤ 0x18 % 0x20 / 2 * 2 ∧ 0x18 ≤ 0x3F % 0x20 / 2 * 2 ∧ 0x120 ≤ 0x120 % 0x200 ∧ 0x120 ≤ 0x1FF % 0x200 := by
  decide

/-- The four memory regions; the last offset of the VDP2 bank and the first beyond it. -/
theorem witness_HostWritesReadBack :
    [Region.vdp1Vram, .vdp1Framebuffer, .vdp2Vram, .vdp2Cram].map State.reset.regionSpace =
        [some .vram1, some (.fb .fb0), some .vram2, some .cram] ∧
      0x11F % 0x200 < 0x120 ∧ 0x120 ≤ 0x120 % 0x200 ∧ 0x200 % 0x200 < 0x120 := by decide

/-- The first and the last offset with a register, and a region that is not VDP1's registers. -/
theorem witness_PokesHaveNoSideEffects :
    0x00 % 0x20 / 2 * 2 ≤ 0x16 ∧ 0x17 % 0x20 / 2 * 2 ≤ 0x16 ∧ 0x10 % 0x20 / 2 * 2 ≠ 0x0E ∧
      Region.vdp2Cram ≠ .vdp1Regs := by decide

theorem witness_WritePenaltyOnlyWhileBusy :
    (fetching 0x8000).proc.status = .busy ∧ State.reset.proc.status ≠ .busy := by decide

/-- A state of `Advance` with no command step enabled. -/
def timed (c : Control) : State := { State.reset with ctl := c }

theorem witness_AdvanceServesOneChunk :
    (timed (.advance 0)).vdp1Enabled = false ∧ (timed (.advance 1)).vdp1Enabled = false ∧
      (timed (.serve 1 1)).vdp1Enabled = false := by decide

theorem witness_HorizontalPhaseEntries (p : HPhase) :
    let s : State := { timed (.enterH 0) with tim := { resetTim with hPhase := p } }
    s.vdp1Enabled = false ∧ s.ctl = .enterH 0 ∧ s.tim.hPhase = p := by
  cases p <;> decide

theorem witness_VerticalPhaseEntries (p : VPhase) :
    let s : State := { timed (.enterV 7) with tim := { resetTim with vPhase := p } }
    s.vdp1Enabled = false ∧ s.ctl = .enterV 7 ∧ s.tim.vPhase = p := by
  cases p <;> decide

theorem witness_ResolutionLatchesAtFrameStart : ∃ t, step (timed (.enterV 0)) = .next t := ⟨_, rfl⟩

theorem witness_PhaseEntriesDoNotStall : (timed (.enterH 5)).vdp1Enabled = false := by decide

theorem witness_WindowMaskCombines :
    ({ (default : WindowSet) with logic := .or }).logic = .or ∧ ({ (default : WindowSet) with logic := .and }).logic = .and := by
  decide

/-- W3, the layer-enable table: NBG0 RGB555 with NBG1 of 2048 colours; RGB888; both rotation backgrounds. -/
theorem test_layer_enable :
    let all : BgTable Bool := { rbg0 := true, rbg1 := false, nbg0 := true, nbg1 := true, nbg2 := true, nbg3 := true }
    let cfg (r1 : Bool) (f0 f1 : ColourFormat) : Vdp2Config :=
      { (default : Vdp2Config) with
        enableReq := { all with rbg1 := r1 }
        format := { (default : BgTable ColourFormat) with nbg0 := f0, nbg1 := f1 } }
    (layerEnableOf (cfg false .rgb555 .pal2048)).bg = { all with nbg2 := false, nbg3 := false } ∧
      (layerEnableOf (cfg false .rgb888 .pal16)).bg = { all with nbg1 := false, nbg2 := false, nbg3 := false } ∧
      (layerEnableOf (cfg false .pal256 .pal16)).bg = all :=
  ⟨rfl, rfl, rfl⟩

/-- A layer of each addressing mode, and the last dot of the last cell of a character. -/
theorem witness_Vdp2FetchesDotsAndColours :
    let bg (p : Plane) : BgParams := { (default : BgParams) with plane := p }
    (bg (.cell .twoWord .two)).plane = .cell .twoWord .two ∧ (bg .bitmap).plane = .bitmap ∧ 7 < 8 ∧ 1 < 2 ∧
      ({ perLine := false, addr := 0x7FFFE } : ColourSource).perLine = false := ⟨rfl, rfl, by decide, by decide, rfl⟩

/-- A dot at (-1, 9) of 1 by 1-cell characters is dot (7, 1) of its cell; of 2 by 2-cell characters it is in cell (1, 1)
(hand calculation). -/
theorem test_character_position :
    charPos .one (-1, 9) = { cellX := 0, cellY := 0, dotX := 7, dotY := 1 } ∧
      charPos .two (-1, 9) = { cellX := 1, cellY := 1, dotX := 7, dotY := 1 } := by decide

/-- One layer shows, two show with the same priority, and none does. -/
theorem witness_HighestPriorityLayerWins :
    let px (p : BitVec 3) : LayerPx := { (default : LayerPx) with priority := p, transparent := false }
    let on : LayerTable Bool := { (default : LayerTable Bool) with sprite := true }
    let two : LayerTable Bool := { on with bg := { on.bg with rbg0 := true } }
    (on.get .sprite = true ∧ (px 1).transparent = false ∧ 1 ≤ (px 1).priority.toNat) ∧
      (two.get (.bg .rbg0) = true ∧ layerOrder.idxOf .sprite < layerOrder.idxOf (.bg .rbg0)) ∧
      ¬1 ≤ (px 0).priority.toNat := by
  decide

/-- Two states that differ in the processor, the draw framebuffer, and colour RAM as data, but not in its bytes. -/
theorem witness_ScanlinesAreDetermined :
    let s := fetching 0x8000
    let t : State :=
      { State.reset with
        fb0 := { fill := 0, cells := [(0, 1)] }
        vram1 := s.vram1
        cram := { s.cram with cells := [(0x1000, 1)] } }
    s.DerivedOk ∧ t.DerivedOk ∧ s.regs2 = t.regs2 ∧ (∀ a < 0x80000, s.vram2.byte a = t.vram2.byte a) ∧
      (∀ a < 0x1000, s.cram.byte a = t.cram.byte a) ∧
      (∀ a < 0x40000, (s.mem s.displaySpace).byte a = (t.mem t.displaySpace).byte a) ∧
      s.regs1.tvmr = t.regs1.tvmr ∧ s.tim.resCur = t.tim.resCur ∧ s.tim.field = t.tim.field := by
  refine ⟨⟨rfl, rfl⟩, ⟨rfl, rfl⟩, rfl, fun _ _ => rfl, fun a ha => ?_, fun _ _ => rfl, rfl, rfl, rfl⟩
  have h : a ≠ 0x1000 := by omega
  have hc : (fetching 0x8000).cram.cells = [] := rfl
  simp [Memory.byte, cellAt, h, hc]

theorem witness_StepKeepsMemories : (fetching 0x8000).MemoriesOk := by
  refine ⟨fun sp => ?_, fun sp => ?_⟩ <;> rcases sp with _ | (_ | _) | _ | _ <;> decide +kernel

theorem witness_StepKeepsRegisterShapes :
    (fetching 0x8000).RegistersOk ∧ (fetching 0x8000).AddressesOk ∧ (fetching 0x8000).ContextOk ∧ ready.ContextOk :=
  ⟨⟨by decide, by decide, by decide, by decide, by decide⟩, ⟨by decide, fun a h => by cases h⟩,
    ⟨rfl, rfl, rfl, rfl, rfl⟩, ⟨rfl, rfl, rfl, rfl, rfl⟩⟩

theorem witness_StepKeepsTiming : (fetching 0x8000).BlankingOk ∧ (fetching 0x8000).ChunkOk :=
  ⟨⟨by decide, by decide⟩, ⟨Nat.zero_le _, fun c r h => (by cases h), fun r h => (by cases h)⟩⟩

/-- A picture with its last line drawn, in a state about to enter a horizontal phase. -/
theorem witness_StepKeepsCompositorState :
    let s : State :=
      { timed (.enterH 1) with cmp := { resetCmp 5 with out := [(223, List.replicate 320 { r := 1, g := 2, b := 3 })] } }
    s.DerivedOk ∧ s.LinesOk ∧ s.PictureOk ∧ ∃ t, step s = .next t :=
  ⟨⟨rfl, rfl⟩, fun _ => by decide, ⟨List.pairwise_singleton _ _, fun l hl => by
    obtain rfl := List.mem_singleton.1 hl
    exact ⟨by decide, List.length_replicate⟩⟩, ⟨_, rfl⟩⟩

/-- A latched resolution of 352 by 224 leaves no line of the old width in the picture (R156, hand calculation). -/
theorem test_picture_is_fitted :
    let row (n : Nat) : List Rgb888 := List.replicate n { r := 1, g := 2, b := 3 }
    (fitPicture { resetResolution with h := .h352 } [(0, row 320), (1, row 352), (224, row 352)]).map Prod.fst = [1] := by
  decide +kernel

end Sys2Proof.Tests
end

section
/-! PROOF. Every step answers a next state, and every step keeps the memories (`00_scope.md` R2, R5). -/

namespace Sys2Proof.Machine

/-! ### The next state of a step (R2, R66, R185) -/

theorem vdp1Enabled_eq_false {s : State} (h : s.proc.status ≠ .busy ∨ s.proc.cyclePool ≤ 0) :
    s.vdp1Enabled = false := by
  rcases h with h | h <;> simp [State.vdp1Enabled, h]

theorem step_of_not_enabled {s : State} (h : s.vdp1Enabled = false) : step s = .next s.agentStep := by
  simp [step, h]

/-- No step faults and none is refused: a fetch always decodes, and every command answers a next state (R185). -/
theorem step_next (s : State) : ∃ t, step s = .next t := by
  cases he : s.vdp1Enabled with
  | false => exact ⟨_, step_of_not_enabled he⟩
  | true =>
    have hstep : step s = vdp1Step s := by simp [step, he]
    rw [hstep]
    rcases vdp1Step_cases s with ⟨-, h⟩ | ⟨-, h⟩
    · exact ⟨_, h⟩
    · rw [h]; exact exec_next _ _

theorem agentStep_of_no_hostOps {s : State} (hc : s.ctl = .hostTurn) (ho : s.hostOps = []) : s.agentStep = s := by
  simp only [State.agentStep, hc, State.hostStep, ho]

theorem agentStep_of_hostOp {s : State} {op : HostOp} {rest : List HostOp} (hc : s.ctl = .hostTurn)
    (ho : s.hostOps = op :: rest) : s.agentStep = { s with hostOps := rest }.hostOp op := by
  simp only [State.agentStep, hc, State.hostStep, ho]

/-- Settles O9: a step is total by `step_next`, and at the host's turn it is `hostOp` of the first operation. -/
theorem stepAlwaysAnswersNext : Obligations.StepAlwaysAnswersNext := by
  intro s
  refine ⟨step_next s, fun hidle => ?_⟩
  have hstep := step_of_not_enabled (vdp1Enabled_eq_false hidle)
  refine ⟨hstep, fun hc => ⟨fun ho => ?_, fun op rest ho => ?_⟩⟩
  · rw [hstep, agentStep_of_no_hostOps hc ho]
  · rw [hstep, agentStep_of_hostOp hc ho]
    cases op <;> rfl

/-! ### Updates that leave the memories alone

`State.mem` is the five memories as a function, so two states have the same memories when their `mem` is equal. -/

theorem State.withTim_mem (s : State) (t : Tim) : ({ s with tim := t } : State).mem = s.mem := rfl

@[simp] theorem State.latchResolution_mem (s : State) : s.latchResolution.mem = s.mem := by
  rcases latchResolution_cases s with ⟨-, h⟩ | ⟨-, h⟩ <;> rw [h]
  rfl

@[simp] theorem State.abandonList_mem (s : State) : s.abandonList.mem = s.mem := by
  rcases abandonList_cases s with ⟨-, h⟩ | ⟨-, h⟩ <;> simp [h]

@[simp] theorem State.swap_mem (s : State) : s.swap.mem = s.mem := by
  rcases swap_cases s with ⟨-, h⟩ | ⟨-, h⟩ <;> simp [h]

@[simp] theorem State.grant_mem (s : State) (chunk : Nat) : (s.grant chunk).mem = s.mem := by
  unfold State.grant
  split <;> rfl

@[simp] theorem State.beginChunk_mem (s : State) (remaining : Nat) : (s.beginChunk remaining).mem = s.mem := by
  unfold State.beginChunk
  split <;> simp

@[simp] theorem State.endChunk_mem (s : State) (chunk remaining : Nat) :
    (s.endChunk chunk remaining).mem = s.mem := rfl

@[simp] theorem State.leaveHEntry_mem (s : State) (remaining : Nat) : (s.leaveHEntry remaining).mem = s.mem := rfl

@[simp] theorem State.enterHActive_mem (s : State) : s.enterHActive.mem = s.mem := by
  simp only [State.enterHActive]
  split <;> simp

@[simp] theorem State.enterRightBorder_mem (s : State) : s.enterRightBorder.mem = s.mem :=
  State.changeHblank_mem s true

@[simp] theorem State.enterHSync_mem (s : State) (remaining : Nat) : (s.enterHSync remaining).mem = s.mem := by
  simp only [State.enterHSync]
  split <;> simp

/-- A horizontal phase entry draws a scanline or counts a line; it writes no memory (R160, R170 to R172). -/
@[simp] theorem State.enterHStep_mem (s : State) (remaining : Nat) : (s.enterHStep remaining).mem = s.mem := by
  simp only [State.enterHStep]
  split <;> simp [State.withTim_mem]

@[simp] theorem State.storeReg1_mem (s : State) (r : Reg1) (v : Word) : (s.storeReg1 r v).mem = s.mem := by
  cases r <;> rfl

@[simp] theorem State.requestChange_mem (s : State) (v : Word) : (s.requestChange v).mem = s.mem := by
  unfold State.requestChange
  split
  · split <;> rfl
  · rfl

@[simp] theorem State.plotTrigger_mem (s : State) (v : Word) : (s.plotTrigger v).mem = s.mem := by
  unfold State.plotTrigger
  split <;> simp

@[simp] theorem State.forceEnd_mem (s : State) : s.forceEnd.mem = s.mem := by
  unfold State.forceEnd
  split <;> simp

@[simp] theorem State.writeReg1_mem (s : State) (r : Reg1) (v : Word) : (s.writeReg1 r v).mem = s.mem := by
  cases r <;> simp [State.writeReg1]

@[simp] theorem State.writeRegs2Byte_mem (s : State) (off : Nat) (b : Byte) :
    (s.writeRegs2Byte off b).mem = s.mem := by
  unfold State.writeRegs2Byte
  split <;> rfl

@[simp] theorem State.writeRegs2Word_mem (s : State) (off : Nat) (w : Word) :
    (s.writeRegs2Word off w).mem = s.mem := by
  unfold State.writeRegs2Word
  split <;> rfl

@[simp] theorem State.writePenalty_mem (s : State) (r : Region) : (s.writePenalty r).mem = s.mem := by
  unfold State.writePenalty
  split <;> rfl

@[simp] theorem State.answer8_mem (s : State) (peek : Bool) (r : Region) (off : Nat) :
    (s.answer8 peek r off).mem = s.mem := by
  unfold State.answer8
  split <;> simp

@[simp] theorem State.answer16_mem (s : State) (peek : Bool) (r : Region) (off : Nat) :
    (s.answer16 peek r off).mem = s.mem := by
  unfold State.answer16
  split <;> simp

/-! ### Pokes, by the memory behind the region (R32, R47) -/

theorem poke8_of_memory {s : State} {r : Region} {sp : Space} (h : s.regionSpace r = some sp) (off : Nat) (b : Byte) :
    s.poke8 r off b = s.memWrite8 sp off b := by
  simp only [State.poke8, h]

theorem poke16_of_memory {s : State} {r : Region} {sp : Space} (h : s.regionSpace r = some sp) (off : Nat) (w : Word) :
    s.poke16 r off w = s.memWrite16 sp off w := by
  simp only [State.poke16, h]

theorem poke8_mem_of_register {s : State} {r : Region} (h : s.regionSpace r = none) (off : Nat) (b : Byte) :
    (s.poke8 r off b).mem = s.mem := by
  cases r <;> cases h
  case vdp1Regs =>
    simp only [State.poke8, State.regionSpace]
    split <;> simp
  case vdp2Regs => simp [State.poke8, State.regionSpace]

theorem poke16_mem_of_register {s : State} {r : Region} (h : s.regionSpace r = none) (off : Nat) (w : Word) :
    (s.poke16 r off w).mem = s.mem := by
  cases r <;> cases h
  case vdp1Regs =>
    simp only [State.poke16, State.regionSpace]
    split <;> simp
  case vdp2Regs => simp [State.poke16, State.regionSpace]

/-! ### What keeps the memories canonical (R5, R33) -/

/-- `MemoriesOk` speaks of the memories alone. -/
theorem State.MemoriesOk.of_mem_eq {s t : State} (h : s.MemoriesOk) (he : t.mem = s.mem) : t.MemoriesOk :=
  ⟨fun sp => he ▸ h.wf sp, fun sp => he ▸ h.within sp⟩

theorem State.MemoriesOk.good {s : State} (h : s.MemoriesOk) (sp : Space) : (s.mem sp).Good sp.size :=
  s.memoriesOk_iff.1 h sp

theorem State.MemoriesOk.setMem {s : State} (h : s.MemoriesOk) {sp : Space} {m : Memory} (hm : m.Good sp.size) :
    (s.setMem sp m).MemoriesOk := by
  rw [State.memoriesOk_iff]
  intro sp'
  by_cases heq : sp' = sp
  · subst heq; rwa [State.mem_setMem_same]
  · rw [State.mem_setMem_ne s m heq]; exact h.good sp'

theorem State.MemoriesOk.memWrite8 {s : State} (h : s.MemoriesOk) (sp : Space) (a : Nat) (b : Byte) :
    (s.memWrite8 sp a b).MemoriesOk :=
  h.setMem (Memory.good_write8 a b sp.size_pos (h.good sp))

theorem State.MemoriesOk.memWrite16 {s : State} (h : s.MemoriesOk) (sp : Space) (a : Nat) (w : Word) :
    (s.memWrite16 sp a w).MemoriesOk :=
  h.setMem (Memory.good_write16 a w sp.size_pos sp.size_even (h.good sp))

/-! #### Commands -/

/-- A draw command stores its drawing, which is canonical, in the draw framebuffer (R103, R118). -/
theorem State.MemoriesOk.exec_drawing {s t : State} (h : s.MemoriesOk) {i : Instr} {tx : Bool} {e : Entry}
    (hd : i.drawing = some (tx, e)) (ht : exec i s = .next t) : t.MemoriesOk := by
  rw [Machine.exec_drawing hd] at ht
  obtain rfl : runDraw tx i e i.draw s = t := by injection ht
  rcases runDraw_cases tx i e i.draw s with ⟨f, -, hr⟩ | ⟨v, -, hr⟩
  · exact h.of_mem_eq (by simp [hr])
  · have hfb : (i.draw v (s.mem s.drawSpace)).fb.Good s.drawSpace.size := draw_good i v _ (h.good s.drawSpace)
    exact (h.setMem hfb).of_mem_eq (by simp [hr])

/-- A command that draws nothing writes no memory (R69 to R72, R76 to R78). -/
theorem exec_mem_of_not_drawing {s t : State} {i : Instr} (hd : i.drawing = none) (ht : exec i s = .next t) :
    t.mem = s.mem := by
  cases i <;> cases hd <;> cases ht <;> rfl

theorem State.MemoriesOk.exec {s t : State} (h : s.MemoriesOk) {i : Instr} (ht : exec i s = .next t) :
    t.MemoriesOk := by
  cases hd : i.drawing with
  | none => exact h.of_mem_eq (exec_mem_of_not_drawing hd ht)
  | some d => exact h.exec_drawing hd ht

/-! #### Framebuffer control and vertical phase entries -/

theorem State.MemoriesOk.erase {s : State} (h : s.MemoriesOk) (f : FbId) : (s.erase f).MemoriesOk := by
  rcases erase_cases s f with he | ⟨g, -, he⟩ <;> rw [he]
  · exact h
  · exact h.setMem (eraseLines_good _ _ _ _ _ _ _ (h.good (.fb f)))

theorem State.MemoriesOk.vblankErase {s : State} (h : s.MemoriesOk) : s.vblankErase.MemoriesOk := by
  rcases vblankErase_cases s with he | he <;> rw [he]
  · exact h
  · exact h.erase _

theorem State.MemoriesOk.boundaryErase {s : State} (h : s.MemoriesOk) : s.boundaryErase.MemoriesOk := by
  rcases boundaryErase_cases s with he | he <;> rw [he]
  · exact h
  · refine State.MemoriesOk.erase ?_ _
    exact h.of_mem_eq rfl

theorem State.MemoriesOk.frameBoundary {s : State} (h : s.MemoriesOk) : s.frameBoundary.MemoriesOk := by
  rcases frameBoundary_cases s with he | he <;> rw [he]
  · exact h.boundaryErase
  · exact h.boundaryErase.of_mem_eq (by simp)

/-- Of the vertical phase entries, only those with an erase write a memory (R130, R133). -/
theorem State.MemoriesOk.vEntryAction {s : State} (h : s.MemoriesOk) : s.vEntryAction.MemoriesOk := by
  cases hv : s.tim.vPhase <;> simp only [State.vEntryAction, hv]
  case active => exact h.of_mem_eq (by simp [State.enterVActive, State.withTim_mem])
  case bottomBorder =>
    have hblank : (((s.changeVblank true).emit .vBlankEntry).emit .statusReadHint).MemoriesOk :=
      h.of_mem_eq (by simp)
    exact hblank.vblankErase.of_mem_eq (by simp [State.enterBottomBorder])
  case blankingAndSync => exact h
  case vCounterSkip => exact h.of_mem_eq (by simp)
  case topBorder => exact h
  case lastLine =>
    have hblank : ((s.changeVblank false).emit .statusReadHint).MemoriesOk := h.of_mem_eq (by simp)
    exact hblank.frameBoundary

theorem State.MemoriesOk.enterVStep {s : State} (h : s.MemoriesOk) (remaining : Nat) :
    (s.enterVStep remaining).MemoriesOk := by
  have hs : ({ s with tim := { s.tim with vPhase := s.tim.vPhase.succ, vLine := 0 } } : State).MemoriesOk :=
    h.of_mem_eq rfl
  refine hs.vEntryAction.of_mem_eq ?_
  simp only [State.enterVStep]
  split <;> simp

/-! #### Host operations -/

theorem State.MemoriesOk.poke8 {s : State} (h : s.MemoriesOk) (r : Region) (off : Nat) (b : Byte) :
    (s.poke8 r off b).MemoriesOk := by
  cases hr : s.regionSpace r with
  | none => exact h.of_mem_eq (poke8_mem_of_register hr off b)
  | some sp => rw [poke8_of_memory hr]; exact h.memWrite8 sp off b

theorem State.MemoriesOk.poke16 {s : State} (h : s.MemoriesOk) (r : Region) (off : Nat) (w : Word) :
    (s.poke16 r off w).MemoriesOk := by
  cases hr : s.regionSpace r with
  | none => exact h.of_mem_eq (poke16_mem_of_register hr off w)
  | some sp => rw [poke16_of_memory hr]; exact h.memWrite16 sp off w

theorem State.MemoriesOk.write8 {s : State} (h : s.MemoriesOk) (r : Region) (off : Nat) (b : Byte) :
    (s.write8 r off b).MemoriesOk := by
  unfold State.write8
  split
  · split
    · exact h.of_mem_eq (by simp)
    · exact h
  · exact (h.poke8 r off b).of_mem_eq (by simp)

theorem State.MemoriesOk.write16 {s : State} (h : s.MemoriesOk) (r : Region) (off : Nat) (w : Word) :
    (s.write16 r off w).MemoriesOk := by
  unfold State.write16
  split
  · split
    · exact h.of_mem_eq (by simp)
    · exact h
  · exact (h.poke16 r off w).of_mem_eq (by simp)

/-- A hard reset empties the memories; a soft one leaves them as they are (R205, R206). -/
theorem State.MemoriesOk.hostReset {s : State} (h : s.MemoriesOk) (hard : Bool) : (s.hostReset hard).MemoriesOk := by
  cases hard
  · exact h.of_mem_eq rfl
  · rw [State.memoriesOk_iff]
    rintro (_ | (_ | _) | _ | _) <;> exact Memory.good_empty _ _

theorem State.MemoriesOk.hostOp {s : State} (h : s.MemoriesOk) (op : HostOp) : (s.hostOp op).MemoriesOk := by
  cases op with
  | read8 r off => exact h.of_mem_eq (s.answer8_mem false r off)
  | read16 r off => exact h.of_mem_eq (s.answer16_mem false r off)
  | write8 r off v => exact h.write8 r off v
  | write16 r off v => exact h.write16 r off v
  | peek8 r off => exact h.of_mem_eq (s.answer8_mem true r off)
  | peek16 r off => exact h.of_mem_eq (s.answer16_mem true r off)
  | poke8 r off v => exact h.poke8 r off v
  | poke16 r off v => exact h.poke16 r off v
  | advance n => exact h.of_mem_eq (s.setCtl_mem _)
  | requestResolution res => exact h.of_mem_eq (s.requestResolution_mem res)
  | reset hard => exact h.hostReset hard

/-! #### Steps -/

theorem State.MemoriesOk.agentStep {s : State} (h : s.MemoriesOk) : s.agentStep.MemoriesOk := by
  rcases agentStep_cases s with ⟨-, -, he⟩ | ⟨op, rest, -, -, he⟩ | ⟨r, -, he⟩ | ⟨c, r, -, he⟩ |
    ⟨r, -, he⟩ | ⟨r, -, he⟩ <;> rw [he]
  · exact h
  · refine State.MemoriesOk.hostOp ?_ op
    exact h.of_mem_eq rfl
  · exact h.of_mem_eq (s.beginChunk_mem r)
  · exact h.of_mem_eq (s.endChunk_mem c r)
  · exact h.of_mem_eq (s.enterHStep_mem r)
  · exact h.enterVStep r

/-- Settles O56, by what a step can be: the cut-off, a command, or an agent's step. -/
theorem stepKeepsMemories : Obligations.StepKeepsMemories := by
  intro s t h hstep
  rcases step_cases hstep with ⟨-, -, rfl⟩ | ⟨-, -, hexec⟩ | ⟨-, rfl⟩
  · exact h.of_mem_eq (by simp)
  · exact State.MemoriesOk.exec (h.of_mem_eq (by simp)) hexec
  · exact h.agentStep

end Sys2Proof.Machine
end

section
/-! PROOF. Rounding division and linear interpolation (`00_scope.md` R8, `41_vdp1_pixel_pipeline.md` R99, R106). -/

namespace Sys2Proof.Machine

/-! ### Rounding division -/

theorem rdiv_neg (a : Int) (n : Nat) : rdiv (-a) n = -rdiv a n := by
  unfold rdiv
  split
  · rfl
  · rw [Int.sign_neg, Int.natAbs_neg, Int.neg_mul]

theorem rdiv_of_nonneg {a : Int} {n : Nat} (ha : 0 ≤ a) (hn : 0 < n) : rdiv a n = (2 * a + n) / (2 * n) := by
  have habs : (a.natAbs : Int) = a := Int.natAbs_of_nonneg ha
  rcases ha.eq_or_lt with rfl | hpos
  · have hlt : (n : Int) < 2 * n := by omega
    simpa [rdiv] using (Int.ediv_eq_zero_of_lt (by omega) hlt).symm
  · rw [rdiv, if_neg hn.ne', Int.sign_eq_one_of_pos hpos, one_mul, habs]

/-- From 0 up, `rdiv` times the divisor lies within half a divisor of the dividend, a half being rounded up (R8). -/
theorem rdiv_mul_bounds {a : Int} {n : Nat} (ha : 0 ≤ a) (hn : 0 < n) :
    2 * a - n < 2 * (rdiv a n * n) ∧ 2 * (rdiv a n * n) ≤ 2 * a + n := by
  have hpos : (0 : Int) < 2 * n := by omega
  have hmul : (2 * n : Int) * ((2 * a + n) / (2 * n)) = 2 * ((2 * a + n) / (2 * n) * n) := by ring
  have hlo := Int.lt_mul_ediv_self_add (x := 2 * a + n) hpos
  have hhi := Int.mul_ediv_self_le (x := 2 * a + n) hpos.ne'
  rw [rdiv_of_nonneg ha hn]
  omega

/-- `rdiv` answers a nearest integer, and of two the one farther from 0 (R8). -/
theorem rdiv_nearest (a : Int) {n : Nat} (hn : 0 < n) :
    2 * (rdiv a n * n - a).natAbs ≤ n ∧
      (2 * (rdiv a n * n - a).natAbs = n → a.natAbs < (rdiv a n * n).natAbs) := by
  rcases le_total 0 a with ha | ha
  · have := rdiv_mul_bounds ha hn
    omega
  · have hneg : rdiv (-a) n * n = -(rdiv a n * n) := by rw [rdiv_neg, Int.neg_mul]
    have := rdiv_mul_bounds (Int.neg_nonneg_of_nonpos ha) hn
    omega

/-! ### Linear interpolation -/

@[simp] theorem lerp_zero (a b : Int) (n : Nat) : lerp a b 0 n = a := by simp [lerp]

theorem lerp_self (a b : Int) {n : Nat} (hn : 0 < n) : lerp a b n n = b := by
  have hn' : (n : Int) ≠ 0 := by omega
  rw [lerp, if_neg hn.ne', Int.mul_ediv_cancel _ hn']
  omega

/-- Towards a larger end, interpolation rises with the position. -/
theorem lerp_mono {a b : Int} (hab : a ≤ b) {j k : Nat} (hjk : j ≤ k) (n : Nat) : lerp a b j n ≤ lerp a b k n := by
  unfold lerp
  split
  · exact le_rfl
  · have hmul : (b - a) * j ≤ (b - a) * k := Int.mul_le_mul_of_nonneg_left (by omega) (by omega)
    have := Int.ediv_le_ediv (c := n) (by omega) hmul
    omega

/-- Towards a smaller end, it falls. -/
theorem lerp_anti {a b : Int} (hba : b ≤ a) {j k : Nat} (hjk : j ≤ k) (n : Nat) : lerp a b k n ≤ lerp a b j n := by
  unfold lerp
  split
  · exact le_rfl
  · have hmul : (b - a) * k ≤ (b - a) * j := Int.mul_le_mul_of_nonpos_left (by omega) (by omega)
    have := Int.ediv_le_ediv (c := n) (by omega) hmul
    omega

/-- An interpolated value lies between the two ends. -/
theorem lerp_between (a b : Int) {k n : Nat} (hk : k ≤ n) : min a b ≤ lerp a b k n ∧ lerp a b k n ≤ max a b := by
  rcases n.eq_zero_or_pos with rfl | hn
  · simp [lerp]
  · have hstart := lerp_zero a b n
    have hend := lerp_self a b hn
    rcases le_total a b with hab | hba
    · have h0 := lerp_mono hab k.zero_le n
      have h1 := lerp_mono hab hk n
      omega
    · have h0 := lerp_anti hba k.zero_le n
      have h1 := lerp_anti hba hk n
      omega

/-- Settles O19: `rdiv` is the nearest integer and odd, and `lerp` runs monotonically from one end to the other. -/
theorem roundingAndInterpolationLaws : Obligations.RoundingAndInterpolationLaws := by
  refine ⟨fun a n hn => ?_, fun a b k n ha0 ha1 hb0 hb1 hk => ?_⟩
  · obtain ⟨hnear, htie⟩ := rdiv_nearest a hn
    exact ⟨hnear, rdiv_neg a n, htie⟩
  · obtain ⟨hlo, hhi⟩ := lerp_between a b hk
    exact ⟨by omega, by omega, lerp_zero a b n, lerp_self a b, fun hab _ => lerp_mono hab k.le_succ n,
      fun hba _ => lerp_anti hba k.le_succ n⟩

end Sys2Proof.Machine
end

section
/-! PROOF. How the compositor reads dots from VRAM2 and colours from VRAM2 and colour RAM
(`44_vdp2_compositor.md` R155, R157, R158). -/

namespace Sys2Proof.Machine

/-! ### Colour RAM (R158) -/

theorem cramMap_spec (mode : CramMode) (i : Config.CramIndex) :
    if mode = .linear ∧ Config.cramEntryBytes mode = 2 then cramMap mode i = 2 * i.val else cramMap mode i < 0x1000 := by
  rcases cramMap_cases mode i with ⟨hmode, hbytes, h⟩ | ⟨hfree, h⟩
  · rw [if_pos ⟨hmode, hbytes⟩, h, Nat.mul_comm]
  · rw [if_neg hfree, h]
    exact (Config.cramMapFree mode i).isLt

theorem dotColour_palette {fmt : ColourFormat} (h : fmt ∈ [ColourFormat.pal16, .pal256, .pal2048]) (cfg : Vdp2Config)
    (d : Config.Dot) (cram : Nat → Byte) : dotColour cfg fmt d cram = cramEntry cfg.cramMode d.index cram := by
  simp only [List.mem_cons, List.not_mem_nil, or_false] at h
  rcases h with rfl | rfl | rfl <;> rfl

theorem dotColour_direct {fmt : ColourFormat} (h : fmt ∈ [ColourFormat.rgb555, .rgb888]) (cfg : Vdp2Config)
    (d : Config.Dot) (cram : Nat → Byte) : dotColour cfg fmt d cram = Config.directColour fmt d.value := by
  simp only [List.mem_cons, List.not_mem_nil, or_false] at h
  rcases h with rfl | rfl <;> rfl

/-! ### The character path (R157) -/

/-- One axis of a coordinate: dot `d` of cell `k` of the character at `c` has that character, that cell and that dot. -/
theorem character_axis (size : CharSize) (c : Int) {k d : Nat} (hk : k < size.cells) (hd : d < 8) :
    let z : Int := size.dots * c + 8 * k + d
    z / size.dots = c ∧ (z % size.dots).toNat / 8 = k ∧ (z % size.dots).toNat % 8 = d := by
  cases size <;> simp only [CharSize.dots, CharSize.cells] at hk ⊢ <;> omega

/-- A pattern-name entry is one word of VRAM2, or two at consecutive word addresses. -/
theorem readPatternName_eq (l : BgLayer) (bg : BgParams) (mode : CharMode) (size : CharSize) (fmt : ColourFormat)
    (cx cy : Int) (m : Nat → Byte) :
    readPatternName l bg mode size fmt cx cy m =
      let a := Config.patternNameAddr l bg mode size cx cy
      Config.patternName l bg mode size fmt
        (if mode = .twoWord then [contentWord m a, contentWord m (a + 2)] else [contentWord m a]) := by
  cases mode <;> rfl

/-- The character path fetches the dot of a cell of the character at a column and row, named by its entry (R157). -/
theorem fetchDot_of_cell {bg : BgParams} {mode : CharMode} {size : CharSize} (h : bg.plane = .cell mode size)
    (l : BgLayer) (fmt : ColourFormat) (m : Nat → Byte) (cx cy : Int) {kx ky dx dy : Nat} (hkx : kx < size.cells)
    (hky : ky < size.cells) (hdx : dx < 8) (hdy : dy < 8) :
    fetchDot l bg fmt (size.dots * cx + 8 * kx + dx, size.dots * cy + 8 * ky + dy) m =
      Config.cellDot l bg size fmt (readPatternName l bg mode size fmt cx cy m)
        { cellX := kx, cellY := ky, dotX := dx, dotY := dy } m := by
  obtain ⟨hcx, hcellX, hdotX⟩ := character_axis size cx hkx hdx
  obtain ⟨hcy, hcellY, hdotY⟩ := character_axis size cy hky hdy
  simp only [fetchDot, h, charDot, charPos, hcx, hcy, hcellX, hcellY, hdotX, hdotY]

theorem fetchDot_bitmap {bg : BgParams} (h : bg.plane = .bitmap) (l : BgLayer) (fmt : ColourFormat) (p : Int × Int)
    (m : Nat → Byte) : fetchDot l bg fmt p m = Config.bitmapDot l bg fmt p m := by
  simp only [fetchDot, h]

/-! ### Back and line colour (R155) -/

theorem contentBytes_congr {m m' : Nat → Byte} {a n : Nat} (h : ∀ k < n, m' (a + k) = m (a + k)) :
    contentBytes m' a n = contentBytes m a n :=
  List.map_congr_left fun k hk => h k (List.mem_range.1 hk)

/-- The back colour depends on the bytes of its source alone. -/
theorem backColour_congr {cfg : Vdp2Config} {y : Nat} {m m' : Nat → Byte}
    (h : ∀ k < Config.backColourBytes, m' (cfg.backColor.addrAt y + k) = m (cfg.backColor.addrAt y + k)) :
    backColour cfg y m' = backColour cfg y m := by
  rw [backColour, contentBytes_congr h, backColour]

/-- The line colour is the colour-RAM entry that the bytes of its source name. -/
theorem lineColour_of_bytes {cfg : Vdp2Config} {y : Nat} {m m' : Nat → Byte}
    (h : ∀ k < Config.lineColourBytes, m' (cfg.lineColor.addrAt y + k) = m (cfg.lineColor.addrAt y + k))
    (cram : Nat → Byte) :
    lineColour cfg y m' cram =
      cramEntry cfg.cramMode
        (Config.lineColourIndex (contentBytes m (cfg.lineColor.addrAt y) Config.lineColourBytes)) cram := by
  rw [lineColour, contentBytes_congr h]

theorem addrAt_of_not_perLine {src : ColourSource} (h : src.perLine = false) (y : Nat) : src.addrAt y = src.addr := by
  simp [ColourSource.addrAt, h]

/-- Settles O53, clause by clause: the address mapping, the dot's colour, the two fetch paths, the two line sources. -/
theorem vdp2FetchesDotsAndColours : Obligations.Vdp2FetchesDotsAndColours := by
  refine ⟨?cram, ?colour, ?character, ?bitmap, ?lines⟩
  case cram => exact fun mode => ⟨cramMap_injective mode, cramMap_spec mode⟩
  case colour => exact fun cfg d cram => ⟨fun fmt h => dotColour_palette h cfg d cram,
    fun fmt h => dotColour_direct h cfg d cram⟩
  case character =>
    intro l bg mode fmt m cx cy kx ky dx dy hdx hdy
    refine ⟨fun hplane hkx hky => ?_, fun hplane hkx hky => ?_⟩
    · subst hkx hky
      have h := fetchDot_of_cell hplane l fmt m cx cy (kx := 0) (ky := 0) (by decide) (by decide) hdx hdy
      have hdots : ∀ (c : Int) (d : Nat), CharSize.one.dots * c + 8 * (0 : Nat) + d = 8 * c + d := by
        simp [CharSize.dots, CharSize.cells]
      rw [readPatternName_eq, hdots, hdots] at h
      exact h
    · have h := fetchDot_of_cell hplane l fmt m cx cy hkx hky hdx hdy
      rw [readPatternName_eq] at h
      exact h
  case bitmap => exact fun l bg fmt p m h => fetchDot_bitmap h l fmt p m
  case lines =>
    intro cfg y m
    let i := Config.lineColourIndex (contentBytes m (cfg.lineColor.addrAt y) Config.lineColourBytes)
    exact ⟨fun _ hm => backColour_congr hm, ⟨i, fun _ hm => lineColour_of_bytes hm⟩,
      fun _ _ h => addrAt_of_not_perLine h y⟩

end Sys2Proof.Machine
end

section
/-! PROOF. Every step keeps the shapes of the VDP1 registers, of the two list addresses and of the drawing context
(`10_state.md` R12 to R24, `60_exceptions.md` R188). -/

namespace Sys2Proof.Machine

/-! ### Keeping the three shapes

The three conditions speak of the VDP1 registers, the command address and the drawing context. An operation that leaves
these as they are keeps all three at once, and so does a sequence of operations that keep them. -/

/-- Going from `s` to `t` keeps the unstored register bits 0, the addresses aligned and the context groups whole. -/
structure KeepsShapes (s t : State) : Prop where
  registers : s.RegistersOk → t.RegistersOk
  addresses : s.AddressesOk → t.AddressesOk
  context : s.ContextOk → t.ContextOk

theorem State.RegistersOk.of_regs1_eq {s t : State} (h : s.RegistersOk) (he : t.regs1 = s.regs1) : t.RegistersOk :=
  ⟨he ▸ h.tvmr, he ▸ h.fbcr, he ▸ h.ptmr, he ▸ h.ewlr, he ▸ h.edsr⟩

theorem State.AddressesOk.of_eq {s t : State} (h : s.AddressesOk) (ha : t.proc.cmdAddr = s.proc.cmdAddr)
    (hr : t.ctx.retAddr = s.ctx.retAddr) : t.AddressesOk :=
  ⟨ha ▸ h.cmdAddr, hr ▸ h.retAddr⟩

theorem State.ContextOk.of_ctx_eq {s t : State} (h : s.ContextOk) (he : t.ctx = s.ctx) : t.ContextOk :=
  ⟨he ▸ h.local', he ▸ h.sysClip, he ▸ h.userY0, he ▸ h.userX1, he ▸ h.userY1⟩

namespace KeepsShapes

theorem of_eq {s t : State} (hr : t.regs1 = s.regs1) (ha : t.proc.cmdAddr = s.proc.cmdAddr) (hc : t.ctx = s.ctx) :
    KeepsShapes s t :=
  ⟨fun h => h.of_regs1_eq hr, fun h => h.of_eq ha (congrArg Ctx.retAddr hc), fun h => h.of_ctx_eq hc⟩

/-- A change of the VDP1 registers alone. -/
theorem of_registers {s t : State} (hr : s.RegistersOk → t.RegistersOk) (ha : t.proc.cmdAddr = s.proc.cmdAddr)
    (hc : t.ctx = s.ctx) : KeepsShapes s t :=
  ⟨hr, fun h => h.of_eq ha (congrArg Ctx.retAddr hc), fun h => h.of_ctx_eq hc⟩

theorem refl (s : State) : KeepsShapes s s := of_eq rfl rfl rfl

theorem trans {s t u : State} (h : KeepsShapes s t) (h' : KeepsShapes t u) : KeepsShapes s u :=
  ⟨h'.registers ∘ h.registers, h'.addresses ∘ h.addresses, h'.context ∘ h.context⟩

/-- After the operation, a change of other fields. -/
theorem then_eq {s t u : State} (h : KeepsShapes s t) (hr : u.regs1 = t.regs1)
    (ha : u.proc.cmdAddr = t.proc.cmdAddr) (hc : u.ctx = t.ctx) : KeepsShapes s u :=
  h.trans (of_eq hr ha hc)

/-- Before the operation, a change of other fields. -/
theorem after_eq {s t u : State} (h : KeepsShapes t u) (hr : t.regs1 = s.regs1)
    (ha : t.proc.cmdAddr = s.proc.cmdAddr) (hc : t.ctx = s.ctx) : KeepsShapes s u :=
  (of_eq hr ha hc).trans h

end KeepsShapes

/-! ### The bits of the registers (R12 to R19) -/

/-- Bits stored through a mask are 0 outside it. -/
theorem and_mask_eq_zero {n : Nat} (v m k : BitVec n) (h : m &&& k = 0) : v &&& m &&& k = 0 := by
  rw [BitVec.and_assoc, h]
  exact BitVec.and_zero

theorem clearCef_unstored {v : Word} (h : v &&& 0xFFFC#16 = 0) : v &&& 0xFFFD#16 &&& 0xFFFC#16 = 0 := by
  rw [BitVec.and_assoc]
  exact h

theorem setCef_unstored {v : Word} (h : v &&& 0xFFFC#16 = 0) : (v ||| 0x0002#16) &&& 0xFFFC#16 = 0 := by
  rw [BitVec.and_comm, BitVec.and_or_distrib_left, BitVec.and_comm, h]
  rfl

theorem edsrWord_unstored (cef bef : Bool) : edsrWord cef bef &&& 0xFFFC#16 = 0 := by
  revert cef bef
  decide

theorem setCef_keepsShapes (s : State) : KeepsShapes s s.setCef :=
  .of_registers (fun h => { h with edsr := setCef_unstored h.edsr }) rfl rfl

/-- COPR stores all its bits (R21). -/
theorem latchCopr_keepsShapes (s : State) : KeepsShapes s s.latchCopr :=
  .of_registers (fun h => ⟨h.tvmr, h.fbcr, h.ptmr, h.ewlr, h.edsr⟩) rfl rfl

theorem swapRegisters_keepsShapes (s : State) : KeepsShapes s s.swapRegisters :=
  .of_registers (fun h => ⟨h.tvmr, h.fbcr, h.ptmr, h.ewlr, edsrWord_unstored _ _⟩) rfl rfl

/-- Every register stores its value through the mask of its bits. -/
theorem storeReg1_keepsShapes (s : State) (r : Reg1) (v : Word) : KeepsShapes s (s.storeReg1 r v) := by
  have hmask (m k : Word) (h : m &&& k = 0) : v &&& m &&& k = 0 := and_mask_eq_zero v m k h
  cases r
  case tvmr => exact .of_registers (fun h => ⟨hmask _ _ rfl, h.fbcr, h.ptmr, h.ewlr, h.edsr⟩) rfl rfl
  case fbcr => exact .of_registers (fun h => ⟨h.tvmr, hmask _ _ rfl, h.ptmr, h.ewlr, h.edsr⟩) rfl rfl
  case ptmr => exact .of_registers (fun h => ⟨h.tvmr, h.fbcr, hmask _ _ rfl, h.ewlr, h.edsr⟩) rfl rfl
  case ewlr => exact .of_registers (fun h => ⟨h.tvmr, h.fbcr, h.ptmr, hmask _ _ rfl, h.edsr⟩) rfl rfl
  case edsr => exact .of_registers (fun h => ⟨h.tvmr, h.fbcr, h.ptmr, h.ewlr, hmask _ _ rfl⟩) rfl rfl
  all_goals exact .of_registers (fun h => ⟨h.tvmr, h.fbcr, h.ptmr, h.ewlr, h.edsr⟩) rfl rfl

/-! ### The list addresses (R23, R24, R71) -/

/-- `StartDrawing` clears CEF, goes to address 0 and forgets the return address (R125). -/
theorem startDrawing_keepsShapes (s : State) : KeepsShapes s s.startDrawing where
  registers h := { h with edsr := clearCef_unstored h.edsr }
  addresses _ := ⟨rfl, fun _ h => by cases h⟩
  context h := ⟨h.local', h.sysClip, h.userY0, h.userX1, h.userY1⟩

theorem nextEntry_aligned (a : Addr) : (nextEntry a).toNat % 32 = 0 := by
  have h : (0x7FFE0#19).toNat % 2 ^ 5 = 0 := rfl
  rw [nextEntry, BitVec.toNat_and, show 32 = 2 ^ 5 from rfl, Nat.and_mod_two_pow, h, Nat.and_zero]

/-- A jump goes to the following entry, the link or the return address, and returns to the following entry (R71). -/
theorem jumpTarget_aligned {e : Entry} {a : Addr} {ret : Option Addr} (he : e.linkOk = true)
    (hret : ∀ r, ret = some r → r.toNat % 32 = 0) :
    (jumpTarget e a ret).1.toNat % 32 = 0 ∧ ∀ r, (jumpTarget e a ret).2 = some r → r.toNat % 32 = 0 := by
  obtain ⟨haddr, hreturn⟩ := jumpTarget_cases e a ret
  constructor
  · rcases haddr with h | h | h
    · rw [h]; exact nextEntry_aligned a
    · rw [h]; exact beq_iff_eq.1 he
    · exact hret _ h
  · intro r hr
    rcases hreturn with h | h | h <;> rw [h] at hr
    · exact hret r hr
    · cases hr
    · cases hr; exact nextEntry_aligned a

theorem jump_keepsShapes (s : State) {e : Entry} (he : e.linkOk = true) : KeepsShapes s (s.jump e) where
  registers h := h.of_regs1_eq rfl
  addresses h := by
    obtain ⟨haddr, hret⟩ := jumpTarget_aligned (a := s.proc.cmdAddr) he h.retAddr
    exact ⟨haddr, hret⟩
  context h := ⟨h.local', h.sysClip, h.userY0, h.userX1, h.userY1⟩

theorem finish_keepsShapes (s : State) (i : Instr) {e : Entry} (r : DrawResult) (he : e.linkOk = true) :
    KeepsShapes s (s.finish i e r) :=
  (jump_keepsShapes s he).then_eq rfl rfl rfl

/-! ### The groups of context registers (R76 to R78) -/

theorem setUserClip_keepsShapes (s : State) (x0 : BitVec 10) (y0 : BitVec 9) (x1 : BitVec 10) (y1 : BitVec 9) :
    KeepsShapes s (s.setUserClip x0 y0 x1 y1) where
  registers h := h.of_regs1_eq rfl
  addresses h := h.of_eq rfl rfl
  context h := ⟨h.local', h.sysClip, rfl, rfl, rfl⟩

theorem setSysClip_keepsShapes (s : State) (x : BitVec 10) (y : BitVec 9) : KeepsShapes s (s.setSysClip x y) where
  registers h := h.of_regs1_eq rfl
  addresses h := h.of_eq rfl rfl
  context h := ⟨h.local', rfl, h.userY0, h.userX1, h.userY1⟩

theorem setLocal_keepsShapes (s : State) (x y : BitVec 13) : KeepsShapes s (s.setLocal x y) where
  registers h := h.of_regs1_eq rfl
  addresses h := h.of_eq rfl rfl
  context h := ⟨rfl, h.sysClip, h.userY0, h.userX1, h.userY1⟩

/-! ### Commands -/

/-- Every decoded instruction is well formed (R54, R57, R58, R60). -/
theorem decodeRaw_wellFormed (r : RawEntry) : (decodeRaw r).wellFormed = true := by
  unfold decodeRaw
  split
  · rfl
  · split
    · exact decodeEntry_wellFormed r
    · simpa only [Instr.wellFormed, instrOfCode_entry] using decodeEntry_wellFormed r

theorem linkOk_of_wellFormed {i : Instr} {e : Entry} (hw : i.wellFormed = true) (he : i.entry? = some e) :
    e.linkOk = true := by
  simp only [Instr.wellFormed, he, Entry.wellFormed, Bool.and_eq_true] at hw
  obtain ⟨⟨⟨⟨hlink, -⟩, -⟩, -⟩, -⟩ := hw
  exact hlink

theorem entry_of_drawing {i : Instr} {tx : Bool} {e : Entry} (h : i.drawing = some (tx, e)) : i.entry? = some e := by
  cases i <;> cases h <;> rfl

/-- A draw command faults, or stores its drawing and jumps (R65, R85, R103). -/
theorem runDraw_keepsShapes (tx : Bool) (i : Instr) {e : Entry} (draw : DrawEnv → Memory → Drawn) (s : State)
    (he : e.linkOk = true) : KeepsShapes s (runDraw tx i e draw s) := by
  rcases runDraw_cases tx i e draw s with ⟨f, -, h⟩ | ⟨v, -, h⟩ <;> rw [h]
  · exact .of_eq rfl rfl rfl
  · exact (finish_keepsShapes _ i _ he).after_eq (by simp) (by simp) (by simp)

theorem exec_keepsShapes {i : Instr} {s t : State} (hw : i.wellFormed = true) (h : exec i s = .next t) :
    KeepsShapes s t := by
  cases hd : i.drawing with
  | some d =>
    obtain ⟨tx, e⟩ := d
    rw [exec_drawing hd] at h
    obtain rfl : runDraw tx i e i.draw s = t := by injection h
    exact runDraw_keepsShapes tx i i.draw s (linkOk_of_wellFormed hw (entry_of_drawing hd))
  | none =>
    have hlink (e : Entry) (he : i.entry? = some e) : e.linkOk = true := linkOk_of_wellFormed hw he
    cases i with
    | endList => cases h; exact (setCef_keepsShapes s).then_eq rfl rfl rfl
    | skip comm e => cases h; exact finish_keepsShapes s _ _ (hlink e rfl)
    | uclp e => cases h; exact (setUserClip_keepsShapes s _ _ _ _).trans (finish_keepsShapes _ _ _ (hlink e rfl))
    | sclp e => cases h; exact (setSysClip_keepsShapes s _ _).trans (finish_keepsShapes _ _ _ (hlink e rfl))
    | lcrd e => cases h; exact (setLocal_keepsShapes s _ _).trans (finish_keepsShapes _ _ _ (hlink e rfl))
    | illegal3 | illegal7 | illegalB | illegalC | illegalD | illegalE | illegalF =>
      cases h; exact .of_eq rfl rfl rfl
    | nspr | sspr | dspr | poly | plin | line => cases hd

/-! ### Framebuffer control and timing -/

theorem abandonList_keepsShapes (s : State) : KeepsShapes s s.abandonList := by
  rcases abandonList_cases s with ⟨-, h⟩ | ⟨-, h⟩ <;> rw [h]
  · exact .of_eq rfl rfl rfl
  · exact .refl s

/-- A swap shifts CEF into BEF and, where PTM = 2, starts drawing (R132). -/
theorem swap_keepsShapes (s : State) : KeepsShapes s s.swap := by
  have hregs : KeepsShapes s (s.swapRegisters.abandonList.emit .framebufferSwap) :=
    ((swapRegisters_keepsShapes s).trans (abandonList_keepsShapes _)).then_eq rfl rfl rfl
  rcases swap_cases s with ⟨-, h⟩ | ⟨-, h⟩ <;> rw [h]
  · exact hregs
  · exact hregs.trans (startDrawing_keepsShapes _)

theorem erase_keepsShapes (s : State) (f : FbId) : KeepsShapes s (s.erase f) := by
  rcases erase_cases s f with h | ⟨g, -, h⟩ <;> rw [h]
  · exact .refl s
  · exact .of_eq (by simp) (by simp) (by simp)

theorem vblankErase_keepsShapes (s : State) : KeepsShapes s s.vblankErase := by
  rcases vblankErase_cases s with h | h <;> rw [h]
  · exact .refl s
  · exact erase_keepsShapes s _

theorem boundaryErase_keepsShapes (s : State) : KeepsShapes s s.boundaryErase := by
  rcases boundaryErase_cases s with h | h <;> rw [h]
  · exact .refl s
  · exact (erase_keepsShapes _ _).after_eq rfl rfl rfl

theorem frameBoundary_keepsShapes (s : State) : KeepsShapes s s.frameBoundary := by
  rcases frameBoundary_cases s with h | h <;> rw [h]
  · exact boundaryErase_keepsShapes s
  · exact (boundaryErase_keepsShapes s).trans (swap_keepsShapes _)

theorem latchResolution_keepsShapes (s : State) : KeepsShapes s s.latchResolution := by
  rcases latchResolution_cases s with ⟨-, h⟩ | ⟨-, h⟩ <;> rw [h]
  · exact .refl s
  · exact .of_eq rfl rfl rfl

theorem enterVActive_keepsShapes (s : State) : KeepsShapes s s.enterVActive := by
  have hlatch : KeepsShapes s
      ({ s with tim := { s.tim with vCounter := 0, field := !s.tim.field } } : State).latchResolution :=
    (latchResolution_keepsShapes _).after_eq rfl rfl rfl
  exact hlatch.then_eq rfl rfl rfl

theorem enterBottomBorder_keepsShapes (s : State) : KeepsShapes s s.enterBottomBorder := by
  have herase : KeepsShapes s (((s.changeVblank true).emit .vBlankEntry).emit .statusReadHint).vblankErase :=
    (vblankErase_keepsShapes _).after_eq rfl rfl rfl
  exact herase.then_eq rfl rfl rfl

theorem enterLastLine_keepsShapes (s : State) : KeepsShapes s s.enterLastLine :=
  (frameBoundary_keepsShapes ((s.changeVblank false).emit .statusReadHint)).after_eq rfl rfl rfl

/-- Of the vertical phase entries, only the frame boundary of `LastLine` reaches VDP1's registers (R133, R175). -/
theorem vEntryAction_keepsShapes (s : State) : KeepsShapes s s.vEntryAction := by
  cases hv : s.tim.vPhase <;> simp only [State.vEntryAction, hv]
  case active => exact enterVActive_keepsShapes s
  case bottomBorder => exact enterBottomBorder_keepsShapes s
  case blankingAndSync => exact .refl s
  case vCounterSkip => exact .of_eq rfl rfl rfl
  case topBorder => exact .refl s
  case lastLine => exact enterLastLine_keepsShapes s

theorem enterVStep_keepsShapes (s : State) (remaining : Nat) : KeepsShapes s (s.enterVStep remaining) := by
  have hentry : KeepsShapes s
      ({ s with tim := { s.tim with vPhase := s.tim.vPhase.succ, vLine := 0 } } : State).vEntryAction :=
    (vEntryAction_keepsShapes _).after_eq rfl rfl rfl
  simp only [State.enterVStep]
  split <;> exact hentry.then_eq rfl rfl rfl

/-- A horizontal phase entry changes the timing controller and the compositor (R170 to R172). -/
theorem enterHStep_keepsShapes (s : State) (remaining : Nat) : KeepsShapes s (s.enterHStep remaining) := by
  cases hp : s.tim.hPhase <;> simp only [State.enterHStep, hp, HPhase.succ]
  case active => exact .of_eq rfl rfl rfl
  case rightBorder =>
    simp only [State.enterHSync]
    split <;> exact .of_eq rfl rfl rfl
  case sync => exact .of_eq rfl rfl rfl
  case leftBorder =>
    simp only [State.enterHActive]
    split <;> exact .of_eq rfl rfl rfl

/-- The grant of a chunk is one of cycles (R167). -/
theorem grant_keepsShapes (s : State) (chunk : Nat) : KeepsShapes s (s.grant chunk) := by
  unfold State.grant
  split <;> exact .of_eq rfl rfl rfl

theorem beginChunk_keepsShapes (s : State) (remaining : Nat) : KeepsShapes s (s.beginChunk remaining) := by
  unfold State.beginChunk
  split
  · exact .of_eq rfl rfl rfl
  · exact (grant_keepsShapes s _).then_eq rfl rfl rfl

/-! ### Host operations -/

theorem requestChange_keepsShapes (s : State) (v : Word) : KeepsShapes s (s.requestChange v) := by
  unfold State.requestChange
  split
  · split <;> exact .of_eq rfl rfl rfl
  · exact .refl s

theorem plotTrigger_keepsShapes (s : State) (v : Word) : KeepsShapes s (s.plotTrigger v) := by
  unfold State.plotTrigger
  split
  · exact startDrawing_keepsShapes s
  · exact .refl s

theorem forceEnd_keepsShapes (s : State) : KeepsShapes s s.forceEnd := by
  unfold State.forceEnd
  split <;> exact .of_eq rfl rfl rfl

/-- A register write stores masked bits, and then requests, starts or ends (R49, R126 to R128). -/
theorem writeReg1_keepsShapes (s : State) (r : Reg1) (v : Word) : KeepsShapes s (s.writeReg1 r v) := by
  cases r
  case fbcr => exact (storeReg1_keepsShapes s .fbcr v).trans (requestChange_keepsShapes _ v)
  case ptmr => exact (storeReg1_keepsShapes s .ptmr v).trans (plotTrigger_keepsShapes _ v)
  case endr => exact forceEnd_keepsShapes s
  case edsr | lopr | copr | modr => exact .refl s
  case tvmr => exact storeReg1_keepsShapes s .tvmr v
  case ewdr => exact storeReg1_keepsShapes s .ewdr v
  case ewlr => exact storeReg1_keepsShapes s .ewlr v
  case ewrr => exact storeReg1_keepsShapes s .ewrr v

theorem writePenalty_keepsShapes (s : State) (r : Region) : KeepsShapes s (s.writePenalty r) := by
  unfold State.writePenalty
  split <;> exact .of_eq rfl rfl rfl

theorem writeRegs2Byte_keepsShapes (s : State) (off : Nat) (b : Byte) : KeepsShapes s (s.writeRegs2Byte off b) := by
  unfold State.writeRegs2Byte
  split <;> exact .of_eq rfl rfl rfl

theorem writeRegs2Word_keepsShapes (s : State) (off : Nat) (w : Word) : KeepsShapes s (s.writeRegs2Word off w) := by
  unfold State.writeRegs2Word
  split <;> exact .of_eq rfl rfl rfl

theorem setMem_keepsShapes (s : State) (sp : Space) (m : Memory) : KeepsShapes s (s.setMem sp m) :=
  .of_eq (s.setMem_regs1 sp m) (by simp) (s.setMem_ctx sp m)

/-- A poke stores in a memory, in the VDP2 bank or in a VDP1 register (R32, R47). -/
theorem poke8_keepsShapes (s : State) (r : Region) (off : Nat) (b : Byte) : KeepsShapes s (s.poke8 r off b) := by
  unfold State.poke8
  split
  · exact setMem_keepsShapes s _ _
  · exact writeRegs2Byte_keepsShapes s off b
  · split
    · exact storeReg1_keepsShapes s _ _
    · exact .refl s

theorem poke16_keepsShapes (s : State) (r : Region) (off : Nat) (w : Word) : KeepsShapes s (s.poke16 r off w) := by
  unfold State.poke16
  split
  · exact setMem_keepsShapes s _ _
  · exact writeRegs2Word_keepsShapes s off w
  · split
    · exact storeReg1_keepsShapes s _ _
    · exact .refl s

theorem write8_keepsShapes (s : State) (r : Region) (off : Nat) (b : Byte) : KeepsShapes s (s.write8 r off b) := by
  unfold State.write8
  split
  · split
    · exact writeReg1_keepsShapes s _ _
    · exact .refl s
  · exact (poke8_keepsShapes s r off b).trans (writePenalty_keepsShapes _ r)

theorem write16_keepsShapes (s : State) (r : Region) (off : Nat) (w : Word) : KeepsShapes s (s.write16 r off w) := by
  unfold State.write16
  split
  · split
    · exact writeReg1_keepsShapes s _ _
    · exact .refl s
  · exact (poke16_keepsShapes s r off w).trans (writePenalty_keepsShapes _ r)

theorem answer8_keepsShapes (s : State) (peek : Bool) (r : Region) (off : Nat) :
    KeepsShapes s (s.answer8 peek r off) := by
  unfold State.answer8
  split <;> exact .of_eq rfl rfl rfl

theorem answer16_keepsShapes (s : State) (peek : Bool) (r : Region) (off : Nat) :
    KeepsShapes s (s.answer16 peek r off) := by
  unfold State.answer16
  split <;> exact .of_eq rfl rfl rfl

/-- A reset sets every register to 0 and every context register to unset (R205). -/
theorem resetControl_keepsShapes (s : State) : KeepsShapes s s.resetControl where
  registers _ := by constructor <;> exact BitVec.zero_and
  addresses _ := ⟨rfl, fun _ h => by cases h⟩
  context _ := ⟨rfl, rfl, rfl, rfl, rfl⟩

theorem hostReset_keepsShapes (s : State) (hard : Bool) : KeepsShapes s (s.hostReset hard) := by
  cases hard
  · exact resetControl_keepsShapes s
  · exact (resetControl_keepsShapes s).then_eq rfl rfl rfl

theorem hostOp_keepsShapes (s : State) (op : HostOp) : KeepsShapes s (s.hostOp op) := by
  cases op with
  | read8 r off => exact answer8_keepsShapes s false r off
  | read16 r off => exact answer16_keepsShapes s false r off
  | write8 r off v => exact write8_keepsShapes s r off v
  | write16 r off v => exact write16_keepsShapes s r off v
  | peek8 r off => exact answer8_keepsShapes s true r off
  | peek16 r off => exact answer16_keepsShapes s true r off
  | poke8 r off v => exact poke8_keepsShapes s r off v
  | poke16 r off v => exact poke16_keepsShapes s r off v
  | advance n => exact .of_eq rfl rfl rfl
  | requestResolution res => exact .of_eq rfl rfl rfl
  | reset hard => exact hostReset_keepsShapes s hard

/-! ### Steps -/

theorem agentStep_keepsShapes (s : State) : KeepsShapes s s.agentStep := by
  rcases agentStep_cases s with ⟨-, -, h⟩ | ⟨op, rest, -, -, h⟩ | ⟨r, -, h⟩ | ⟨c, r, -, h⟩ |
    ⟨r, -, h⟩ | ⟨r, -, h⟩ <;> rw [h]
  · exact .refl s
  · exact (hostOp_keepsShapes _ op).after_eq rfl rfl rfl
  · exact beginChunk_keepsShapes s r
  · exact .of_eq rfl rfl rfl
  · exact enterHStep_keepsShapes s r
  · exact enterVStep_keepsShapes s r

theorem step_keepsShapes {s t : State} (h : step s = .next t) : KeepsShapes s t := by
  rcases step_cases h with ⟨-, -, rfl⟩ | ⟨-, -, hexec⟩ | ⟨-, rfl⟩
  · exact .of_eq rfl rfl rfl
  · exact (latchCopr_keepsShapes s).trans (exec_keepsShapes (decodeRaw_wellFormed _) hexec)
  · exact agentStep_keepsShapes s

/-- Settles O57: a step keeps each of the three shapes, whatever the others are. -/
theorem stepKeepsRegisterShapes : Obligations.StepKeepsRegisterShapes := by
  intro s t hstep
  have hkeeps := step_keepsShapes hstep
  exact ⟨fun hr ha => ⟨hkeeps.registers hr, hkeeps.addresses ha⟩, hkeeps.context⟩

end Sys2Proof.Machine
end

section
/-! PROOF. The VDP1 register region: what its writes store, do and ignore, MODR, and the reads without a specified value
(`10_state.md` R11 to R22, `20_memory.md` R32, R47, R49, `43_vdp1_framebuffer_control.md` R126 to R128). -/

namespace Sys2Proof.Machine

/-! ### Words as numbers -/

theorem extractLsb'_high_eq (w : Word) : w.extractLsb' 8 8 = BitVec.ofNat 8 (w.toNat / 0x100) := by
  rw [BitVec.extractLsb', Nat.shiftRight_eq_div_pow]

theorem extractLsb'_low_eq (w : Word) : w.extractLsb' 0 8 = BitVec.ofNat 8 w.toNat := by
  rw [BitVec.extractLsb', Nat.shiftRight_zero]

theorem byteAt_eq (off : Nat) (w : Word) :
    byteAt off w = BitVec.ofNat 8 (if off % 2 = 0 then w.toNat / 0x100 else w.toNat) := by
  rw [byteAt, extractLsb'_high_eq, extractLsb'_low_eq]
  split <;> rfl

theorem replaceByte_eq (off : Nat) (w : Word) (b : Byte) :
    replaceByte off w b =
      if off % 2 = 0 then b ++ BitVec.ofNat 8 w.toNat else BitVec.ofNat 8 (w.toNat / 0x100) ++ b := by
  rw [replaceByte, extractLsb'_high_eq, extractLsb'_low_eq]

theorem toNat_append_eq_add {m n : Nat} (a : BitVec m) (b : BitVec n) :
    (a ++ b).toNat = a.toNat * 2 ^ n + b.toNat := by
  rw [BitVec.toNat_append, ← Nat.shiftLeft_add_eq_or_of_lt b.isLt, Nat.shiftLeft_eq]

theorem toNat_bitOf (b : Bool) : (bitOf b).toNat = b.toNat := by
  cases b <;> rfl

theorem extractLsb'_two_eq_one_iff (v : Word) : v.extractLsb' 0 2 = 1#2 ↔ v.toNat % 4 = 1 := by
  rw [← BitVec.toNat_inj, BitVec.extractLsb'_toNat, Nat.shiftRight_zero]
  rfl

/-! ### The register at an offset (R11, R32, R34) -/

/-- The offset of a register in the region (R11). -/
def Reg1.offset : Reg1 → Nat
  | .tvmr => 0x00
  | .fbcr => 0x02
  | .ptmr => 0x04
  | .ewdr => 0x06
  | .ewlr => 0x08
  | .ewrr => 0x0A
  | .endr => 0x0C
  | .edsr => 0x10
  | .lopr => 0x12
  | .copr => 0x14
  | .modr => 0x16

theorem reg1At_eq_some_iff {off : Nat} {g : Reg1} : reg1At off = some g ↔ off % 0x20 / 2 * 2 = g.offset := by
  change _ ↔ wordOffset 0x20 off = g.offset
  unfold reg1At
  split <;> cases g <;> simp_all [Reg1.offset]

/-- There is no register at 0x0E and from 0x18 on (R11). -/
theorem reg1At_eq_none_iff {off : Nat} :
    reg1At off = none ↔ off % 0x20 / 2 * 2 = 0x0E ∨ 0x18 ≤ off % 0x20 / 2 * 2 := by
  change _ ↔ wordOffset 0x20 off = 0x0E ∨ 0x18 ≤ wordOffset 0x20 off
  have heven : wordOffset 0x20 off < 0x20 ∧ wordOffset 0x20 off % 2 = 0 := by
    unfold wordOffset
    omega
  rw [reg1At]
  generalize wordOffset 0x20 off = k at heven ⊢
  split
  -- the last row, which answers none, is reached past the eleven registers' offsets
  case h_12 => simp only [true_iff]; grind
  all_goals simp_all

/-- The registers a normal read has no value for are those below 0x0E (R11). -/
theorem Reg1.readable_eq_false_iff (g : Reg1) : g.readable = false ↔ g.offset < 0x0E := by
  cases g <;> decide

/-! ### Writes of the region (R49) -/

theorem write16_of_reg1At {off : Nat} {g : Reg1} (h : reg1At off = some g) (s : State) (v : Word) :
    s.write16 .vdp1Regs off v = s.writeReg1 g v := by
  simp only [State.write16, h]

theorem write16_of_no_reg1 {off : Nat} (h : reg1At off = none) (s : State) (v : Word) :
    s.write16 .vdp1Regs off v = s := by
  simp only [State.write16, h]

theorem write8_of_reg1At {off : Nat} {g : Reg1} (h : reg1At off = some g) (s : State) (b : Byte) :
    s.write8 .vdp1Regs off b = s.writeReg1 g (s.mergeByte g off b) := by
  simp only [State.write8, h]

theorem write8_of_no_reg1 {off : Nat} (h : reg1At off = none) (s : State) (b : Byte) :
    s.write8 .vdp1Regs off b = s := by
  simp only [State.write8, h]

/-- The word a byte write at an even offset of the region keeps the other byte of: the stored word of a writable
register, and 0 elsewhere (R49). -/
def State.heldWord (s : State) (reg : Nat) : Word :=
  if reg = 0x00 then s.regs1.tvmr
  else if reg = 0x02 then s.regs1.fbcr
  else if reg = 0x04 then s.regs1.ptmr
  else if reg = 0x06 then s.regs1.ewdr
  else if reg = 0x08 then s.regs1.ewlr
  else if reg = 0x0A then s.regs1.ewrr
  else 0

/-- A register whose held word is not its stored word ignores the value written to it. -/
theorem writeReg1_heldWord (s : State) (g : Reg1) (off : Nat) (b : Byte) :
    s.writeReg1 g (replaceByte off (s.heldWord g.offset) b) = s.writeReg1 g (s.mergeByte g off b) := by
  cases g <;> rfl

/-- A byte write is the word write of the held word with that byte replaced (R49). -/
theorem write8_eq_write16 (s : State) (off : Nat) (b : Byte) :
    s.write8 .vdp1Regs off b =
      s.write16 .vdp1Regs off (replaceByte off (s.heldWord (off % 0x20 / 2 * 2)) b) := by
  cases h : reg1At off with
  | none => rw [write8_of_no_reg1 h, write16_of_no_reg1 h]
  | some g =>
    rw [write8_of_reg1At h, write16_of_reg1At h, reg1At_eq_some_iff.1 h, writeReg1_heldWord]

/-- EDSR, LOPR, COPR, MODR and the offsets without a register ignore every write (R11, R49). -/
theorem write16_ignored {off : Nat} (h : 0x0E ≤ off % 0x20 / 2 * 2) (s : State) (v : Word) :
    s.write16 .vdp1Regs off v = s := by
  cases hg : reg1At off with
  | none => exact write16_of_no_reg1 hg s v
  | some g =>
    rw [write16_of_reg1At hg]
    rw [reg1At_eq_some_iff.1 hg] at h
    cases g
    case edsr | lopr | copr | modr => rfl
    all_goals exact absurd h (by decide)

theorem write8_ignored {off : Nat} (h : 0x0E ≤ off % 0x20 / 2 * 2) (s : State) (b : Byte) :
    s.write8 .vdp1Regs off b = s := by
  rw [write8_eq_write16, write16_ignored h]

/-! ### The actions of FBCR, PTMR and ENDR (R126 to R128) -/

/-- In manual mode bit 0 chooses between a swap and an erase request (R127). -/
theorem requestChange_eq (s : State) (v : Word) :
    s.requestChange v =
      { s with
        seq :=
          { s.seq with
            manualSwapReq := s.seq.manualSwapReq || (v.getLsbD 1 && v.getLsbD 0)
            manualEraseReq := s.seq.manualEraseReq || (v.getLsbD 1 && !v.getLsbD 0) } } := by
  unfold State.requestChange
  cases v.getLsbD 1 <;> cases v.getLsbD 0 <;> simp

theorem plotTrigger_eq (s : State) (v : Word) :
    s.plotTrigger v = if v.toNat % 4 = 1 then s.startDrawing else s := by
  simp only [State.plotTrigger, extractLsb'_two_eq_one_iff]

/-- The forced termination leaves the processor idle, and an idle one as it is (R126). -/
theorem forceEnd_eq (s : State) : s.forceEnd = s.setStatus .idle := by
  unfold State.forceEnd
  split
  · rename_i h; rw [State.setStatus, ← h]
  · rfl

/-- Settles O39: the register at the offset decides, and its write is its store and its action. -/
theorem registerWriteActions : Obligations.RegisterWriteActions := by
  intro s off v b
  have hwrite (g : Reg1) (h : off % 0x20 / 2 * 2 = g.offset) : s.write16 .vdp1Regs off v = s.writeReg1 g v :=
    write16_of_reg1At (reg1At_eq_some_iff.2 h) s v
  refine ⟨fun h => ⟨fun hv => ?_, fun hv => ?_⟩, fun h => ?_, fun h => ?_, hwrite .tvmr, hwrite .ewdr, hwrite .ewlr,
    hwrite .ewrr, fun h => ⟨write16_ignored h s v, write8_ignored h s b⟩, ?_⟩
  · rw [hwrite .ptmr h, State.writeReg1, plotTrigger_eq, if_neg hv]
    rfl
  · rw [hwrite .ptmr h, State.writeReg1, plotTrigger_eq, if_pos hv]
    rfl
  · rw [hwrite .endr h]
    exact forceEnd_eq s
  · rw [hwrite .fbcr h]
    exact requestChange_eq _ v
  · rw [write8_eq_write16, replaceByte_eq]
    rfl

/-! ### MODR (R22) -/

theorem modr_toNat (s : State) :
    s.modr.toNat =
      1 * 0x1000 + (s.regs1.ptmr.getLsbD 1).toNat * 0x100 + (s.regs1.fbcr.getLsbD 4).toNat * 0x80 +
          (s.regs1.fbcr.getLsbD 3).toNat * 0x40 + (s.regs1.fbcr.getLsbD 2).toNat * 0x20 +
          (s.regs1.fbcr.getLsbD 1).toNat * 0x10 + (s.regs1.tvmr.getLsbD 3).toNat * 8 + s.regs1.tvmr.toNat % 8 := by
  have htvm : s.tvm.toNat = s.regs1.tvmr.toNat % 8 := by
    rw [State.tvm, BitVec.extractLsb'_toNat, Nat.shiftRight_zero]
  simp only [State.modr, State.eos, State.die, State.dil, State.fcm, State.vbe, toNat_append_eq_add, toNat_bitOf, htvm]
  simp only [BitVec.toNat_ofNat]
  omega

/-- Settles O40: MODR as a number is the sum of its fields, and its register is readable and stores nothing. -/
theorem modrIsComposed : Obligations.ModrIsComposed := by
  intro s
  refine ⟨modr_toNat s, rfl, rfl, fun w b => ⟨rfl, rfl, fun off hoff => ?_⟩⟩
  have hreg : reg1At off = some .modr := by
    rw [reg1At_eq_some_iff]
    fin_cases hoff <;> rfl
  exact ⟨write8_of_reg1At hreg s b, by simp only [State.poke8, State.regionSpace, hreg]; rfl⟩

/-! ### Reads without a specified value (R11, R32, R47, U3, U4) -/

theorem viewReg1_eq_none_iff {s : State} {peek : Bool} {off : Nat} :
    s.viewReg1 peek off = none ↔
      off % 0x20 / 2 * 2 = 0x0E ∨ 0x18 ≤ off % 0x20 / 2 * 2 ∨ peek = false ∧ off % 0x20 / 2 * 2 < 0x0E := by
  rw [← or_assoc, ← reg1At_eq_none_iff]
  cases h : reg1At off with
  | none => simp [State.viewReg1, h]
  | some g =>
    rw [reg1At_eq_some_iff.1 h, ← g.readable_eq_false_iff]
    simp [State.viewReg1, h]

/-- The bank holds 0x120 bytes (R32). -/
theorem regs2Byte_eq_none_iff {s : State} {off : Nat} : s.regs2Byte off = none ↔ 0x120 ≤ off % 0x200 := by
  simp [State.regs2Byte]

/-- A word of the bank is specified at the offsets its bytes are, since 0x120 is even (R32, R34). -/
theorem view_vdp2Regs_eq_none {s : State} {off : Nat} (h : 0x120 ≤ off % 0x200) (peek : Bool) :
    s.view16 peek .vdp2Regs off = none ∧ s.view8 peek .vdp2Regs off = none := by
  have hword : s.regs2Byte (wordOffset 0x200 off) = none := by
    rw [regs2Byte_eq_none_iff, wordOffset]
    omega
  exact ⟨by simp only [State.view16, State.regionSpace, hword], regs2Byte_eq_none_iff.2 h⟩

theorem view_vdp1Regs_eq_none {s : State} {peek : Bool} {off : Nat} (h : s.viewReg1 peek off = none) :
    s.view16 peek .vdp1Regs off = none ∧ s.view8 peek .vdp1Regs off = none :=
  ⟨h, by simp only [State.view8, State.regionSpace, h, Option.map_none]⟩

theorem answer16_of_view_none {s : State} {peek : Bool} {r : Region} {off : Nat} (h : s.view16 peek r off = none) :
    s.answer16 peek r off = (s.reply (.word s.freeWord)).useFree := by
  simp only [State.answer16, h]

theorem answer8_of_view_none {s : State} {peek : Bool} {r : Region} {off : Nat} (h : s.view8 peek r off = none) :
    s.answer8 peek r off = (s.reply (.byte (byteAt off s.freeWord))).useFree := by
  simp only [State.answer8, h]

/-- Settles O41: where neither a word nor a byte is specified, both accesses answer from the same free word. -/
theorem unspecifiedReadsChangeNothing : Obligations.UnspecifiedReadsChangeNothing := by
  intro s peek r off reg h w
  have hview : s.view16 peek r off = none ∧ s.view8 peek r off = none := by
    rcases h with ⟨rfl, h⟩ | ⟨rfl, h⟩
    · exact view_vdp1Regs_eq_none (viewReg1_eq_none_iff.2 h)
    · exact view_vdp2Regs_eq_none h peek
  obtain ⟨hword, hbyte⟩ := hview
  refine ⟨answer16_of_view_none hword, ?_⟩
  rw [answer8_of_view_none hbyte, byteAt_eq]
  rfl

end Sys2Proof.Machine
end

section
/-! PROOF. The host's accesses: what pokes and writes store and leave, what reads and peeks answer, and the write penalty
(`20_memory.md` R32 to R38, R47 to R49). -/

namespace Sys2Proof.Machine

/-! ### Updates that leave the processor, the requests and the outputs alone (R47) -/

/-- What a poke leaves alone: the processor, the drawing context, the sequencer, the callbacks and the replies. -/
structure SameControl (s t : State) : Prop where
  proc : t.proc = s.proc
  ctx : t.ctx = s.ctx
  seq : t.seq = s.seq
  trace : t.trace = s.trace
  replies : t.replies = s.replies

theorem setMem_sameControl (s : State) (sp : Space) (m : Memory) : SameControl s (s.setMem sp m) :=
  ⟨s.setMem_proc sp m, s.setMem_ctx sp m, s.setMem_seq sp m, s.setMem_trace sp m, s.setMem_replies sp m⟩

theorem storeReg1_sameControl (s : State) (g : Reg1) (v : Word) : SameControl s (s.storeReg1 g v) := by
  cases g <;> exact ⟨rfl, rfl, rfl, rfl, rfl⟩

theorem writeRegs2Byte_sameControl (s : State) (off : Nat) (b : Byte) : SameControl s (s.writeRegs2Byte off b) := by
  unfold State.writeRegs2Byte
  split <;> exact ⟨rfl, rfl, rfl, rfl, rfl⟩

theorem writeRegs2Word_sameControl (s : State) (off : Nat) (w : Word) : SameControl s (s.writeRegs2Word off w) := by
  unfold State.writeRegs2Word
  split <;> exact ⟨rfl, rfl, rfl, rfl, rfl⟩

theorem poke8_sameControl (s : State) (r : Region) (off : Nat) (b : Byte) : SameControl s (s.poke8 r off b) := by
  unfold State.poke8
  split
  · exact setMem_sameControl s _ _
  · exact writeRegs2Byte_sameControl s off b
  · split
    · exact storeReg1_sameControl s _ _
    · exact ⟨rfl, rfl, rfl, rfl, rfl⟩

theorem poke16_sameControl (s : State) (r : Region) (off : Nat) (w : Word) : SameControl s (s.poke16 r off w) := by
  unfold State.poke16
  split
  · exact setMem_sameControl s _ _
  · exact writeRegs2Word_sameControl s off w
  · split
    · exact storeReg1_sameControl s _ _
    · exact ⟨rfl, rfl, rfl, rfl, rfl⟩

/-! ### The write penalty (R48) -/

theorem writePenalty_eq_of_busy {s : State} (h : s.proc.status = .busy) :
    s.writePenalty .vdp1Vram =
      { s with proc := { s.proc with cyclePool := s.proc.cyclePool - Config.vramWritePenalty } } := by
  simp only [State.writePenalty, h]

theorem writePenalty_eq_self_of_not_busy {s : State} (h : s.proc.status ≠ .busy) (r : Region) :
    s.writePenalty r = s := by
  unfold State.writePenalty
  split
  next hbusy => exact absurd hbusy h
  next => rfl

/-- The penalty is one of cycles: only the processor can differ. -/
theorem writePenalty_eq_withProc (s : State) (r : Region) : ∃ p, s.writePenalty r = { s with proc := p } := by
  unfold State.writePenalty
  split <;> exact ⟨_, rfl⟩

@[simp] theorem State.writePenalty_regs1 (s : State) (r : Region) : (s.writePenalty r).regs1 = s.regs1 := by
  obtain ⟨p, h⟩ := writePenalty_eq_withProc s r
  rw [h]

@[simp] theorem State.writePenalty_regs2 (s : State) (r : Region) : (s.writePenalty r).regs2 = s.regs2 := by
  obtain ⟨p, h⟩ := writePenalty_eq_withProc s r
  rw [h]

@[simp] theorem State.writePenalty_seq (s : State) (r : Region) : (s.writePenalty r).seq = s.seq := by
  obtain ⟨p, h⟩ := writePenalty_eq_withProc s r
  rw [h]

@[simp] theorem State.writePenalty_replies (s : State) (r : Region) : (s.writePenalty r).replies = s.replies := by
  obtain ⟨p, h⟩ := writePenalty_eq_withProc s r
  rw [h]

/-- Outside the VDP1 registers a write is the poke and then the penalty (R47, R48). -/
theorem write8_eq_poke8 {r : Region} (h : r ≠ .vdp1Regs) (s : State) (off : Nat) (b : Byte) :
    s.write8 r off b = (s.poke8 r off b).writePenalty r := by
  cases r
  case vdp1Regs => exact absurd rfl h
  all_goals rfl

theorem write16_eq_poke16 {r : Region} (h : r ≠ .vdp1Regs) (s : State) (off : Nat) (w : Word) :
    s.write16 r off w = (s.poke16 r off w).writePenalty r := by
  cases r
  case vdp1Regs => exact absurd rfl h
  all_goals rfl

/-- Settles O44: a poke keeps the processor, and a write is a poke with the penalty after it. -/
theorem writePenaltyOnlyWhileBusy : Obligations.WritePenaltyOnlyWhileBusy := by
  intro s off w b paid
  have hpoke16 : (s.poke16 .vdp1Vram off w).proc = s.proc := (poke16_sameControl s _ off w).proc
  have hpoke8 : (s.poke8 .vdp1Vram off b).proc = s.proc := (poke8_sameControl s _ off b).proc
  rw [write16_eq_poke16 (by decide), write8_eq_poke8 (by decide)]
  refine ⟨fun hbusy => ?_, fun hbusy => ?_, hpoke16, hpoke8⟩
  · rw [writePenalty_eq_of_busy (by rwa [hpoke16]), writePenalty_eq_of_busy (by rwa [hpoke8]), hpoke16, hpoke8]
    exact ⟨rfl, rfl⟩
  · rw [writePenalty_eq_self_of_not_busy (by rwa [hpoke16]), writePenalty_eq_self_of_not_busy (by rwa [hpoke8])]
    exact ⟨hpoke16, hpoke8⟩

/-! ### Writes store what pokes store (R47) -/

/-- The words of the six registers the host can write. -/
def Regs1.writable (g : Regs1) : Word × Word × Word × Word × Word × Word :=
  (g.tvmr, g.fbcr, g.ptmr, g.ewdr, g.ewlr, g.ewrr)

theorem State.requestChange_regs1 (s : State) (v : Word) : (s.requestChange v).regs1 = s.regs1 := by
  rw [requestChange_eq]

theorem State.plotTrigger_writable (s : State) (v : Word) : (s.plotTrigger v).regs1.writable = s.regs1.writable := by
  unfold State.plotTrigger
  split <;> rfl

theorem State.plotTrigger_regs2 (s : State) (v : Word) : (s.plotTrigger v).regs2 = s.regs2 := by
  unfold State.plotTrigger
  split <;> rfl

theorem State.forceEnd_regs1 (s : State) : s.forceEnd.regs1 = s.regs1 := by
  rw [forceEnd_eq, State.setStatus_regs1]

/-- The action of a register write leaves the writable registers as they were stored; a poke of a read-only register does
not reach them. -/
theorem writeReg1_writable (s : State) (g : Reg1) (v : Word) :
    (s.writeReg1 g v).regs1.writable = (s.storeReg1 g v).regs1.writable := by
  cases g
  case fbcr => exact congrArg Regs1.writable (State.requestChange_regs1 _ v)
  case ptmr => exact State.plotTrigger_writable _ v
  case endr => exact congrArg Regs1.writable (State.forceEnd_regs1 s)
  all_goals rfl

@[simp] theorem State.storeReg1_regs2 (s : State) (g : Reg1) (v : Word) : (s.storeReg1 g v).regs2 = s.regs2 := by
  cases g <;> rfl

@[simp] theorem State.writeReg1_regs2 (s : State) (g : Reg1) (v : Word) : (s.writeReg1 g v).regs2 = s.regs2 := by
  cases g
  case fbcr => rw [State.writeReg1, requestChange_eq]; rfl
  case ptmr => exact State.plotTrigger_regs2 _ v
  case endr => rw [State.writeReg1, forceEnd_eq]; rfl
  all_goals rfl

theorem poke16_of_reg1At {off : Nat} {g : Reg1} (h : reg1At off = some g) (s : State) (w : Word) :
    s.poke16 .vdp1Regs off w = s.storeReg1 g w := by
  simp only [State.poke16, State.regionSpace, h]

theorem poke16_of_no_reg1 {off : Nat} (h : reg1At off = none) (s : State) (w : Word) :
    s.poke16 .vdp1Regs off w = s := by
  simp only [State.poke16, State.regionSpace, h]

theorem poke8_of_reg1At {off : Nat} {g : Reg1} (h : reg1At off = some g) (s : State) (b : Byte) :
    s.poke8 .vdp1Regs off b = s.storeReg1 g (s.mergeByte g off b) := by
  simp only [State.poke8, State.regionSpace, h]

theorem poke8_of_no_reg1 {off : Nat} (h : reg1At off = none) (s : State) (b : Byte) :
    s.poke8 .vdp1Regs off b = s := by
  simp only [State.poke8, State.regionSpace, h]

/-- The poke `t` and the write `u` have stored the same: in the memories, in the VDP2 bank and in the writable VDP1
registers. -/
structure SameStores (t u : State) : Prop where
  mem : t.mem = u.mem
  regs2 : t.regs2 = u.regs2
  writable : t.regs1.writable = u.regs1.writable

theorem writePenalty_sameStores (s : State) (r : Region) : SameStores s (s.writePenalty r) :=
  ⟨by simp, by simp, by simp⟩

theorem writeReg1_sameStores (s : State) (g : Reg1) (v : Word) : SameStores (s.storeReg1 g v) (s.writeReg1 g v) :=
  ⟨by simp, by simp, (writeReg1_writable s g v).symm⟩

theorem poke8_sameStores (s : State) (r : Region) (off : Nat) (b : Byte) :
    SameStores (s.poke8 r off b) (s.write8 r off b) := by
  by_cases hr : r = .vdp1Regs
  · subst hr
    cases hg : reg1At off with
    | none => rw [poke8_of_no_reg1 hg, write8_of_no_reg1 hg]; exact ⟨rfl, rfl, rfl⟩
    | some g => rw [poke8_of_reg1At hg, write8_of_reg1At hg]; exact writeReg1_sameStores s g _
  · rw [write8_eq_poke8 hr]
    exact writePenalty_sameStores _ r

theorem poke16_sameStores (s : State) (r : Region) (off : Nat) (w : Word) :
    SameStores (s.poke16 r off w) (s.write16 r off w) := by
  by_cases hr : r = .vdp1Regs
  · subst hr
    cases hg : reg1At off with
    | none => rw [poke16_of_no_reg1 hg, write16_of_no_reg1 hg]; exact ⟨rfl, rfl, rfl⟩
    | some g => rw [poke16_of_reg1At hg, write16_of_reg1At hg]; exact writeReg1_sameStores s g _
  · rw [write16_eq_poke16 hr]
    exact writePenalty_sameStores _ r

/-! ### Pokes and peeks of the VDP1 registers (R11 to R22, R47) -/

/-- The word a peek of the region sees at an even offset: a register's stored word, MODR, and 0 elsewhere. -/
def State.peekedWord (s : State) (reg : Nat) : Word :=
  if reg = 0x00 then s.regs1.tvmr
  else if reg = 0x02 then s.regs1.fbcr
  else if reg = 0x04 then s.regs1.ptmr
  else if reg = 0x06 then s.regs1.ewdr
  else if reg = 0x08 then s.regs1.ewlr
  else if reg = 0x0A then s.regs1.ewrr
  else if reg = 0x10 then s.regs1.edsr
  else if reg = 0x12 then s.regs1.lopr
  else if reg = 0x14 then s.regs1.copr
  else if reg = 0x16 then s.modr
  else 0

/-- The state after a poke of the region at an even offset, with the bits each register stores (R12 to R21). -/
def State.pokedReg1 (s : State) (reg : Nat) (w : Word) : State :=
  if reg = 0x00 then { s with regs1 := { s.regs1 with tvmr := w &&& 0x000F#16 } }
  else if reg = 0x02 then { s with regs1 := { s.regs1 with fbcr := w &&& 0x001F#16 } }
  else if reg = 0x04 then { s with regs1 := { s.regs1 with ptmr := w &&& 0x0003#16 } }
  else if reg = 0x06 then { s with regs1 := { s.regs1 with ewdr := w } }
  else if reg = 0x08 then { s with regs1 := { s.regs1 with ewlr := w &&& 0x7FFF#16 } }
  else if reg = 0x0A then { s with regs1 := { s.regs1 with ewrr := w } }
  else if reg = 0x10 then { s with regs1 := { s.regs1 with edsr := w &&& 0x0003#16 } }
  else if reg = 0x12 then { s with regs1 := { s.regs1 with lopr := w } }
  else if reg = 0x14 then { s with regs1 := { s.regs1 with copr := w } }
  else s

theorem peekedWord_offset (s : State) (g : Reg1) : s.peekedWord g.offset = s.reg1Word g := by
  cases g <;> rfl

theorem pokedReg1_offset (s : State) (g : Reg1) (w : Word) : s.pokedReg1 g.offset w = s.storeReg1 g w := by
  cases g <;> rfl

theorem pokedReg1_of_no_reg1 {off : Nat} (h : reg1At off = none) (s : State) (w : Word) :
    s.pokedReg1 (off % 0x20 / 2 * 2) w = s := by
  have hnone := reg1At_eq_none_iff.1 h
  unfold State.pokedReg1
  generalize off % 0x20 / 2 * 2 = reg at hnone
  iterate 9 rw [if_neg (by omega)]

theorem poke16_eq_pokedReg1 (s : State) (off : Nat) (w : Word) :
    s.poke16 .vdp1Regs off w = s.pokedReg1 (off % 0x20 / 2 * 2) w := by
  cases hg : reg1At off with
  | none => rw [poke16_of_no_reg1 hg, pokedReg1_of_no_reg1 hg]
  | some g => rw [poke16_of_reg1At hg, reg1At_eq_some_iff.1 hg, pokedReg1_offset]

/-- A byte poke is the word poke of the stored word with that byte replaced (R47). -/
theorem poke8_eq_pokedReg1 (s : State) (off : Nat) (b : Byte) :
    s.poke8 .vdp1Regs off b =
      s.pokedReg1 (off % 0x20 / 2 * 2) (replaceByte off (s.peekedWord (off % 0x20 / 2 * 2)) b) := by
  cases hg : reg1At off with
  | none => rw [poke8_of_no_reg1 hg, pokedReg1_of_no_reg1 hg]
  | some g =>
    rw [poke8_of_reg1At hg, reg1At_eq_some_iff.1 hg, pokedReg1_offset, peekedWord_offset, State.mergeByte]

/-! ### What reads and peeks answer (R36, R47) -/

theorem answer16_of_view {s : State} {peek : Bool} {r : Region} {off : Nat} {w : Word}
    (h : s.view16 peek r off = some w) : s.answer16 peek r off = s.reply (.word w) := by
  simp only [State.answer16, h]

theorem answer8_of_view {s : State} {peek : Bool} {r : Region} {off : Nat} {b : Byte}
    (h : s.view8 peek r off = some b) : s.answer8 peek r off = s.reply (.byte b) := by
  simp only [State.answer8, h]

/-- A peek sees every register of the region (R47). -/
theorem viewReg1_peek_of_reg {off : Nat} (hle : off % 0x20 / 2 * 2 ≤ 0x16) (hne : off % 0x20 / 2 * 2 ≠ 0x0E)
    (s : State) : s.viewReg1 true off = some (s.peekedWord (off % 0x20 / 2 * 2)) := by
  cases hg : reg1At off with
  | none =>
    rcases reg1At_eq_none_iff.1 hg with h | h
    · exact absurd h hne
    · omega
  | some g => rw [reg1At_eq_some_iff.1 hg, peekedWord_offset]; simp [State.viewReg1, hg]

theorem view8_peek_of_reg {off : Nat} (hle : off % 0x20 / 2 * 2 ≤ 0x16) (hne : off % 0x20 / 2 * 2 ≠ 0x0E)
    (s : State) :
    s.view8 true .vdp1Regs off = some (byteAt off (s.peekedWord (off % 0x20 / 2 * 2))) := by
  simp only [State.view8, State.regionSpace, viewReg1_peek_of_reg hle hne s, Option.map_some]

/-- Outside the VDP1 registers a peek sees what a read sees (R36, R47). -/
theorem view_peek_eq_read {r : Region} (h : r ≠ .vdp1Regs) (s : State) (off : Nat) :
    s.view16 true r off = s.view16 false r off ∧ s.view8 true r off = s.view8 false r off := by
  cases r
  case vdp1Regs => exact absurd rfl h
  all_goals exact ⟨rfl, rfl⟩

theorem answer16_changes_replies (s : State) (peek : Bool) (r : Region) (off : Nat) :
    ∃ (w : Word) (n : Nat), s.answer16 peek r off = { s with replies := s.replies ++ [.word w], freeCtr := n } := by
  cases h : s.view16 peek r off with
  | none => exact ⟨_, _, answer16_of_view_none h⟩
  | some w => exact ⟨w, s.freeCtr, answer16_of_view h⟩

theorem answer8_changes_replies (s : State) (peek : Bool) (r : Region) (off : Nat) :
    ∃ (b : Byte) (n : Nat), s.answer8 peek r off = { s with replies := s.replies ++ [.byte b], freeCtr := n } := by
  cases h : s.view8 peek r off with
  | none => exact ⟨_, _, answer8_of_view_none h⟩
  | some b => exact ⟨b, s.freeCtr, answer8_of_view h⟩

/-- Settles O43: pokes store as writes do and keep the rest, and peeks see the stored words. -/
theorem pokesHaveNoSideEffects : Obligations.PokesHaveNoSideEffects := by
  refine ⟨fun s r off w b => ?_, fun s off w b => ?_, fun s r off => ⟨fun hr => ?_, fun peek => ?_⟩⟩
  · obtain ⟨hproc16, hctx16, hseq16, htrace16, hreplies16⟩ := poke16_sameControl s r off w
    obtain ⟨hproc8, hctx8, hseq8, htrace8, hreplies8⟩ := poke8_sameControl s r off b
    obtain ⟨hmem16, hbank16, hwritable16⟩ := poke16_sameStores s r off w
    obtain ⟨hmem8, hbank8, -⟩ := poke8_sameStores s r off b
    exact ⟨⟨hproc16, hctx16, hseq16, htrace16, hreplies16⟩, ⟨hproc8, hctx8, hseq8, htrace8, hreplies8⟩,
      fun sp => ⟨congrFun hmem16 sp, congrFun hmem8 sp⟩, hbank16, hbank8, hwritable16⟩
  · refine ⟨poke16_eq_pokedReg1 s off w, ?_, fun hle hne => ⟨?_, ?_⟩⟩
    · rw [poke8_eq_pokedReg1, replaceByte_eq]
      rfl
    · exact answer16_of_view (r := .vdp1Regs) (viewReg1_peek_of_reg hle hne s)
    · rw [answer8_of_view (view8_peek_of_reg hle hne s), byteAt, extractLsb'_high_eq, extractLsb'_low_eq]
      rfl
  · obtain ⟨hword, hbyte⟩ := view_peek_eq_read hr s off
    exact ⟨by rw [State.answer16, State.answer16, hword], by rw [State.answer8, State.answer8, hbyte]⟩
  · exact ⟨answer16_changes_replies s peek r off, answer8_changes_replies s peek r off⟩

/-! ### Memory regions (R33 to R35, R38) -/

/-- The sizes of R5 are even, so an even offset wraps as the aligned offset of a word does (R33, R34). -/
theorem half_mul_two_mod {size : Nat} (h : size % 2 = 0) (off : Nat) : off / 2 * 2 % size = wordOffset size off := by
  obtain ⟨k, rfl⟩ := Nat.dvd_of_mod_eq_zero h
  rw [wordOffset, Nat.mod_mul_right_div_self, Nat.mul_comm 2 k, Nat.mul_mod_mul_right]

theorem half_mul_two_succ_mod {size : Nat} (hpos : 0 < size) (h : size % 2 = 0) (off : Nat) :
    (off / 2 * 2 + 1) % size = wordOffset size off + 1 := by
  rw [← Nat.mod_add_mod, half_mul_two_mod h, Nat.mod_eq_of_lt (wordOffset_succ_lt hpos h off)]

/-- After a word write the byte at the even offset is the high byte, the one after it the low byte (R35). -/
theorem Memory.read8_write16_high {size : Nat} (h : size % 2 = 0) (m : Memory) (off : Nat) (w : Word) :
    (m.write16 size off w).read8 size (off / 2 * 2) = BitVec.ofNat 8 (w.toNat / 0x100) := by
  rw [Memory.read8, half_mul_two_mod h, Memory.byte_write16_hi, extractLsb'_high_eq]

theorem Memory.read8_write16_low {size : Nat} (hpos : 0 < size) (h : size % 2 = 0) (m : Memory) (off : Nat)
    (w : Word) : (m.write16 size off w).read8 size (off / 2 * 2 + 1) = BitVec.ofNat 8 w.toNat := by
  rw [Memory.read8, half_mul_two_succ_mod hpos h, Memory.byte_write16_lo, extractLsb'_low_eq]

theorem Memory.write8_add_size (size : Nat) (m : Memory) (off : Nat) (b : Byte) :
    m.write8 size (off + size) b = m.write8 size off b := by
  rw [Memory.write8, Memory.write8, Nat.add_mod_right]

theorem Memory.write16_add_size (size : Nat) (m : Memory) (off : Nat) (w : Word) :
    m.write16 size (off + size) w = m.write16 size off w := by
  rw [Memory.write16, Memory.write16, wordOffset, wordOffset, Nat.add_mod_right]

theorem ne_vdp1Regs_of_memory {s : State} {r : Region} {sp : Space} (h : s.regionSpace r = some sp) :
    r ≠ .vdp1Regs := by
  rintro rfl
  cases h

/-- The memory behind a region depends on the choice of the draw framebuffer alone (R38). -/
theorem regionSpace_congr {s t : State} (h : t.seq = s.seq) (r : Region) : t.regionSpace r = s.regionSpace r := by
  cases r <;> simp [State.regionSpace, State.drawSpace, h]

section MemoryRegion

variable {s : State} {r : Region} {sp : Space} (h : s.regionSpace r = some sp)
include h

theorem write8_of_memory (off : Nat) (b : Byte) : s.write8 r off b = (s.memWrite8 sp off b).writePenalty r := by
  rw [write8_eq_poke8 (ne_vdp1Regs_of_memory h), poke8_of_memory h]

theorem write16_of_memory (off : Nat) (w : Word) : s.write16 r off w = (s.memWrite16 sp off w).writePenalty r := by
  rw [write16_eq_poke16 (ne_vdp1Regs_of_memory h), poke16_of_memory h]

theorem write8_mem_of_memory (off : Nat) (b : Byte) :
    (s.write8 r off b).mem = (s.setMem sp ((s.mem sp).write8 sp.size off b)).mem := by
  rw [write8_of_memory h, State.writePenalty_mem, State.memWrite8]

theorem write16_mem_of_memory (off : Nat) (w : Word) :
    (s.write16 r off w).mem = (s.setMem sp ((s.mem sp).write16 sp.size off w)).mem := by
  rw [write16_of_memory h, State.writePenalty_mem, State.memWrite16]

theorem write8_regionSpace (off : Nat) (b : Byte) : (s.write8 r off b).regionSpace r = some sp := by
  rw [regionSpace_congr _ r, h]
  simp [write8_of_memory h, State.memWrite8]

theorem write16_regionSpace (off : Nat) (w : Word) : (s.write16 r off w).regionSpace r = some sp := by
  rw [regionSpace_congr _ r, h]
  simp [write16_of_memory h, State.memWrite16]

theorem answer8_of_memory (peek : Bool) (off : Nat) :
    s.answer8 peek r off = s.reply (.byte ((s.mem sp).read8 sp.size off)) :=
  answer8_of_view (by simp only [State.view8, h, State.memRead8])

theorem answer16_of_memory (peek : Bool) (off : Nat) :
    s.answer16 peek r off = s.reply (.word ((s.mem sp).read16 sp.size off)) :=
  answer16_of_view (by simp only [State.view16, h, State.memRead16])

/-- What a read of a byte answers after a write of a word. -/
theorem answer8_write16_replies (off x : Nat) (w : Word) :
    ((s.write16 r off w).answer8 false r x).replies =
      s.replies ++ [.byte (((s.mem sp).write16 sp.size off w).read8 sp.size x)] := by
  rw [answer8_of_memory (write16_regionSpace h off w), State.reply_replies, write16_mem_of_memory h,
    State.mem_setMem_same]
  simp [write16_of_memory h, State.memWrite16]

theorem answer16_write16_replies (off : Nat) (w : Word) :
    ((s.write16 r off w).answer16 false r off).replies = s.replies ++ [.word w] := by
  rw [answer16_of_memory (write16_regionSpace h off w), State.reply_replies, write16_mem_of_memory h,
    State.mem_setMem_same, Memory.read16_write16_same]
  simp [write16_of_memory h, State.memWrite16]

theorem answer8_write8_replies (off : Nat) (b : Byte) :
    ((s.write8 r off b).answer8 false r off).replies = s.replies ++ [.byte b] := by
  rw [answer8_of_memory (write8_regionSpace h off b), State.reply_replies, write8_mem_of_memory h,
    State.mem_setMem_same, Memory.read8_write8_same]
  simp [write8_of_memory h, State.memWrite8]

end MemoryRegion

/-! ### The VDP2 register bank (R32, R36, R49) -/

/-- The bank after a word is stored in it, high byte first (R34, R35). -/
def Regs2.setWord (g : Regs2) (off : Nat) (w : Word) : Regs2 :=
  (g.setIfInBounds (wordOffset 0x200 off) (w.extractLsb' 8 8)).setIfInBounds (wordOffset 0x200 off + 1)
    (w.extractLsb' 0 8)

/-- A write of the bank stores the word and re-derives the layer-enable table and the requested resolution (R148, R177). -/
theorem write16_vdp2Regs {off : Nat} (h : off % 0x200 < 0x120) (s : State) (w : Word) :
    s.write16 .vdp2Regs off w = { s with regs2 := Regs2.setWord s.regs2 off w }.rederive := by
  change s.writeRegs2Word off w = _
  rw [State.writeRegs2Word, if_pos h, Regs2.setWord]

theorem write8_vdp2Regs {off : Nat} (h : off % 0x200 < 0x120) (s : State) (b : Byte) :
    s.write8 .vdp2Regs off b = { s with regs2 := s.regs2.setIfInBounds (off % 0x200) b }.rederive := by
  change s.writeRegs2Byte off b = _
  rw [State.writeRegs2Byte, if_pos h]

/-- Past the last register a write is ignored and re-derives nothing (R32, log 6). -/
theorem write_vdp2Regs_ignored {off : Nat} (h : 0x120 ≤ off % 0x200) (s : State) (w : Word) (b : Byte) :
    s.write16 .vdp2Regs off w = s ∧ s.write8 .vdp2Regs off b = s := by
  change s.writeRegs2Word off w = s ∧ s.writeRegs2Byte off b = s
  rw [State.writeRegs2Word, State.writeRegs2Byte, if_neg (by omega), if_neg (by omega)]
  exact ⟨rfl, rfl⟩

section Bank

variable {off : Nat} (h : off % 0x200 < 0x120)
include h

theorem wordOffset_succ_lt_bank : wordOffset 0x200 off + 1 < 0x120 := by
  unfold wordOffset
  omega

theorem setWord_high (g : Regs2) (w : Word) :
    (Regs2.setWord g off w)[wordOffset 0x200 off]? = some (w.extractLsb' 8 8) := by
  have hlt := wordOffset_succ_lt_bank h
  rw [Regs2.setWord, Vector.getElem?_setIfInBounds_ne (by omega), Vector.getElem?_setIfInBounds_self_of_lt (by omega)]

theorem setWord_low (g : Regs2) (w : Word) :
    (Regs2.setWord g off w)[wordOffset 0x200 off + 1]? = some (w.extractLsb' 0 8) := by
  have hlt := wordOffset_succ_lt_bank h
  rw [Regs2.setWord, Vector.getElem?_setIfInBounds_self_of_lt hlt]

theorem regs2Byte_write16_high {x : Nat} (hx : x % 0x200 = wordOffset 0x200 off) (s : State) (w : Word) :
    (s.write16 .vdp2Regs off w).regs2Byte x = some (w.extractLsb' 8 8) := by
  rw [State.regs2Byte, hx, write16_vdp2Regs h]
  exact setWord_high h s.regs2 w

theorem regs2Byte_write16_low {x : Nat} (hx : x % 0x200 = wordOffset 0x200 off + 1) (s : State) (w : Word) :
    (s.write16 .vdp2Regs off w).regs2Byte x = some (w.extractLsb' 0 8) := by
  rw [State.regs2Byte, hx, write16_vdp2Regs h]
  exact setWord_low h s.regs2 w

theorem regs2Byte_write8 (s : State) (b : Byte) : (s.write8 .vdp2Regs off b).regs2Byte off = some b := by
  rw [State.regs2Byte, write8_vdp2Regs h]
  exact Vector.getElem?_setIfInBounds_self_of_lt h

/-- What is written reads back: a word, each of its bytes, and a byte. -/
theorem vdp2Regs_reads_back (s : State) (w : Word) (b : Byte) :
    (s.write16 .vdp2Regs off w).view16 false .vdp2Regs off = some w ∧
      (s.write16 .vdp2Regs off w).view8 false .vdp2Regs (off / 2 * 2) = some (BitVec.ofNat 8 (w.toNat / 0x100)) ∧
      (s.write16 .vdp2Regs off w).view8 false .vdp2Regs (off / 2 * 2 + 1) = some (BitVec.ofNat 8 w.toNat) ∧
      (s.write8 .vdp2Regs off b).view8 false .vdp2Regs off = some b := by
  have hlt := wordOffset_succ_lt_bank h
  refine ⟨?_, ?_, ?_, regs2Byte_write8 h s b⟩
  · have hhigh := regs2Byte_write16_high h (Nat.mod_eq_of_lt (by omega)) s w
    have hlow := regs2Byte_write16_low h (Nat.mod_eq_of_lt (by omega)) s w
    simp only [State.view16, State.regionSpace, hhigh, hlow, word_of_bytes]
  · rw [← extractLsb'_high_eq]
    exact regs2Byte_write16_high h (half_mul_two_mod rfl off) s w
  · rw [← extractLsb'_low_eq]
    exact regs2Byte_write16_low h (half_mul_two_succ_mod (by decide) rfl off) s w

/-- A write changes the byte, or the two bytes of the word, that the offset addresses. -/
theorem write16_vdp2Regs_frame (s : State) (w : Word) (k : Fin 0x120) (hk : k.val / 2 ≠ off % 0x200 / 2) :
    (s.write16 .vdp2Regs off w).regs2[k] = s.regs2[k] := by
  have hhigh : wordOffset 0x200 off ≠ k.val := by
    unfold wordOffset
    omega
  have hlow : wordOffset 0x200 off + 1 ≠ k.val := by
    unfold wordOffset
    omega
  rw [write16_vdp2Regs h]
  exact (Vector.getElem_setIfInBounds_ne _ hlow).trans (Vector.getElem_setIfInBounds_ne _ hhigh)

theorem write8_vdp2Regs_frame (s : State) (b : Byte) (k : Fin 0x120) (hk : k.val ≠ off % 0x200) :
    (s.write8 .vdp2Regs off b).regs2[k] = s.regs2[k] := by
  rw [write8_vdp2Regs h]
  exact Vector.getElem_setIfInBounds_ne _ hk.symm

theorem bank_writes_replies (s : State) (w : Word) (b : Byte) :
    (s.write16 .vdp2Regs off w).replies = s.replies ∧ (s.write8 .vdp2Regs off b).replies = s.replies := by
  rw [write16_vdp2Regs h, write8_vdp2Regs h]
  exact ⟨rfl, rfl⟩

end Bank

/-- Settles O42: a memory region is read and written through its memory, the bank through its bytes. -/
theorem hostWritesReadBack : Obligations.HostWritesReadBack := by
  refine ⟨fun s r sp off w b h => ?_, fun s off w b => ⟨fun h => ?_, fun h => ?_⟩⟩
  · refine ⟨answer16_write16_replies h off w, ?_, ?_, answer8_write8_replies h off b, ?_, ?_, fun x h0 h1 => ?_,
      fun x hx => ?_, fun sp' hne => ⟨?_, ?_⟩⟩
    · rw [answer8_write16_replies h, Memory.read8_write16_high sp.size_even]
    · rw [answer8_write16_replies h, Memory.read8_write16_low sp.size_pos sp.size_even]
    · rw [write16_of_memory h, write16_of_memory h, State.memWrite16, Memory.write16_add_size, ← State.memWrite16]
    · rw [write8_of_memory h, write8_of_memory h, State.memWrite8, Memory.write8_add_size, ← State.memWrite8]
    · rw [write16_mem_of_memory h, State.mem_setMem_same]
      exact Memory.byte_write16_ne _ _ w h0 h1
    · rw [write8_mem_of_memory h, State.mem_setMem_same]
      exact Memory.byte_write8_ne _ _ b hx
    · rw [write16_mem_of_memory h, State.mem_setMem_ne s _ hne]
    · rw [write8_mem_of_memory h, State.mem_setMem_ne s _ hne]
  · obtain ⟨hword, hhigh, hlow, hbyte⟩ := vdp2Regs_reads_back h s w b
    obtain ⟨hreplies16, hreplies8⟩ := bank_writes_replies h s w b
    refine ⟨?_, ?_, ?_, ?_, ?_, ?_, write16_vdp2Regs_frame h s w, write8_vdp2Regs_frame h s b⟩
    · rw [write16_vdp2Regs h]; rfl
    · rw [write8_vdp2Regs h]; rfl
    · rw [answer16_of_view hword, State.reply_replies, hreplies16]
    · rw [answer8_of_view hhigh, State.reply_replies, hreplies16]
    · rw [answer8_of_view hlow, State.reply_replies, hreplies16]
    · rw [answer8_of_view hbyte, State.reply_replies, hreplies8]
  · exact write_vdp2Regs_ignored h s w b

end Sys2Proof.Machine
end

section
/-! PROOF. What a command leaves alone, and what can change the display framebuffer (`20_memory.md` R38, R39,
`42_vdp1_draw_commands.md` R118, `43_vdp1_framebuffer_control.md` R129 to R133). -/

namespace Sys2Proof.Machine

/-! ### Commands (R39, R69, R118) -/

/-- A draw command writes no memory but the draw framebuffer (R118). -/
theorem runDraw_mem_ne (tx : Bool) (i : Instr) (e : Entry) (draw : DrawEnv → Memory → Drawn) (s : State) {sp : Space}
    (h : sp ≠ s.drawSpace) : (runDraw tx i e draw s).mem sp = s.mem sp := by
  rcases runDraw_cases tx i e draw s with ⟨f, -, hr⟩ | ⟨v, -, hr⟩ <;> rw [hr]
  · rw [State.raise_mem]
  · rw [State.finish_mem, State.setLastVisible_mem, State.mem_setMem_ne s _ h]

theorem runDraw_regs1_trace (tx : Bool) (i : Instr) (e : Entry) (draw : DrawEnv → Memory → Drawn) (s : State) :
    (runDraw tx i e draw s).regs1 = s.regs1 ∧ (runDraw tx i e draw s).trace = s.trace := by
  rcases runDraw_cases tx i e draw s with ⟨f, -, hr⟩ | ⟨v, -, hr⟩ <;> simp [hr]

/-- A command writes no memory but, if it draws, the draw framebuffer. -/
theorem exec_mem_ne {i : Instr} {s t : State} (h : exec i s = .next t) {sp : Space} (hsp : sp ≠ s.drawSpace) :
    t.mem sp = s.mem sp := by
  cases hd : i.drawing with
  | none => rw [exec_mem_of_not_drawing hd h]
  | some d =>
    rw [exec_drawing hd] at h
    obtain rfl : runDraw d.1 i d.2 i.draw s = t := by injection h
    exact runDraw_mem_ne d.1 i d.2 i.draw s hsp

theorem exec_regs1_trace_of_ne_end {i : Instr} {s t : State} (hi : i ≠ .endList) (h : exec i s = .next t) :
    t.regs1 = s.regs1 ∧ t.trace = s.trace := by
  cases hd : i.drawing with
  | none =>
    cases i
    case endList => exact absurd rfl hi
    case nspr | sspr | dspr | poly | plin | line => cases hd
    all_goals cases h; exact ⟨rfl, rfl⟩
  | some d =>
    rw [exec_drawing hd] at h
    obtain rfl : runDraw d.1 i d.2 i.draw s = t := by injection h
    exact runDraw_regs1_trace d.1 i d.2 i.draw s

/-- `END` sets CEF, a bit of EDSR (R69); no other command writes a register. -/
theorem exec_regs1 {i : Instr} {s t : State} (h : exec i s = .next t) :
    t.regs1 = { s.regs1 with edsr := t.regs1.edsr } := by
  by_cases hi : i = .endList
  · subst hi; cases h; rfl
  · rw [(exec_regs1_trace_of_ne_end hi h).1]

theorem exec_lastVisible_of_not_drawing {i : Instr} {s t : State} (hd : i.drawing = none) (h : exec i s = .next t) :
    t.proc.lastVisible = s.proc.lastVisible := by
  cases i <;> cases hd <;> cases h <;> rfl

/-- Settles O15: `exec_sameOutside`, with the memories, the registers and the callbacks. -/
theorem commandsTouchOnlyVdp1 : Obligations.CommandsTouchOnlyVdp1 := by
  intro i s t h
  have hout := exec_sameOutside h
  refine ⟨fun sp => exec_mem_ne h, hout.seq, hout.regs2, hout.tim, hout.cmp, hout.ctl, hout.hostOps, hout.replies,
    hout.freeCtr, exec_regs1 h, fun hi => ?_, fun hd => ?_⟩
  · obtain ⟨hregs, htrace⟩ := exec_regs1_trace_of_ne_end hi h
    exact ⟨htrace, congrArg Regs1.edsr hregs⟩
  · exact ⟨congrFun (exec_mem_of_not_drawing hd h) _, exec_lastVisible_of_not_drawing hd h⟩

/-! ### The two framebuffers (R27, R38) -/

theorem displaySpace_ne_drawSpace (s : State) : s.displaySpace ≠ s.drawSpace := by
  unfold State.displaySpace State.drawSpace
  cases s.seq.drawFB <;> decide

/-- No region of the host is the display framebuffer (R38). -/
theorem displaySpace_ne_regionSpace {s : State} {r : Region} {sp : Space} (h : s.regionSpace r = some sp) :
    s.displaySpace ≠ sp := by
  cases r <;> cases h
  case vdp1Framebuffer => exact displaySpace_ne_drawSpace s
  all_goals exact Space.noConfusion

theorem poke8_mem_displaySpace (s : State) (r : Region) (off : Nat) (b : Byte) :
    (s.poke8 r off b).mem s.displaySpace = s.mem s.displaySpace := by
  cases h : s.regionSpace r with
  | none => rw [poke8_mem_of_register h]
  | some sp => rw [poke8_of_memory h]; exact s.mem_setMem_ne _ (displaySpace_ne_regionSpace h)

theorem poke16_mem_displaySpace (s : State) (r : Region) (off : Nat) (w : Word) :
    (s.poke16 r off w).mem s.displaySpace = s.mem s.displaySpace := by
  cases h : s.regionSpace r with
  | none => rw [poke16_mem_of_register h]
  | some sp => rw [poke16_of_memory h]; exact s.mem_setMem_ne _ (displaySpace_ne_regionSpace h)

/-- Of the host's operations only a hard reset reaches the display framebuffer: a write stores what its poke does, and
that is in the draw framebuffer (R38, R205). -/
theorem hostOp_mem_displaySpace (s : State) {op : HostOp} (h : op ≠ .reset true) :
    (s.hostOp op).mem s.displaySpace = s.mem s.displaySpace := by
  cases op with
  | read8 r off => exact congrFun (s.answer8_mem false r off) _
  | read16 r off => exact congrFun (s.answer16_mem false r off) _
  | write8 r off v =>
    exact (congrFun (poke8_sameStores s r off v).mem _).symm.trans (poke8_mem_displaySpace s r off v)
  | write16 r off v =>
    exact (congrFun (poke16_sameStores s r off v).mem _).symm.trans (poke16_mem_displaySpace s r off v)
  | peek8 r off => exact congrFun (s.answer8_mem true r off) _
  | peek16 r off => exact congrFun (s.answer16_mem true r off) _
  | poke8 r off v => exact poke8_mem_displaySpace s r off v
  | poke16 r off v => exact poke16_mem_displaySpace s r off v
  | advance n => rfl
  | requestResolution res => rfl
  | reset hard =>
    cases hard with
    | false => rfl
    | true => exact absurd rfl h

/-! ### Erases (R129 to R133) -/

/-- The contents an erase leaves depend on the registers and the memories alone (R129). -/
theorem erase_mem_congr {s t : State} (hr : t.regs1 = s.regs1) (hm : t.mem = s.mem) (f : FbId) :
    (t.erase f).mem = (s.erase f).mem := by
  have htvm : t.tvm = s.tvm := by rw [State.tvm, State.tvm, hr]
  have harea (g : Geometry) : t.eraseArea g = s.eraseArea g := by
    simp only [State.eraseArea, State.eraseX1, State.eraseX3, State.eraseY1, State.eraseY3, hr]
  cases hg : geometry s.tvm with
  | none => simp only [State.erase, htvm, hg, hm]
  | some g =>
    simp only [State.erase, htvm, hg, harea, hr, hm]
    funext sp
    by_cases hsp : sp = .fb f
    · subst hsp; rw [State.mem_setMem_same, State.mem_setMem_same]
    · rw [State.mem_setMem_ne t _ hsp, State.mem_setMem_ne s _ hsp, hm]

@[simp] theorem State.erase_tim (s : State) (f : FbId) : (s.erase f).tim = s.tim := by
  rcases erase_cases s f with h | ⟨g, -, h⟩ <;> simp [h]

@[simp] theorem State.vblankErase_tim (s : State) : s.vblankErase.tim = s.tim := by
  rcases vblankErase_cases s with h | h <;> simp [h]

@[simp] theorem State.boundaryErase_tim (s : State) : s.boundaryErase.tim = s.tim := by
  rcases boundaryErase_cases s with h | h <;> simp [h]

@[simp] theorem State.swap_tim (s : State) : s.swap.tim = s.tim := by
  have habandon : s.swapRegisters.abandonList.tim = s.swapRegisters.tim := by
    rcases abandonList_cases s.swapRegisters with ⟨-, h⟩ | ⟨-, h⟩ <;> simp [h]
  rcases swap_cases s with ⟨-, h⟩ | ⟨-, h⟩ <;> simp [h, habandon]

@[simp] theorem State.frameBoundary_tim (s : State) : s.frameBoundary.tim = s.tim := by
  rcases frameBoundary_cases s with h | h <;> simp [h]

/-- The memories of `t` are those of `s`, or those an erase of the display framebuffer of `s` leaves. -/
def SameOrErased (s t : State) : Prop := t.mem = s.mem ∨ t.mem = (s.erase s.seq.drawFB.other).mem

theorem SameOrErased.after_eq {s t u : State} (h : SameOrErased t u) (hr : t.regs1 = s.regs1)
    (hseq : t.seq.drawFB = s.seq.drawFB) (hm : t.mem = s.mem) : SameOrErased s u := by
  rcases h with h | h
  · exact .inl (h.trans hm)
  · rw [hseq, erase_mem_congr hr hm] at h
    exact .inr h

theorem vblankErase_sameOrErased (s : State) : SameOrErased s s.vblankErase :=
  (vblankErase_cases s).imp (congrArg State.mem) (congrArg State.mem)

/-- The erase of the frame boundary, which consumes the request first (R133). -/
theorem boundaryErase_sameOrErased (s : State) : SameOrErased s s.boundaryErase := by
  rcases boundaryErase_cases s with h | h <;> rw [h]
  · exact .inl rfl
  · exact .inr (erase_mem_congr (by rfl) (by rfl) _)

/-- A swap exchanges the framebuffers and moves no contents (R132). -/
theorem frameBoundary_sameOrErased (s : State) : SameOrErased s s.frameBoundary := by
  rcases frameBoundary_cases s with h | h <;> rw [h]
  · exact boundaryErase_sameOrErased s
  · rw [SameOrErased, State.swap_mem]
    exact boundaryErase_sameOrErased s

/-! ### Vertical phase entries (R166, R172 to R175) -/

theorem enterBottomBorder_sameOrErased (s : State) : SameOrErased s s.enterBottomBorder := by
  rw [State.enterBottomBorder, SameOrErased, State.emit_mem]
  exact (vblankErase_sameOrErased _).after_eq (by simp) (by simp) (by simp)

theorem enterLastLine_sameOrErased (s : State) : SameOrErased s s.enterLastLine :=
  (frameBoundary_sameOrErased _).after_eq (by simp) (by simp) (by simp)

theorem VPhase.succ_eq_bottomBorder_iff (p : VPhase) : p.succ = .bottomBorder ↔ p = .active := by
  cases p <;> decide

theorem VPhase.succ_eq_lastLine_iff (p : VPhase) : p.succ = .lastLine ↔ p = .topBorder := by
  cases p <;> decide

/-- A vertical phase entry keeps the memories, or erases at `BottomBorder` or `LastLine`, which stays the phase. -/
theorem vEntryAction_mem_cases (s : State) :
    s.vEntryAction.mem = s.mem ∨
      (s.tim.vPhase = .bottomBorder ∨ s.tim.vPhase = .lastLine) ∧ s.vEntryAction.tim.vPhase = s.tim.vPhase ∧
        s.vEntryAction.mem = (s.erase s.seq.drawFB.other).mem := by
  cases hp : s.tim.vPhase <;> simp only [State.vEntryAction, hp]
  case active => exact .inl (by simp [State.enterVActive, State.withTim_mem])
  case bottomBorder =>
    exact (enterBottomBorder_sameOrErased s).imp_right fun h => ⟨.inl trivial, by simp [State.enterBottomBorder, hp], h⟩
  case blankingAndSync => exact .inl trivial
  case vCounterSkip => exact .inl (by simp)
  case topBorder => exact .inl trivial
  case lastLine =>
    exact (enterLastLine_sameOrErased s).imp_right fun h => ⟨.inr trivial, by simp [State.enterLastLine, hp], h⟩

/-- The state in which the action of the next vertical phase starts (R172). -/
def State.nextVPhase (s : State) : State := { s with tim := { s.tim with vPhase := s.tim.vPhase.succ, vLine := 0 } }

/-- After the action of the phase an iteration of the vertical `repeat` changes its own control flow alone. -/
theorem enterVStep_eq_setCtl (s : State) (remaining : Nat) :
    ∃ c, s.enterVStep remaining = s.nextVPhase.vEntryAction.setCtl c := by
  simp only [State.enterVStep]
  split <;> exact ⟨_, rfl⟩

/-- The display framebuffer is erased on the way out of `Active` and out of `TopBorder`. -/
theorem enterVStep_mem_cases (s : State) (remaining : Nat) :
    (s.enterVStep remaining).mem = s.mem ∨
      (s.tim.vPhase = .active ∧ (s.enterVStep remaining).tim.vPhase = .bottomBorder ∨
          s.tim.vPhase = .topBorder ∧ (s.enterVStep remaining).tim.vPhase = .lastLine) ∧
        (s.enterVStep remaining).mem = (s.erase s.seq.drawFB.other).mem := by
  obtain ⟨c, h⟩ := enterVStep_eq_setCtl s remaining
  rw [h, State.setCtl_mem, State.setCtl_tim]
  refine (vEntryAction_mem_cases s.nextVPhase).imp_right ?_
  rintro ⟨hphase, hkeeps, herase⟩
  rw [hkeeps, herase]
  refine ⟨hphase.imp (fun hp => ⟨?_, hp⟩) (fun hp => ⟨?_, hp⟩), erase_mem_congr (by rfl) (by rfl) _⟩
  · exact (VPhase.succ_eq_bottomBorder_iff _).1 hp
  · exact (VPhase.succ_eq_lastLine_iff _).1 hp

/-! ### Steps -/

/-- Settles O35, by what a step can be: a command writes the draw framebuffer alone, and of the agents only a vertical
phase entry and a hard reset reach the display framebuffer. -/
theorem displayFramebufferIsStable : Obligations.DisplayFramebufferIsStable := by
  intro s t hstep
  rcases step_cases hstep with ⟨-, -, rfl⟩ | ⟨-, -, hexec⟩ | ⟨-, rfl⟩
  · exact .inl (by rw [State.setStatus_mem])
  · have hkept := exec_mem_ne hexec (displaySpace_ne_drawSpace s.latchCopr)
    rw [State.latchCopr_mem] at hkept
    exact .inl hkept
  · rcases agentStep_cases s with ⟨-, -, h⟩ | ⟨op, rest, hctl, hops, h⟩ | ⟨r, -, h⟩ | ⟨c, r, -, h⟩ | ⟨r, -, h⟩ |
      ⟨r, hctl, h⟩ <;> rw [h]
    · exact .inl rfl
    · by_cases hop : op = .reset true
      · exact .inr (.inr ⟨rest, hctl, hop ▸ hops⟩)
      · exact .inl (hostOp_mem_displaySpace { s with hostOps := rest } hop)
    · exact .inl (by rw [State.beginChunk_mem])
    · exact .inl (by rw [State.endChunk_mem])
    · exact .inl (by rw [State.enterHStep_mem])
    · rcases enterVStep_mem_cases s r with hm | ⟨hphase, hm⟩
      · exact .inl (by rw [hm])
      · exact .inr (.inl ⟨r, hctl, hphase, by rw [hm]⟩)

end Sys2Proof.Machine
end

section
/-! PROOF. What `PlotPixel` does to the framebuffer (`20_memory.md` R37, `41_vdp1_pixel_pipeline.md` R86 to R89, R101,
R102). -/

namespace Sys2Proof.Machine

/-! ### The address of a pixel (R37, R89) -/

theorem storedLine_toNat (v : DrawEnv) (y : Int) :
    (v.storedLine y).toNat = if v.die then y.toNat / 2 else y.toNat := by
  unfold DrawEnv.storedLine
  split <;> omega

/-- The masks of R37 keep an offset inside the framebuffer, that of a word even as well. -/
theorem and_fbMask8 (n : Nat) : n &&& 0x3FFFF = n % fbSize := Nat.and_two_pow_sub_one_eq_mod n 18

theorem and_fbMask16 (n : Nat) : n * 2 &&& 0x3FFFE = n * 2 % fbSize := by
  have hmask : n &&& 0x1FFFF = n % 0x20000 := Nat.and_two_pow_sub_one_eq_mod n 17
  calc n * 2 &&& 0x3FFFE = n <<< 1 &&& 0x1FFFF <<< 1 := by rw [Nat.shiftLeft_eq, Nat.pow_one]; rfl
    _ = (n &&& 0x1FFFF) * 2 := by rw [← Nat.shiftLeft_and_distrib, Nat.shiftLeft_eq, Nat.pow_one]
    _ = n % 0x20000 * 2 := by rw [hmask]
    _ = n * 2 % fbSize := (Nat.mul_mod_mul_right 2 n 0x20000).symm

/-- Cell `n` of a framebuffer of words is at an even offset, which a word access leaves as it is. -/
theorem wordOffset_cell (n : Nat) : wordOffset fbSize (n * 2 % fbSize) = n * 2 % fbSize := by
  have hsize : fbSize = 0x40000 := rfl
  rw [wordOffset, hsize]
  omega

theorem pixelAddr_of_16bpp {v : DrawEnv} (h : v.geom.bpp = 16) (p : Point) :
    v.pixelAddr p = (((v.storedLine p.y).toNat * v.geom.width + p.x.toNat) * 2) &&& 0x3FFFE := by
  rw [DrawEnv.pixelAddr, Geometry.addr, if_pos h, and_fbMask16]

theorem pixelAddr_of_8bpp {v : DrawEnv} (h : v.geom.bpp = 8) (p : Point) :
    v.pixelAddr p = ((v.storedLine p.y).toNat * v.geom.width + p.x.toNat) &&& 0x3FFFF := by
  rw [DrawEnv.pixelAddr, Geometry.addr, if_neg (by omega), and_fbMask8]

theorem wordOffset_pixelAddr {v : DrawEnv} (h : v.geom.bpp = 16) (p : Point) :
    wordOffset fbSize (v.pixelAddr p) = v.pixelAddr p := by
  rw [DrawEnv.pixelAddr, Geometry.addr, if_pos h, wordOffset_cell]

theorem pixelAddr_mod {v : DrawEnv} (h : v.geom.bpp = 8) (p : Point) : v.pixelAddr p % fbSize = v.pixelAddr p := by
  rw [DrawEnv.pixelAddr, Geometry.addr, if_neg (by omega), Nat.mod_mod]

/-! ### The two writes (R101, R102) -/

theorem plotPixel_of_not_plots {v : DrawEnv} {p : Point} (h : v.plots p = false) (fb : Memory) (src : Word) (g : Rgb) :
    plotPixel v fb p src g = fb := by
  simp [plotPixel, h]

theorem plotPixel_of_16bpp {v : DrawEnv} {p : Point} (h : v.plots p = true) (hb : v.geom.bpp = 16) (fb : Memory)
    (src : Word) (g : Rgb) : plotPixel v fb p src g = write16bpp v fb p src g := by
  simp [plotPixel, h, hb]

theorem plotPixel_of_8bpp {v : DrawEnv} {p : Point} (h : v.plots p = true) (hb : v.geom.bpp = 8) (fb : Memory)
    (src : Word) (g : Rgb) : plotPixel v fb p src g = write8bpp v fb p src := by
  simp [plotPixel, h, hb]

/-- The word at the pixel is the datum of the colour calculation, and the old word where there is none (R101). -/
theorem read16_write16bpp (v : DrawEnv) (fb : Memory) (p : Point) (src : Word) (g : Rgb) :
    (write16bpp v fb p src g).read16 fbSize (v.pixelAddr p) =
      (writeDatum v.e.pmod src (fb.read16 fbSize (v.pixelAddr p)) g).getD (fb.read16 fbSize (v.pixelAddr p)) := by
  unfold write16bpp
  split
  next out h => rw [h, Memory.read16_write16_same, Option.getD_some]
  next h => rw [h, Option.getD_none]

/-- The byte at the pixel is the low byte of the datum (R102). -/
theorem byte_write8bpp (v : DrawEnv) (fb : Memory) (p : Point) (src : Word) :
    (write8bpp v fb p src).byte (v.pixelAddr p % fbSize) = BitVec.ofNat 8 src.toNat := by
  rw [write8bpp, Memory.write8, Memory.byte_put_same, extractLsb'_low_eq]

/-- Settles O26: by the depth of the framebuffer, with `plotPixel_frame` for the bytes that stay. -/
theorem plotPixelStoresOneDatum : Obligations.PlotPixelStoresOneDatum := by
  intro v fb p src g y a16 a8 after
  have hy : y = (v.storedLine p.y).toNat := (storedLine_toNat v p.y).symm
  refine ⟨fun h => plotPixel_of_not_plots h fb src g, fun h hb => ?_, fun h hb => ?_⟩
  · have haddr : a16 = v.pixelAddr p := by rw [pixelAddr_of_16bpp hb, ← hy]
    refine ⟨?_, fun x h0 h1 => plotPixel_frame v fb p src g x fun _ => ?_⟩
    · have hafter : after = write16bpp v fb p src g := plotPixel_of_16bpp h hb fb src g
      rw [haddr, hafter, read16_write16bpp]
    · rw [haddr] at h0 h1
      simp [DrawEnv.storesAt, hb, wordOffset_pixelAddr hb, h0, h1]
  · have haddr : a8 = v.pixelAddr p := by rw [pixelAddr_of_8bpp hb, ← hy]
    refine ⟨?_, fun x hx => plotPixel_frame v fb p src g x fun _ => ?_⟩
    · have hbyte := byte_write8bpp v fb p src
      rw [pixelAddr_mod hb] at hbyte
      rw [haddr, ← hbyte, ← plotPixel_of_8bpp h hb fb src g]
    · rw [haddr] at hx
      simp [DrawEnv.storesAt, hb, pixelAddr_mod hb, hx]

end Sys2Proof.Machine
end

section
/-! PROOF. The encoding of command entries (`30_encoding.md` R50 to R61): the encoder gives back the words of a decoded
entry, no two well-formed instructions share an encoding, and so the decoder gives back an encoded instruction; the rows
of the opcode table (R52, R53); the decoded fields as numbers. -/

namespace Sys2Proof

/-! ### Bit fields and their concatenation -/

theorem toNat_bits (w : Word) (lo n : Nat) : (bits w lo n).toNat = w.toNat / 2 ^ lo % 2 ^ n := by
  rw [bits, BitVec.extractLsb'_toNat, Nat.shiftRight_eq_div_pow]

theorem bits_all (w : Word) : bits w 0 16 = w := BitVec.extractLsb'_eq_self

theorem bits_append_bits {w : Word} {hi lo n m : Nat} (h : hi = lo + m) :
    bits w hi n ++ bits w lo m = bits w lo (n + m) :=
  BitVec.extractLsb'_append_extractLsb'_eq_extractLsb' h

theorem bitOf_getLsbD (w : Word) (i : Nat) : bitOf (w.getLsbD i) = bits w i 1 := by
  apply BitVec.eq_of_getLsbD_eq
  intro k hk
  obtain rfl : k = 0 := by omega
  simp [bitOf, bits]

theorem bitOf_inj_iff {a b : Bool} : bitOf a = bitOf b ↔ a = b := BitVec.ofBool_eq_iff_eq

theorem append_inj_iff {n m : Nat} {a c : BitVec n} {b d : BitVec m} : a ++ b = c ++ d ↔ a = c ∧ b = d := by
  refine ⟨fun h => ⟨?_, ?_⟩, fun ⟨hac, hbd⟩ => by rw [hac, hbd]⟩
  · rw [← BitVec.extractLsb'_append_eq_left (a := a) (b := b), h, BitVec.extractLsb'_append_eq_left]
  · rw [← BitVec.extractLsb'_append_eq_right (a := a) (b := b), h, BitVec.extractLsb'_append_eq_right]

/-- An aligned address is the field of its upper bits with zeros below it (R54, R57, R60). -/
theorem extractLsb'_append_zeros {n k : Nat} {a : BitVec (n + k)} (h : a.toNat % 2 ^ k = 0) :
    a.extractLsb' k n ++ 0#k = a := by
  have hlt : a.toNat / 2 ^ k < 2 ^ n := by
    rw [Nat.div_lt_iff_lt_mul (Nat.two_pow_pos k), ← Nat.pow_add]
    exact a.isLt
  apply BitVec.eq_of_toNat_eq
  rw [toNat_append_zeros, BitVec.extractLsb'_toNat, Nat.shiftRight_eq_div_pow, Nat.mod_eq_of_lt hlt]
  exact Nat.div_mul_cancel (Nat.dvd_of_mod_eq_zero h)

/-- So two aligned addresses with the same field are equal. -/
theorem eq_of_extractLsb'_eq {n k : Nat} {a b : BitVec (n + k)} (ha : a.toNat % 2 ^ k = 0) (hb : b.toNat % 2 ^ k = 0)
    (h : a.extractLsb' k n = b.extractLsb' k n) : a = b := by
  rw [← extractLsb'_append_zeros ha, h, extractLsb'_append_zeros hb]

/-! ### The selectors and their bits (R51, R90, R100) -/

@[simp] theorem JumpMode.ofBits_toBits (j : JumpMode) : ofBits j.toBits = j := by cases j <;> rfl
@[simp] theorem ZoomSel.ofBits_toBits (z : ZoomSel) : ofBits z.toBits = z := by cases z <;> rfl
@[simp] theorem ColourMode.ofBits_toBits (c : ColourMode) : ofBits c.toBits = c := by cases c <;> rfl
@[simp] theorem CalcMode.ofBits_toBits (c : CalcMode) : ofBits c.toBits = c := by cases c <;> rfl

@[simp] theorem JumpMode.toBits_ofBits (b : BitVec 2) : (ofBits b).toBits = b := by revert b; decide
@[simp] theorem ZoomSel.toBits_ofBits (b : BitVec 2) : (ofBits b).toBits = b := by revert b; decide
@[simp] theorem ColourMode.toBits_ofBits (b : BitVec 3) : (ofBits b).toBits = b := by revert b; decide
@[simp] theorem CalcMode.toBits_ofBits (b : BitVec 3) : (ofBits b).toBits = b := by revert b; decide

theorem JumpMode.toBits_inj_iff {i j : JumpMode} : i.toBits = j.toBits ↔ i = j :=
  (Function.LeftInverse.injective ofBits_toBits).eq_iff
theorem ZoomSel.toBits_inj_iff {i j : ZoomSel} : i.toBits = j.toBits ↔ i = j :=
  (Function.LeftInverse.injective ofBits_toBits).eq_iff
theorem ColourMode.toBits_inj_iff {i j : ColourMode} : i.toBits = j.toBits ↔ i = j :=
  (Function.LeftInverse.injective ofBits_toBits).eq_iff
theorem CalcMode.toBits_inj_iff {i j : CalcMode} : i.toBits = j.toBits ↔ i = j :=
  (Function.LeftInverse.injective ofBits_toBits).eq_iff

/-! ### The decode order: END, SKIP, the code (R53) -/

theorem decodeRaw_of_end {r : RawEntry} (hend : r.ctrl.getLsbD 15 = true) : decodeRaw r = .endList := by
  rw [decodeRaw, if_pos hend]

theorem decodeRaw_of_skip {r : RawEntry} (hend : r.ctrl.getLsbD 15 = false) (hskip : r.ctrl.getLsbD 14 = true) :
    decodeRaw r = .skip (bits r.ctrl 0 4) (decodeEntry r) := by
  rw [decodeRaw, hend, hskip]
  rfl

theorem decodeRaw_of_command {r : RawEntry} (hend : r.ctrl.getLsbD 15 = false) (hskip : r.ctrl.getLsbD 14 = false) :
    decodeRaw r = instrOfCode (bits r.ctrl 0 4) (decodeEntry r) := by
  rw [decodeRaw, hend, hskip]
  rfl

/-! ### The encoder gives back the words of a decoded entry

A word of an entry is a chain of `++` whose widths are sums that only compute to 16, so the laws of `++` are applied to
it one link at a time, by `rw`. -/

theorem encodePmod_decodePmod (w : Word) : encodePmod (decodePmod w) = w := by
  simp only [encodePmod, decodePmod, bitOf_getLsbD, ColourMode.toBits_ofBits, CalcMode.toBits_ofBits]
  repeat rw [bits_append_bits (by decide)]
  exact bits_all w

theorem encodeCtrl_decodeEntry {r : RawEntry} (h : r.ctrl.getLsbD 15 = false) :
    encodeCtrl (r.ctrl.getLsbD 14) (bits r.ctrl 0 4) (decodeEntry r) = r.ctrl := by
  have hend : 0#1 = bits r.ctrl 15 1 := by rw [← bitOf_getLsbD, h]; rfl
  simp only [encodeCtrl, decodeEntry, hend, bitOf_getLsbD, JumpMode.toBits_ofBits, ZoomSel.toBits_ofBits]
  repeat rw [bits_append_bits (by decide)]
  exact bits_all r.ctrl

theorem link_decodeEntry (r : RawEntry) :
    (decodeEntry r).linkAddr.extractLsb' 5 14 ++ (decodeEntry r).linkSpare = r.link := by
  have hfield : (decodeEntry r).linkAddr.extractLsb' 5 14 = bits r.link 2 14 := BitVec.extractLsb'_append_eq_left
  rw [hfield]
  exact (bits_append_bits (by decide)).trans (bits_all r.link)

theorem size_decodeEntry (r : RawEntry) :
    (decodeEntry r).sizeSpare ++ BitVec.ofNat 6 ((decodeEntry r).texW / 8) ++ BitVec.ofNat 8 (decodeEntry r).texH =
      r.size := by
  have hwidth : BitVec.ofNat 6 ((decodeEntry r).texW / 8) = bits r.size 8 6 := by simp [decodeEntry]
  have hheight : BitVec.ofNat 8 (decodeEntry r).texH = bits r.size 0 8 := by simp [decodeEntry]
  rw [hwidth, hheight, decodeEntry]
  repeat rw [bits_append_bits (by decide)]
  exact bits_all r.size

theorem srca_decodeEntry (r : RawEntry) : (decodeEntry r).srcAddr.extractLsb' 3 16 = r.srca :=
  BitVec.extractLsb'_append_eq_left

theorem grda_decodeEntry (r : RawEntry) : (decodeEntry r).grdAddr.extractLsb' 3 16 = r.grda :=
  BitVec.extractLsb'_append_eq_left

/-- No bit of an entry with END = 0 is dropped by its fields. -/
theorem encodeEntry_decodeEntry {r : RawEntry} (h : r.ctrl.getLsbD 15 = false) :
    encodeEntry (r.ctrl.getLsbD 14) (bits r.ctrl 0 4) (decodeEntry r) = r := by
  have hpmod : encodePmod (decodeEntry r).pmod = r.pmod := encodePmod_decodePmod r.pmod
  rw [encodeEntry, encodeCtrl_decodeEntry h, link_decodeEntry, hpmod, srca_decodeEntry, size_decodeEntry,
    grda_decodeEntry]
  rfl

theorem encodeRaw_instrOfCode (c : BitVec 4) (e : Entry) : encodeRaw (instrOfCode c e) = encodeEntry false c e := by
  obtain ⟨⟨n, hn⟩⟩ := c
  interval_cases n <;> rfl

/-- Settles O2: an entry is encoded again by the row its END and SKIP bits select. -/
theorem encodeOfDecode : Obligations.EncodeOfDecode := by
  intro r
  refine ⟨Machine.decodeRaw_wellFormed r, fun hend => ?_⟩
  have hentry := encodeEntry_decodeEntry hend
  cases hskip : r.ctrl.getLsbD 14 with
  | true =>
    rw [hskip] at hentry
    rw [decodeRaw_of_skip hend hskip]
    exact hentry
  | false =>
    rw [hskip] at hentry
    rw [decodeRaw_of_command hend hskip, encodeRaw_instrOfCode, hentry]

/-! ### Well-formed entries with the same words are equal

With the lemmas above this makes the decoder a left inverse of the encoder, with no field taken out of a word. -/

theorem encodePmod_injective : Function.Injective encodePmod := by
  intro m m' h
  unfold encodePmod at h
  repeat rw [append_inj_iff] at h
  simp only [bitOf_inj_iff, ColourMode.toBits_inj_iff, CalcMode.toBits_inj_iff] at h
  cases m
  cases m'
  simpa only [DrawMode.mk.injEq, and_assoc] using h

/-- CMDCTRL holds the SKIP bit, the code and the entry's own fields side by side (R51). -/
theorem encodeCtrl_inj {s s' : Bool} {c c' : BitVec 4} {e e' : Entry} (h : encodeCtrl s c e = encodeCtrl s' c' e') :
    s = s' ∧ c = c' ∧ e.jp = e'.jp ∧ e.zoomY = e'.zoomY ∧ e.zoomX = e'.zoomX ∧ e.ctrlSpare = e'.ctrlSpare ∧
      e.dirV = e'.dirV ∧ e.dirH = e'.dirH := by
  unfold encodeCtrl at h
  repeat rw [append_inj_iff] at h
  simp only [bitOf_inj_iff, JumpMode.toBits_inj_iff, ZoomSel.toBits_inj_iff] at h
  obtain ⟨⟨⟨⟨⟨⟨⟨⟨-, hs⟩, hjp⟩, hzy⟩, hzx⟩, hspare⟩, hv⟩, hh⟩, hc⟩ := h
  exact ⟨hs, hc, hjp, hzy, hzx, hspare, hv, hh⟩

theorem Entry.wellFormed_iff (e : Entry) :
    e.wellFormed = true ↔ e.linkAddr.toNat % 32 = 0 ∧ e.srcAddr.toNat % 8 = 0 ∧ (e.texW % 8 = 0 ∧ e.texW ≤ 504) ∧
      e.texH ≤ 255 ∧ e.grdAddr.toNat % 8 = 0 := by
  simp [wellFormed, linkOk, srcOk, widthOk, heightOk, grdOk, and_assoc]

/-- The two sizes of a texture are what their fields of CMDSIZE hold (R58). -/
theorem size_inj {e e' : Entry} (hw : e.wellFormed = true) (hw' : e'.wellFormed = true)
    (h : (e.sizeSpare ++ BitVec.ofNat 6 (e.texW / 8) ++ BitVec.ofNat 8 e.texH : Word) =
      e'.sizeSpare ++ BitVec.ofNat 6 (e'.texW / 8) ++ BitVec.ofNat 8 e'.texH) :
    e.sizeSpare = e'.sizeSpare ∧ e.texW = e'.texW ∧ e.texH = e'.texH := by
  obtain ⟨-, -, ⟨hmul, hle⟩, hheight, -⟩ := e.wellFormed_iff.1 hw
  obtain ⟨-, -, ⟨hmul', hle'⟩, hheight', -⟩ := e'.wellFormed_iff.1 hw'
  repeat rw [append_inj_iff] at h
  obtain ⟨⟨hspare, hwfield⟩, hhfield⟩ := h
  have hwnat := congrArg BitVec.toNat hwfield
  have hhnat := congrArg BitVec.toNat hhfield
  simp only [BitVec.toNat_ofNat] at hwnat hhnat
  exact ⟨hspare, by omega, by omega⟩

theorem encodeEntry_inj {s s' : Bool} {c c' : BitVec 4} {e e' : Entry} (hw : e.wellFormed = true)
    (hw' : e'.wellFormed = true) (h : encodeEntry s c e = encodeEntry s' c' e') : s = s' ∧ c = c' ∧ e = e' := by
  obtain ⟨hlink, hsrc, -, -, hgrd⟩ := e.wellFormed_iff.1 hw
  obtain ⟨hlink', hsrc', -, -, hgrd'⟩ := e'.wellFormed_iff.1 hw'
  simp only [encodeEntry, RawEntry.mk.injEq] at h
  obtain ⟨hctrl, hlinkw, hpmod, hcolr, hsrca, hsize, hxa, hya, hxb, hyb, hxc, hyc, hxd, hyd, hgrda, hword15⟩ := h
  obtain ⟨hs, hc, hjp, hzy, hzx, hspare, hv, hh⟩ := encodeCtrl_inj hctrl
  obtain ⟨hlinkField, hlinkSpare⟩ := append_inj_iff.1 hlinkw
  obtain ⟨hsspare, htexw, htexh⟩ := size_inj hw hw' hsize
  have hlinka : e.linkAddr = e'.linkAddr := eq_of_extractLsb'_eq (n := 14) (k := 5) hlink hlink' hlinkField
  have hsrcaddr : e.srcAddr = e'.srcAddr := eq_of_extractLsb'_eq (n := 16) (k := 3) hsrc hsrc' hsrca
  have hgrdaddr : e.grdAddr = e'.grdAddr := eq_of_extractLsb'_eq (n := 16) (k := 3) hgrd hgrd' hgrda
  have hpm := encodePmod_injective hpmod
  refine ⟨hs, hc, ?_⟩
  cases e
  cases e'
  simp_all

/-! ### The decoder gives back an encoded instruction -/

theorem encodeEntry_end (s : Bool) (c : BitVec 4) (e : Entry) : (encodeEntry s c e).ctrl.getLsbD 15 = false := by
  unfold encodeEntry encodeCtrl
  simp only [BitVec.getLsbD_append]
  simp

/-- The words of a well-formed entry hold its SKIP bit, its code and its fields: the entry decoded from them is encoded
to the same words. -/
theorem decode_fields_encodeEntry (s : Bool) (c : BitVec 4) {e : Entry} (hw : e.wellFormed = true) :
    (encodeEntry s c e).ctrl.getLsbD 14 = s ∧ bits (encodeEntry s c e).ctrl 0 4 = c ∧
      decodeEntry (encodeEntry s c e) = e :=
  encodeEntry_inj (decodeEntry_wellFormed _) hw (encodeEntry_decodeEntry (encodeEntry_end s c e))

theorem decodeRaw_encodeEntry_skip (c : BitVec 4) {e : Entry} (hw : e.wellFormed = true) :
    decodeRaw (encodeEntry true c e) = .skip c e := by
  obtain ⟨hskip, hcode, hentry⟩ := decode_fields_encodeEntry true c hw
  rw [decodeRaw_of_skip (encodeEntry_end true c e) hskip, hcode, hentry]

theorem decodeRaw_encodeEntry_command (c : BitVec 4) {e : Entry} (hw : e.wellFormed = true) :
    decodeRaw (encodeEntry false c e) = instrOfCode c e := by
  obtain ⟨hskip, hcode, hentry⟩ := decode_fields_encodeEntry false c hw
  rw [decodeRaw_of_command (encodeEntry_end false c e) hskip, hcode, hentry]

theorem decodeRaw_encodeRaw {i : Instr} (h : i.wellFormed = true) : decodeRaw (encodeRaw i) = i := by
  cases i with
  | endList => rfl
  | skip c e => exact decodeRaw_encodeEntry_skip c h
  | _ e => exact decodeRaw_encodeEntry_command _ h

/-- Settles O1: the entry of the instruction decodes to it, and the decoder reads just that entry's bytes. -/
theorem decodeOfEncode : Obligations.DecodeOfEncode := by
  intro i rest h
  rw [encodeBytes, encode, decode_entry, decodeRaw_encodeRaw h]

/-! ### The rows of the opcode table (R52, R53) -/

theorem end_of_mask {w : Word} (h : w &&& 0x8000#16 = 0x8000#16) : w.getLsbD 15 = true := by
  simpa using congrArg (BitVec.getLsbD · 15) h

theorem end_skip_of_mask {w : Word} (h : w &&& 0xC000#16 = 0x4000#16) :
    w.getLsbD 15 = false ∧ w.getLsbD 14 = true :=
  ⟨by simpa using congrArg (BitVec.getLsbD · 15) h, by simpa using congrArg (BitVec.getLsbD · 14) h⟩

theorem and_command_mask (w : Word) :
    w &&& 0xC00F#16 = bitOf (w.getLsbD 15) ++ bitOf (w.getLsbD 14) ++ 0#10 ++ bits w 0 4 := by
  have hsplit : bits w 15 1 ++ bits w 14 1 ++ bits w 4 10 ++ bits w 0 4 = w := by
    repeat rw [bits_append_bits (by decide)]
    exact bits_all w
  calc w &&& 0xC00F#16
    _ = (bits w 15 1 ++ bits w 14 1 ++ bits w 4 10 ++ bits w 0 4) &&&
          (BitVec.allOnes 1 ++ BitVec.allOnes 1 ++ 0#10 ++ BitVec.allOnes 4) := by rw [hsplit]; rfl
    _ = bits w 15 1 ++ bits w 14 1 ++ 0#10 ++ bits w 0 4 := by
      simp only [BitVec.and_append, BitVec.and_allOnes, BitVec.and_zero]
    _ = _ := by rw [bitOf_getLsbD, bitOf_getLsbD]

/-- The mask of a command's row keeps END, SKIP and the code. -/
theorem and_command_mask_eq_iff {w : Word} {c : BitVec 4} :
    w &&& 0xC00F#16 = 0#12 ++ c ↔ w.getLsbD 15 = false ∧ w.getLsbD 14 = false ∧ bits w 0 4 = c := by
  have hzero : 0#12 = bitOf false ++ bitOf false ++ 0#10 := rfl
  rw [and_command_mask, hzero]
  repeat rw [append_inj_iff]
  simp only [bitOf_inj_iff, and_true, and_assoc]

theorem decodeRaw_of_command_mask {r : RawEntry} (c : BitVec 4) (h : r.ctrl &&& 0xC00F#16 = 0#12 ++ c) :
    decodeRaw r = instrOfCode c (decodeEntry r) := by
  obtain ⟨hend, hskip, hcode⟩ := and_command_mask_eq_iff.1 h
  rw [decodeRaw_of_command hend hskip, hcode]

/-- Every value of CMDCTRL is in a row: of END, of SKIP, or of its code. -/
theorem ctrl_in_some_row (w : Word) :
    w.getLsbD 15 = true ∨ w.getLsbD 14 = true ∨ ∃ c : BitVec 4, w &&& 0xC00F#16 = 0#12 ++ c := by
  cases hend : w.getLsbD 15 with
  | true => exact .inl rfl
  | false =>
    cases hskip : w.getLsbD 14 with
    | true => exact .inr (.inl rfl)
    | false => exact .inr (.inr ⟨bits w 0 4, and_command_mask_eq_iff.2 ⟨hend, hskip, rfl⟩⟩)

/-- Settles O3: the masks of END and SKIP fix their bits, that of a command both bits and the code. -/
theorem opcodeRowsSelectInstructions : Obligations.OpcodeRowsSelectInstructions := by
  intro r
  have hcommand (c : BitVec 4) := decodeRaw_of_command_mask (r := r) c
  refine ⟨fun h => decodeRaw_of_end (end_of_mask h), fun h => ?_, hcommand 0x0, hcommand 0x1, hcommand 0x2,
    hcommand 0x3, hcommand 0x4, hcommand 0x5, hcommand 0x6, hcommand 0x7, hcommand 0x8, hcommand 0x9, hcommand 0xA,
    hcommand 0xB, hcommand 0xC, hcommand 0xD, hcommand 0xE, hcommand 0xF, ctrl_in_some_row r.ctrl⟩
  obtain ⟨hend, hskip⟩ := end_skip_of_mask h
  exact decodeRaw_of_skip hend hskip

/-! ### The decoded fields as numbers -/

theorem toNat_bits_zero (w : Word) (n : Nat) : (bits w 0 n).toNat = w.toNat % 2 ^ n := by
  rw [toNat_bits, Nat.pow_zero, Nat.div_one]

theorem and_link_mask (w : Word) : w &&& 0xFFFC#16 = bits w 2 14 ++ 0#2 := by
  have hsplit : bits w 2 14 ++ bits w 0 2 = w := (bits_append_bits (by decide)).trans (bits_all w)
  calc w &&& 0xFFFC#16
    _ = (bits w 2 14 ++ bits w 0 2) &&& (BitVec.allOnes 14 ++ 0#2) := by rw [hsplit]; rfl
    _ = bits w 2 14 ++ 0#2 := by rw [BitVec.and_append, BitVec.and_allOnes, BitVec.and_zero]

/-- The link field times 32 is the word without its two spare bits, shifted (R54). -/
theorem linkAddr_toNat (r : RawEntry) : (decodeEntry r).linkAddr.toNat = (r.link.toNat &&& 0xFFFC) <<< 3 := by
  have hmask : r.link.toNat &&& 0xFFFC = (bits r.link 2 14).toNat * 4 :=
    (congrArg BitVec.toNat (and_link_mask r.link)).trans (toNat_append_zeros _)
  have hfield : (decodeEntry r).linkAddr.toNat = (bits r.link 2 14).toNat * 32 := toNat_append_zeros _
  rw [hfield, hmask, Nat.shiftLeft_eq]
  omega

theorem sext13_eq (w : Word) :
    Machine.sext13 w =
      if w.toNat % 0x2000 < 0x1000 then (w.toNat % 0x2000 : Int) else (w.toNat % 0x2000 : Int) - 0x2000 := by
  have hlow : (w.extractLsb' 0 13).toNat = w.toNat % 0x2000 := toNat_bits_zero w 13
  rw [Machine.sext13, BitVec.toInt_eq_toNat_cond, hlow]
  split <;> split <;> omega

/-- Settles O4: field by field, each selector by its bits. -/
theorem decodedFieldsAsNumbers : Obligations.DecodedFieldsAsNumbers := by
  intro r e
  have hjp : e.jp.toBits.toNat = r.ctrl.toNat / 0x1000 % 4 :=
    (congrArg BitVec.toNat (JumpMode.toBits_ofBits _)).trans (toNat_bits r.ctrl 12 2)
  have hzoomY : e.zoomY.toBits.toNat = r.ctrl.toNat / 0x400 % 4 :=
    (congrArg BitVec.toNat (ZoomSel.toBits_ofBits _)).trans (toNat_bits r.ctrl 10 2)
  have hzoomX : e.zoomX.toBits.toNat = r.ctrl.toNat / 0x100 % 4 :=
    (congrArg BitVec.toNat (ZoomSel.toBits_ofBits _)).trans (toNat_bits r.ctrl 8 2)
  have hcm : e.pmod.cm.toBits.toNat = r.pmod.toNat / 8 % 8 :=
    (congrArg BitVec.toNat (ColourMode.toBits_ofBits _)).trans (toNat_bits r.pmod 3 3)
  have hcc : e.pmod.cc.toBits.toNat = r.pmod.toNat % 8 :=
    (congrArg BitVec.toNat (CalcMode.toBits_ofBits _)).trans (toNat_bits_zero r.pmod 3)
  have hsrc : e.srcAddr.toNat = r.srca.toNat * 8 := toNat_append_zeros r.srca
  have hgrd : e.grdAddr.toNat = r.grda.toNat * 8 := toNat_append_zeros r.grda
  have hwidth : e.texW = r.size.toNat / 0x100 % 0x40 * 8 := congrArg (· * 8) (toNat_bits r.size 8 6)
  have hheight : e.texH = r.size.toNat % 0x100 := toNat_bits_zero r.size 8
  exact ⟨hjp, hzoomY, hzoomX, rfl, rfl, linkAddr_toNat r, rfl, rfl, rfl, rfl, rfl, rfl, hcm, hcc, rfl, hsrc, hwidth,
    hheight, hgrd, ⟨rfl, rfl, rfl, rfl, rfl, rfl, rfl, rfl⟩,
    fun w => ⟨toNat_bits_zero w 10, toNat_bits_zero w 9, sext13_eq w⟩⟩

/-! ### The entries written out in the spec (R64) -/

theorem decode_words (r : RawEntry) : decode (bytesOfWords r.words) = .ok (decodeRaw r, []) := by
  simpa using decode_entry r []

/-- The polygon of R64. -/
def writtenPolygon : RawEntry :=
  { ctrl := 0x0004, link := 0, pmod := 0x00C0, colr := 0x801F, srca := 0, size := 0, xa := 0x000A, ya := 0x000A,
    xb := 0x000D, yb := 0x000A, xc := 0x000D, yc := 0x000C, xd := 0x000A, yd := 0x000C, grda := 0, word15 := 0 }

/-- The skipped polygon of program P2. -/
def writtenSkip : RawEntry :=
  { ctrl := 0x4004, link := 0, pmod := 0, colr := 0xFFFF, srca := 0, size := 0, xa := 0, ya := 0, xb := 0x0032, yb := 0,
    xc := 0x0032, yc := 0x0032, xd := 0, yd := 0x0032, grda := 0, word15 := 0 }

/-- Settles O5: each list of words is that of an entry, whose row and fields are computed. -/
theorem writtenEntriesDecode : Obligations.WrittenEntriesDecode := by
  refine ⟨⟨decodeEntry writtenPolygon, decode_words writtenPolygon, ?_⟩,
    ⟨decodeEntry writtenSkip, decode_words writtenSkip, ?_⟩, decode_words endEntry⟩ <;> decide

end Sys2Proof
end

section
/-! PROOF. The step of the command processor: fetch, cut-off, jumps, and the commands that draw nothing
(`40_vdp1_command_control.md` R65 to R78). -/

namespace Sys2Proof.Machine

/-! ### The fetch (R50, R67) -/

/-- Bytes `2 * j` and `2 * j + 1` of a list of words are the two bytes of word `j`, high byte first (R35). -/
theorem getElem?_bytesOfWords (ws : List Word) (j : Nat) :
    (bytesOfWords ws)[2 * j]? = ws[j]?.map (·.extractLsb' 8 8) ∧
      (bytesOfWords ws)[2 * j + 1]? = ws[j]?.map (·.extractLsb' 0 8) := by
  induction ws generalizing j with
  | nil => exact ⟨rfl, rfl⟩
  | cons w ws ih =>
    have hcons : bytesOfWords (w :: ws) = w.extractLsb' 8 8 :: w.extractLsb' 0 8 :: bytesOfWords ws := rfl
    cases j with
    | zero => exact ⟨rfl, rfl⟩
    | succ j => simpa only [hcons, Nat.mul_succ, List.getElem?_cons_succ] using ih j

theorem fetchEntry_words (s : State) : s.fetchEntry.words = (List.range 16).map s.fetchWord := rfl

/-- From an even offset inside the memory, a word is the two bytes that follow one another there (R33 to R35). -/
theorem Memory.read16_of_even {size : Nat} (m : Memory) {a : Nat} (h : a % 2 = 0) (hlt : a < size) :
    m.read16 size a = m.byte a ++ m.byte (a + 1) := by
  have hword : wordOffset size a = a := by rw [wordOffset, Nat.mod_eq_of_lt hlt]; omega
  rw [Memory.read16, hword]

/-- An aligned entry does not wrap at the end of VRAM1, so each of its words is two of its bytes (R33, R67). -/
theorem fetchWord_eq {s : State} (h : s.proc.cmdAddr.toNat % 32 = 0) {j : Nat} (hj : j < 16) :
    s.fetchWord j =
      s.vram1.byte (s.proc.cmdAddr.toNat + 2 * j) ++ s.vram1.byte (s.proc.cmdAddr.toNat + (2 * j + 1)) := by
  have hsize : Space.vram1.size = 0x80000 := rfl
  have haddr := s.proc.cmdAddr.isLt
  exact Memory.read16_of_even s.vram1 (by omega) (by omega)

/-- Settles O7: byte `k` belongs to word `k / 2`, and is its high byte where `k` is even. -/
theorem fetchReadsTheEntry : Obligations.FetchReadsTheEntry := by
  intro s hs
  refine ⟨length_bytesOfWords _, fun k hk => ?_⟩
  obtain ⟨hhigh, hlow⟩ := getElem?_bytesOfWords s.fetchEntry.words (k / 2)
  have hword : s.fetchEntry.words[k / 2]? = some (s.fetchWord (k / 2)) := by
    rw [fetchEntry_words, List.getElem?_map, List.getElem?_range (by omega), Option.map_some]
  rw [hword, Option.map_some, fetchWord_eq hs.cmdAddr (by omega)] at hhigh hlow
  rw [BitVec.extractLsb'_append_eq_left] at hhigh
  rw [BitVec.extractLsb'_append_eq_right] at hlow
  rcases Nat.mod_two_eq_zero_or_one k with hk2 | hk2
  · rwa [show 2 * (k / 2) = k by omega] at hhigh
  · rwa [show 2 * (k / 2) + 1 = k by omega] at hlow

/-! ### The enabled step (R65 to R67, R74) -/

theorem step_of_enabled {s : State} (hb : s.proc.status = .busy) (hp : 0 < s.proc.cyclePool) :
    step s = vdp1Step s := by
  have he : s.vdp1Enabled = true := by simp [State.vdp1Enabled, hb, hp]
  rw [step, if_pos he]

theorem vdp1Step_of_overLimit {s : State} (h : overLimit s.proc.frameCycles = true) :
    vdp1Step s = .next (s.setStatus .idle) := by
  rw [vdp1Step, if_pos h]

theorem vdp1Step_of_not_overLimit {s : State} (h : overLimit s.proc.frameCycles = false) :
    vdp1Step s = exec (decodeRaw s.fetchEntry) s.latchCopr := by
  rw [vdp1Step, h, decode_fetchBytes]
  rfl

/-- COPR takes the command address divided by 8 (R21, R67). -/
theorem latchCopr_eq (s : State) :
    s.latchCopr = { s with regs1 := { s.regs1 with copr := BitVec.ofNat 16 (s.proc.cmdAddr.toNat / 8) } } := by
  rw [State.latchCopr, BitVec.extractLsb', Nat.shiftRight_eq_div_pow]

/-- Settles O6: inside the limit a step executes the one instruction the fetched bytes decode to. -/
theorem stepRunsDecodedEntry : Obligations.StepRunsDecodedEntry := by
  intro s i rest hb hp hlimit hdecode _
  rw [decode_fetchBytes] at hdecode
  obtain ⟨rfl, -⟩ : decodeRaw s.fetchEntry = i ∧ [] = rest := by simpa using hdecode
  rw [step_of_enabled hb hp, vdp1Step_of_not_overLimit hlimit, latchCopr_eq]

theorem overLimit_of_no_limit (h : Config.frameCycleLimit = none) (n : Nat) : overLimit n = false := by
  cases n with
  | zero => rfl
  | succ n => simp only [overLimit, h]

theorem overLimit_of_limit {limit : Nat} (h : Config.frameCycleLimit = some limit) (n : Nat) :
    overLimit n = decide (limit < n) := by
  cases n with
  | zero => rfl
  | succ n => simp only [overLimit, h]

/-- Settles O8: by whether there is a limit, and whether the cycles of the list exceed it. -/
theorem cutOffStopsTheList : Obligations.CutOffStopsTheList := by
  intro s hb hp
  rw [step_of_enabled hb hp]
  cases hl : Config.frameCycleLimit with
  | none => exact vdp1Step_of_not_overLimit (overLimit_of_no_limit hl _)
  | some limit =>
    have hover := overLimit_of_limit hl s.proc.frameCycles
    by_cases h : limit < s.proc.frameCycles
    · rw [vdp1Step_of_overLimit (hover.trans (decide_eq_true h))]
      exact (if_pos h).symm
    · rw [vdp1Step_of_not_overLimit (hover.trans (decide_eq_false h))]
      exact (if_neg h).symm

/-! ### Jump and cost (R71, R73) -/

/-- The mask of R71 keeps a multiple of 32 as it is. -/
theorem and_entryMask_of_aligned {a : Addr} (h : a.toNat % 32 = 0) : a &&& 0x7FFE0#19 = a := by
  have hsplit : a.extractLsb' 5 14 ++ 0#5 = a := extractLsb'_append_zeros h
  calc a &&& 0x7FFE0#19
    _ = (a.extractLsb' 5 14 ++ 0#5) &&& (BitVec.allOnes 14 ++ 0#5) := by rw [hsplit]; rfl
    _ = a.extractLsb' 5 14 ++ 0#5 := by rw [BitVec.and_append, BitVec.and_allOnes, BitVec.and_zero]
    _ = a := hsplit

theorem nextEntry_of_aligned {a : Addr} (h : a.toNat % 32 = 0) : nextEntry a = BitVec.ofNat 19 (a.toNat + 32) := by
  have hsum : a + 0x20#19 = BitVec.ofNat 19 (a.toNat + 32) := by rw [BitVec.ofNat_add, BitVec.ofNat_toNat]; simp
  have haligned : (a + 0x20#19).toNat % 32 = 0 := by rw [hsum, BitVec.toNat_ofNat]; omega
  rw [nextEntry, and_entryMask_of_aligned haligned, hsum]

/-- Settles O12: by the jump mode and the return register. -/
theorem jumpModesReachTheirTargets : Obligations.JumpModesReachTheirTargets := by
  intro e a ret ha next
  have hnext : nextEntry a = next := nextEntry_of_aligned ha
  refine ⟨fun hjp => ?_, fun hjp => ?_, fun hjp hret => ?_, fun hjp r hret => ?_, fun hjp hret => ?_,
    fun hjp r hret => ?_⟩
  · simp only [jumpTarget, hjp, hnext]
  · simp only [jumpTarget, hjp]
  · simp only [jumpTarget, hjp, hret, hnext]
  · simp only [jumpTarget, hjp, hret]
  · simp only [jumpTarget, hjp, hret, hnext]
  · simp only [jumpTarget, hjp, hret]

/-- A command ends with its jump and its cost, which change the list's two addresses and its two counters (R65). -/
theorem finish_eq (s : State) (i : Instr) (e : Entry) (r : DrawResult) :
    s.finish i e r =
      { s with
        proc :=
          { s.proc with
            cmdAddr := (jumpTarget e s.proc.cmdAddr s.ctx.retAddr).1
            cyclePool := s.proc.cyclePool - Config.cmdCost i r
            frameCycles := s.proc.frameCycles + Config.cmdCost i r }
        ctx := { s.ctx with retAddr := (jumpTarget e s.proc.cmdAddr s.ctx.retAddr).2 } } := rfl

/-! ### List control (R69, R70, R72) -/

theorem exec_endList (s : State) :
    exec .endList s = .next (((s.setCef.setStatus .idle).emit .spriteDrawEnd).emit .vdp1FrameDrawn) := rfl

theorem exec_skip (comm : BitVec 4) (e : Entry) (s : State) :
    exec (.skip comm e) s = .next (s.finish (.skip comm e) e noPixels) := rfl

/-- Settles O10: CEF, the status and the two callbacks are updates of different fields. -/
theorem endCompletes : Obligations.EndCompletes := by
  intro s
  have htrace : s.trace ++ [.spriteDrawEnd] ++ [.vdp1FrameDrawn] = s.trace ++ [.spriteDrawEnd, .vdp1FrameDrawn] :=
    List.append_assoc _ _ _
  rw [exec_endList, ← htrace]
  rfl

/-- Settles O11: `SKIP` is its jump and its cost. -/
theorem skipCompletes : Obligations.SkipCompletes := by
  intro comm e s c
  rw [exec_skip, finish_eq]
  rfl

/-- An illegal code raises its fault, with the word its entry is encoded with (R72, R187). -/
theorem exec_illegal {i : Instr} {c : BitVec 4} {e : Entry} (h : i.illegal = some (c, e)) (s : State) :
    exec i s = .next (s.raise (.illegalCommand s.proc.cmdAddr (encodeCtrl false c e))) := by
  cases i <;> cases h <;> rfl

/-- The codes 3, 7 and 11 to 15 are the illegal ones (R52, R72). -/
theorem illegal_instrOfCode {c : BitVec 4} (h : c.toNat ∈ [0x3, 0x7, 0xB, 0xC, 0xD, 0xE, 0xF]) (e : Entry) :
    (instrOfCode c e).illegal = some (c, e) := by
  have hc : c ∈ [0x3#4, 0x7#4, 0xB#4, 0xC#4, 0xD#4, 0xE#4, 0xF#4] := by revert c; decide
  simp only [List.mem_cons, List.not_mem_nil, or_false] at hc
  rcases hc with rfl | rfl | rfl | rfl | rfl | rfl | rfl <;> rfl

theorem not_end_skip_of_mask {w : Word} (h : w &&& 0xC000#16 = 0) : w.getLsbD 15 = false ∧ w.getLsbD 14 = false :=
  ⟨by simpa using congrArg (BitVec.getLsbD · 15) h, by simpa using congrArg (BitVec.getLsbD · 14) h⟩

/-- Settles O14: a fetched entry with an illegal code is decoded to it, and encoded again to its own CMDCTRL. -/
theorem illegalCodesFault : Obligations.IllegalCodesFault := by
  refine ⟨fun i c e s h => exec_illegal h s, fun r s hmask hcode => ?_⟩
  obtain ⟨hend, hskip⟩ := not_end_skip_of_mask hmask
  have hillegal : (instrOfCode (bits r.ctrl 0 4) (decodeEntry r)).illegal = some (bits r.ctrl 0 4, decodeEntry r) :=
    illegal_instrOfCode (by rwa [toNat_bits_zero]) _
  have hctrl : encodeCtrl false (bits r.ctrl 0 4) (decodeEntry r) = r.ctrl := by
    rw [← hskip]; exact encodeCtrl_decodeEntry hend
  rw [decodeRaw_of_command hend hskip, exec_illegal hillegal, hctrl]
  rfl

/-! ### The context commands (R76 to R78) -/

theorem exec_uclp (e : Entry) (s : State) :
    exec (.uclp e) s =
      .next ((s.setUserClip (clipX e.xa) (clipY e.ya) (clipX e.xc) (clipY e.yc)).finish (.uclp e) e noPixels) := rfl

theorem exec_sclp (e : Entry) (s : State) :
    exec (.sclp e) s = .next ((s.setSysClip (clipX e.xc) (clipY e.yc)).finish (.sclp e) e noPixels) := rfl

theorem exec_lcrd (e : Entry) (s : State) :
    exec (.lcrd e) s = .next ((s.setLocal (localWord e.xa) (localWord e.ya)).finish (.lcrd e) e noPixels) := rfl

/-- The low bits of a word are the word reduced to their width (R59). -/
theorem extractLsb'_zero_eq (w : Word) (n : Nat) : w.extractLsb' 0 n = BitVec.ofNat n w.toNat := by
  rw [BitVec.extractLsb', Nat.shiftRight_zero]

/-- A local coordinate is the 13-bit pattern of its signed value (R78). -/
theorem localWord_eq (w : Word) : localWord w = BitVec.ofInt 13 (sext13 w) := (BitVec.ofInt_toInt).symm

/-- Settles O13: each command sets its registers from its coordinates, and ends with its jump and its cost. -/
theorem contextCommandsComplete : Obligations.ContextCommandsComplete := by
  intro e s a r after
  have hx (w : Word) : clipX w = BitVec.ofNat 10 w.toNat := extractLsb'_zero_eq w 10
  have hy (w : Word) : clipY w = BitVec.ofNat 9 w.toNat := extractLsb'_zero_eq w 9
  refine ⟨?_, ?_, ?_⟩
  · rw [exec_uclp, finish_eq, hx, hx, hy, hy]; rfl
  · rw [exec_sclp, finish_eq, hx, hy]; rfl
  · rw [exec_lcrd, finish_eq, localWord_eq, localWord_eq]; rfl

end Sys2Proof.Machine
end

section
/-! PROOF. What a draw command whose prologue finds nothing changes, and what one stores that visits no pixel in the
system clip area (`40_vdp1_command_control.md` R75, `41_vdp1_pixel_pipeline.md` R85 to R104). -/

namespace Sys2Proof.Machine

/-! ### The state after a draw command (R65, R71, R73, R103) -/

/-- A draw command whose prologue finds nothing stores its drawing, sets `lastVisible`, jumps and is charged. -/
theorem exec_of_canDraw {i : Instr} {tx : Bool} {e : Entry} {s : State} {g : Geometry} (hi : i.drawing = some (tx, e))
    (hcan : s.canDraw tx e = true) (hg : geometry s.tvm = some g) :
    exec i s =
      .next (((s.setMem s.drawSpace (i.draw (drawEnv s e g) (s.mem s.drawSpace)).fb).setLastVisible
        (i.draw (drawEnv s e g) (s.mem s.drawSpace)).result.visible).finish i e
          (i.draw (drawEnv s e g) (s.mem s.drawSpace)).result) := by
  obtain ⟨g', hg', hok⟩ := prologue_of_canDraw hcan
  obtain rfl : g' = g := Option.some.inj (hg'.symm.trans hg)
  rw [exec_drawing hi, runDraw, hok]

/-- Settles O16: the drawing goes to the draw framebuffer, and the rest is `finish`. -/
theorem drawCommandsComplete : Obligations.DrawCommandsComplete := by
  intro i tx e s g hi hcan hg d
  refine ⟨_, exec_of_canDraw hi hcan hg, ?_, fun sp hsp => ?_, ?_, ?_, ?_⟩
  · rw [State.finish_mem, State.setLastVisible_mem, State.mem_setMem_same]
  · rw [State.finish_mem, State.setLastVisible_mem, State.mem_setMem_ne s _ hsp]
  · simp only [finish_eq, State.setLastVisible, State.setMem_proc, State.setMem_ctx]; rfl
  · simp only [finish_eq, State.setLastVisible, State.setMem_proc, State.setMem_ctx]
  · simp

/-! ### Visited pixels and the AA pixels between them

`Q` holds of the pixels that are visited and of the AA pixels of their diagonal steps, `P` is kept by every pixel with
`Q`: then a line, and a whole command, keeps `P`. -/

/-- The AA pixel of a step along one axis is one of the two pixels of the step. -/
theorem aaPoint_of_straight {p q : Point} (h : q.x = p.x ∨ q.y = p.y) (m : Bool) :
    aaPoint p q m = p ∨ aaPoint p q m = q := by
  obtain ⟨px, py⟩ := p
  obtain ⟨qx, qy⟩ := q
  rcases h with rfl | rfl <;> cases m
  · exact .inr rfl
  · exact .inl rfl
  · exact .inl rfl
  · exact .inr rfl

section
variable (v : DrawEnv) (Q : Point → Prop) (P : Memory → Prop)
  (hP : ∀ fb p src g, Q p → P fb → P (plotPixel v fb p src g))
include hP

theorem lineLoop_keeps_visited (l : LineSpec) (n : Nat) :
    ∀ (k j : Nat) (a : LineAcc), a.visited = j →
      (∀ q, a.prev = some q → ∃ i, j = i + 1 ∧ q = linePoint l.p l.q i n) →
      (∀ i < (lineLoop v l n k j a).visited, Q (linePoint l.p l.q i n)) →
      (∀ i, i + 1 < (lineLoop v l n k j a).visited → l.aa = true →
        Q (aaPoint (linePoint l.p l.q i n) (linePoint l.p l.q (i + 1) n) (xMajor l.p l.q))) →
      P a.fb → P (lineLoop v l n k j a).fb := by
  intro k
  induction k with
  | zero => intro j a _ _ _ _ h; exact h
  | succ k ih =>
    intro j a hj hprev hpix haa h
    obtain ⟨hcount, -⟩ := lineStep_counts v l j n a
    have hmono : (lineStep v l j n a).2.visited ≤ (lineLoop v l n (k + 1) j a).visited := by
      simp only [lineLoop]
      split
      · exact le_rfl
      · exact (lineLoop_visible v l n k (j + 1) _).1
    have hstep : P (lineStep v l j n a).2.fb := by
      refine lineStep_keeps v Q P hP l j n a (hpix j (by omega)) ?_ h
      intro q hq hl
      obtain ⟨i, rfl, rfl⟩ := hprev q hq
      exact haa i (by omega) hl
    simp only [lineLoop] at hpix haa ⊢
    split
    · exact hstep
    next hc =>
      rw [if_neg hc] at hpix haa
      refine ih (j + 1) _ (by omega) (fun q hq => ?_) hpix haa hstep
      rw [lineStep_prev v l j n a (by simpa using hc)] at hq
      exact ⟨j, rfl, (Option.some.inj hq).symm⟩

/-- What the visited pixels of a line and the AA pixels of its diagonal steps keep, the line keeps (R96, R98). -/
theorem drawLine_keeps_visited (l : LineSpec) (fb : Memory)
    (hpix : ∀ j < (drawLine v l fb).result.visited, Q (linePoint l.p l.q j (steps l.p l.q)))
    (haa : l.aa = true → ∀ j, j + 1 < (drawLine v l fb).result.visited →
      (linePoint l.p l.q (j + 1) (steps l.p l.q)).x ≠ (linePoint l.p l.q j (steps l.p l.q)).x →
      (linePoint l.p l.q (j + 1) (steps l.p l.q)).y ≠ (linePoint l.p l.q j (steps l.p l.q)).y →
      Q (aaPoint (linePoint l.p l.q j (steps l.p l.q)) (linePoint l.p l.q (j + 1) (steps l.p l.q)) (xMajor l.p l.q)))
    (h : P fb) : P (drawLine v l fb).fb := by
  refine lineLoop_keeps_visited v Q P hP l (steps l.p l.q) _ 0 _ rfl (fun q hq => by cases hq) hpix ?_ h
  intro j hj hl
  have hvisited : j + 1 < (drawLine v l fb).result.visited := hj
  by_cases hx : (linePoint l.p l.q (j + 1) (steps l.p l.q)).x = (linePoint l.p l.q j (steps l.p l.q)).x
  · rcases aaPoint_of_straight (.inl hx) (xMajor l.p l.q) with he | he <;> rw [he]
    · exact hpix j (by omega)
    · exact hpix (j + 1) hvisited
  · by_cases hy : (linePoint l.p l.q (j + 1) (steps l.p l.q)).y = (linePoint l.p l.q j (steps l.p l.q)).y
    · rcases aaPoint_of_straight (.inr hy) (xMajor l.p l.q) with he | he <;> rw [he]
      · exact hpix j (by omega)
      · exact hpix (j + 1) hvisited
    · exact haa hl j hvisited hx hy

omit hP in
theorem lines_keeps {ls : List LineSpec} (hl : ∀ l ∈ ls, ∀ fb, P fb → P (drawLine v l fb).fb) :
    ∀ d : Drawn, P d.fb → P (d.lines v ls).fb := by
  induction ls with
  | nil => intro d h; exact h
  | cons l ls ih =>
    intro d h
    exact ih (fun m hm => hl m (List.mem_cons_of_mem _ hm)) (d.andLine v l) (hl l List.mem_cons_self _ h)

/-- What the pixels a command visits and its AA pixels keep, its drawing keeps. -/
theorem draw_keeps_visited {i : Instr} {tx : Bool} {e : Entry} (hi : i.drawing = some (tx, e)) (fb : Memory)
    (hpix : ∀ r, i.Visits v fb r → Q r) (haa : ∀ r, i.PlotsAa v fb r → Q r) (h : P fb) : P (i.draw v fb).fb := by
  rw [draw_eq_lines hi]
  refine lines_keeps v P (fun l hl fb' h' => ?_) (nothingDrawn fb) h
  have hreport := congrArg DrawResult.visited (drawLine_report v l fb' fb)
  refine drawLine_keeps_visited v Q P hP l fb' (fun j hj => ?_) (fun hlaa j hj hx hy => ?_) h'
  · exact hpix _ ⟨l, hl, j, hreport ▸ hj, rfl⟩
  · exact haa _ ⟨l, hl, hlaa, j, hreport ▸ hj, hx, hy, rfl⟩

end

/-! ### What a command reports (R103) -/

theorem lines_visited (v : DrawEnv) (fb : Memory) (ls : List LineSpec) :
    ∀ d : Drawn,
      (d.lines v ls).result.visited = d.result.visited + (ls.map fun l => (drawLine v l fb).result.visited).sum := by
  induction ls with
  | nil => intro d; rfl
  | cons l ls ih =>
    intro d
    have h := ih (d.andLine v l)
    have hline : (d.andLine v l).result.visited = d.result.visited + (drawLine v l fb).result.visited := by
      rw [← drawLine_report v l d.fb fb]; rfl
    rw [hline] at h
    rw [List.map_cons, List.sum_cons, ← Nat.add_assoc]
    exact h

/-- A command none of whose visited pixels lies in the clip area reports the pixels of its lines, and none visible. -/
theorem draw_result_of_clipped {i : Instr} {tx : Bool} {e : Entry} (hi : i.drawing = some (tx, e)) {v : DrawEnv}
    {fb : Memory} (h : ∀ r, i.Visits v fb r → v.inSysClip r = false) :
    (i.draw v fb).result =
      { visited := ((i.lines v).map fun l => (drawLine v l fb).result.visited).sum, visible := false } := by
  have hvisible : (i.draw v fb).result.visible = false := by
    by_contra hv
    obtain ⟨r, hr, hin⟩ := draw_visible hi v fb (by simpa using hv)
    rw [h r hr] at hin
    cases hin
  have hvisited := lines_visited v fb (i.lines v) (nothingDrawn fb)
  rw [← draw_eq_lines hi] at hvisited
  rw [← hvisible, ← Nat.zero_add (List.sum _)]
  exact congrArg (DrawResult.mk · _) hvisited

/-! ### What a clipped command stores (R96, R98) -/

/-- It changes no byte but those of AA pixels that pass the tests. -/
theorem draw_byte_of_clipped {i : Instr} {tx : Bool} {e : Entry} (hi : i.drawing = some (tx, e)) {v : DrawEnv}
    {fb : Memory} (h : ∀ r, i.Visits v fb r → v.inSysClip r = false) {x : Nat}
    (hx : ∀ r, i.PlotsAa v fb r → v.plots r = true → v.storesAt r x = false) :
    (i.draw v fb).fb.byte x = fb.byte x := by
  refine draw_keeps_visited v (fun r => v.plots r = true → v.storesAt r x = false) (fun m => m.byte x = fb.byte x)
    (fun m p src g hp hm => (plotPixel_frame v m p src g x hp).trans hm) hi fb (fun r hr hplots => ?_) hx rfl
  simp [DrawEnv.plots, h r hr] at hplots

/-- It changes nothing where its AA pixels lie outside the clip area too. -/
theorem draw_fb_of_clipped {i : Instr} {tx : Bool} {e : Entry} (hi : i.drawing = some (tx, e)) {v : DrawEnv}
    {fb : Memory} (h : ∀ r, i.Visits v fb r → v.inSysClip r = false)
    (haa : ∀ r, i.PlotsAa v fb r → v.inSysClip r = false) : (i.draw v fb).fb = fb :=
  draw_keeps_visited v (fun r => v.inSysClip r = false) (fun m => m = fb)
    (fun m p src g hp hm => (plotPixel_outside v m p src g hp).trans hm) hi fb h haa rfl

/-! ### Commands without diagonal AA steps (R96, R105, R111, R112, R115, R116) -/

@[simp] theorem rdiv_zero_left (n : Nat) : rdiv 0 n = 0 := by simp [rdiv]

/-- Every pixel of a horizontal line is in its row. -/
theorem linePoint_y_of_horizontal {p q : Point} (h : q.y = p.y) (j n : Nat) : (linePoint p q j n).y = p.y := by
  simp [linePoint, h]

/-- The lines of a rectangle are horizontal (R105). -/
theorem rectQuad_line_horizontal (l t r b : Int) (v : DrawEnv) (c : Corners) (tx : Bool) (i : Nat) :
    ((rectQuad l t r b).line v c tx i).q.y = ((rectQuad l t r b).line v c tx i).p.y := rfl

/-- The lines of these commands have no AA pixels, or no diagonal step. -/
theorem lines_straight {i : Instr} {e : Entry} (hi : i ∈ [.nspr e, .sspr e, .plin e, .line e]) {v : DrawEnv}
    {l : LineSpec} (hl : l ∈ i.lines v) : l.aa = false ∨ l.q.y = l.p.y := by
  have hsprite {c : Corners} {a t r b : Int} (h : l ∈ if v.e.texW = 0 ∨ v.e.texH = 0 then []
      else (List.range ((rectQuad a t r b).steps + 1)).map ((rectQuad a t r b).line v c true)) : l.q.y = l.p.y := by
    split at h
    · cases h
    · obtain ⟨k, -, rfl⟩ := List.mem_map.1 h
      exact rectQuad_line_horizontal a t r b v c true k
  simp only [List.mem_cons, List.not_mem_nil, or_false] at hi
  rcases hi with rfl | rfl | rfl | rfl
  · exact .inr (hsprite hl)
  · exact .inr (hsprite hl)
  · simp only [Instr.lines, List.mem_cons, List.not_mem_nil, or_false] at hl
    rcases hl with rfl | rfl | rfl | rfl <;> exact .inl rfl
  · obtain rfl := List.mem_singleton.1 hl
    exact .inl rfl

theorem not_plotsAa_of_straight {i : Instr} {e : Entry} (hi : i ∈ [.nspr e, .sspr e, .plin e, .line e]) (v : DrawEnv)
    (fb : Memory) (r : Point) : ¬ i.PlotsAa v fb r := by
  rintro ⟨l, hl, haa, j, -, -, hy, -⟩
  rcases lines_straight hi hl with hno | hrow
  · rw [haa] at hno; cases hno
  · exact hy (by rw [linePoint_y_of_horizontal hrow, linePoint_y_of_horizontal hrow])

/-! ### Beyond one side of the clip area (R75) -/

/-- A part `j / n` of a distance, rounded, is not longer than the distance. -/
theorem rdiv_part_of_nonneg {d : Int} (hd : 0 ≤ d) {j n : Nat} (hj : j ≤ n) :
    0 ≤ rdiv (d * j) n ∧ rdiv (d * j) n ≤ d := by
  rcases n.eq_zero_or_pos with rfl | hn
  · simpa [rdiv] using hd
  · have hdj : 0 ≤ d * j := Int.mul_nonneg hd (by omega)
    have hle : d * j ≤ d * n := Int.mul_le_mul_of_nonneg_left (by omega) hd
    have htop : 2 * (d * j) + n < (d + 1) * (2 * n) := by
      have : (d + 1) * (2 * n) = 2 * (d * n) + 2 * n := by ring
      omega
    rw [rdiv_of_nonneg hdj hn]
    exact ⟨Int.ediv_nonneg (by omega) (by omega),
      Int.lt_add_one_iff.1 (Int.ediv_lt_of_lt_mul (by omega) htop)⟩

theorem rdiv_part_between (d : Int) {j n : Nat} (hj : j ≤ n) :
    min 0 d ≤ rdiv (d * j) n ∧ rdiv (d * j) n ≤ max 0 d := by
  rcases le_total 0 d with hd | hd
  · have := rdiv_part_of_nonneg hd hj
    omega
  · have hpart := rdiv_part_of_nonneg (Int.neg_nonneg_of_nonpos hd) hj
    rw [Int.neg_mul, rdiv_neg] at hpart
    omega

/-- The pixels of a line lie between its end points, on both axes (R95). -/
theorem linePoint_between (p q : Point) {j n : Nat} (hj : j ≤ n) :
    (min p.x q.x ≤ (linePoint p q j n).x ∧ (linePoint p q j n).x ≤ max p.x q.x) ∧
      min p.y q.y ≤ (linePoint p q j n).y ∧ (linePoint p q j n).y ≤ max p.y q.y := by
  have hx := rdiv_part_between (q.x - p.x) hj
  have hy := rdiv_part_between (q.y - p.y) hj
  simp only [linePoint]
  omega

/-- An AA pixel has each coordinate from one of the two pixels of its step (R96). -/
theorem aaPoint_coordinates (p q : Point) (m : Bool) :
    ((aaPoint p q m).x = p.x ∨ (aaPoint p q m).x = q.x) ∧ ((aaPoint p q m).y = p.y ∨ (aaPoint p q m).y = q.y) := by
  cases m
  · exact ⟨.inl rfl, .inr rfl⟩
  · exact ⟨.inr rfl, .inl rfl⟩

/-- A region outside the clip area that holds, with two points, the line between them and the AA pixels of a step. -/
structure DrawEnv.Outside (v : DrawEnv) (H : Point → Prop) : Prop where
  clipped : ∀ r, H r → v.inSysClip r = false
  line : ∀ p q j n, H p → H q → j ≤ n → H (linePoint p q j n)
  aa : ∀ p q m, H p → H q → H (aaPoint p q m)

theorem outside_left (v : DrawEnv) : v.Outside (fun p => p.x < 0) where
  clipped r h := by simp [DrawEnv.inSysClip, h]
  line p q j n hp hq hj := by have := linePoint_between p q hj; omega
  aa p q m hp hq := by have := aaPoint_coordinates p q m; omega

theorem outside_right (v : DrawEnv) : v.Outside (fun p => v.sysH < p.x) where
  clipped r h := by simp [DrawEnv.inSysClip, h]
  line p q j n hp hq hj := by have := linePoint_between p q hj; omega
  aa p q m hp hq := by have := aaPoint_coordinates p q m; omega

theorem outside_above (v : DrawEnv) : v.Outside (fun p => p.y < 0) where
  clipped r h := by simp [DrawEnv.inSysClip, h]
  line p q j n hp hq hj := by have := linePoint_between p q hj; omega
  aa p q m hp hq := by have := aaPoint_coordinates p q m; omega

theorem outside_below (v : DrawEnv) : v.Outside (fun p => v.sysV < p.y) where
  clipped r h := by simp [DrawEnv.inSysClip, h]
  line p q j n hp hq hj := by have := linePoint_between p q hj; omega
  aa p q m hp hq := by have := aaPoint_coordinates p q m; omega

/-- The four vertices of a figure are in the region `H`. -/
def Quad.All (q : Quad) (H : Point → Prop) : Prop := H q.a ∧ H q.b ∧ H q.c ∧ H q.d

/-- Each of the four sides is such a region, so a figure beyond one of them has its vertices in one (R75). -/
theorem outside_of_beyond {q : Quad} {v : DrawEnv} (h : q.beyond v) : ∃ H, v.Outside H ∧ q.All H := by
  rcases h with h | h | h | h
  · exact ⟨_, outside_left v, h⟩
  · exact ⟨_, outside_right v, h⟩
  · exact ⟨_, outside_above v, h⟩
  · exact ⟨_, outside_below v, h⟩

section
variable {v : DrawEnv} {H : Point → Prop} (hH : v.Outside H)
include hH

/-- The end points of the lines of a fill lie on two edges of the figure (R104). -/
theorem fill_ends {q : Quad} (hq : q.All H) {c : Corners} {tx : Bool} {l : LineSpec}
    (hl : l ∈ (List.range (q.steps + 1)).map (q.line v c tx)) : H l.p ∧ H l.q := by
  obtain ⟨ha, hb, hc, hd⟩ := hq
  obtain ⟨k, hk, rfl⟩ := List.mem_map.1 hl
  have hk' : k ≤ q.steps := Nat.lt_succ_iff.1 (List.mem_range.1 hk)
  exact ⟨hH.line _ _ _ _ ha hd hk', hH.line _ _ _ _ hb hc hk'⟩

theorem sprite_ends {q : Quad} (hq : q.All H) {c : Corners} {l : LineSpec}
    (hl : l ∈ if v.e.texW = 0 ∨ v.e.texH = 0 then [] else (List.range (q.steps + 1)).map (q.line v c true)) :
    H l.p ∧ H l.q := by
  split at hl
  · cases hl
  · exact fill_ends hH hq hl

/-- The lines of a command whose vertices have `H` begin and end there (R104, R111 to R116). -/
theorem lines_ends {i : Instr} {tx : Bool} {e : Entry} (hi : i.drawing = some (tx, e)) (hq : (i.quad v).All H)
    {l : LineSpec} (hl : l ∈ i.lines v) : H l.p ∧ H l.q := by
  cases i <;> cases hi
  case nspr => exact sprite_ends hH hq hl
  case sspr => exact sprite_ends hH hq hl
  case dspr => exact sprite_ends hH hq hl
  case poly => exact fill_ends hH hq hl
  case plin =>
    obtain ⟨ha, hb, hc, hd⟩ := hq
    simp only [Instr.lines, List.mem_cons, List.not_mem_nil, or_false] at hl
    rcases hl with rfl | rfl | rfl | rfl
    · exact ⟨ha, hb⟩
    · exact ⟨hb, hc⟩
    · exact ⟨hc, hd⟩
    · exact ⟨hd, ha⟩
  case line =>
    obtain ⟨ha, hb, -, -⟩ := hq
    obtain rfl := List.mem_singleton.1 hl
    exact ⟨ha, hb⟩

end

theorem lineLoop_visited_le (v : DrawEnv) (l : LineSpec) (n : Nat) :
    ∀ (k j : Nat) (a : LineAcc), (lineLoop v l n k j a).visited ≤ a.visited + k := by
  intro k
  induction k with
  | zero => intro j a; exact le_rfl
  | succ k ih =>
    intro j a
    obtain ⟨hcount, -⟩ := lineStep_counts v l j n a
    simp only [lineLoop]
    split
    · omega
    · have := ih (j + 1) (lineStep v l j n a).2
      omega

/-- A line visits at most one pixel more than it has steps (R95). -/
theorem drawLine_visited_le (v : DrawEnv) (l : LineSpec) (fb : Memory) :
    (drawLine v l fb).result.visited ≤ steps l.p l.q + 1 := by
  have := lineLoop_visited_le v l (steps l.p l.q) (steps l.p l.q + 1) 0
    { fb := fb, visited := 0, visible := false, endCount := 0, prevU := none, prev := none }
  simpa [drawLine] using this

/-- A command whose vertices all lie beyond one side visits no pixel inside, and has no AA pixel inside (R75). -/
theorem clipped_of_beyond {i : Instr} {tx : Bool} {e : Entry} (hi : i.drawing = some (tx, e)) {v : DrawEnv}
    (h : (i.quad v).beyond v) (fb : Memory) :
    (∀ r, i.Visits v fb r → v.inSysClip r = false) ∧ ∀ r, i.PlotsAa v fb r → v.inSysClip r = false := by
  obtain ⟨H, hH, hq⟩ := outside_of_beyond h
  have hpixel {l : LineSpec} (hl : l ∈ i.lines v) {j : Nat} (hj : j < (drawLine v l fb).result.visited) :
      H (linePoint l.p l.q j (steps l.p l.q)) := by
    obtain ⟨hp, hq⟩ := lines_ends hH hi hq hl
    have := drawLine_visited_le v l fb
    exact hH.line _ _ _ _ hp hq (by omega)
  constructor
  · rintro r ⟨l, hl, j, hj, rfl⟩
    exact hH.clipped _ (hpixel hl hj)
  · rintro r ⟨l, hl, -, j, hj, -, -, rfl⟩
    exact hH.clipped _ (hH.aa _ _ _ (hpixel hl (by omega)) (hpixel hl hj))

/-! ### A clipped polygon with an AA pixel inside (R96, log 20) -/

/-- The polygon A = D = (-1, 0), B = C = (0, -1) in the clip area (319, 223). -/
def cornerPolygon : DrawEnv where
  e := { (default : Entry) with colr := 0x8001, xa := 0xFFFF, yb := 0xFFFF, yc := 0xFFFF, xd := 0xFFFF }
  localX := 0
  localY := 0
  sysH := 319
  sysV := 223
  user := { x0 := 0, y0 := 0, x1 := 0, y1 := 0 }
  geom := { width := 512, height := 256, bpp := 16 }
  die := false
  dil := false
  vram1 := { fill := 0, cells := [] }

/-- A framebuffer with the word 0 written at its first pixel. -/
def blackCorner : Memory := { fill := 0, cells := [(0, 0), (1, 0)] }

/-- It is one line from (-1, 0) to (0, -1), whose two pixels are visited. -/
theorem cornerPolygon_visits (r : Point) (h : (Instr.poly cornerPolygon.e).Visits cornerPolygon blackCorner r) :
    cornerPolygon.inSysClip r = false := by
  have hall : ∀ l ∈ (Instr.poly cornerPolygon.e).lines cornerPolygon,
      ∀ j < (drawLine cornerPolygon l blackCorner).result.visited,
        cornerPolygon.inSysClip (linePoint l.p l.q j (steps l.p l.q)) = false := by decide
  obtain ⟨l, hl, j, hj, rfl⟩ := h
  exact hall l hl j hj

/-- Settles O32: a clipped command stores what its AA pixels store, those of a primitive beyond one side are clipped
themselves, and that of `cornerPolygon` is not. -/
theorem clippedPrimitivesDrawNothing : Obligations.ClippedPrimitivesDrawNothing := by
  refine ⟨?_, cornerPolygon, blackCorner, rfl, rfl, rfl, cornerPolygon_visits, by decide, by decide, by decide,
    by decide⟩
  intro i tx e s g hi hcan hg v fb
  obtain ⟨t, hexec, hfb, hmem, hproc, -⟩ := drawCommandsComplete i tx e s g hi hcan hg
  have hvisible (hclip : ∀ r, i.Visits v fb r → v.inSysClip r = false) : t.proc.lastVisible = false := by
    rw [hproc]; exact congrArg DrawResult.visible (draw_result_of_clipped hi hclip)
  constructor
  · intro hclip
    refine ⟨t, hexec, hvisible hclip, ?_, hmem, fun x hx => ?_, fun hstraight => ?_⟩
    · rw [hproc, ← draw_result_of_clipped hi hclip]
    · rw [hfb]; exact draw_byte_of_clipped hi hclip hx
    · have hno := not_plotsAa_of_straight hstraight v fb
      rw [hfb]; exact draw_fb_of_clipped hi hclip fun r hr => absurd hr (hno r)
  · intro hbeyond
    obtain ⟨hclip, haa⟩ := clipped_of_beyond hi hbeyond fb
    refine ⟨hclip, t, hexec, hvisible hclip, fun sp => ?_⟩
    by_cases hsp : sp = s.drawSpace
    · rw [hsp, hfb]; exact draw_fb_of_clipped hi hclip haa
    · exact hmem sp hsp

end Sys2Proof.Machine
end

section
/-! PROOF. The faults of the prologue, the bytes a draw command leaves alone, and the tests of a pixel
(`41_vdp1_pixel_pipeline.md` R85 to R89, R96, R98). -/

namespace Sys2Proof.Machine

/-! ### Faults of the prologue (R85) -/

theorem exec_of_prologue_error {i : Instr} {tx : Bool} {e : Entry} (hi : i.drawing = some (tx, e)) {s : State}
    {f : CmdFault} (h : prologue tx e s = .error f) : exec i s = .next (s.raise f) := by
  rw [exec_drawing hi, runDraw, h]

theorem geometry_of_tvm {s : State} (h : s.tvm.toNat ≤ 4) : ∃ g, geometry s.tvm = some g :=
  Option.isSome_iff_exists.1 (by rw [geometry_isSome_iff]; exact decide_eq_true h)

theorem geometry_of_reserved {s : State} (h : 5 ≤ s.tvm.toNat) : geometry s.tvm = none :=
  Option.not_isSome_iff_eq_none.1 (by rw [geometry_isSome_iff]; simp; omega)

theorem reservedColour_eq (cm : ColourMode) : reservedColour cm = decide (6 ≤ cm.toBits.toNat) := by
  cases cm <;> rfl

section
variable {tx : Bool} {e : Entry} {s : State}

theorem prologue_of_unset {reg : CtxReg} (h : firstUnset s.ctx e.pmod.clip = some reg) :
    prologue tx e s = .error (.unsetContext s.proc.cmdAddr reg) := by
  rw [prologue, h]

variable (hr : s.ctx.ready e.pmod.clip = true)
include hr

theorem prologue_of_reserved_tvm (ht : 5 ≤ s.tvm.toNat) :
    prologue tx e s = .error (.reservedFbMode s.proc.cmdAddr s.tvm) := by
  rw [prologue, (firstUnset_eq_none_iff _ _).2 hr, geometry_of_reserved ht]

theorem prologue_of_reserved_colour (ht : s.tvm.toNat ≤ 4) (hx : tx = true) (hm : 6 ≤ e.pmod.cm.toBits.toNat) :
    prologue tx e s = .error (.reservedColourMode s.proc.cmdAddr (encodePmod e.pmod)) := by
  obtain ⟨g, hg⟩ := geometry_of_tvm ht
  simp [prologue, (firstUnset_eq_none_iff _ _).2 hr, hg, reservedColour_eq, hx, hm]

theorem prologue_of_reserved_calc (ht : s.tvm.toNat ≤ 4) (hm : tx = false ∨ e.pmod.cm.toBits.toNat ≤ 5)
    (hc : e.pmod.cc = .reserved5) :
    prologue tx e s = .error (.reservedColourCalc s.proc.cmdAddr (encodePmod e.pmod)) := by
  obtain ⟨g, hg⟩ := geometry_of_tvm ht
  have hno : (tx && reservedColour e.pmod.cm) = false := by
    rw [reservedColour_eq]
    rcases hm with rfl | hm
    · rfl
    · simp; omega
  simp [prologue, (firstUnset_eq_none_iff _ _).2 hr, hg, hno, hc]

end

/-- Settles O18: the prologue's four faults, each of which `runDraw` raises. -/
theorem prologueFaultsInOrder : Obligations.PrologueFaultsInOrder := by
  intro i tx e s hi faulted
  refine ⟨fun hr => ?_, fun hr ht => ?_, fun hr ht hx hm => ?_, fun hr ht hm hc => ?_⟩
  · have hsome : firstUnset s.ctx e.pmod.clip ≠ none := by
      rw [Ne, firstUnset_eq_none_iff, hr]; decide
    obtain ⟨reg, hreg⟩ := Option.ne_none_iff_exists'.1 hsome
    exact ⟨reg, hreg, exec_of_prologue_error hi (prologue_of_unset hreg)⟩
  · exact exec_of_prologue_error hi (prologue_of_reserved_tvm hr ht)
  · exact exec_of_prologue_error hi (prologue_of_reserved_colour hr ht hx hm)
  · exact exec_of_prologue_error hi (prologue_of_reserved_calc hr ht hm hc)

/-! ### The frame of a draw command (R86, R96, R98) -/

/-- Settles O17: every pixel the command can plot leaves the byte alone, so its drawing does (`draw_keeps`). -/
theorem drawStoresOnlyPlottedPixels : Obligations.DrawStoresOnlyPlottedPixels := by
  intro i tx e s t g x hi hg ht hframe
  rw [exec_drawing hi] at ht
  obtain rfl : runDraw tx i e i.draw s = t := by injection ht
  rcases runDraw_cases tx i e i.draw s with ⟨f, -, hr⟩ | ⟨v, hok, hr⟩
  · rw [hr, State.raise_mem]
  · obtain ⟨g', hg', rfl⟩ := prologue_ok hok
    obtain rfl : g' = g := Option.some.inj (hg'.symm.trans hg)
    rw [hr, State.finish_mem, State.setLastVisible_mem, State.mem_setMem_same]
    exact draw_keeps i (drawEnv s e g')
      (fun p => (drawEnv s e g').plots p = true → (drawEnv s e g').storesAt p x = false)
      (fun fb => fb.byte x = (s.mem s.drawSpace).byte x)
      (fun fb p src c hp hfb => (plotPixel_frame _ fb p src c x hp).trans hfb) hframe _ rfl

/-! ### The tests of a pixel (R86 to R89) -/

theorem inSysClip_iff (v : DrawEnv) (p : Point) :
    v.inSysClip p = true ↔ 0 ≤ p.x ∧ p.x ≤ v.sysH ∧ 0 ≤ p.y ∧ p.y ≤ v.sysV := by
  simp [DrawEnv.inSysClip, and_assoc]

theorem inUserClip_iff (v : DrawEnv) (p : Point) :
    v.inUserClip p = true ↔ v.user.x0 ≤ p.x ∧ p.x ≤ v.user.x1 ∧ v.user.y0 ≤ p.y ∧ p.y ≤ v.user.y1 := by
  simp [DrawEnv.inUserClip, and_assoc]

theorem userPass_iff (v : DrawEnv) (p : Point) :
    v.userPass p = true ↔ (v.e.pmod.clip = true → (v.inUserClip p = true ↔ v.e.pmod.cmod = false)) := by
  unfold DrawEnv.userPass
  cases v.e.pmod.clip <;> cases v.inUserClip p <;> cases v.e.pmod.cmod <;> decide

theorem meshPass_iff (v : DrawEnv) {p : Point} (hx : 0 ≤ p.x) (hy : 0 ≤ p.y) :
    v.meshPass p = true ↔ (v.e.pmod.mesh = true → (p.x.toNat ^^^ p.y.toNat) % 2 = 0) := by
  have hparity : (p.x + p.y) % 2 = 0 ↔ (p.x.toNat + p.y.toNat) % 2 = 0 := by omega
  rw [DrawEnv.meshPass, Nat.xor_mod_two_eq, ← hparity]
  cases v.e.pmod.mesh <;> simp

theorem linePass_iff (v : DrawEnv) {p : Point} (hy : 0 ≤ p.y) :
    v.linePass p = true ↔ (v.die = true → p.y.toNat % 2 = v.dil.toNat) := by
  have hparity : (p.y % 2 = if v.dil then 1 else 0) ↔ p.y.toNat % 2 = v.dil.toNat := by
    cases v.dil
    · show p.y % 2 = 0 ↔ p.y.toNat % 2 = 0
      omega
    · show p.y % 2 = 1 ↔ p.y.toNat % 2 = 1
      omega
  rw [DrawEnv.linePass, ← hparity]
  cases v.die <;> simp

/-- Settles O25: inside the system clip area each of the other tests is what its rule says. -/
theorem pixelTests : Obligations.PixelTests := by
  intro v p
  simp only [DrawEnv.plots, Bool.and_eq_true, inSysClip_iff, userPass_iff, inUserClip_iff, and_assoc]
  refine and_congr_right fun hx => and_congr_right fun _ => and_congr_right fun hy => and_congr_right fun _ => ?_
  rw [meshPass_iff v hx hy, linePass_iff v hy]

end Sys2Proof.Machine
end

section
/-! PROOF. The texture stepper, texels and their colours (`41_vdp1_pixel_pipeline.md` R91, R92, R97). -/

namespace Sys2Proof.Machine

/-! ### The texture stepper (R97) -/

theorem texCoord_false (size j m : Nat) : texCoord false size j m = j * size / m := rfl

/-- Over as many pixels as texels the stepper moves one texel at a pixel. -/
theorem texCoord_same (flip : Bool) {size : Nat} (h : 0 < size) (j : Nat) :
    texCoord flip size j size = if flip then size - 1 - j else j := by
  unfold texCoord
  rw [Nat.mul_div_cancel _ h]

theorem texCoord_lt (flip : Bool) {size j m : Nat} (hs : 0 < size) (hj : j < m) : texCoord flip size j m < size := by
  have hlt : j * size / m < size := Nat.div_lt_of_lt_mul (Nat.mul_lt_mul_of_pos_right hj hs)
  cases flip
  · exact hlt
  · exact (Nat.sub_le _ _).trans_lt (Nat.sub_one_lt_of_lt hs)

/-- The accumulator: the remainder grows by the width, and what it carries over the pixel count steps the column. -/
theorem texCoord_succ (size j : Nat) {m : Nat} (hm : 0 < m) :
    texCoord false size (j + 1) m = texCoord false size j m + (j * size % m + size) / m := by
  have hsplit : (j + 1) * size = j * size % m + size + m * (j * size / m) := by
    have := Nat.mod_add_div (j * size) m
    rw [Nat.add_one_mul]
    omega
  rw [texCoord_false, texCoord_false, hsplit, Nat.add_mul_div_left _ _ hm, Nat.add_comm]

/-- Settles O21: `texCoord_succ` is the accumulator, `texCoord_lt` the bound. -/
theorem textureStepperIsTheAccumulator : Obligations.TextureStepperIsTheAccumulator := by
  intro size m hm
  refine ⟨fun j => ⟨texCoord_succ size j hm, ?_⟩, ?_, fun flip j hs hj => texCoord_lt flip hs hj, fun j _ _ => rfl, ?_⟩
  · rw [Nat.add_one_mul, Nat.mod_add_mod]
  · rw [texCoord_false, Nat.zero_mul, Nat.zero_div]
  · rintro rfl j
    exact texCoord_same false hm j

/-! ### Texels and their colours (R91, R92) -/

theorem toNat_high_half (b : Byte) : (b.extractLsb' 4 4).toNat = b.toNat / 16 := by
  rw [BitVec.extractLsb'_toNat, Nat.shiftRight_eq_div_pow]
  have := b.isLt
  omega

theorem toNat_low_half (b : Byte) : (b.extractLsb' 0 4).toNat = b.toNat % 16 := by
  rw [BitVec.extractLsb'_toNat, Nat.shiftRight_zero]

/-- A word of VRAM1 at an even address is two bytes, high byte first (R35). -/
theorem toNat_read16_vram1 (m : Memory) {a : Nat} (h : a % 2 = 0) :
    (m.read16 Space.vram1.size a).toNat = (m.byte (a % 0x80000)).toNat * 256 + (m.byte (a % 0x80000 + 1)).toNat := by
  have hoff : wordOffset Space.vram1.size a = a % 0x80000 := by
    show a % 0x80000 / 2 * 2 = a % 0x80000
    omega
  exact (congrArg BitVec.toNat (by rw [Memory.read16, hoff])).trans (toNat_append_eq_add _ _)

/-- Settles O22: an even width packs the rows of half-byte texels without padding. -/
theorem texelsArePackedByRows : Obligations.TexelsArePackedByRows := by
  intro v x y hw base byte
  refine ⟨fun hm => ?_, fun hm => ?_, fun hm hb => ?_⟩
  · have hrow : y * v.e.texW = y * (v.e.texW / 2) * 2 := by
      rw [Nat.mul_assoc]; congr 1; omega
    have hbyte : (y * v.e.texW + x) / 2 = y * (v.e.texW / 2) + x / 2 := by omega
    have hhalf : (y * v.e.texW + x) % 2 = x % 2 := by omega
    rcases hm with hm | hm <;>
      · simp only [texel, hm, hbyte, hhalf, toNat_high_half, toNat_low_half]
        rfl
  · rcases hm with hm | hm | hm <;> simp only [texel, hm] <;> rfl
  · have hnext : (base + ((y * v.e.texW + x) * 2 + 1)) % 0x80000 = (base + (y * v.e.texW + x) * 2) % 0x80000 + 1 := by
      omega
    have hword := toNat_read16_vram1 v.vram1 (a := base + (y * v.e.texW + x) * 2) (by omega)
    rw [← hnext] at hword
    simpa only [texel, hm] using hword

/-- A word whose low `k` bits are replaced by the number `t`. -/
theorem toNat_bank_or {n k : Nat} (c : BitVec (n + k)) {t : Nat} (ht : t < 2 ^ k) :
    (c &&& (BitVec.allOnes n ++ 0#k) ||| BitVec.ofNat (n + k) t).toNat = c.toNat / 2 ^ k * 2 ^ k + t := by
  have hsplit : c = c.extractLsb' k n ++ c.extractLsb' 0 k := by
    rw [BitVec.extractLsb'_append_extractLsb'_eq_extractLsb' (by omega), BitVec.extractLsb'_eq_self]
  have hlow : BitVec.ofNat (n + k) t = 0#n ++ BitVec.ofNat k t := by
    have hlt : t < 2 ^ (n + k) := ht.trans_le (Nat.pow_le_pow_right (by decide) (by omega))
    apply BitVec.eq_of_toNat_eq
    simp [Nat.mod_eq_of_lt ht, Nat.mod_eq_of_lt hlt]
  have hword : c &&& (BitVec.allOnes n ++ 0#k) ||| BitVec.ofNat (n + k) t
      = c.extractLsb' k n ++ BitVec.ofNat k t := by
    conv_lhs => rw [hsplit, hlow]
    rw [BitVec.and_append, BitVec.or_append]
    simp
  have hhigh : c.toNat / 2 ^ k < 2 ^ n :=
    Nat.div_lt_of_lt_mul (c.isLt.trans_eq ((Nat.pow_add 2 n k).trans (Nat.mul_comm _ _)))
  rw [hword, toNat_append_eq_add, BitVec.extractLsb'_toNat, BitVec.toNat_ofNat, Nat.mod_eq_of_lt ht,
    Nat.shiftRight_eq_div_pow, Nat.mod_eq_of_lt hhigh]

/-- The low `k` bits of a number as a word. -/
theorem ofNat_and_lowMask (t k : Nat) (h : k ≤ 16) :
    BitVec.ofNat 16 t &&& BitVec.ofNat 16 (2 ^ k - 1) = BitVec.ofNat 16 (t % 2 ^ k) := by
  apply BitVec.eq_of_toNat_eq
  have := Nat.pow_le_pow_right (n := 2) (by decide) h
  have hpos := Nat.two_pow_pos k
  have hdvd : 2 ^ k ∣ 2 ^ 16 := Nat.pow_dvd_pow 2 h
  have hlt : 2 ^ k - 1 < 2 ^ 16 := by omega
  have hmod := Nat.mod_lt t hpos
  rw [BitVec.toNat_and, BitVec.toNat_ofNat, BitVec.toNat_ofNat, BitVec.toNat_ofNat, Nat.mod_eq_of_lt hlt,
    Nat.and_two_pow_sub_one_eq_mod, Nat.mod_mod_of_dvd _ hdvd, Nat.mod_eq_of_lt (hmod.trans_le this)]

/-- Settles O23: the banks by `toNat_bank_or`, the table by its word of VRAM1. -/
theorem texelColoursAreBankOrTable : Obligations.TexelColoursAreBankOrTable := by
  intro v t
  refine ⟨fun hm ht => ?_, fun hm _ => ?_, fun hm _ => ?_, fun hm ht => ?_, fun hm ht => ?_, fun hm _ => ?_⟩
  · have hbank := toNat_bank_or (n := 12) (k := 4) v.e.colr ht
    simp only [texelColour, hm]
    exact hbank
  · have hbank := toNat_bank_or (n := 10) (k := 6) v.e.colr (Nat.mod_lt t (by decide))
    rw [← ofNat_and_lowMask t 6 (by decide)] at hbank
    simp only [texelColour, hm]
    exact hbank
  · have hbank := toNat_bank_or (n := 9) (k := 7) v.e.colr (Nat.mod_lt t (by decide))
    rw [← ofNat_and_lowMask t 7 (by decide)] at hbank
    simp only [texelColour, hm]
    exact hbank
  · have hbank := toNat_bank_or (n := 8) (k := 8) v.e.colr ht
    simp only [texelColour, hm]
    exact hbank
  · simp only [texelColour, hm]
    exact (BitVec.toNat_ofNat t 16).trans (Nat.mod_eq_of_lt ht)
  · simpa only [texelColour, hm] using toNat_read16_vram1 v.vram1 (a := v.e.colr.toNat * 8 + t * 2) (by omega)

end Sys2Proof.Machine
end

section
/-! PROOF. The colour calculations (`00_scope.md` R9, `41_vdp1_pixel_pipeline.md` R100, R101). -/

namespace Sys2Proof.Machine

/-! ### Colour calculation (R9, R100, R101) -/

/-- The three channels of a colour are 5-bit values (R9). -/
structure Rgb.Fits (c : Rgb) : Prop where
  r : 0 ≤ c.r ∧ c.r < 32
  g : 0 ≤ c.g ∧ c.g < 32
  b : 0 ≤ c.b ∧ c.b < 32

theorem unpack_fits (w : Word) : (unpack w).Fits where
  r := ⟨Int.natCast_nonneg _, Int.ofNat_lt.2 (BitVec.isLt _)⟩
  g := ⟨Int.natCast_nonneg _, Int.ofNat_lt.2 (BitVec.isLt _)⟩
  b := ⟨Int.natCast_nonneg _, Int.ofNat_lt.2 (BitVec.isLt _)⟩

theorem clamp_fits (c : Int) : 0 ≤ clamp c 0 31 ∧ clamp c 0 31 < 32 := by
  unfold clamp
  omega

theorem shade_fits (s g : Rgb) : (shade s g).Fits := ⟨clamp_fits _, clamp_fits _, clamp_fits _⟩

theorem halve_fits {c : Rgb} (h : c.Fits) : (halve c).Fits := by
  obtain ⟨hr, hg, hb⟩ := h
  constructor <;> simp only [halve, Rgb.zip] <;> omega

theorem mean_fits {c d : Rgb} (hc : c.Fits) (hd : d.Fits) : (mean c d).Fits := by
  obtain ⟨hr, hg, hb⟩ := hc
  obtain ⟨hr', hg', hb'⟩ := hd
  constructor <;> simp only [mean, Rgb.zip] <;> omega

theorem toNat_ofInt_channel {c : Int} (h : 0 ≤ c ∧ c < 32) : ((BitVec.ofInt 5 c).toNat : Int) = c := by
  rw [BitVec.toNat_ofInt]
  omega

theorem pack_toNat (m : Word) (c : Rgb) :
    (pack m c).toNat = (((m.toNat / 2 ^ 15 % 2) * 2 ^ 5 + (BitVec.ofInt 5 c.b).toNat) * 2 ^ 5 +
      (BitVec.ofInt 5 c.g).toNat) * 2 ^ 5 + (BitVec.ofInt 5 c.r).toNat := by
  have hflag : (m.extractLsb' 15 1).toNat = m.toNat / 2 ^ 15 % 2 := toNat_bits m 15 1
  rw [← hflag]
  simp only [pack, toNat_append_eq_add]

theorem unpack_eq (w : Word) :
    unpack w = ⟨(w.toNat % 32 : Nat), (w.toNat / 32 % 32 : Nat), (w.toNat / 1024 % 32 : Nat)⟩ := by
  have hr : (w.extractLsb' 0 5).toNat = w.toNat % 32 := toNat_bits_zero w 5
  have hg : (w.extractLsb' 5 5).toNat = w.toNat / 32 % 32 := toNat_bits w 5 5
  have hb : (w.extractLsb' 10 5).toNat = w.toNat / 1024 % 32 := toNat_bits w 10 5
  rw [unpack, hr, hg, hb]

/-- Packing keeps the channels (R9). -/
theorem unpack_pack (m : Word) {c : Rgb} (h : c.Fits) : unpack (pack m c) = c := by
  obtain ⟨cr, cg, cb⟩ := c
  obtain ⟨hr, hg, hb⟩ := h
  have hr := toNat_ofInt_channel hr
  have hg := toNat_ofInt_channel hg
  have hb := toNat_ofInt_channel hb
  rw [unpack_eq, pack_toNat, Rgb.mk.injEq]
  dsimp only at hr hg hb ⊢
  omega

theorem pack_msb (m : Word) (c : Rgb) : (pack m c).getLsbD 15 = m.getLsbD 15 := by
  simp only [pack, BitVec.getLsbD_append, BitVec.getLsbD_extractLsb']
  rfl

/-- The MSB-on write sets the flag and keeps the channels (R101). -/
theorem unpack_or_msb (w : Word) : unpack (w ||| 0x8000#16) = unpack w := by
  have hkeep (lo : Nat) (h : (0x8000#16).extractLsb' lo 5 = 0#5) :
      (w ||| 0x8000#16).extractLsb' lo 5 = w.extractLsb' lo 5 := by
    rw [BitVec.extractLsb'_or, h, BitVec.or_zero]
  rw [unpack, hkeep 0 (by decide), hkeep 5 (by decide), hkeep 10 (by decide)]
  rfl

/-- A colour calculation that writes packed channels: its flag and its channels can be read back. -/
theorem datum_of_pack {m : DrawMode} {src dst w : Word} {g c : Rgb} (h : writeDatum m src dst g = some (pack w c))
    (hc : c.Fits) : ∃ out, writeDatum m src dst g = some out ∧ out.getLsbD 15 = w.getLsbD 15 ∧ unpack out = c :=
  ⟨_, h, pack_msb w c, unpack_pack w hc⟩

/-- Settles O24: the row of R100 for each calculation, its channels read back from the packed word. -/
theorem colourCalculationByChannel : Obligations.ColourCalculationByChannel := by
  intro m src dst g s d lit half mix is
  have hs : s.Fits := unpack_fits src
  have hd : d.Fits := unpack_fits dst
  have hlit : lit.Fits := shade_fits s g
  refine ⟨fun hmon => ?_, fun hmon => ?_⟩
  · exact ⟨_, by simp only [writeDatum, hmon, if_true], by simp, unpack_or_msb dst⟩
  have hcalc {cc : CalcMode} (hcc : m.cc = cc) : writeDatum m src dst g = colourCalc cc src dst g := by
    simp [writeDatum, hmon, hcc]
  refine ⟨fun hcc => hcalc hcc, fun hcc hmsb => ?_, fun hcc hmsb => ?_, fun hcc => ?_, fun hcc hmsb => ?_,
    fun hcc hmsb => ?_, fun hcc => ?_, fun hcc => ?_, fun hcc hmsb => ?_, fun hcc hmsb => ?_⟩
  · obtain ⟨out, hout, hflag, hch⟩ := datum_of_pack ((hcalc hcc).trans (if_pos hmsb)) (halve_fits hd)
    exact ⟨out, hout, hflag.trans hmsb, hch⟩
  · exact (hcalc hcc).trans (if_neg (Bool.eq_false_iff.1 hmsb))
  · exact datum_of_pack (hcalc hcc) (halve_fits hs)
  · exact datum_of_pack ((hcalc hcc).trans (if_pos hmsb)) (mean_fits hs hd)
  · exact (hcalc hcc).trans (if_neg (Bool.eq_false_iff.1 hmsb))
  · exact datum_of_pack (hcalc hcc) hlit
  · exact datum_of_pack (hcalc hcc) (halve_fits hlit)
  · exact datum_of_pack ((hcalc hcc).trans (if_pos hmsb)) (mean_fits hlit hd)
  · exact datum_of_pack ((hcalc hcc).trans (if_neg (Bool.eq_false_iff.1 hmsb))) hlit

end Sys2Proof.Machine
end

section
/-! PROOF. The pixels of a line and of a fill of a rectangle (`00_scope.md` R8, `41_vdp1_pixel_pipeline.md` R95, R96, R104,
R105). -/

namespace Sys2Proof.Machine

/-! ### Rounded parts of a distance -/

theorem rdiv_mul_self (c : Int) {n : Nat} (hn : 0 < n) : rdiv (c * n) n = c := by
  have hnonneg {c : Int} (hc : 0 ≤ c) : rdiv (c * n) n = c := by
    have hlt : (n : Int) / (2 * n) = 0 := Int.ediv_eq_zero_of_lt (by omega) (by omega)
    have hmul : 2 * (c * n) + n = n + 2 * n * c := by ring
    rw [rdiv_of_nonneg (Int.mul_nonneg hc (by omega)) hn, hmul, Int.add_mul_ediv_left _ _ (by omega), hlt, Int.zero_add]
  rcases le_total 0 c with hc | hc
  · exact hnonneg hc
  · have hneg := hnonneg (Int.neg_nonneg_of_nonpos hc)
    rw [Int.neg_mul, rdiv_neg] at hneg
    omega

/-- Cut into as many parts as it is long, a distance has parts of length one. -/
theorem rdiv_unit_part (d : Int) (j : Nat) : rdiv (d * j) d.natAbs = d.sign * j := by
  rcases Nat.eq_zero_or_pos d.natAbs with h | h
  · obtain rfl := Int.natAbs_eq_zero.1 h
    simp
  · have hd : d * j = d.sign * j * d.natAbs := by
      conv_lhs => rw [← Int.sign_mul_natAbs d]
      ring
    rw [hd, rdiv_mul_self _ h]

/-- Cut into at least as many parts as it is long, a distance grows by at most one from part to part. -/
theorem rdiv_next_part {d : Int} {n : Nat} (hd : d.natAbs ≤ n) (j : Nat) :
    (rdiv (d * (j + 1 : Nat)) n - rdiv (d * j) n).natAbs ≤ 1 := by
  have hnonneg {d : Int} (hd0 : 0 ≤ d) (hdn : d ≤ n) (hn : 0 < n) :
      rdiv (d * j) n ≤ rdiv (d * (j + 1 : Nat)) n ∧ rdiv (d * (j + 1 : Nat)) n ≤ rdiv (d * j) n + 1 := by
    have hpos : (0 : Int) < 2 * n := by omega
    have hnext : d * (j + 1 : Nat) = d * j + d := by push_cast; ring
    have hj : 0 ≤ d * j := Int.mul_nonneg hd0 (by omega)
    rw [rdiv_of_nonneg hj hn, hnext, rdiv_of_nonneg (by omega) hn, ← Int.add_mul_ediv_right _ 1 hpos.ne']
    exact ⟨Int.ediv_le_ediv hpos (by omega), Int.ediv_le_ediv hpos (by omega)⟩
  rcases Nat.eq_zero_or_pos n with rfl | hn
  · simp [rdiv]
  rcases le_total 0 d with hd0 | hd0
  · have := hnonneg hd0 (by omega) hn
    omega
  · have := hnonneg (Int.neg_nonneg_of_nonpos hd0) (by omega) hn
    rw [Int.neg_mul, Int.neg_mul, rdiv_neg, rdiv_neg] at this
    omega

/-! ### The pixels of a line (R95) -/

theorem natAbs_x_le_steps (p q : Point) : (q.x - p.x).natAbs ≤ steps p q := le_max_left _ _

theorem natAbs_y_le_steps (p q : Point) : (q.y - p.y).natAbs ≤ steps p q := le_max_right _ _

theorem steps_of_xMajor {p q : Point} (h : xMajor p q = true) : steps p q = (q.x - p.x).natAbs :=
  max_eq_left (of_decide_eq_true h)

theorem steps_of_yMajor {p q : Point} (h : xMajor p q = false) : steps p q = (q.y - p.y).natAbs :=
  max_eq_right (Nat.le_of_not_le (of_decide_eq_false h))

@[simp] theorem linePoint_zero (p q : Point) (n : Nat) : linePoint p q 0 n = p := by
  simp [linePoint]

theorem rdiv_whole {d : Int} {n : Nat} (h : d.natAbs ≤ n) : rdiv (d * n) n = d := by
  rcases Nat.eq_zero_or_pos n with rfl | hn
  · obtain rfl := Int.natAbs_eq_zero.1 (Nat.le_zero.1 h)
    rfl
  · exact rdiv_mul_self d hn

theorem linePoint_last (p q : Point) : linePoint p q (steps p q) (steps p q) = q := by
  rw [linePoint, rdiv_whole (natAbs_x_le_steps p q), rdiv_whole (natAbs_y_le_steps p q)]
  congr 1 <;> omega

theorem linePoint_x_sub (p q : Point) (j n : Nat) :
    (linePoint p q (j + 1) n).x - (linePoint p q j n).x =
      rdiv ((q.x - p.x) * (j + 1 : Nat)) n - rdiv ((q.x - p.x) * j) n :=
  Int.add_sub_add_left _ _ _

theorem linePoint_y_sub (p q : Point) (j n : Nat) :
    (linePoint p q (j + 1) n).y - (linePoint p q j n).y =
      rdiv ((q.y - p.y) * (j + 1 : Nat)) n - rdiv ((q.y - p.y) * j) n :=
  Int.add_sub_add_left _ _ _

/-- From part to part a distance cut into unit parts grows by one in its direction. -/
theorem rdiv_next_unit_part (d : Int) (j : Nat) :
    rdiv (d * (j + 1 : Nat)) d.natAbs - rdiv (d * j) d.natAbs = d.sign := by
  rw [rdiv_unit_part, rdiv_unit_part]
  push_cast
  ring

/-- The rounded part of a distance is the integer nearest to the exact one, a tie going away from 0; with no steps the
distance is 0 (R8, R95). -/
theorem rdiv_part_nearest {d : Int} {n : Nat} (h : d.natAbs ≤ n) (j : Nat) :
    2 * (rdiv (d * j) n * n - d * j).natAbs ≤ n ∧
      (0 < n → 2 * (rdiv (d * j) n * n - d * j).natAbs = n → (d * j).natAbs < (rdiv (d * j) n * n).natAbs) := by
  rcases Nat.eq_zero_or_pos n with rfl | hn
  · obtain rfl := Int.natAbs_eq_zero.1 (Nat.le_zero.1 h)
    simp
  · obtain ⟨hnear, htie⟩ := rdiv_nearest (d * j) hn
    exact ⟨hnear, fun _ => htie⟩

/-- Settles O20: the steps of the two axes by the laws of rounded parts; the longer axis has unit parts. -/
theorem lineStepsAlongItsMajorAxis : Obligations.LineStepsAlongItsMajorAxis := by
  intro p q n
  have hx : (q.x - p.x).natAbs ≤ n := natAbs_x_le_steps p q
  have hy : (q.y - p.y).natAbs ≤ n := natAbs_y_le_steps p q
  refine ⟨linePoint_zero p q n, linePoint_last p q, fun j _ => ?_, fun j _ => ?_⟩
  · simp only [linePoint_x_sub, linePoint_y_sub]
    refine ⟨rdiv_next_part hx j, rdiv_next_part hy j, fun hmajor => ?_, fun hmajor => ?_⟩
    · rw [show n = _ from steps_of_xMajor hmajor, rdiv_next_unit_part]
    · rw [show n = _ from steps_of_yMajor hmajor, rdiv_next_unit_part]
  · have hux : (linePoint p q j n).x - p.x = rdiv ((q.x - p.x) * j) n := add_sub_cancel_left _ _
    have huy : (linePoint p q j n).y - p.y = rdiv ((q.y - p.y) * j) n := add_sub_cancel_left _ _
    simp only [hux, huy]
    exact ⟨rdiv_part_nearest hx j, rdiv_part_nearest hy j⟩

/-! ### A fill of a rectangle (R104, R105) -/

theorem steps_horizontal (x x' y : Int) : steps ⟨x, y⟩ ⟨x', y⟩ = (x' - x).natAbs := by simp [steps]

theorem steps_vertical (x y y' : Int) : steps ⟨x, y⟩ ⟨x, y'⟩ = (y' - y).natAbs := by simp [steps]

theorem linePoint_horizontal (x x' y : Int) (j : Nat) :
    linePoint ⟨x, y⟩ ⟨x', y⟩ j (x' - x).natAbs = ⟨x + (x' - x).sign * j, y⟩ := by
  simp [linePoint, rdiv_unit_part]

theorem linePoint_vertical (x y y' : Int) (j : Nat) :
    linePoint ⟨x, y⟩ ⟨x, y'⟩ j (y' - y).natAbs = ⟨x, y + (y' - y).sign * j⟩ := by
  simp [linePoint, rdiv_unit_part]

/-- Unit steps from one coordinate to another reach just the coordinates between. -/
theorem unit_steps_reach (a c x : Int) :
    (∃ j ≤ (c - a).natAbs, x = a + (c - a).sign * (j : Nat)) ↔ min a c ≤ x ∧ x ≤ max a c := by
  rcases lt_trichotomy a c with h | rfl | h
  · rw [Int.sign_eq_one_of_pos (by omega)]
    exact ⟨fun ⟨j, hj, hx⟩ => by omega, fun hx => ⟨(x - a).natAbs, by omega, by omega⟩⟩
  · simp only [Int.sub_self, Int.sign_zero, Int.zero_mul, Int.add_zero]
    exact ⟨fun ⟨j, hj, hx⟩ => by omega, fun hx => ⟨0, by omega, by omega⟩⟩
  · rw [Int.sign_eq_neg_one_of_neg (by omega)]
    exact ⟨fun ⟨j, hj, hx⟩ => by omega, fun hx => ⟨(x - a).natAbs, by omega, by omega⟩⟩

theorem rectQuad_steps (l t r b : Int) : (rectQuad l t r b).steps = (b - t).natAbs := by
  simp [Quad.steps, rectQuad, steps_vertical]

/-- Line `i` of a rectangle runs from one side to the other, `i` rows from the first (R105). -/
theorem rectQuad_ends (l t r b : Int) (i : Nat) :
    (rectQuad l t r b).ends i = (⟨l, t + (b - t).sign * i⟩, ⟨r, t + (b - t).sign * i⟩) := by
  rw [Quad.ends, rectQuad_steps]
  simp only [rectQuad, linePoint_vertical]

theorem onLine_horizontal_iff (l r y : Int) (p : Point) :
    OnLine ⟨l, y⟩ ⟨r, y⟩ p ↔ (min l r ≤ p.x ∧ p.x ≤ max l r) ∧ p.y = y := by
  rw [← unit_steps_reach]
  simp only [OnLine, steps_horizontal, linePoint_horizontal]
  constructor
  · rintro ⟨j, hj, rfl⟩
    exact ⟨⟨j, hj, rfl⟩, rfl⟩
  · rintro ⟨⟨j, hj, hx⟩, hy⟩
    exact ⟨j, hj, by rw [← hx, ← hy]⟩

/-- A horizontal line has no AA pixels of its own. -/
theorem onLine_of_onAa_horizontal {l r y : Int} {p : Point} (h : OnAa ⟨l, y⟩ ⟨r, y⟩ p) : OnLine ⟨l, y⟩ ⟨r, y⟩ p := by
  obtain ⟨j, hj, rfl⟩ := h
  have hrow (k n : Nat) : (linePoint ⟨l, y⟩ ⟨r, y⟩ k n).y = y := linePoint_y_of_horizontal rfl k n
  rcases aaPoint_of_straight (p := linePoint ⟨l, y⟩ ⟨r, y⟩ j _) (q := linePoint ⟨l, y⟩ ⟨r, y⟩ (j + 1) _)
    (.inr ((hrow _ _).trans (hrow _ _).symm)) (xMajor ⟨l, y⟩ ⟨r, y⟩) with he | he
  · exact ⟨j, hj.le, he⟩
  · exact ⟨j + 1, hj, he⟩

theorem rectQuad_covers_iff (l t r b : Int) (p : Point) :
    (rectQuad l t r b).Covers p ↔ min l r ≤ p.x ∧ p.x ≤ max l r ∧ min t b ≤ p.y ∧ p.y ≤ max t b := by
  have hline (i : Nat) : (OnLine ((rectQuad l t r b).ends i).1 ((rectQuad l t r b).ends i).2 p ∨
      OnAa ((rectQuad l t r b).ends i).1 ((rectQuad l t r b).ends i).2 p) ↔
        (min l r ≤ p.x ∧ p.x ≤ max l r) ∧ p.y = t + (b - t).sign * i := by
    rw [rectQuad_ends, ← onLine_horizontal_iff]
    exact or_iff_left_of_imp onLine_of_onAa_horizontal
  simp only [Quad.Covers, hline, rectQuad_steps]
  rw [← and_assoc, ← unit_steps_reach t b]
  exact ⟨fun ⟨i, hi, hx, hy⟩ => ⟨hx, i, hi, hy⟩, fun ⟨hx, i, hi, hy⟩ => ⟨i, hi, hx, hy⟩⟩

theorem rectQuad_line_steps (l t r b : Int) (v : DrawEnv) (c : Corners) (tx : Bool) (i : Nat) :
    steps ((rectQuad l t r b).line v c tx i).p ((rectQuad l t r b).line v c tx i).q = (r - l).natAbs := by
  have hends : (((rectQuad l t r b).line v c tx i).p, ((rectQuad l t r b).line v c tx i).q) = _ :=
    rectQuad_ends l t r b i
  rw [(Prod.mk.inj hends).1, (Prod.mk.inj hends).2, steps_horizontal]

/-- An untextured fill of a rectangle visits as many pixels as there are in it (R103, R105). -/
theorem fillQuad_rectQuad_visited (l t r b : Int) (v : DrawEnv) (fb : Memory) :
    (fillQuad v (rectQuad l t r b) false fb).result.visited = ((r - l).natAbs + 1) * ((b - t).natAbs + 1) := by
  have hcount (i : Nat) :
      (drawLine v ((rectQuad l t r b).line v (gouraudTable v.vram1 v.e) false i) fb).result.visited =
        (r - l).natAbs + 1 := by
    rw [drawLine_untextured_visited v _ fb rfl, rectQuad_line_steps]
  rw [fillQuad_eq_lines, lines_visited v fb, List.map_map]
  simp only [Function.comp_def, hcount, rectQuad_steps, List.map_const', List.sum_replicate, List.length_range]
  simp [nothingDrawn, Nat.mul_comm]

/-- Settles O28: the lines of a rectangle are its rows, and every line visits a pixel of each column once. -/
theorem rectanglesAreCovered : Obligations.RectanglesAreCovered :=
  fun l t r b => ⟨rectQuad_covers_iff l t r b, fillQuad_rectQuad_visited l t r b⟩

end Sys2Proof.Machine
end

section
/-! PROOF. A line pixel by pixel: which pixels it visits, which it stores and with what, and what it reports
(`41_vdp1_pixel_pipeline.md` R93 to R98, R103). The loop of `DrawLine` is tied to this by `drawLine_eq_drawnUpTo`. -/

namespace Sys2Proof.Machine

/-! ### The pixels of a line

Everything about pixel `j` that does not depend on the framebuffer: its place, its texel, whether the line has ended
before it, and what is stored there. -/

/-- The steps of a line (R95). -/
def LineSpec.len (l : LineSpec) : Nat := steps l.p l.q

def LineSpec.point (l : LineSpec) (j : Nat) : Point := linePoint l.p l.q j l.len

/-- The texture column of a pixel, not mirrored (R97). -/
def LineSpec.column (l : LineSpec) (v : DrawEnv) (j : Nat) : Nat := j * v.e.texW / (l.len + 1)

/-- The texel of a pixel in a row of the texture (R97). -/
def LineSpec.texelAt (l : LineSpec) (v : DrawEnv) (row j : Nat) : Nat :=
  texel v (texCoord v.e.dirH v.e.texW j (l.len + 1)) row

/-- Whether the texel of a pixel counts as an end code: not if its column has been looked at (R94). -/
def LineSpec.counted (l : LineSpec) (v : DrawEnv) (row j : Nat) : Bool :=
  v.isEnd (l.texelAt v row j) && (j == 0 || l.column v (j - 1) != l.column v j)

/-- The end codes counted before pixel `j`; two of them have ended the line (R94). -/
def LineSpec.endsBefore (l : LineSpec) (v : DrawEnv) (j : Nat) : Nat :=
  match l.tex with
  | some row => (List.range j).countP (l.counted v row)
  | none => 0

/-- Whether nothing is stored at a pixel because its texel is transparent (R93, R94). -/
def LineSpec.clear (l : LineSpec) (v : DrawEnv) (j : Nat) : Bool :=
  match l.tex with
  | some row => v.isTransparent (l.texelAt v row j)
  | none => false

/-- The colour of a pixel (R92, R98). -/
def LineSpec.colour (l : LineSpec) (v : DrawEnv) (j : Nat) : Word :=
  match l.tex with
  | some row => texelColour v (l.texelAt v row j)
  | none => v.e.colr

/-- Whether a line reaches pixel `j`: it has not ended before (R94). It does not end at pixel `j` either just if it
reaches pixel `j + 1`, or would if it were longer. -/
def LineSpec.reaches (l : LineSpec) (v : DrawEnv) (j : Nat) : Bool := decide (l.endsBefore v j < 2)

/-- The pixel before (R96). -/
def LineSpec.pointBefore (l : LineSpec) : Nat → Option Point
  | 0 => none
  | j + 1 => some (l.point j)

/-- The texture column of the pixel before (R94). -/
def LineSpec.columnBefore (l : LineSpec) (v : DrawEnv) (j : Nat) : Option Nat :=
  match l.tex, j with
  | some _, j + 1 => some (l.column v j)
  | _, _ => none

/-- A pixel stored, after the AA pixel of its step (R96, R98). -/
def LineSpec.store (l : LineSpec) (v : DrawEnv) (j : Nat) (fb : Memory) : Memory :=
  plotPixel v (plotAa v l fb (l.pointBefore j) (l.point j) (l.colour v j) (lineShade v l j l.len)) (l.point j)
    (l.colour v j) (lineShade v l j l.len)

/-- The framebuffer after the first `j` pixels of a line. -/
def LineSpec.fbUpTo (l : LineSpec) (v : DrawEnv) (fb : Memory) : Nat → Memory
  | 0 => fb
  | j + 1 => if l.reaches v (j + 1) && !l.clear v j then l.store v j (l.fbUpTo v fb j) else l.fbUpTo v fb j

/-- What the first `j` pixels of a line draw and report (R103). -/
def LineSpec.drawnUpTo (l : LineSpec) (v : DrawEnv) (fb : Memory) (j : Nat) : Drawn where
  fb := l.fbUpTo v fb j
  result :=
    { visited := (List.range j).countP fun i => l.reaches v i
      visible := (List.range j).any fun i => l.reaches v (i + 1) && v.inSysClip (l.point i) }

/-- What `DrawLine` carries to pixel `j` of a line that has not ended. -/
def LineSpec.accAt (l : LineSpec) (v : DrawEnv) (fb : Memory) (j : Nat) : LineAcc where
  fb := l.fbUpTo v fb j
  visited := (l.drawnUpTo v fb j).result.visited
  visible := (l.drawnUpTo v fb j).result.visible
  endCount := l.endsBefore v j
  prevU := l.columnBefore v j
  prev := l.pointBefore j

/-- The drawing in what `DrawLine` carries. -/
def LineAcc.drawn (a : LineAcc) : Drawn := { fb := a.fb, result := { visited := a.visited, visible := a.visible } }

section
variable {l : LineSpec} {v : DrawEnv}

/-! ### End codes (R94) -/

@[simp] theorem endsBefore_zero (l : LineSpec) (v : DrawEnv) : l.endsBefore v 0 = 0 := by
  unfold LineSpec.endsBefore
  cases l.tex <;> rfl

theorem endsBefore_of_untextured (h : l.tex = none) (j : Nat) : l.endsBefore v j = 0 := by
  simp [LineSpec.endsBefore, h]

theorem endsBefore_of_textured {row : Nat} (h : l.tex = some row) (j : Nat) :
    l.endsBefore v j = (List.range j).countP (l.counted v row) := by
  simp [LineSpec.endsBefore, h]

theorem endsBefore_succ {row : Nat} (h : l.tex = some row) (j : Nat) :
    l.endsBefore v (j + 1) = l.endsBefore v j + if l.counted v row j then 1 else 0 := by
  rw [endsBefore_of_textured h, endsBefore_of_textured h, List.range_succ, List.countP_append, List.countP_singleton]

theorem endsBefore_le_succ (l : LineSpec) (v : DrawEnv) (j : Nat) : l.endsBefore v j ≤ l.endsBefore v (j + 1) := by
  cases h : l.tex with
  | none => rw [endsBefore_of_untextured h, endsBefore_of_untextured h]
  | some row => rw [endsBefore_succ h]; exact Nat.le_add_right _ _

theorem reaches_iff (l : LineSpec) (v : DrawEnv) (j : Nat) : l.reaches v j = true ↔ l.endsBefore v j < 2 :=
  decide_eq_true_iff

@[simp] theorem reaches_zero (l : LineSpec) (v : DrawEnv) : l.reaches v 0 = true := by simp [reaches_iff]

theorem reaches_of_untextured (h : l.tex = none) (j : Nat) : l.reaches v j = true := by
  simp [reaches_iff, endsBefore_of_untextured h]

theorem reaches_of_succ {j : Nat} (h : l.reaches v (j + 1) = true) : l.reaches v j = true :=
  (reaches_iff l v j).2 ((endsBefore_le_succ l v j).trans_lt ((reaches_iff l v (j + 1)).1 h))

theorem not_reaches_succ {j : Nat} (h : l.reaches v j = false) : l.reaches v (j + 1) = false :=
  Bool.eq_false_iff.2 fun ha => Bool.eq_false_iff.1 h (reaches_of_succ ha)

/-! ### One pixel of the loop (R98) -/

/-- A pixel that is reached is visited; one that does not end the line is stored unless it is transparent, and can
make the line visible (R98, R103). -/
theorem drawnUpTo_succ (l : LineSpec) (v : DrawEnv) (fb : Memory) (j : Nat) :
    l.drawnUpTo v fb (j + 1) =
      { fb := if l.reaches v (j + 1) && !l.clear v j then l.store v j (l.fbUpTo v fb j) else l.fbUpTo v fb j
        result :=
          { visited := (l.drawnUpTo v fb j).result.visited + if l.reaches v j then 1 else 0
            visible := (l.drawnUpTo v fb j).result.visible || l.reaches v (j + 1) && v.inSysClip (l.point j) } } := by
  simp [LineSpec.drawnUpTo, LineSpec.fbUpTo, List.range_succ, List.countP_singleton]

/-- After its end a line draws nothing and counts nothing. -/
theorem drawnUpTo_of_ended (fb : Memory) {j : Nat} (h : l.reaches v j = false) (k : Nat) :
    l.reaches v (j + k) = false ∧ l.drawnUpTo v fb (j + k) = l.drawnUpTo v fb j := by
  induction k with
  | zero => exact ⟨h, rfl⟩
  | succ k ih =>
    obtain ⟨hend, hdrawn⟩ := ih
    have hnext := not_reaches_succ hend
    refine ⟨hnext, ?_⟩
    rw [← hdrawn, ← Nat.add_assoc, drawnUpTo_succ, hend, hnext]
    simp [LineSpec.drawnUpTo]

/-- A pixel that goes on with the line, as `linePixel` draws it. -/
theorem linePixel_accAt (fb : Memory) {j : Nat} (ha : l.reaches v (j + 1) = true) :
    linePixel v l (l.point j) (l.colour v j) (lineShade v l j l.len) (l.clear v j)
        { l.accAt v fb j with endCount := l.endsBefore v (j + 1), prevU := l.columnBefore v (j + 1) } =
      l.accAt v fb (j + 1) := by
  have hdrawn := drawnUpTo_succ l v fb j
  rw [ha, reaches_of_succ ha] at hdrawn
  have hfb := congrArg Drawn.fb hdrawn
  simp only [LineSpec.accAt, hdrawn, linePixel, Bool.true_and]
  rw [show l.fbUpTo v fb (j + 1) = _ from hfb]
  cases l.clear v j <;> rfl

theorem endCountAfter_accAt {row : Nat} (h : l.tex = some row) (fb : Memory) (j : Nat) :
    v.countsEnd (l.accAt v fb j) (l.column v j) (l.texelAt v row j) = l.counted v row j ∧
      v.endCountAfter (l.accAt v fb j) (l.column v j) (l.texelAt v row j) = l.endsBefore v (j + 1) := by
  have hcounts : v.countsEnd (l.accAt v fb j) (l.column v j) (l.texelAt v row j) = l.counted v row j := by
    cases j with
    | zero => simp [DrawEnv.countsEnd, LineSpec.counted, LineSpec.accAt, LineSpec.columnBefore, h]
    | succ j =>
      simp [DrawEnv.countsEnd, LineSpec.counted, LineSpec.accAt, LineSpec.columnBefore, h, bne]
  exact ⟨hcounts, by rw [DrawEnv.endCountAfter, hcounts, endsBefore_succ h]; rfl⟩

/-- A line that reaches a pixel ends there just if its end code is the second that counts. -/
theorem endsLine_accAt {row : Nat} (h : l.tex = some row) (fb : Memory) {j : Nat} (hj : l.reaches v j = true) :
    v.endsLine (l.accAt v fb j) (l.column v j) (l.texelAt v row j) = !l.reaches v (j + 1) := by
  obtain ⟨hcounts, hafter⟩ := endCountAfter_accAt (v := v) h fb j
  rw [reaches_iff] at hj
  rw [DrawEnv.endsLine, hcounts, hafter, LineSpec.reaches, endsBefore_succ h]
  cases l.counted v row j
  · simpa using Nat.le_of_lt_succ hj
  · have : l.endsBefore v j = 0 ∨ l.endsBefore v j = 1 := by omega
    rcases this with h0 | h1 <;> simp [*]

theorem lineStep_of_untextured (h : l.tex = none) (fb : Memory) (j : Nat) :
    lineStep v l j l.len (l.accAt v fb j) = (false, l.accAt v fb (j + 1)) := by
  have hsame : { l.accAt v fb j with endCount := l.endsBefore v (j + 1), prevU := l.columnBefore v (j + 1) } =
      l.accAt v fb j := by
    simp [LineSpec.accAt, endsBefore_of_untextured h, LineSpec.columnBefore, h]
  rw [← linePixel_accAt fb (reaches_of_untextured h (j + 1)), hsame]
  simp only [lineStep, h, LineSpec.colour, LineSpec.clear]
  rfl

theorem lineStep_of_textured {row : Nat} (h : l.tex = some row) (fb : Memory) {j : Nat} (hj : l.reaches v j = true) :
    lineStep v l j l.len (l.accAt v fb j) =
      if l.reaches v (j + 1) then (false, l.accAt v fb (j + 1))
      else (true, { l.accAt v fb j with
        visited := (l.accAt v fb j).visited + 1, endCount := l.endsBefore v (j + 1) }) := by
  have hends := endsLine_accAt h fb hj
  have hafter := (endCountAfter_accAt (v := v) h fb j).2
  simp only [LineSpec.texelAt, LineSpec.column] at hends hafter
  simp only [lineStep, h, texturedStep, hends, hafter]
  cases ha : l.reaches v (j + 1)
  · rfl
  · rw [← linePixel_accAt fb ha]
    simp only [LineSpec.colour, LineSpec.clear, LineSpec.columnBefore, h]
    rfl

theorem drawn_lineLoop (fb : Memory) (k : Nat) :
    ∀ j, l.reaches v j = true → (lineLoop v l l.len k j (l.accAt v fb j)).drawn = l.drawnUpTo v fb (j + k) := by
  induction k with
  | zero => intro j _; rfl
  | succ k ih =>
    intro j hj
    have hgo (ha : l.reaches v (j + 1) = true)
        (hstep : lineStep v l j l.len (l.accAt v fb j) = (false, l.accAt v fb (j + 1))) :
        (lineLoop v l l.len (k + 1) j (l.accAt v fb j)).drawn = l.drawnUpTo v fb (j + (k + 1)) := by
      simp only [lineLoop, hstep, Bool.false_eq_true, if_false]
      rw [ih (j + 1) ha, Nat.add_right_comm, Nat.add_assoc]
    cases h : l.tex with
    | none => exact hgo (reaches_of_untextured h (j + 1)) (lineStep_of_untextured h fb j)
    | some row =>
      have hstep := lineStep_of_textured h fb hj
      cases ha : l.reaches v (j + 1) with
      | true => exact hgo ha (by rw [hstep, ha]; rfl)
      | false =>
        have hend := (drawnUpTo_of_ended fb ha k).2
        rw [Nat.add_right_comm, Nat.add_assoc] at hend
        rw [hend, drawnUpTo_succ, hj, ha]
        simp only [lineLoop, hstep, ha, Bool.false_eq_true, if_false, if_true]
        simp [LineAcc.drawn, LineSpec.accAt]

end

/-- `DrawLine` draws the pixels of the line from the first to the last (R98). -/
theorem drawLine_eq_drawnUpTo (v : DrawEnv) (l : LineSpec) (fb : Memory) :
    drawLine v l fb = l.drawnUpTo v fb (l.len + 1) := by
  have hstart : l.accAt v fb 0 =
      { fb := fb, visited := 0, visible := false, endCount := 0, prevU := none, prev := none } := by
    simp [LineSpec.accAt, LineSpec.drawnUpTo, LineSpec.fbUpTo, LineSpec.columnBefore, LineSpec.pointBefore]
  have hloop := drawn_lineLoop (l := l) (v := v) fb (l.len + 1) 0 (by simp)
  rw [hstart, Nat.zero_add] at hloop
  exact hloop

end Sys2Proof.Machine
end

section
/-! PROOF. What a line reports and leaves alone, and what an untextured primitive leaves behind
(`41_vdp1_pixel_pipeline.md` R90 to R104, `42_vdp1_draw_commands.md` R114 to R116). -/

namespace Sys2Proof.Machine

/-! ### What a line reports (R95, R103) -/

theorem drawLine_visited (v : DrawEnv) (l : LineSpec) (fb : Memory) :
    (drawLine v l fb).result.visited = (List.range (l.len + 1)).countP fun j => l.reaches v j := by
  rw [drawLine_eq_drawnUpTo]; rfl

theorem drawLine_visible_iff (v : DrawEnv) (l : LineSpec) (fb : Memory) :
    (drawLine v l fb).result.visible = true ↔
      ∃ j ≤ l.len, l.reaches v (j + 1) = true ∧ v.inSysClip (l.point j) = true := by
  rw [drawLine_eq_drawnUpTo]
  simp [LineSpec.drawnUpTo, List.any_eq_true]

/-- An untextured line is visible when one of its pixels lies in the clip area (R103). -/
theorem drawLine_untextured_visible_iff {l : LineSpec} (h : l.tex = none) (v : DrawEnv) (fb : Memory) :
    (drawLine v l fb).result.visible = true ↔ ∃ j ≤ l.len, v.inSysClip (l.point j) = true := by
  simp only [drawLine_visible_iff, reaches_of_untextured h, true_and]

/-- The lines of `LINE` and `PLIN` have no texture (R115, R116). -/
theorem plainLine_visible_iff (v : DrawEnv) (fb : Memory) (p q : Point) (g0 g1 : Rgb) :
    (drawLine v (plainLine p q g0 g1) fb).result.visible = true ↔
      ∃ j ≤ steps p q, v.inSysClip (linePoint p q j (steps p q)) = true :=
  drawLine_untextured_visible_iff rfl v fb

theorem plainLine_visited (v : DrawEnv) (fb : Memory) (p q : Point) (g0 g1 : Rgb) :
    (drawLine v (plainLine p q g0 g1) fb).result.visited = steps p q + 1 :=
  drawLine_untextured_visited v _ fb rfl

/-- Settles O27: `LINE` is one plain line, `PLIN` is four. -/
theorem linesVisitTheirPixels : Obligations.LinesVisitTheirPixels := by
  intro v fb q seen
  have houtline : drawOutline v fb = (nothingDrawn fb).lines v ((Instr.plin v.e).lines v) :=
    draw_eq_lines (i := .plin v.e) rfl v fb
  refine ⟨plainLine_visited v fb _ _ _ _, plainLine_visible_iff v fb _ _ _ _, ?_, ?_⟩
  · rw [houtline, lines_visited v fb]
    simp only [Instr.lines, List.map_cons, List.map_nil, List.sum_cons, List.sum_nil, plainLine_visited, nothingDrawn,
      q]
    omega
  · rw [houtline, lines_visible v fb]
    simp [Instr.lines, plainLine_visible_iff, nothingDrawn, seen, q]

/-! ### The frame of a line (R93, R94, R96, R98) -/

/-- The places a pixel of a line can be stored at: its own, and the AA pixel of its step (R96). -/
def LineSpec.Touches (l : LineSpec) (j : Nat) (p : Point) : Prop :=
  p = l.point j ∨ (l.aa = true ∧ 0 < j ∧ p = aaPoint (l.point (j - 1)) (l.point j) (xMajor l.p l.q))

/-- What every plotting of a pixel's colour at its places keeps, storing the pixel keeps. -/
theorem store_keeps {l : LineSpec} {v : DrawEnv} {j : Nat} (P : Memory → Prop)
    (hP : ∀ p, l.Touches j p → ∀ fb, P fb → P (plotPixel v fb p (l.colour v j) (lineShade v l j l.len))) {fb : Memory}
    (h : P fb) : P (l.store v j fb) := by
  refine hP _ (.inl rfl) _ ?_
  cases j with
  | zero => exact h
  | succ j =>
    simp only [LineSpec.pointBefore, plotAa]
    split
    next hc =>
      simp only [Bool.and_eq_true] at hc
      exact hP _ (.inr ⟨hc.1.1, j.succ_pos, rfl⟩) _ h
    next => exact h

/-- What every stored pixel of a line keeps, the line keeps from any of its pixels on. -/
theorem fbUpTo_keeps {l : LineSpec} {v : DrawEnv} {fb : Memory} (P : Memory → Prop) {i n : Nat} (hi : i ≤ n)
    (hP : ∀ j, i ≤ j → j < n → l.reaches v (j + 1) = true → l.clear v j = false → ∀ m, P m → P (l.store v j m))
    (h : P (l.fbUpTo v fb i)) : P (l.fbUpTo v fb n) := by
  induction n, hi using Nat.le_induction with
  | base => exact h
  | succ n hn ih =>
    have hprev := ih fun j hij hj => hP j hij (by omega)
    simp only [LineSpec.fbUpTo]
    split
    next hc =>
      simp only [Bool.and_eq_true, Bool.not_eq_true'] at hc
      exact hP n hn n.lt_succ_self hc.1 hc.2 _ hprev
    next => exact hprev

theorem drawLine_fb (v : DrawEnv) (l : LineSpec) (fb : Memory) :
    (drawLine v l fb).fb = l.fbUpTo v fb (l.len + 1) := by
  rw [drawLine_eq_drawnUpTo]; rfl

/-- A byte at which no stored pixel of a line is put keeps its value. -/
theorem drawLine_byte_of_untouched {v : DrawEnv} {l : LineSpec} {x : Nat}
    (h : ∀ j ≤ l.len, l.reaches v (j + 1) = true → l.clear v j = false →
      ∀ p, l.Touches j p → v.plots p = true → v.storesAt p x = false) (fb : Memory) :
    (drawLine v l fb).fb.byte x = fb.byte x := by
  rw [drawLine_fb]
  refine fbUpTo_keeps (fun m => m.byte x = fb.byte x) (Nat.zero_le _) (fun j _ hj hr hc m hm => ?_) rfl
  refine store_keeps (fun m => m.byte x = fb.byte x) (fun p hp m hm => ?_) hm
  exact (plotPixel_frame v m p _ _ x (h j (by omega) hr hc p hp)).trans hm

theorem endCode_eq (cm : ColourMode) :
    endCode cm = if cm.toBits.toNat ≤ 1 then 0xF else if cm.toBits.toNat ≤ 4 then 0xFF else 0x7FFF := by
  cases cm <;> rfl

/-- A texel is stored that is no end code and is not 0, or is 0 with SPD = 1 (R93, R94). -/
theorem clear_eq_false_iff {l : LineSpec} {row : Nat} (h : l.tex = some row) (v : DrawEnv) (j : Nat) :
    l.clear v j = false ↔
      v.isEnd (l.texelAt v row j) = false ∧ (v.e.pmod.spd = true ∨ l.texelAt v row j ≠ 0) := by
  have himp : (v.e.pmod.spd = false → ¬ l.texelAt v row j = 0) ↔ v.e.pmod.spd = true ∨ l.texelAt v row j ≠ 0 := by
    cases v.e.pmod.spd <;> simp
  simp [LineSpec.clear, h, DrawEnv.isTransparent, himp]

/-- Settles O33: the line is `drawnUpTo`, whose texels, columns and end codes are those of the statement. -/
theorem linesEndAtTheirSecondEndCode : Obligations.LinesEndAtTheirSecondEndCode := by
  intro v l row fb htex _ n col t code ends counted before at_ d
  have hcode : code = endCode v.e.pmod.cm := (endCode_eq _).symm
  have hends (j : Nat) : ends j = v.isEnd (l.texelAt v row j) := by
    rw [DrawEnv.isEnd, ← hcode]; rfl
  have hcounted : counted = l.counted v row := by
    funext j
    simp only [counted, hends]; rfl
  have hbefore (j : Nat) : before j = l.endsBefore v j := by
    rw [endsBefore_of_textured htex, ← hcounted]
  have hreaches (j : Nat) : before j < 2 ↔ l.reaches v j = true := by rw [reaches_iff, hbefore]
  refine ⟨?_, ?_, fun x hx => drawLine_byte_of_untouched (fun j hj hr hc p hp => ?_) fb⟩
  · simp only [hreaches, Bool.decide_eq_true]
    exact drawLine_visited v l fb
  · simp only [hreaches]
    exact drawLine_visible_iff v l fb
  · obtain ⟨hend, hshown⟩ := (clear_eq_false_iff htex v j).1 hc
    exact hx j hj ((hreaches _).2 hr) ((hends j).trans hend) hshown p hp

/-! ### The colour of an untextured primitive (R100, R101, R114 to R116) -/

theorem Memory.read16_congr {size : Nat} {m m' : Memory} {a : Nat}
    (h0 : m'.byte (wordOffset size a) = m.byte (wordOffset size a))
    (h1 : m'.byte (wordOffset size a + 1) = m.byte (wordOffset size a + 1)) : m'.read16 size a = m.read16 size a := by
  rw [Memory.read16, Memory.read16, h0, h1]

/-- A word write leaves the other words alone (R34). -/
theorem Memory.read16_write16_ne {size : Nat} (m : Memory) {a b : Nat} (w : Word)
    (h : wordOffset size b ≠ wordOffset size a) : (m.write16 size a w).read16 size b = m.read16 size b := by
  have hb : wordOffset size b % 2 = 0 := Nat.mul_mod_left _ 2
  have ha : wordOffset size a % 2 = 0 := Nat.mul_mod_left _ 2
  exact Memory.read16_congr (Memory.byte_write16_ne size m w h (by omega))
    (Memory.byte_write16_ne size m w (by omega) (by omega))

/-- Pixels are stored as words, each with its own colour unchanged: "replace" in a 16-bit geometry (R100, R101). -/
structure DrawEnv.Replaces (v : DrawEnv) : Prop where
  bpp : v.geom.bpp = 16
  mon : v.e.pmod.mon = false
  cc : v.e.pmod.cc = .replace

/-- The word at an address after a pixel is plotted: the pixel's colour at the pixel's own address. -/
theorem DrawEnv.Replaces.read16_plotPixel {v : DrawEnv} (hv : v.Replaces) (fb : Memory) (p r : Point) (src : Word)
    (g : Rgb) :
    (plotPixel v fb p src g).read16 fbSize (v.pixelAddr r) =
      if v.plots p = true ∧ v.pixelAddr p = v.pixelAddr r then src else fb.read16 fbSize (v.pixelAddr r) := by
  cases hp : v.plots p with
  | false => simp [plotPixel_of_not_plots hp]
  | true =>
    have hwrite : plotPixel v fb p src g = fb.write16 fbSize (v.pixelAddr p) src := by
      simp [plotPixel_of_16bpp hp hv.bpp, write16bpp, writeDatum, hv.mon, hv.cc, colourCalc]
    rw [hwrite]
    by_cases ha : v.pixelAddr p = v.pixelAddr r
    · simp [ha, Memory.read16_write16_same]
    · have hne : wordOffset fbSize (v.pixelAddr r) ≠ wordOffset fbSize (v.pixelAddr p) := by
        rw [wordOffset_pixelAddr hv.bpp, wordOffset_pixelAddr hv.bpp]
        exact Ne.symm ha
      simp [ha, Memory.read16_write16_ne fb src hne]

theorem colour_of_untextured {l : LineSpec} (hl : l.tex = none) (v : DrawEnv) (j : Nat) : l.colour v j = v.e.colr := by
  simp [LineSpec.colour, hl]

theorem fbUpTo_succ_of_untextured {l : LineSpec} (hl : l.tex = none) (v : DrawEnv) (fb : Memory) (j : Nat) :
    l.fbUpTo v fb (j + 1) = l.store v j (l.fbUpTo v fb j) := by
  simp [LineSpec.fbUpTo, reaches_of_untextured hl, LineSpec.clear, hl]

/-- The word at a pixel's place is the colour of the command. -/
def DrawEnv.Holds (v : DrawEnv) (p : Point) (fb : Memory) : Prop := fb.read16 fbSize (v.pixelAddr p) = v.e.colr

section
variable {v : DrawEnv} (hv : v.Replaces) {p : Point}
include hv

theorem holds_plotPixel {fb : Memory} (h : v.Holds p fb) (r : Point) (g : Rgb) :
    v.Holds p (plotPixel v fb r v.e.colr g) := by
  rw [DrawEnv.Holds, hv.read16_plotPixel]
  split
  · rfl
  · exact h

theorem holds_plotPixel_self (hp : v.plots p = true) (fb : Memory) (g : Rgb) :
    v.Holds p (plotPixel v fb p v.e.colr g) := by
  rw [DrawEnv.Holds, hv.read16_plotPixel, if_pos ⟨hp, rfl⟩]

theorem holds_store {l : LineSpec} (hl : l.tex = none) {fb : Memory} (h : v.Holds p fb) (j : Nat) :
    v.Holds p (l.store v j fb) := by
  refine store_keeps (v.Holds p) (fun r _ m hm => ?_) h
  rw [colour_of_untextured hl]
  exact holds_plotPixel hv hm r _

/-- Once a pixel has been stored, an untextured line leaves it in its colour. -/
theorem holds_drawLine_of_upTo {l : LineSpec} (hl : l.tex = none) {fb : Memory} {j : Nat} (hj : j ≤ l.len + 1)
    (h : v.Holds p (l.fbUpTo v fb j)) : v.Holds p (drawLine v l fb).fb := by
  rw [drawLine_fb]
  exact fbUpTo_keeps (v.Holds p) hj (fun i _ _ _ _ m hm => holds_store hv hl hm i) h

theorem holds_drawLine {l : LineSpec} (hl : l.tex = none) {fb : Memory} (h : v.Holds p fb) :
    v.Holds p (drawLine v l fb).fb :=
  holds_drawLine_of_upTo hv hl (Nat.zero_le _) h

theorem holds_store_point {l : LineSpec} (hl : l.tex = none) {j : Nat} (hp : v.plots (l.point j) = true) (fb : Memory) :
    v.Holds (l.point j) (l.store v j fb) := by
  rw [LineSpec.store, colour_of_untextured hl]
  exact holds_plotPixel_self hv hp _ _

/-- The AA pixel of a diagonal step is plotted before the pixel itself (R96). -/
theorem holds_store_aaPoint {l : LineSpec} (hl : l.tex = none) (haa : l.aa = true) {j : Nat}
    (hx : (l.point j).x ≠ (l.point (j + 1)).x) (hy : (l.point j).y ≠ (l.point (j + 1)).y)
    (hp : v.plots (aaPoint (l.point j) (l.point (j + 1)) (xMajor l.p l.q)) = true) (fb : Memory) :
    v.Holds (aaPoint (l.point j) (l.point (j + 1)) (xMajor l.p l.q)) (l.store v (j + 1) fb) := by
  simp only [LineSpec.store, LineSpec.pointBefore, plotAa, colour_of_untextured hl, haa, Bool.true_and,
    Bool.and_eq_true, bne_iff_ne]
  rw [if_pos ⟨hx, hy⟩]
  exact holds_plotPixel hv (holds_plotPixel_self hv hp _ _) _ _

theorem holds_drawLine_of_onLine {l : LineSpec} (hl : l.tex = none) (hp : v.plots p = true) (hon : OnLine l.p l.q p)
    (fb : Memory) : v.Holds p (drawLine v l fb).fb := by
  obtain ⟨j, hj, rfl⟩ := hon
  refine holds_drawLine_of_upTo hv hl (Nat.succ_le_succ hj) ?_
  rw [fbUpTo_succ_of_untextured hl]
  exact holds_store_point hv hl hp _

theorem holds_drawLine_of_onAa {l : LineSpec} (hl : l.tex = none) (haa : l.aa = true) (hp : v.plots p = true)
    (hon : OnAa l.p l.q p) (fb : Memory) : v.Holds p (drawLine v l fb).fb := by
  obtain ⟨j, hj, hpoint⟩ := hon
  by_cases hstraight : (l.point (j + 1)).x = (l.point j).x ∨ (l.point (j + 1)).y = (l.point j).y
  · refine holds_drawLine_of_onLine hv hl hp ?_ fb
    rcases aaPoint_of_straight hstraight (xMajor l.p l.q) with he | he
    · exact ⟨j, hj.le, hpoint.trans he⟩
    · exact ⟨j + 1, hj, hpoint.trans he⟩
  · obtain ⟨hx, hy⟩ := not_or.1 hstraight
    refine holds_drawLine_of_upTo hv hl (Nat.succ_le_succ hj) ?_
    rw [fbUpTo_succ_of_untextured hl]
    subst hpoint
    exact holds_store_aaPoint hv hl haa (Ne.symm hx) (Ne.symm hy) hp _

end

/-- The pixels a line can plot (R95, R96). -/
def LineSpec.Marks (l : LineSpec) (p : Point) : Prop := OnLine l.p l.q p ∨ (l.aa = true ∧ OnAa l.p l.q p)

/-- A pixel of one of several untextured lines is in the colour of the command after them, whichever come later. -/
theorem holds_lines {v : DrawEnv} (hv : v.Replaces) {p : Point} (hp : v.plots p = true) {ls : List LineSpec}
    (htex : ∀ l ∈ ls, l.tex = none) (hmark : ∃ l ∈ ls, l.Marks p) (d : Drawn) : v.Holds p (d.lines v ls).fb := by
  induction ls generalizing d with
  | nil => obtain ⟨l, hl, -⟩ := hmark; cases hl
  | cons l ls ih =>
    have hrest : ∀ m ∈ ls, m.tex = none := fun m hm => htex m (List.mem_cons_of_mem _ hm)
    have hfirst : l.tex = none := htex l List.mem_cons_self
    obtain ⟨m, hm, hmp⟩ := hmark
    rcases List.mem_cons.1 hm with rfl | hm
    · have hdrawn : v.Holds p (d.andLine v m).fb := by
        rcases hmp with hon | ⟨haa, hon⟩
        · exact holds_drawLine_of_onLine hv hfirst hp hon d.fb
        · exact holds_drawLine_of_onAa hv hfirst haa hp hon d.fb
      exact lines_keeps v (v.Holds p) (fun k hk fb h => holds_drawLine hv (hrest k hk) h) _ hdrawn
    · exact ih hrest ⟨m, hm, hmp⟩ (d.andLine v l)

theorem lines_untextured {i : Instr} {e : Entry} (hi : i.drawing = some (false, e)) {v : DrawEnv} {l : LineSpec}
    (hl : l ∈ i.lines v) : l.tex = none := by
  cases i <;> cases hi
  case poly =>
    obtain ⟨k, -, rfl⟩ := List.mem_map.1 hl
    rfl
  case plin =>
    simp only [Instr.lines, List.mem_cons, List.not_mem_nil, or_false] at hl
    rcases hl with rfl | rfl | rfl | rfl <;> rfl
  case line =>
    obtain rfl := List.mem_singleton.1 hl
    rfl

/-- Each pixel an untextured primitive can plot is one of a line of it. -/
theorem exists_line_of_plots {i : Instr} {e : Entry} (hi : i.drawing = some (false, e)) {v : DrawEnv} {p : Point}
    (hp : i.Plots v p) : ∃ l ∈ i.lines v, l.Marks p := by
  cases i <;> cases hi
  case poly =>
    obtain ⟨k, hk, hon⟩ := hp
    exact ⟨_, List.mem_map.2 ⟨k, List.mem_range.2 (Nat.lt_succ_of_le hk), rfl⟩, hon.imp_right fun h => ⟨rfl, h⟩⟩
  case plin =>
    simp only [Instr.lines, List.exists_mem_cons_iff]
    rcases hp with hon | hon | hon | hon
    · exact .inl (.inl hon)
    · exact .inr (.inl (.inl hon))
    · exact .inr (.inr (.inl (.inl hon)))
    · exact .inr (.inr (.inr (.inl (.inl hon))))
  case line => exact ⟨_, List.mem_singleton_self _, .inl hp⟩

/-- Settles O30: a pixel takes the colour when its line is drawn, and no later pixel writes another (`holds_lines`). -/
theorem untexturedPixelsTakeTheColour : Obligations.UntexturedPixelsTakeTheColour := by
  intro i e s t g p hi hcan hg hbpp hcc hmon hexec hplots hp
  obtain ⟨u, hu, hfb, -⟩ := drawCommandsComplete i false e s g hi hcan hg
  obtain rfl : u = t := by rw [hu] at hexec; injection hexec
  have hv : (drawEnv s e g).Replaces := ⟨hbpp, hmon, hcc⟩
  have hholds := holds_lines hv hp (fun l hl => lines_untextured hi hl) (exists_line_of_plots hi hplots)
    (nothingDrawn (s.mem s.drawSpace))
  rw [← draw_eq_lines hi, ← hfb] at hholds
  exact hholds

end Sys2Proof.Machine
end

section
/-! PROOF. A normal sprite shows its texture (`41_vdp1_pixel_pipeline.md` R91 to R98, R103 to R105,
`42_vdp1_draw_commands.md` R111). -/

namespace Sys2Proof.Machine

/-! ### A 512-pixel-wide framebuffer of words (R37) -/

/-- A point of the framebuffer plane that has a word of its own. -/
def Point.InFrame (p : Point) : Prop := (0 ≤ p.x ∧ p.x < 512) ∧ 0 ≤ p.y ∧ p.y < 256

/-- Pixels are stored as they are, and every one in the clip area passes the tests: no user clipping, no mesh, no double
interlace, colour calculation "replace" (R86 to R89, R100). -/
structure DrawEnv.Plain (v : DrawEnv) : Prop where
  geom : v.geom = { width := 512, height := 256, bpp := 16 }
  die : v.die = false
  clip : v.e.pmod.clip = false
  mesh : v.e.pmod.mesh = false
  mon : v.e.pmod.mon = false
  cc : v.e.pmod.cc = .replace

section
variable {v : DrawEnv} (hv : v.Plain)
include hv

theorem DrawEnv.Plain.replaces : v.Replaces := ⟨by rw [hv.geom], hv.mon, hv.cc⟩

theorem DrawEnv.Plain.plots (p : Point) : v.plots p = v.inSysClip p := by
  simp [DrawEnv.plots, DrawEnv.userPass, DrawEnv.meshPass, DrawEnv.linePass, hv.clip, hv.mesh, hv.die]

theorem DrawEnv.Plain.pixelAddr {p : Point} (hp : p.InFrame) :
    v.pixelAddr p = (p.y.toNat * 512 + p.x.toNat) * 2 := by
  obtain ⟨hx, hy⟩ := hp
  have hsize : fbSize = 0x40000 := rfl
  simp only [DrawEnv.pixelAddr, Geometry.addr, hv.geom, DrawEnv.storedLine, hv.die, hsize, if_true, Bool.false_eq_true,
    if_false]
  omega

theorem DrawEnv.Plain.pixelAddr_inj {p r : Point} (hp : p.InFrame) (hr : r.InFrame)
    (h : v.pixelAddr p = v.pixelAddr r) : p = r := by
  rw [hv.pixelAddr hp, hv.pixelAddr hr] at h
  obtain ⟨px, py⟩ := p
  obtain ⟨rx, ry⟩ := r
  obtain ⟨⟨hpx, hpx'⟩, hpy, hpy'⟩ := hp
  obtain ⟨⟨hrx, hrx'⟩, hry, hry'⟩ := hr
  dsimp only at *
  rw [Point.mk.injEq]
  omega

/-! ### A horizontal line inside the frame and the clip area -/

/-- The word at a point after pixel `j` of a horizontal line is stored. -/
theorem read16_store {l : LineSpec} (hrow : l.q.y = l.p.y) {j : Nat} (hj : (l.point j).InFrame)
    (hclip : v.inSysClip (l.point j) = true) {r : Point} (hr : r.InFrame) (fb : Memory) :
    (l.store v j fb).read16 fbSize (v.pixelAddr r) =
      if l.point j = r then l.colour v j else fb.read16 fbSize (v.pixelAddr r) := by
  have haa : plotAa v l fb (l.pointBefore j) (l.point j) (l.colour v j) (lineShade v l j l.len) = fb := by
    cases j with
    | zero => rfl
    | succ j =>
      have hy : (l.point j).y = (l.point (j + 1)).y :=
        (linePoint_y_of_horizontal hrow _ _).trans (linePoint_y_of_horizontal hrow _ _).symm
      simp [LineSpec.pointBefore, plotAa, hy]
  have haddr : v.pixelAddr (l.point j) = v.pixelAddr r ↔ l.point j = r :=
    ⟨hv.pixelAddr_inj hj hr, congrArg v.pixelAddr⟩
  rw [LineSpec.store, haa, hv.replaces.read16_plotPixel, hv.plots]
  simp only [hclip, haddr, true_and]

/-- A horizontal line leaves the words outside it alone. -/
theorem read16_drawLine_outside {l : LineSpec} (hrow : l.q.y = l.p.y)
    (hin : ∀ j ≤ l.len, (l.point j).InFrame ∧ v.inSysClip (l.point j) = true) {r : Point} (hr : r.InFrame)
    (hout : ∀ j ≤ l.len, l.point j ≠ r) (fb : Memory) :
    (drawLine v l fb).fb.read16 fbSize (v.pixelAddr r) = fb.read16 fbSize (v.pixelAddr r) := by
  rw [drawLine_fb]
  refine fbUpTo_keeps (fun m => m.read16 fbSize (v.pixelAddr r) = fb.read16 fbSize (v.pixelAddr r)) (Nat.zero_le _)
    (fun j _ hj _ _ m hm => ?_) rfl
  obtain ⟨hframe, hclip⟩ := hin j (by omega)
  rw [read16_store hv hrow hframe hclip hr, if_neg (hout j (by omega)), hm]

/-- A horizontal line puts into the word of each pixel the pixel's colour, if it stores the pixel. -/
theorem read16_drawLine_point {l : LineSpec} (hrow : l.q.y = l.p.y)
    (hin : ∀ j ≤ l.len, (l.point j).InFrame ∧ v.inSysClip (l.point j) = true)
    (hinj : ∀ i ≤ l.len, ∀ j ≤ l.len, l.point i = l.point j → i = j) {j : Nat} (hj : j ≤ l.len) (fb : Memory) :
    (drawLine v l fb).fb.read16 fbSize (v.pixelAddr (l.point j)) =
      if l.reaches v (j + 1) = true ∧ l.clear v j = false then l.colour v j
      else fb.read16 fbSize (v.pixelAddr (l.point j)) := by
  have hother (k : Nat) (hk : k ≤ l.len) (hne : k ≠ j) (m : Memory) :
      (l.store v k m).read16 fbSize (v.pixelAddr (l.point j)) = m.read16 fbSize (v.pixelAddr (l.point j)) := by
    rw [read16_store hv hrow (hin k hk).1 (hin k hk).2 (hin j hj).1, if_neg fun h => hne (hinj k hk j hj h)]
  have hbefore : (l.fbUpTo v fb j).read16 fbSize (v.pixelAddr (l.point j)) =
      fb.read16 fbSize (v.pixelAddr (l.point j)) :=
    fbUpTo_keeps (fun m => m.read16 fbSize (v.pixelAddr (l.point j)) = fb.read16 fbSize (v.pixelAddr (l.point j)))
      (Nat.zero_le _) (fun k _ hk _ _ m hm => (hother k (by omega) (by omega) m).trans hm) rfl
  have hself : (l.fbUpTo v fb (j + 1)).read16 fbSize (v.pixelAddr (l.point j)) =
      if l.reaches v (j + 1) = true ∧ l.clear v j = false then l.colour v j
      else fb.read16 fbSize (v.pixelAddr (l.point j)) := by
    simp only [LineSpec.fbUpTo, Bool.and_eq_true, Bool.not_eq_true']
    split
    · rw [read16_store hv hrow (hin j hj).1 (hin j hj).2 (hin j hj).1, if_pos rfl]
    · exact hbefore
  rw [drawLine_fb]
  exact fbUpTo_keeps (fun m => m.read16 fbSize (v.pixelAddr (l.point j)) = _) (Nat.succ_le_succ hj)
    (fun k hjk hk _ _ m hm => (hother k (by omega) (by omega) m).trans hm) hself

end

/-! ### The rows of a normal sprite (R97, R105, R111) -/

/-- Vertex A (R110). -/
def spriteOrigin (v : DrawEnv) : Point := vertex v.localX v.localY v.e.xa v.e.ya

/-- Where column `j` of row `k` of a normal sprite lies. -/
def spritePoint (v : DrawEnv) (j k : Nat) : Point := ⟨(spriteOrigin v).x + j, (spriteOrigin v).y + k⟩

/-- The texel of column `j` of row `k`, mirrored as DirH and DirV say (R97). -/
def spriteTexel (v : DrawEnv) (j k : Nat) : Nat :=
  texel v (if v.e.dirH then v.e.texW - 1 - j else j) (if v.e.dirV then v.e.texH - 1 - k else k)

/-- The end codes of row `k` before column `j` (R94). -/
def spriteEndsBefore (v : DrawEnv) (j k : Nat) : Nat := (List.range j).countP fun i => v.isEnd (spriteTexel v i k)

/-- The line of row `k` (R105). -/
def spriteLine (v : DrawEnv) (k : Nat) : LineSpec := (normalQuad v).line v (gouraudTable v.vram1 v.e) true k

/-- A normal sprite with at least one texel. -/
structure DrawEnv.HasTexture (v : DrawEnv) : Prop where
  width : 0 < v.e.texW
  height : 0 < v.e.texH

/-- The sprite lies in the clip area and in the frame (R86, R37). -/
structure DrawEnv.SpriteInside (v : DrawEnv) : Prop where
  left : 0 ≤ (spriteOrigin v).x
  right : (spriteOrigin v).x + v.e.texW - 1 ≤ min v.sysH 511
  top : 0 ≤ (spriteOrigin v).y
  bottom : (spriteOrigin v).y + v.e.texH - 1 ≤ min v.sysV 255

/-- The rows and columns of a sprite of `n` texels along an axis go up from the origin, if there is more than one. -/
theorem sign_mul_of_lt (a : Int) {n k : Nat} (hk : k < n) : (a + n - 1 - a).sign * (k : Int) = k := by
  rcases Nat.eq_zero_or_pos k with rfl | hpos
  · simp
  · rw [Int.sign_eq_one_of_pos (by omega), Int.one_mul]

theorem spriteLine_ends {v : DrawEnv} {k : Nat} (hk : k < v.e.texH) :
    (spriteLine v k).p = ⟨(spriteOrigin v).x, (spriteOrigin v).y + k⟩ ∧
      (spriteLine v k).q = ⟨(spriteOrigin v).x + v.e.texW - 1, (spriteOrigin v).y + k⟩ := by
  have hends : ((spriteLine v k).p, (spriteLine v k).q) = _ := rectQuad_ends _ _ _ _ k
  have hrow := sign_mul_of_lt (spriteOrigin v).y hk
  obtain ⟨hp, hq⟩ := Prod.mk.inj hends
  rw [spriteOrigin] at hrow
  rw [hrow] at hp hq
  exact ⟨hp, hq⟩

theorem spriteLine_point {v : DrawEnv} {j k : Nat} (hj : j < v.e.texW) (hk : k < v.e.texH) :
    (spriteLine v k).point j = spritePoint v j k := by
  obtain ⟨hp, hq⟩ := spriteLine_ends hk
  rw [LineSpec.point, LineSpec.len, hp, hq, steps_horizontal, linePoint_horizontal, sign_mul_of_lt _ hj]
  rfl

theorem spritePoint_inSysClip {v : DrawEnv} (hin : v.SpriteInside) {j k : Nat} (hj : j < v.e.texW) (hk : k < v.e.texH) :
    v.inSysClip (spritePoint v j k) = true := by
  obtain ⟨hl, hr, ht, hb⟩ := hin
  rw [inSysClip_iff]
  dsimp only [spritePoint]
  omega

theorem spritePoint_inFrame {v : DrawEnv} (hin : v.SpriteInside) {j k : Nat} (hj : j < v.e.texW)
    (hk : k < v.e.texH) : (spritePoint v j k).InFrame := by
  obtain ⟨hl, hr, ht, hb⟩ := hin
  dsimp only [Point.InFrame, spritePoint]
  omega

theorem pixelAddr_spritePoint {v : DrawEnv} (hin : v.SpriteInside) (hv : v.Plain) {j k : Nat}
    (hj : j < v.e.texW) (hk : k < v.e.texH) :
    v.pixelAddr (spritePoint v j k) =
      (((spriteOrigin v).y.toNat + k) * 512 + ((spriteOrigin v).x.toNat + j)) * 2 := by
  have hx : (spritePoint v j k).x.toNat = (spriteOrigin v).x.toNat + j := Int.toNat_add_nat hin.left j
  have hy : (spritePoint v j k).y.toNat = (spriteOrigin v).y.toNat + k := Int.toNat_add_nat hin.top k
  rw [hv.pixelAddr (spritePoint_inFrame hin hj hk), hx, hy]

section
variable {v : DrawEnv} (ht : v.HasTexture)
include ht

theorem normalQuad_steps : (normalQuad v).steps + 1 = v.e.texH := by
  have := ht.height
  simp only [normalQuad, rectQuad_steps]
  omega

theorem spriteLine_len {k : Nat} (hk : k < v.e.texH) : (spriteLine v k).len + 1 = v.e.texW := by
  have := ht.width
  obtain ⟨hp, hq⟩ := spriteLine_ends hk
  rw [LineSpec.len, hp, hq, steps_horizontal]
  omega

theorem spriteLine_tex (k : Nat) : (spriteLine v k).tex = some (if v.e.dirV then v.e.texH - 1 - k else k) := by
  have hrow : (spriteLine v k).tex = some (texCoord v.e.dirV v.e.texH k ((normalQuad v).steps + 1)) := rfl
  rw [hrow, normalQuad_steps ht, texCoord_same _ ht.height]

theorem spriteLine_texelAt {k : Nat} (hk : k < v.e.texH) (j : Nat) :
    (spriteLine v k).texelAt v (if v.e.dirV then v.e.texH - 1 - k else k) j = spriteTexel v j k := by
  rw [LineSpec.texelAt, spriteLine_len ht hk, texCoord_same _ ht.width, spriteTexel]

/-- Every pixel of a row has a column of its own, so each end code counts (R94, R97). -/
theorem spriteLine_endsBefore {k : Nat} (hk : k < v.e.texH) (j : Nat) :
    (spriteLine v k).endsBefore v j = spriteEndsBefore v j k := by
  have hcolumn (i : Nat) : (spriteLine v k).column v i = i := by
    rw [LineSpec.column, spriteLine_len ht hk, Nat.mul_div_cancel _ ht.width]
  rw [endsBefore_of_textured (spriteLine_tex ht k), spriteEndsBefore]
  congr 1
  funext i
  rw [LineSpec.counted, spriteLine_texelAt ht hk, hcolumn, hcolumn]
  cases i <;> simp

/-- A pixel is stored before the second end code of its row, unless its own texel is transparent (R93, R94). -/
theorem spriteLine_stores_iff {k : Nat} (hk : k < v.e.texH) (j : Nat) :
    ((spriteLine v k).reaches v (j + 1) = true ∧ (spriteLine v k).clear v j = false) ↔
      spriteEndsBefore v j k < 2 ∧ v.isEnd (spriteTexel v j k) = false ∧
        (v.e.pmod.spd = true ∨ spriteTexel v j k ≠ 0) := by
  rw [reaches_iff, spriteLine_endsBefore ht hk, clear_eq_false_iff (spriteLine_tex ht k), spriteLine_texelAt ht hk,
    and_congr_left_iff]
  rintro ⟨hend, -⟩
  simp [spriteEndsBefore, List.range_succ, hend]

theorem spriteLine_colour {k : Nat} (hk : k < v.e.texH) (j : Nat) :
    (spriteLine v k).colour v j = texelColour v (spriteTexel v j k) := by
  simp only [LineSpec.colour, spriteLine_tex ht k, spriteLine_texelAt ht hk]

/-! ### What a normal sprite reports (R103) -/

theorem nspr_lines (e : Entry) : (Instr.nspr e).lines v = (List.range v.e.texH).map (spriteLine v) := by
  have := ht.width
  have := ht.height
  rw [← normalQuad_steps ht]
  exact if_neg (by omega)

theorem spriteLine_visited {k : Nat} (hk : k < v.e.texH) (fb : Memory) :
    (drawLine v (spriteLine v k) fb).result.visited =
      (List.range v.e.texW).countP fun j => decide (spriteEndsBefore v j k < 2) := by
  simp only [drawLine_visited, spriteLine_len ht hk, LineSpec.reaches, spriteLine_endsBefore ht hk]

theorem nspr_visited (e : Entry) (fb : Memory) :
    ((Instr.nspr e).draw v fb).result.visited =
      ((List.range v.e.texH).map fun k =>
        (List.range v.e.texW).countP fun j => decide (spriteEndsBefore v j k < 2)).sum := by
  rw [draw_eq_lines (i := .nspr e) rfl, lines_visited v fb, nspr_lines ht, List.map_map]
  refine (Nat.zero_add _).trans (congrArg List.sum (List.map_congr_left fun k hk => ?_))
  exact spriteLine_visited ht (List.mem_range.1 hk) fb

variable (hin : v.SpriteInside)
include hin

/-- The first pixel of a row ends no row, so a sprite in the clip area is visible (R103). -/
theorem nspr_visible (e : Entry) (fb : Memory) : ((Instr.nspr e).draw v fb).result.visible = true := by
  rw [draw_eq_lines (i := .nspr e) rfl, lines_visible v fb, nspr_lines ht]
  refine .inr ⟨spriteLine v 0, List.mem_map.2 ⟨0, List.mem_range.2 ht.height, rfl⟩, ?_⟩
  have hfirst : (spriteLine v 0).reaches v (0 + 1) = true := by
    have := List.countP_le_length (p := fun i => v.isEnd (spriteTexel v i 0)) (l := List.range (0 + 1))
    rw [reaches_iff, spriteLine_endsBefore ht ht.height, spriteEndsBefore]
    exact this.trans_lt (by decide)
  refine (drawLine_visible_iff v _ fb).2 ⟨0, Nat.zero_le _, hfirst, ?_⟩
  rw [spriteLine_point ht.width ht.height]
  exact spritePoint_inSysClip hin ht.width ht.height

theorem nspr_result (e : Entry) (fb : Memory) :
    ((Instr.nspr e).draw v fb).result =
      { visited := ((List.range v.e.texH).map fun k =>
          (List.range v.e.texW).countP fun j => decide (spriteEndsBefore v j k < 2)).sum
        visible := true } := by
  rw [← nspr_visited ht e fb, ← nspr_visible ht hin e fb]

/-! ### What a normal sprite stores -/

variable (hv : v.Plain)
include hv

/-- The line of a row writes the words of its row and of no other. -/
theorem read16_spriteLine {j k i : Nat} (hj : j < v.e.texW) (hk : k < v.e.texH) (hi : i < v.e.texH) (fb : Memory) :
    (drawLine v (spriteLine v i) fb).fb.read16 fbSize (v.pixelAddr (spritePoint v j k)) =
      if i = k ∧ spriteEndsBefore v j k < 2 ∧ v.isEnd (spriteTexel v j k) = false ∧
          (v.e.pmod.spd = true ∨ spriteTexel v j k ≠ 0)
      then texelColour v (spriteTexel v j k) else fb.read16 fbSize (v.pixelAddr (spritePoint v j k)) := by
  have hrow : (spriteLine v i).q.y = (spriteLine v i).p.y := by
    obtain ⟨hp, hq⟩ := spriteLine_ends hi
    rw [hp, hq]
  have hlen := spriteLine_len ht hi
  have hpoint (c : Nat) (hc : c ≤ (spriteLine v i).len) : (spriteLine v i).point c = spritePoint v c i :=
    spriteLine_point (by omega) hi
  have hinside (c : Nat) (hc : c ≤ (spriteLine v i).len) :
      ((spriteLine v i).point c).InFrame ∧ v.inSysClip ((spriteLine v i).point c) = true := by
    rw [hpoint c hc]
    exact ⟨spritePoint_inFrame hin (by omega) hi, spritePoint_inSysClip hin (by omega) hi⟩
  by_cases hik : i = k
  · subst hik
    have hinj (c : Nat) (hc : c ≤ (spriteLine v i).len) (d : Nat) (hd : d ≤ (spriteLine v i).len)
        (h : (spriteLine v i).point c = (spriteLine v i).point d) : c = d := by
      rw [hpoint c hc, hpoint d hd, spritePoint, spritePoint, Point.mk.injEq] at h
      omega
    have hjlen : j ≤ (spriteLine v i).len := by omega
    have hline := read16_drawLine_point hv hrow hinside hinj hjlen fb
    rw [hpoint j hjlen, spriteLine_colour ht hi] at hline
    simpa only [spriteLine_stores_iff ht hi, true_and] using hline
  · have hout (c : Nat) (hc : c ≤ (spriteLine v i).len) : (spriteLine v i).point c ≠ spritePoint v j k := by
      rw [hpoint c hc, spritePoint, spritePoint, Ne, Point.mk.injEq]
      omega
    rw [read16_drawLine_outside hv hrow hinside (spritePoint_inFrame hin hj hk) hout, if_neg fun h => hik h.1]

/-- After the first `n` rows the words of these rows show their texels, and the others are as they were. -/
theorem read16_spriteLines {j k : Nat} (hj : j < v.e.texW) (hk : k < v.e.texH) (fb : Memory) {n : Nat}
    (hn : n ≤ v.e.texH) :
    ((nothingDrawn fb).lines v ((List.range n).map (spriteLine v))).fb.read16 fbSize
        (v.pixelAddr (spritePoint v j k)) =
      if k < n ∧ spriteEndsBefore v j k < 2 ∧ v.isEnd (spriteTexel v j k) = false ∧
          (v.e.pmod.spd = true ∨ spriteTexel v j k ≠ 0)
      then texelColour v (spriteTexel v j k) else fb.read16 fbSize (v.pixelAddr (spritePoint v j k)) := by
  induction n with
  | zero => simp [Drawn.lines, nothingDrawn]
  | succ n ih =>
    have hlast : ((nothingDrawn fb).lines v ((List.range (n + 1)).map (spriteLine v))).fb =
        (drawLine v (spriteLine v n) ((nothingDrawn fb).lines v ((List.range n).map (spriteLine v))).fb).fb := by
      simp [Drawn.lines, List.range_succ, Drawn.andLine]
    rw [hlast, read16_spriteLine ht hin hv hj hk hn, ih (by omega)]
    rcases lt_trichotomy k n with h | rfl | h
    · simp [h, h.ne', Nat.lt_succ_of_lt h]
    · simp
    · simp [h.not_gt, h.ne, show ¬ k < n + 1 by omega]

end

/-- Settles O31: the command is its rows (`nspr_lines`), the word of a texel is written by its row alone, and a row
visits its columns up to its second end code. -/
theorem normalSpriteShowsItsTexture : Obligations.NormalSpriteShowsItsTexture := by
  intro e s g hcan hg hdie hmon hclip hmesh hcc hw hh v a t code ends before hleft hright htop hbottom
  have hv : v.Plain := ⟨rfl, hdie, hclip, hmesh, hmon, hcc⟩
  have ht : v.HasTexture := ⟨hw, hh⟩
  have hin : v.SpriteInside := ⟨hleft, hright, htop, hbottom⟩
  have hcode : code = endCode v.e.pmod.cm := (endCode_eq _).symm
  have hends (j k : Nat) : ends j k = v.isEnd (spriteTexel v j k) := by
    rw [DrawEnv.isEnd, ← hcode]; rfl
  have hbefore (j k : Nat) : before j k = spriteEndsBefore v j k := by
    simp only [before, hends]; rfl
  obtain ⟨u, hexec, hfb, -, hproc, -⟩ := drawCommandsComplete (.nspr e) true e s g rfl hcan hg
  refine ⟨u, hexec, fun j hj k hk => ?_, ?_⟩
  · have hword := read16_spriteLines ht hin hv hj hk (s.mem s.drawSpace) le_rfl
    rw [← nspr_lines ht e, ← draw_eq_lines (i := .nspr e) rfl, ← hfb, pixelAddr_spritePoint hin hv hj hk] at hword
    simp only [show k < v.e.texH from hk, true_and] at hword
    simp only [hbefore, hends]
    exact hword
  · rw [hproc]
    simp only [hbefore]
    exact congrArg (fun r => s.proc.frameCycles + Config.cmdCost (.nspr e) r) (nspr_result ht hin e (s.mem s.drawSpace))

end Sys2Proof.Machine
end

section
/-! PROOF. The vertices of a command and the zoom points of a scaled sprite (`42_vdp1_draw_commands.md` R110 to R112). -/

namespace Sys2Proof.Machine

/-! ### The edges of a zoom selector (R112) -/

/-- Every selector with a display size spreads its edges by that size; only `twoPoint` takes an edge from vertex C. -/
theorem axisPair_extent {z : ZoomSel} (hz : z ≠ .twoPoint) (a b c : Int) :
    (axisPair z a b c).2 - (axisPair z a b c).1 = b := by
  cases z with
  | twoPoint => exact absurd rfl hz
  | low => exact add_sub_cancel_left a b
  | centre =>
    simp only [axisPair]
    omega
  | high => exact sub_sub_cancel a b

/-- The edges about a centre lie evenly around it, but for the odd pixel of an odd size, which goes to the high edge. -/
theorem axisPair_centre_balance (a b c : Int) :
    (axisPair .centre a b c).1 + (axisPair .centre a b c).2 - 2 * a = b % 2 := by
  simp only [axisPair]
  omega

/-- Settles O29: the three quadrilaterals are the model's own equations, and the zoom selectors are told apart in
`axisPair_extent` and `axisPair_centre_balance`. -/
theorem verticesAndZoomPoints : Obligations.VerticesAndZoomPoints := by
  intro v x y span h w rect
  have hentry : entryQuad v =
      { a := ⟨x v.e.xa, y v.e.ya⟩, b := ⟨x v.e.xb, y v.e.yb⟩, c := ⟨x v.e.xc, y v.e.yc⟩,
        d := ⟨x v.e.xd, y v.e.yd⟩ } := rfl
  have hnormal : normalQuad v =
      rect (x v.e.xa) (y v.e.ya) (x v.e.xa + v.e.texW - 1) (y v.e.ya + v.e.texH - 1) := rfl
  have hspan (z : ZoomSel) (a b c : Int) : axisPair z a b c = span z a b c := by cases z <;> rfl
  have hscaled : scaledQuad v = rect (h.1 + v.localX) (w.1 + v.localY) (h.2 + v.localX) (w.2 + v.localY) := by
    simp only [scaledQuad, hspan]
    rfl
  exact ⟨hentry, hnormal, hscaled, fun a b c => ⟨fun _ hz => axisPair_extent hz a b c, axisPair_centre_balance a b c⟩⟩

end Sys2Proof.Machine
end

section
/-! PROOF. What an erase leaves in a framebuffer, and the whole results of a swap and of the frame boundary
(`20_memory.md` R37, `43_vdp1_framebuffer_control.md` R129, R132, R133). -/

namespace Sys2Proof.Machine

/-! ### The cells of a framebuffer (R34, R37) -/

/-- The 16-bit cells of a framebuffer (R5, R37). -/
def fbCells : Nat := 0x20000

theorem fbSize_eq_cells : fbSize = fbCells * 2 := rfl

/-- The lines of a geometry make up the whole framebuffer (R37). -/
theorem geometry_cells {t : BitVec 3} {g : Geometry} (h : geometry t = some g) : g.height * g.lineWords = fbCells := by
  unfold geometry at h
  split at h <;> cases h <;> rfl

theorem cell_lt_fbCells {h lw y w : Nat} (hcells : h * lw = fbCells) (hy : y < h) (hw : w < lw) :
    y * lw + w < fbCells :=
  calc y * lw + w < (y + 1) * lw := by rw [Nat.succ_mul]; omega
    _ ≤ h * lw := Nat.mul_le_mul_right lw hy
    _ = fbCells := hcells

theorem wordOffset_fbCell {n : Nat} (h : n < fbCells) : wordOffset fbSize (n * 2) = n * 2 := by
  have hmod := wordOffset_cell n
  rwa [Nat.mod_eq_of_lt (by rw [fbSize_eq_cells]; omega)] at hmod

/-- A cell after one cell has been stored. -/
theorem read16_write16_cell {n k : Nat} (hn : n < fbCells) (hk : k < fbCells) (m : Memory) (data : Word) :
    (m.write16 fbSize (k * 2) data).read16 fbSize (n * 2) = if n = k then data else m.read16 fbSize (n * 2) := by
  split
  next h => rw [h, Memory.read16_write16_same]
  next h => exact Memory.read16_write16_ne m data (by rw [wordOffset_fbCell hn, wordOffset_fbCell hk]; omega)

/-- The cells `w` with `x1 ≤ w < x3` of line `y'` are consecutive, and no cell of another line is among them. -/
theorem cell_in_row_iff {lw x1 x3 w y y' : Nat} (hx3 : x3 ≤ lw) (hw : w < lw) :
    (y' * lw + x1 ≤ y * lw + w ∧ y * lw + w < y' * lw + x1 + (x3 - x1)) ↔ y = y' ∧ x1 ≤ w ∧ w < x3 := by
  rcases Nat.lt_trichotomy y y' with hlt | rfl | hgt
  · have hrow : (y + 1) * lw ≤ y' * lw := Nat.mul_le_mul_right lw hlt
    rw [Nat.succ_mul] at hrow
    omega
  · omega
  · have hrow : (y' + 1) * lw ≤ y * lw := Nat.mul_le_mul_right lw hgt
    rw [Nat.succ_mul] at hrow
    omega

/-! ### The contents an erase leaves (R129) -/

/-- A cell after `k` cells from cell `c` on have been filled. -/
theorem read16_eraseCells {n : Nat} (hn : n < fbCells) (data : Word) (k c : Nat) (m : Memory)
    (hfit : ∀ i < k, c + i < fbCells) :
    (eraseCells data k (c * 2) m).read16 fbSize (n * 2) =
      if c ≤ n ∧ n < c + k then data else m.read16 fbSize (n * 2) := by
  induction k generalizing c m with
  | zero => rw [eraseCells, if_neg (by omega)]
  | succ k ih =>
    have hrest (i : Nat) (hi : i < k) : c + 1 + i < fbCells := by
      have := hfit (i + 1) (by omega)
      omega
    rw [eraseCells, show c * 2 + 2 = (c + 1) * 2 by omega, ih (c + 1) _ hrest,
      read16_write16_cell (k := c) hn (hfit 0 k.succ_pos)]
    by_cases hc : n = c
    · rw [if_neg (by omega), if_pos hc, if_pos (by omega)]
    · rw [if_neg hc]
      exact if_congr (by omega) rfl rfl

/-- A cell after the cells `x1 ≤ w < x3` of `k` lines from line `y1` on have been filled. -/
theorem read16_eraseLines {h lw x1 x3 y w : Nat} (hcells : h * lw = fbCells) (hx3 : x3 ≤ lw) (hy : y < h) (hw : w < lw)
    (data : Word) (k y1 : Nat) (m : Memory) (hfit : ∀ i < k, y1 + i < h) :
    (eraseLines lw x1 x3 data k y1 m).read16 fbSize ((y * lw + w) * 2) =
      if (y1 ≤ y ∧ y < y1 + k) ∧ x1 ≤ w ∧ w < x3 then data else m.read16 fbSize ((y * lw + w) * 2) := by
  induction k generalizing y1 m with
  | zero => rw [eraseLines, if_neg (by omega)]
  | succ k ih =>
    have hrest (i : Nat) (hi : i < k) : y1 + 1 + i < h := by
      have := hfit (i + 1) (by omega)
      omega
    have hrow (i : Nat) (hi : i < x3 - x1) : y1 * lw + x1 + i < fbCells := by
      have := cell_lt_fbCells (y := y1) hcells (hfit 0 k.succ_pos) (show x1 + i < lw by omega)
      omega
    rw [eraseLines, ih (y1 + 1) _ hrest, read16_eraseCells (cell_lt_fbCells hcells hy hw) data _ _ _ hrow,
      if_congr (cell_in_row_iff hx3 hw) rfl rfl]
    by_cases hw13 : x1 ≤ w ∧ w < x3
    · simp only [hw13, and_self, and_true]
      by_cases h1 : y = y1
      · rw [if_neg (by omega), if_pos h1, if_pos (by omega)]
      · rw [if_neg h1]
        exact if_congr (by omega) rfl rfl
    · simp only [hw13, and_false, if_false]

/-! ### The limits of an erase (R16, R17) -/

theorem eraseY1_eq (s : State) : s.eraseY1 = s.regs1.ewlr.toNat % 0x200 := by
  rw [State.eraseY1, BitVec.extractLsb'_toNat, Nat.shiftRight_zero]

theorem eraseY3_eq (s : State) : s.eraseY3 = s.regs1.ewrr.toNat % 0x200 := by
  rw [State.eraseY3, BitVec.extractLsb'_toNat, Nat.shiftRight_zero]

theorem eraseX1_eq (s : State) : s.eraseX1 = s.regs1.ewlr.toNat / 0x200 % 0x40 := by
  rw [State.eraseX1, BitVec.extractLsb'_toNat, Nat.shiftRight_eq_div_pow]

/-- X3 is all of EWRR above Y3, so it needs no mask. -/
theorem eraseX3_eq (s : State) : s.eraseX3 = s.regs1.ewrr.toNat / 0x200 := by
  rw [State.eraseX3, BitVec.extractLsb'_toNat, Nat.shiftRight_eq_div_pow]
  exact Nat.mod_eq_of_lt (by have := s.regs1.ewrr.isLt; omega)

theorem erase_of_reserved {s : State} (h : geometry s.tvm = none) (f : FbId) : s.erase f = s := by
  rw [State.erase, h]

theorem erase_of_geometry {s : State} {g : Geometry} (h : geometry s.tvm = some g) (f : FbId) :
    s.erase f =
      s.setMem (.fb f)
        (eraseLines g.lineWords (s.eraseArea g).x1 (s.eraseArea g).x3 s.regs1.ewdr (s.eraseArea g).lines
          (s.eraseArea g).y1 (s.mem (.fb f))) := by
  rw [State.erase, h]

/-- A cell of the framebuffer lies in the clamped area exactly if it lies between the limits of EWLR and EWRR. -/
theorem in_eraseArea_iff (s : State) {g : Geometry} {y w : Nat} (hy : y < g.height) (hw : w < g.lineWords) :
    (((s.eraseArea g).y1 ≤ y ∧ y < (s.eraseArea g).y1 + (s.eraseArea g).lines) ∧
        (s.eraseArea g).x1 ≤ w ∧ w < (s.eraseArea g).x3) ↔
      s.eraseY1 ≤ y ∧ y ≤ s.eraseY3 ∧ s.eraseX1 * 8 ≤ w ∧ w < s.eraseX3 * 8 := by
  simp only [State.eraseArea]
  omega

/-- Every line of the area is a line of the framebuffer. -/
theorem eraseArea_line_lt (s : State) {g : Geometry} (hh : 0 < g.height) (i : Nat) (hi : i < (s.eraseArea g).lines) :
    (s.eraseArea g).y1 + i < g.height := by
  simp only [State.eraseArea] at hi ⊢
  omega

/-- Settles O36: the area lies inside the framebuffer, where `read16_eraseLines` tells every cell. -/
theorem eraseFillsItsRectangle : Obligations.EraseFillsItsRectangle := by
  intro s f
  refine ⟨fun hg => erase_of_reserved hg f, fun g hg => ⟨⟨_, erase_of_geometry hg f⟩, fun y hy w hw => ?_⟩⟩
  have hfit := eraseArea_line_lt s (g := g) (by omega)
  rw [erase_of_geometry hg, State.mem_setMem_same, ← eraseY1_eq, ← eraseY3_eq, ← eraseX1_eq, ← eraseX3_eq]
  exact (read16_eraseLines (geometry_cells hg) (Nat.min_le_right _ _) hy hw _ _ _ _ hfit).trans
    (if_congr (in_eraseArea_iff s hy hw) rfl rfl)

/-! ### The swap (R125, R132) -/

theorem ptm_eq_two_iff (s : State) : s.ptm = 2 ↔ s.regs1.ptmr.toNat % 4 = 2 := by
  rw [State.ptm, ← BitVec.toNat_inj, BitVec.extractLsb'_toNat, Nat.shiftRight_zero]
  rfl

theorem abandonList_eq (s : State) :
    s.abandonList = s.setStatus (if s.proc.status = .busy then .idle else s.proc.status) := by
  rcases abandonList_cases s with ⟨hb, h⟩ | ⟨hb, h⟩
  · rw [h, if_pos hb]
  · rw [h, if_neg hb]
    rfl

/-- EDSR with CEF clear is its bit 0. -/
theorem edsrWord_false (bef : Bool) : edsrWord false bef = if bef then 0x0001 else 0x0000 := by
  cases bef <;> rfl

/-- A start of drawing clears CEF, which a swap has left clear (R125). -/
theorem edsrWord_false_clear (bef : Bool) : edsrWord false bef &&& 0xFFFD#16 = edsrWord false bef := by
  cases bef <;> rfl

/-- A start of drawing in a state with CEF clear. -/
theorem startDrawing_of_cef_clear {s : State} (h : s.regs1.edsr &&& 0xFFFD#16 = s.regs1.edsr) :
    s.startDrawing =
      { s with
        proc := { s.proc with status := .busy, cmdAddr := 0, frameCycles := 0, cyclePool := 0 }
        ctx := { s.ctx with retAddr := none } } := by
  rw [State.startDrawing, h]

/-- Settles O37: a swap up to its callback by `abandonList_eq`, and the start of drawing after it. -/
theorem swapResult : Obligations.SwapResult := by
  intro s t
  have ht : s.swapRegisters.abandonList.emit .framebufferSwap = t := by
    rw [abandonList_eq, State.emit, State.setStatus]
    simp only [t, State.swapRegisters, State.shiftCef, edsrWord_false]
    rfl
  have hcef : t.regs1.edsr &&& 0xFFFD#16 = t.regs1.edsr := by
    have hedsr : t.regs1.edsr = edsrWord false s.cef := (edsrWord_false _).symm
    rw [hedsr, edsrWord_false_clear]
  have hptm := ptm_eq_two_iff s
  rcases swap_cases s with ⟨hp, h⟩ | ⟨hp, h⟩ <;> rw [h, ht]
  · exact ⟨fun _ => rfl, fun hp' => absurd (hptm.2 hp') hp⟩
  · exact ⟨fun hp' => absurd (hptm.1 hp) hp', fun _ => startDrawing_of_cef_clear hcef⟩

/-! ### The frame boundary (R133) -/

@[simp] theorem State.erase_regs1 (s : State) (f : FbId) : (s.erase f).regs1 = s.regs1 := by
  rcases erase_cases s f with h | ⟨g, -, h⟩ <;> simp [h]

@[simp] theorem State.erase_seq (s : State) (f : FbId) : (s.erase f).seq = s.seq := by
  rcases erase_cases s f with h | ⟨g, -, h⟩ <;> simp [h]

/-- The frame boundary erases first if asked to or in automatic mode. -/
theorem boundaryErase_of_due {s : State} (h : s.fcm = false ∨ s.seq.manualEraseReq = true) :
    s.boundaryErase = ({ s with seq := { s.seq with manualEraseReq := false } } : State).erase s.seq.drawFB.other := by
  rw [State.boundaryErase, if_pos (by rcases h with h | h <;> simp [h])]
  rfl

theorem boundaryErase_of_not_due {s : State} (hm : s.fcm = true) (he : s.seq.manualEraseReq = false) :
    s.boundaryErase = s := by
  rw [State.boundaryErase, if_neg (by simp [hm, he])]

/-- Neither the mode nor the swap request changes with the erase. -/
theorem boundaryErase_swap_due (s : State) :
    (!s.boundaryErase.fcm || s.boundaryErase.seq.manualSwapReq) = (!s.fcm || s.seq.manualSwapReq) := by
  rcases boundaryErase_cases s with h | h <;> rw [h]
  simp [State.fcm]

/-- The frame boundary swaps after its erase if asked to or in automatic mode. -/
theorem frameBoundary_of_due {s : State} (h : s.fcm = false ∨ s.seq.manualSwapReq = true) :
    s.frameBoundary = s.boundaryErase.swap := by
  simp only [State.frameBoundary]
  rw [boundaryErase_swap_due, if_pos (by rcases h with h | h <;> simp [h])]

theorem frameBoundary_of_not_due {s : State} (hm : s.fcm = true) (hs : s.seq.manualSwapReq = false) :
    s.frameBoundary = s.boundaryErase := by
  simp only [State.frameBoundary]
  rw [boundaryErase_swap_due, if_neg (by simp [hm, hs])]

/-- Settles O38, by whether the erase is due and whether the swap is. -/
theorem frameBoundaryErasesThenSwaps : Obligations.FrameBoundaryErasesThenSwaps := by
  intro s erased
  refine ⟨fun hm => ?_, fun _ he hs => ?_, fun hm he hs => ?_, fun hm he hs => ?_, fun hm he hs => ?_⟩
  · rw [frameBoundary_of_due (.inl hm), boundaryErase_of_due (.inl hm)]
  · rw [frameBoundary_of_due (.inr hs), boundaryErase_of_due (.inr he)]
  · rw [frameBoundary_of_not_due hm hs, boundaryErase_of_due (.inr he)]
  · rw [frameBoundary_of_due (.inr hs), boundaryErase_of_not_due hm he]
  · rw [frameBoundary_of_not_due hm hs, boundaryErase_of_not_due hm he]

end Sys2Proof.Machine
end

section
/-! PROOF. The entries of the six vertical phases (`43_vdp1_framebuffer_control.md` R130,
`45_timing_controller.md` R166, R172 to R175, R178). -/

namespace Sys2Proof.Machine

/-! ### The control flow after a vertical phase entry (R167, R168, R172) -/

/-- What `Advance` does next after the action of a vertical phase: a phase of length 0 is left at once. -/
def State.afterVEntry (s : State) (remaining : Nat) : Control :=
  if 0 < s.vLength then if 0 < s.hLength then .advance remaining else .enterH remaining else .enterV remaining

theorem enterVStep_eq (s : State) (remaining : Nat) :
    s.enterVStep remaining =
      s.nextVPhase.vEntryAction.setCtl (s.nextVPhase.vEntryAction.afterVEntry remaining) := by
  simp only [State.enterVStep, State.afterVEntry, State.leaveHEntry]
  exact (apply_ite _ _ _ _).symm

theorem step_enterV {s : State} {r : Nat} (he : s.vdp1Enabled = false) (hc : s.ctl = .enterV r) :
    step s = .next (s.nextVPhase.vEntryAction.setCtl (s.nextVPhase.vEntryAction.afterVEntry r)) := by
  rw [step_of_not_enabled he, State.agentStep, hc, ← enterVStep_eq]

/-! ### The action of each entry -/

/-- The frame start (R178): the counters, then the latch of a pending resolution, then that of the frame. -/
theorem enterVActive_eq (s : State) :
    s.enterVActive =
      { s with
        tim :=
          { s.tim with
            vCounter := 0
            field := !s.tim.field
            resCur := if s.tim.resDirty then s.tim.resReq else s.tim.resCur
            resDirty := false }
        cmp :=
          { s.cmp with
            frameCfg := { resolution := (Config.decodeVdp2 s.regs2).resolution }
            out := if s.tim.resDirty then fitPicture s.tim.resReq s.cmp.out else s.cmp.out
            fill := if s.tim.resDirty then s.freeCtr else s.cmp.fill }
        freeCtr := if s.tim.resDirty then s.freeCtr + 1 else s.freeCtr
        trace :=
          s.trace ++
            if s.tim.resDirty then [.resolutionChanged (dispW s.tim.resReq) (dispH s.tim.resReq)] else [] } := by
  rw [State.enterVActive]
  rcases latchResolution_cases ({ s with tim := { s.tim with vCounter := 0, field := !s.tim.field } } : State) with
    ⟨hd, h⟩ | ⟨hd, h⟩ <;> rw [h]
  · have hd : s.tim.resDirty = false := hd
    simp [State.latchFrame, hd]
  · have hd : s.tim.resDirty = true := hd
    simp [State.latchFrame, hd]

/-- The entry of `BottomBorder` (R173), with the conditions of the VBlank erase read before its callbacks (R130). -/
theorem enterBottomBorder_eq (s : State) :
    s.enterBottomBorder =
      (let t : State :=
        { s with
          tim := { s.tim with vblank := true }
          trace := s.trace ++ [.vBlankStateChange true, .vBlankEntry, .statusReadHint] }
       if s.vbe && s.fcm && s.seq.manualSwapReq then t.erase s.seq.drawFB.other else t).emit .vdp2FrameDrawn := by
  simp only [State.enterBottomBorder, State.vblankErase, State.changeVblank, State.emit, List.append_assoc,
    List.cons_append, List.nil_append]
  rfl

/-- The entry of `LastLine` (R175). -/
theorem enterLastLine_eq (s : State) :
    s.enterLastLine =
      State.frameBoundary
        { s with
          tim := { s.tim with vblank := false }
          trace := s.trace ++ [.vBlankStateChange false, .statusReadHint] } := by
  simp only [State.enterLastLine, State.changeVblank, State.emit, List.append_assoc, List.cons_append,
    List.nil_append]

/-- Settles O48: `step_enterV`, with the action of the phase that is entered. -/
theorem verticalPhaseEntries : Obligations.VerticalPhaseEntries := by
  intro s r he hc enter goOn
  have hstep {p : VPhase} {t : State} (hp : s.tim.vPhase = p)
      (ht : ({ s with tim := { s.tim with vPhase := p.succ, vLine := 0 } } : State).vEntryAction = t) :
      step s = .next (goOn t) := by
    rw [step_enterV he hc, State.nextVPhase, hp, ht]
    rfl
  exact ⟨fun hp => hstep hp (enterVActive_eq _), fun hp => hstep hp (enterBottomBorder_eq _), fun hp => hstep hp rfl,
    fun hp => hstep hp rfl, fun hp => hstep hp rfl, fun hp => hstep hp (enterLastLine_eq _)⟩

end Sys2Proof.Machine
end

section
/-! PROOF. Every step keeps the derived tables, the line counter inside its phase, and the picture of its size
(`44_vdp2_compositor.md` R148, R156, `45_timing_controller.md` R172, R177, R178). -/

namespace Sys2Proof.Machine

/-! ### What the three conditions speak of

Most operations change none of it, and so keep the three conditions at once. A line of the picture is drawn only while
the line counter is inside its phase, so that the picture is kept under that condition. -/

/-- Going from `s` to `t` leaves alone what the derived tables, the line counter and the picture are judged by. -/
structure SameVideo (s t : State) : Prop where
  regs2 : t.regs2 = s.regs2
  layerEnable : t.cmp.layerEnable = s.cmp.layerEnable
  out : t.cmp.out = s.cmp.out
  resCur : t.tim.resCur = s.tim.resCur
  resReq : t.tim.resReq = s.tim.resReq
  resDirty : t.tim.resDirty = s.tim.resDirty
  vPhase : t.tim.vPhase = s.tim.vPhase
  vLine : t.tim.vLine = s.tim.vLine

/-- The line counter is below the length of the current vertical phase (R172). -/
def State.LineInPhase (s : State) : Prop := s.tim.vLine < s.vLength

/-- Going from `s` to `t` keeps the derived tables, the line counter inside its phase, and then the picture. -/
structure KeepsVideo (s t : State) : Prop where
  derived : s.DerivedOk → t.DerivedOk
  line : s.LineInPhase → t.LineInPhase
  picture : s.LineInPhase → s.PictureOk → t.PictureOk

namespace SameVideo

variable {s t u : State}

theorem of_eq (hregs2 : t.regs2 = s.regs2) (htim : t.tim = s.tim) (hcmp : t.cmp = s.cmp) : SameVideo s t := by
  constructor <;> simp only [hregs2, htim, hcmp]

theorem refl (s : State) : SameVideo s s := of_eq rfl rfl rfl

theorem trans (h : SameVideo s t) (h' : SameVideo t u) : SameVideo s u where
  regs2 := h'.regs2.trans h.regs2
  layerEnable := h'.layerEnable.trans h.layerEnable
  out := h'.out.trans h.out
  resCur := h'.resCur.trans h.resCur
  resReq := h'.resReq.trans h.resReq
  resDirty := h'.resDirty.trans h.resDirty
  vPhase := h'.vPhase.trans h.vPhase
  vLine := h'.vLine.trans h.vLine

/-- Before the operation, a change of other fields. -/
theorem after_eq (h : SameVideo t u) (hregs2 : t.regs2 = s.regs2) (htim : t.tim = s.tim) (hcmp : t.cmp = s.cmp) :
    SameVideo s u :=
  (of_eq hregs2 htim hcmp).trans h

theorem derivedOk (h : SameVideo s t) (hs : s.DerivedOk) : t.DerivedOk :=
  ⟨by rw [h.layerEnable, h.regs2, hs.layerEnable], by rw [h.resDirty, h.resReq, h.resCur, hs.resDirty]⟩

theorem pictureOk (h : SameVideo s t) (hs : s.PictureOk) : t.PictureOk :=
  ⟨by rw [h.out]; exact hs.rising, by rw [h.out, h.resCur]; exact hs.fits⟩

theorem lineInPhase (h : SameVideo s t) (hs : s.LineInPhase) : t.LineInPhase := by
  rw [State.LineInPhase, State.vLength, h.vLine, h.resCur, h.vPhase]
  exact hs

theorem keeps (h : SameVideo s t) : KeepsVideo s t := ⟨h.derivedOk, h.lineInPhase, fun _ => h.pictureOk⟩

end SameVideo

namespace KeepsVideo

variable {s t u : State}

theorem of_eq (hregs2 : t.regs2 = s.regs2) (htim : t.tim = s.tim) (hcmp : t.cmp = s.cmp) : KeepsVideo s t :=
  (SameVideo.of_eq hregs2 htim hcmp).keeps

theorem refl (s : State) : KeepsVideo s s := of_eq rfl rfl rfl

theorem trans (h : KeepsVideo s t) (h' : KeepsVideo t u) : KeepsVideo s u :=
  ⟨h'.derived ∘ h.derived, h'.line ∘ h.line, fun hl hp => h'.picture (h.line hl) (h.picture hl hp)⟩

/-- After the operation, a change of other fields. -/
theorem then_eq (h : KeepsVideo s t) (hregs2 : u.regs2 = t.regs2) (htim : u.tim = t.tim) (hcmp : u.cmp = t.cmp) :
    KeepsVideo s u :=
  h.trans (of_eq hregs2 htim hcmp)

end KeepsVideo

/-! ### VDP1: commands, registers and framebuffers -/

theorem SameOutside.sameVideo {s t : State} (h : SameOutside s t) : SameVideo s t := .of_eq h.regs2 h.tim h.cmp

theorem setMem_sameVideo (s : State) (sp : Space) (m : Memory) : SameVideo s (s.setMem sp m) :=
  .of_eq (s.setMem_regs2 sp m) (s.setMem_tim sp m) (s.setMem_cmp sp m)

theorem erase_sameVideo (s : State) (f : FbId) : SameVideo s (s.erase f) := by
  rcases erase_cases s f with h | ⟨g, -, h⟩ <;> rw [h]
  · exact .refl s
  · exact setMem_sameVideo s _ _

theorem vblankErase_sameVideo (s : State) : SameVideo s s.vblankErase := by
  rcases vblankErase_cases s with h | h <;> rw [h]
  · exact .refl s
  · exact erase_sameVideo s _

theorem boundaryErase_sameVideo (s : State) : SameVideo s s.boundaryErase := by
  rcases boundaryErase_cases s with h | h <;> rw [h]
  · exact .refl s
  · exact (erase_sameVideo _ _).after_eq rfl rfl rfl

theorem abandonList_sameVideo (s : State) : SameVideo s s.abandonList := by
  rcases abandonList_cases s with ⟨-, h⟩ | ⟨-, h⟩ <;> rw [h]
  · exact .of_eq rfl rfl rfl
  · exact .refl s

theorem swap_sameVideo (s : State) : SameVideo s s.swap := by
  have hregs : SameVideo s s.swapRegisters.abandonList :=
    (abandonList_sameVideo _).after_eq rfl rfl rfl
  rcases swap_cases s with ⟨-, h⟩ | ⟨-, h⟩ <;> rw [h] <;> exact hregs.trans (.of_eq rfl rfl rfl)

theorem frameBoundary_sameVideo (s : State) : SameVideo s s.frameBoundary := by
  rcases frameBoundary_cases s with h | h <;> rw [h]
  · exact boundaryErase_sameVideo s
  · exact (boundaryErase_sameVideo s).trans (swap_sameVideo _)

theorem storeReg1_sameVideo (s : State) (r : Reg1) (v : Word) : SameVideo s (s.storeReg1 r v) := by
  cases r <;> exact .of_eq rfl rfl rfl

theorem requestChange_sameVideo (s : State) (v : Word) : SameVideo s (s.requestChange v) := by
  unfold State.requestChange
  split
  · split <;> exact .of_eq rfl rfl rfl
  · exact .refl s

theorem plotTrigger_sameVideo (s : State) (v : Word) : SameVideo s (s.plotTrigger v) := by
  unfold State.plotTrigger
  split <;> exact .of_eq rfl rfl rfl

theorem forceEnd_sameVideo (s : State) : SameVideo s s.forceEnd := by
  unfold State.forceEnd
  split <;> exact .of_eq rfl rfl rfl

/-- A register write stores, and then requests, starts or ends; all of that is VDP1's (R49, R126 to R128). -/
theorem writeReg1_sameVideo (s : State) (r : Reg1) (v : Word) : SameVideo s (s.writeReg1 r v) := by
  cases r
  case fbcr => exact (storeReg1_sameVideo s .fbcr v).trans (requestChange_sameVideo _ v)
  case ptmr => exact (storeReg1_sameVideo s .ptmr v).trans (plotTrigger_sameVideo _ v)
  case endr => exact forceEnd_sameVideo s
  all_goals exact .of_eq rfl rfl rfl

/-! ### The host (R32, R47, R148, R177, R205) -/

/-- A write of the VDP2 bank is followed by the derivation of what depends on it (R148, R177). -/
theorem rederive_keepsVideo (s : State) (bank : Regs2) : KeepsVideo s ({ s with regs2 := bank } : State).rederive where
  derived _ := ⟨rfl, rfl⟩
  line h := h
  picture _ h := ⟨h.rising, h.fits⟩

theorem writeRegs2Byte_keepsVideo (s : State) (off : Nat) (b : Byte) : KeepsVideo s (s.writeRegs2Byte off b) := by
  unfold State.writeRegs2Byte
  split
  · exact rederive_keepsVideo s _
  · exact .refl s

theorem writeRegs2Word_keepsVideo (s : State) (off : Nat) (w : Word) : KeepsVideo s (s.writeRegs2Word off w) := by
  unfold State.writeRegs2Word
  split
  · exact rederive_keepsVideo s _
  · exact .refl s

theorem poke8_keepsVideo (s : State) (r : Region) (off : Nat) (b : Byte) : KeepsVideo s (s.poke8 r off b) := by
  unfold State.poke8
  split
  · exact (setMem_sameVideo s _ _).keeps
  · exact writeRegs2Byte_keepsVideo s off b
  · split
    · exact (storeReg1_sameVideo s _ _).keeps
    · exact .refl s

theorem poke16_keepsVideo (s : State) (r : Region) (off : Nat) (w : Word) : KeepsVideo s (s.poke16 r off w) := by
  unfold State.poke16
  split
  · exact (setMem_sameVideo s _ _).keeps
  · exact writeRegs2Word_keepsVideo s off w
  · split
    · exact (storeReg1_sameVideo s _ _).keeps
    · exact .refl s

theorem writePenalty_sameVideo (s : State) (r : Region) : SameVideo s (s.writePenalty r) := by
  obtain ⟨p, h⟩ := writePenalty_eq_withProc s r
  rw [h]
  exact .of_eq rfl rfl rfl

theorem write8_keepsVideo (s : State) (r : Region) (off : Nat) (b : Byte) : KeepsVideo s (s.write8 r off b) := by
  unfold State.write8
  split
  · split
    · exact (writeReg1_sameVideo s _ _).keeps
    · exact .refl s
  · exact (poke8_keepsVideo s r off b).trans (writePenalty_sameVideo _ r).keeps

theorem write16_keepsVideo (s : State) (r : Region) (off : Nat) (w : Word) : KeepsVideo s (s.write16 r off w) := by
  unfold State.write16
  split
  · split
    · exact (writeReg1_sameVideo s _ _).keeps
    · exact .refl s
  · exact (poke16_keepsVideo s r off w).trans (writePenalty_sameVideo _ r).keeps

theorem answer8_sameVideo (s : State) (peek : Bool) (r : Region) (off : Nat) : SameVideo s (s.answer8 peek r off) := by
  unfold State.answer8
  split <;> exact .of_eq rfl rfl rfl

theorem answer16_sameVideo (s : State) (peek : Bool) (r : Region) (off : Nat) :
    SameVideo s (s.answer16 peek r off) := by
  unfold State.answer16
  split <;> exact .of_eq rfl rfl rfl

theorem requestResolution_keepsVideo (s : State) (res : Resolution) : KeepsVideo s (s.requestResolution res) where
  derived h := ⟨h.layerEnable, rfl⟩
  line h := h
  picture _ h := ⟨h.rising, h.fits⟩

/-- A reset enters `LastLine` at its only line, with the tables of the bank it sets and no drawn line (R205). -/
theorem resetControl_keepsVideo (s : State) : KeepsVideo s s.resetControl where
  derived _ := ⟨rfl, rfl⟩
  line _ := Nat.zero_lt_one
  picture _ _ := ⟨List.Pairwise.nil, fun _ h => by cases h⟩

theorem hostReset_keepsVideo (s : State) (hard : Bool) : KeepsVideo s (s.hostReset hard) := by
  cases hard
  · exact resetControl_keepsVideo s
  · exact (resetControl_keepsVideo s).then_eq rfl rfl rfl

theorem hostOp_keepsVideo (s : State) (op : HostOp) : KeepsVideo s (s.hostOp op) := by
  cases op with
  | read8 r off => exact (answer8_sameVideo s false r off).keeps
  | read16 r off => exact (answer16_sameVideo s false r off).keeps
  | write8 r off v => exact write8_keepsVideo s r off v
  | write16 r off v => exact write16_keepsVideo s r off v
  | peek8 r off => exact (answer8_sameVideo s true r off).keeps
  | peek16 r off => exact (answer16_sameVideo s true r off).keeps
  | poke8 r off v => exact poke8_keepsVideo s r off v
  | poke16 r off v => exact poke16_keepsVideo s r off v
  | advance n => exact .of_eq rfl rfl rfl
  | requestResolution res => exact requestResolution_keepsVideo s res
  | reset hard => exact hostReset_keepsVideo s hard

/-! ### Chunks and horizontal phases (R167, R170 to R172) -/

theorem beginChunk_sameVideo (s : State) (remaining : Nat) : SameVideo s (s.beginChunk remaining) := by
  have hgrant (chunk : Nat) : SameVideo s (s.grant chunk) := by
    unfold State.grant
    split <;> exact .of_eq rfl rfl rfl
  unfold State.beginChunk
  split
  · exact .of_eq rfl rfl rfl
  · exact (hgrant _).trans (.of_eq rfl rfl rfl)

theorem endChunk_sameVideo (s : State) (chunk remaining : Nat) : SameVideo s (s.endChunk chunk remaining) := by
  constructor <;> rfl

/-- A line of vertical `Active` has its output line inside the picture, whichever field is drawn (R156). -/
theorem outLine_lt_dispH {t : Tim} {y : Nat} (h : y < Config.VRes.lines t.resCur.v) : outLine t y < dispH t.resCur := by
  unfold outLine dispH
  split
  · split <;> omega
  · exact h

/-- A drawn line of vertical `Active` is a line of the picture (R156). -/
theorem drawScanline_keepsVideo {s : State} (hp : s.tim.vPhase = .active) :
    KeepsVideo s (s.drawScanline s.tim.vLine) where
  derived h := ⟨h.layerEnable, h.resDirty⟩
  line h := h
  picture hl h := by
    have hlines : s.tim.vLine < Config.VRes.lines s.tim.resCur.v := by
      rwa [State.LineInPhase, State.vLength, hp] at hl
    refine ⟨putLine_rising _ _ h.rising, fun l hmem => ?_⟩
    rcases mem_putLine hmem with rfl | hmem
    · exact ⟨outLine_lt_dispH hlines, by simp⟩
    · exact h.fits l hmem

theorem enterHActive_keepsVideo (s : State) : KeepsVideo s s.enterHActive := by
  have hblank : KeepsVideo s (s.changeHblank false) := SameVideo.keeps (by constructor <;> rfl)
  simp only [State.enterHActive]
  split
  next hp => exact hblank.trans (drawScanline_keepsVideo hp)
  next => exact hblank

/-- Every horizontal phase entry but that of `Sync`, which counts a line (R170, R171). -/
theorem enterHStep_keepsVideo {s : State} (h : s.tim.hPhase ≠ .rightBorder) (remaining : Nat) :
    KeepsVideo s (s.enterHStep remaining) := by
  cases hp : s.tim.hPhase <;> simp only [State.enterHStep, hp, HPhase.succ]
  case active => exact SameVideo.keeps (by constructor <;> rfl)
  case rightBorder => exact absurd hp h
  case sync => exact SameVideo.keeps (by constructor <;> rfl)
  case leftBorder =>
    have hphase : KeepsVideo s { s with tim := { s.tim with hPhase := .active, hCyc := 0 } } :=
      SameVideo.keeps (by constructor <;> rfl)
    exact (hphase.trans (enterHActive_keepsVideo _)).then_eq rfl rfl rfl

/-! ### Vertical phases (R172 to R175, R178) -/

theorem latchResolution_derivedOk {s : State} (h : s.DerivedOk) : s.latchResolution.DerivedOk := by
  rcases latchResolution_cases s with ⟨-, hl⟩ | ⟨-, hl⟩ <;> rw [hl]
  · exact h
  · exact ⟨h.layerEnable, by simp⟩

/-- A picture keeps, at the latch of another resolution, the lines that fit into it (R156, R178). -/
theorem latchResolution_pictureOk {s : State} (h : s.PictureOk) : s.latchResolution.PictureOk := by
  rcases latchResolution_cases s with ⟨-, hl⟩ | ⟨-, hl⟩ <;> rw [hl]
  · exact h
  · exact ⟨fitPicture_rising _ h.rising, fun l hmem => (mem_fitPicture.1 hmem).2⟩

theorem latchResolution_vLine (s : State) : s.latchResolution.tim.vLine = s.tim.vLine := by
  rcases latchResolution_cases s with ⟨-, hl⟩ | ⟨-, hl⟩ <;> rw [hl]

theorem enterBottomBorder_sameVideo (s : State) : SameVideo s s.enterBottomBorder := by
  have hblank : SameVideo s (((s.changeVblank true).emit .vBlankEntry).emit .statusReadHint) := by constructor <;> rfl
  exact (hblank.trans (vblankErase_sameVideo _)).trans (.of_eq rfl rfl rfl)

theorem enterLastLine_sameVideo (s : State) : SameVideo s s.enterLastLine := by
  have hblank : SameVideo s ((s.changeVblank false).emit .statusReadHint) := by constructor <;> rfl
  exact hblank.trans (frameBoundary_sameVideo _)

/-- Of the vertical phase entries, only that of `Active` reaches the resolutions and the picture (R178). -/
theorem vEntryAction_sameVideo {s : State} (h : s.tim.vPhase ≠ .active) : SameVideo s s.vEntryAction := by
  cases hp : s.tim.vPhase <;> simp only [State.vEntryAction, hp]
  case active => exact absurd hp h
  case bottomBorder => exact enterBottomBorder_sameVideo s
  case blankingAndSync => exact .refl s
  case vCounterSkip => constructor <;> rfl
  case topBorder => exact .refl s
  case lastLine => exact enterLastLine_sameVideo s

theorem vEntryAction_of_active {s : State} (h : s.tim.vPhase = .active) : s.vEntryAction = s.enterVActive := by
  rw [State.vEntryAction, h]

theorem vEntryAction_derivedOk {s : State} (h : s.DerivedOk) : s.vEntryAction.DerivedOk := by
  by_cases hp : s.tim.vPhase = .active
  · rw [vEntryAction_of_active hp]
    have hlatch := latchResolution_derivedOk
      (s := { s with tim := { s.tim with vCounter := 0, field := !s.tim.field } }) ⟨h.layerEnable, h.resDirty⟩
    exact ⟨hlatch.layerEnable, hlatch.resDirty⟩
  · exact (vEntryAction_sameVideo hp).derivedOk h

theorem vEntryAction_pictureOk {s : State} (h : s.PictureOk) : s.vEntryAction.PictureOk := by
  by_cases hp : s.tim.vPhase = .active
  · rw [vEntryAction_of_active hp]
    have hlatch := latchResolution_pictureOk
      (s := { s with tim := { s.tim with vCounter := 0, field := !s.tim.field } }) ⟨h.rising, h.fits⟩
    exact ⟨hlatch.rising, hlatch.fits⟩
  · exact (vEntryAction_sameVideo hp).pictureOk h

theorem vEntryAction_vLine (s : State) : s.vEntryAction.tim.vLine = s.tim.vLine := by
  by_cases hp : s.tim.vPhase = .active
  · rw [vEntryAction_of_active hp]
    exact latchResolution_vLine _
  · exact (vEntryAction_sameVideo hp).vLine

/-- While a phase is not being left again at once, it has a first line (R168, R172). -/
theorem vLength_pos_of_afterVEntry {s : State} {remaining : Nat} (h : ∀ r, s.afterVEntry remaining ≠ .enterV r) :
    0 < s.vLength := by
  by_contra hz
  exact h remaining (if_neg hz)

/-! ### Steps -/

/-- Going from `s` to `t` keeps what `StepKeepsCompositorState` says every step keeps. -/
structure KeepsCompositor (s t : State) : Prop where
  derived : s.DerivedOk → t.DerivedOk
  lines : s.LinesOk → t.LinesOk
  picture : s.LinesOk → s.PictureOk → t.PictureOk

/-- At the control points other than `enterV` the line counter is inside its phase. -/
theorem KeepsVideo.keepsCompositor {s t : State} (h : KeepsVideo s t) (hc : ∀ r, s.ctl ≠ .enterV r) :
    KeepsCompositor s t :=
  ⟨h.derived, fun hl _ => h.line (hl hc), fun hl => h.picture (hl hc)⟩

/-- A command runs at any control point, and leaves it. -/
theorem SameVideo.keepsCompositor {s t : State} (h : SameVideo s t) (hc : t.ctl = s.ctl) : KeepsCompositor s t :=
  ⟨h.derivedOk, fun hl ht => h.lineInPhase (hl (hc ▸ ht)), fun _ => h.pictureOk⟩

/-- A counted line is inside the phase, or the phase is left (R172). -/
theorem enterHSync_keepsCompositor {s : State} (hc : ∀ r, s.ctl ≠ .enterV r) (remaining : Nat) :
    KeepsCompositor s (s.enterHSync remaining) := by
  simp only [State.enterHSync]
  split
  next => exact ⟨fun h => ⟨h.layerEnable, h.resDirty⟩, fun _ ht => absurd rfl (ht remaining),
    fun _ h => ⟨h.rising, h.fits⟩⟩
  next hne => exact ⟨fun h => ⟨h.layerEnable, h.resDirty⟩, fun hl _ => Nat.lt_of_le_of_ne (hl hc) hne,
    fun _ h => ⟨h.rising, h.fits⟩⟩

theorem enterHStep_keepsCompositor {s : State} (hc : ∀ r, s.ctl ≠ .enterV r) (remaining : Nat) :
    KeepsCompositor s (s.enterHStep remaining) := by
  by_cases hp : s.tim.hPhase = .rightBorder
  · have hsync := enterHSync_keepsCompositor
      (s := { s with tim := { s.tim with hPhase := .sync, hCyc := 0 } }) hc remaining
    simp only [State.enterHStep, hp, HPhase.succ]
    exact ⟨fun h => hsync.derived ⟨h.layerEnable, h.resDirty⟩, fun h => hsync.lines h,
      fun hl h => hsync.picture hl ⟨h.rising, h.fits⟩⟩
  · exact (enterHStep_keepsVideo hp remaining).keepsCompositor hc

/-- A vertical phase is entered at line 0 (R172). -/
theorem enterVStep_keepsCompositor (s : State) (remaining : Nat) : KeepsCompositor s (s.enterVStep remaining) := by
  rw [enterVStep_eq]
  refine ⟨fun h => ?derived, fun _ hctl => ?lines, fun _ h => ?picture⟩
  case derived =>
    have haction := vEntryAction_derivedOk (s := s.nextVPhase) ⟨h.layerEnable, h.resDirty⟩
    exact ⟨haction.layerEnable, haction.resDirty⟩
  case lines =>
    have hline : s.nextVPhase.vEntryAction.tim.vLine = 0 := vEntryAction_vLine _
    exact hline.trans_lt (vLength_pos_of_afterVEntry hctl)
  case picture =>
    have haction := vEntryAction_pictureOk (s := s.nextVPhase) ⟨h.rising, h.fits⟩
    exact ⟨haction.rising, haction.fits⟩

theorem agentStep_keepsCompositor (s : State) : KeepsCompositor s s.agentStep := by
  rcases agentStep_cases s with ⟨-, -, h⟩ | ⟨op, rest, hc, -, h⟩ | ⟨r, hc, h⟩ | ⟨c, r, hc, h⟩ | ⟨r, hc, h⟩ |
    ⟨r, -, h⟩ <;> rw [h]
  · exact (SameVideo.refl s).keepsCompositor rfl
  · have hturn : KeepsVideo s { s with hostOps := rest } := .of_eq rfl rfl rfl
    exact (hturn.trans (hostOp_keepsVideo _ op)).keepsCompositor (by simp [hc])
  · exact (beginChunk_sameVideo s r).keeps.keepsCompositor (by simp [hc])
  · exact (endChunk_sameVideo s c r).keeps.keepsCompositor (by simp [hc])
  · exact enterHStep_keepsCompositor (by simp [hc]) r
  · exact enterVStep_keepsCompositor s r

theorem step_keepsCompositor {s t : State} (h : step s = .next t) : KeepsCompositor s t := by
  rcases step_cases h with ⟨-, -, rfl⟩ | ⟨-, -, hexec⟩ | ⟨-, rfl⟩
  · exact SameVideo.keepsCompositor (.of_eq rfl rfl rfl) rfl
  · have hout := exec_sameOutside hexec
    have hlatch : SameVideo s s.latchCopr := .of_eq rfl rfl rfl
    exact (hlatch.trans hout.sameVideo).keepsCompositor hout.ctl
  · exact agentStep_keepsCompositor s

/-! ### The size of the picture (R156) -/

/-- A line that has been drawn is listed. -/
theorem mem_out_of_lineAt {c : Cmp} {n : Nat} {row : List Rgb888} (h : c.lineAt n = some row) : (n, row) ∈ c.out := by
  obtain ⟨⟨k, r⟩, hfind, rfl⟩ := Option.map_eq_some_iff.1 h
  obtain rfl : k = n := by simpa using List.find?_some hfind
  exact List.mem_of_find?_eq_some hfind

theorem picture_row_length {s : State} (h : s.PictureOk) {row : List Rgb888} (hrow : row ∈ s.picture) :
    row.length = dispW s.tim.resCur := by
  obtain ⟨n, -, rfl⟩ := List.mem_map.1 hrow
  cases hline : s.cmp.lineAt n with
  | none => simp
  | some drawn => exact (h.fits _ (mem_out_of_lineAt hline)).2

/-- Settles O59: `step_keepsCompositor` for the steps, and the size of a picture whose listed lines fit. -/
theorem stepKeepsCompositorState : Obligations.StepKeepsCompositorState := by
  refine ⟨fun s t hstep => ?_, fun s h => ⟨by simp [State.picture], fun row => picture_row_length h⟩⟩
  have hkeeps := step_keepsCompositor hstep
  exact ⟨hkeeps.derived, fun hl => ⟨hkeeps.lines hl, hkeeps.picture hl⟩⟩

end Sys2Proof.Machine
end

section
/-! PROOF. Windows, the layer-enable table and the composition of a pixel (`44_vdp2_compositor.md` R148, R149, R154,
R155). -/

namespace Sys2Proof.Machine

/-! ### Windows (R149) -/

/-- The three windows of a set, each with its inside test. -/
def windowUses (ws : WindowSet) (in0 in1 inSw : Bool) : List (WindowUse × Bool) :=
  [(ws.w0, in0), (ws.w1, in1), (ws.sw, inSw)]

theorem windowTerm_eq_true_iff (u : WindowUse) (inside : Bool) :
    windowTerm u inside = true ↔ (inside = true ↔ u.area = .inside) := by
  cases inside <;> simp [windowTerm]

/-- Under OR the mask is the union of the enabled windows; without any it is empty, as their union is. -/
theorem windowMask_or {ws : WindowSet} (h : ws.logic = .or) (in0 in1 inSw : Bool) :
    windowMask ws in0 in1 inSw = true ↔
      ∃ u ∈ windowUses ws in0 in1 inSw, u.1.enabled = true ∧ windowTerm u.1 u.2 = true := by
  have hmask : windowMask ws in0 in1 inSw =
      ((windowUses ws in0 in1 inSw).filter fun u => u.1.enabled).any fun u => windowTerm u.1 u.2 := by
    simp only [windowMask, h, windowUses]
    generalize List.filter _ _ = enabled
    cases enabled <;> rfl
  simp only [hmask, List.any_eq_true, List.mem_filter, and_assoc]

/-- Under AND the mask is the intersection of the enabled windows, if there is any. -/
theorem windowMask_and {ws : WindowSet} (h : ws.logic = .and) (in0 in1 inSw : Bool) :
    windowMask ws in0 in1 inSw = true ↔
      (∃ u ∈ windowUses ws in0 in1 inSw, u.1.enabled = true) ∧
        ∀ u ∈ windowUses ws in0 in1 inSw, u.1.enabled = true → windowTerm u.1 u.2 = true := by
  have hmask : windowMask ws in0 in1 inSw =
      ((((windowUses ws in0 in1 inSw).filter fun u => u.1.enabled).any fun _ => true) &&
        ((windowUses ws in0 in1 inSw).filter fun u => u.1.enabled).all fun u => windowTerm u.1 u.2) := by
    simp only [windowMask, h, windowUses]
    generalize List.filter _ _ = enabled
    cases enabled <;> rfl
  simp only [hmask, Bool.and_eq_true, List.any_eq_true, List.all_eq_true, List.mem_filter, and_true, and_imp]

/-- Settles O51: `windowMask_or` and `windowMask_and`, with the three windows written out. -/
theorem windowMaskCombines : Obligations.WindowMaskCombines := by
  intro ws in0 in1 inSw term miss
  refine ⟨fun h => ?_, fun h => ?_⟩
  · rw [windowMask_or h]
    simp [windowUses, windowTerm_eq_true_iff, term]
  · rw [windowMask_and h]
    simp [windowUses, windowTerm_eq_true_iff, miss]

/-! ### The layer-enable table (R148) -/

theorem ColourFormat.isWide_iff (f : ColourFormat) : f.isWide = true ↔ f = .pal2048 ∨ f = .rgb555 := by
  cases f <;> decide

/-- A pair has exactly two backgrounds, and both are normal. -/
theorem NbgPair.has_two (p : NbgPair) :
    ([BgLayer.nbg0, .nbg1, .nbg2, .nbg3].filter p.has).length = 2 ∧ p.has .rbg0 = false ∧ p.has .rbg1 = false := by
  cases p <;> decide

/-- Settles O52: the table is the model's equations, read as propositions, and `NbgPair.has_two`. -/
theorem layerAvailability : Obligations.LayerAvailability := by
  intro cfg en req dropped full wide0 wide1
  refine ⟨rfl, rfl, rfl, ?nbg0, ?nbg1, ?nbg2, ?nbg3, NbgPair.has_two _⟩
  all_goals
    simp only [en, req, dropped, full, wide0, wide1, layerEnableOf, ← ColourFormat.isWide_iff, Bool.and_eq_true,
      Bool.not_eq_true', ← Bool.not_eq_true, beq_iff_eq, and_assoc]

/-! ### Ranked lists -/

/-- In a list ordered by an asymmetric relation, the element that precedes all others is the head. -/
theorem eq_cons_of_precedes_all {α : Type} {R : α → α → Prop} (hasymm : ∀ a b, R a b → ¬R b a) {L : List α} {a : α}
    (hL : L.Pairwise R) (ha : a ∈ L) (hfirst : ∀ b ∈ L, b ≠ a → R a b) :
    ∃ rest, L = a :: rest ∧ rest.Pairwise R ∧ ∀ b, b ∈ rest ↔ b ∈ L ∧ b ≠ a := by
  cases hL with
  | nil => cases ha
  | @cons c rest hc hrest =>
    have hca : c = a := by
      by_contra hne
      rcases List.mem_cons.1 ha with rfl | ha
      · exact hne rfl
      · exact hasymm _ _ (hc a ha) (hfirst c List.mem_cons_self hne)
    subst hca
    have hirrefl : c ∉ rest := fun h => hasymm _ _ (hc c h) (hc c h)
    refine ⟨rest, rfl, hrest, fun b => ⟨fun hb => ⟨List.mem_cons_of_mem _ hb, ?_⟩, ?_⟩⟩
    · rintro rfl
      exact hirrefl hb
    · rintro ⟨hb, hne⟩
      exact (List.mem_cons.1 hb).resolve_left hne

/-! ### Composition (R154, R155) -/

/-- A layer contributes at a pixel (R154). -/
def Contributes (en : LayerTable Bool) (px : Layer → LayerPx) (masked : Layer → Bool) (l : Layer) : Prop :=
  en.get l = true ∧ (px l).transparent = false ∧ masked l = false ∧ 1 ≤ (px l).priority.toNat

/-- `l` comes before `m` in the ranking: by priority, and among equals by the tie-break order (R154). -/
def Outranks (px : Layer → LayerPx) (l m : Layer) : Prop :=
  (px m).priority.toNat < (px l).priority.toNat ∨
    ((px m).priority.toNat = (px l).priority.toNat ∧ layerOrder.idxOf l < layerOrder.idxOf m)

theorem Outranks.asymm {px : Layer → LayerPx} (l m : Layer) (h : Outranks px l m) : ¬Outranks px m l := by
  unfold Outranks at h ⊢
  omega

theorem mem_layerOrder (l : Layer) : l ∈ layerOrder := by
  rcases l with _ | b
  · decide
  · cases b <;> decide

theorem mem_ranked {en : LayerTable Bool} {px : Layer → LayerPx} {masked : Layer → Bool} {l : Layer} :
    l ∈ ranked px (candidates en px masked) ↔ Contributes en px masked l := by
  have hlevels : (px l).priority.toNat ∈ [7, 6, 5, 4, 3, 2, 1] ↔ 1 ≤ (px l).priority.toNat := by
    have := (px l).priority.isLt
    simp only [List.mem_cons, List.not_mem_nil, or_false]
    omega
  have hranked : l ∈ ranked px (candidates en px masked) ↔
      (px l).priority.toNat ∈ [7, 6, 5, 4, 3, 2, 1] ∧ l ∈ candidates en px masked := by
    simp only [ranked, List.mem_flatMap, List.mem_filter, beq_iff_eq]
    exact ⟨fun ⟨p, hp, hl, he⟩ => ⟨he ▸ hp, hl⟩, fun ⟨hp, hl⟩ => ⟨_, hp, hl, rfl⟩⟩
  rw [hranked, hlevels]
  simp only [candidates, List.mem_filter, mem_layerOrder, Contributes, Bool.and_eq_true, Bool.not_eq_true',
    decide_eq_true_eq, true_and, and_assoc]
  exact and_iff_right_of_imp fun ⟨_, _, _, h⟩ => h

/-- The ranking lists the levels of priority from 7 down, and each in tie-break order. -/
theorem ranked_pairwise (en : LayerTable Bool) (px : Layer → LayerPx) (masked : Layer → Bool) :
    (ranked px (candidates en px masked)).Pairwise (Outranks px) := by
  have horder : (candidates en px masked).Pairwise fun l m => layerOrder.idxOf l < layerOrder.idxOf m :=
    List.Pairwise.filter _ (by decide)
  have hlevels : [7, 6, 5, 4, 3, 2, 1].Pairwise fun p q : Nat => q < p := by decide
  have hlevel {p : Nat} {l : Layer} (h : l ∈ (candidates en px masked).filter fun l => (px l).priority.toNat == p) :
      (px l).priority.toNat = p := beq_iff_eq.1 (List.mem_filter.1 h).2
  refine List.pairwise_flatMap.2 ⟨fun p _ => ?level, hlevels.imp fun hqp l hl m hm => ?levels⟩
  case level => exact (horder.filter _).imp_of_mem fun hl hm hlt => .inr ⟨(hlevel hm).trans (hlevel hl).symm, hlt⟩
  case levels => exact .inl (by rwa [hlevel hl, hlevel hm])

/-- Settles O54: the ranking is ordered, so the layer that outranks the others is its head, and the next one follows. -/
theorem highestPriorityLayerWins : Obligations.HighestPriorityLayerWins := by
  intro cfg en px masked ccMask back line shows below
  have hmem (m : Layer) : m ∈ ranked px (candidates en px masked) ↔ shows m := mem_ranked
  refine ⟨fun hnone => ?none, fun l hl htop => ?_⟩
  case none =>
    have hempty : ranked px (candidates en px masked) = [] :=
      List.eq_nil_iff_forall_not_mem.2 fun m hm => hnone m ((hmem m).1 hm)
    rw [compose, hempty]
  obtain ⟨rest, hranked, hrest, hmemRest⟩ :=
    eq_cons_of_precedes_all Outranks.asymm (ranked_pairwise en px masked) ((hmem l).2 hl)
      fun m hm => htop m ((hmem m).1 hm)
  have hmemRest (m : Layer) : m ∈ rest ↔ shows m ∧ m ≠ l := by rw [hmemRest, hmem]
  refine ⟨fun honly => ?one, fun u hu hul hnext => ?two⟩
  case one =>
    have hempty : rest = [] :=
      List.eq_nil_iff_forall_not_mem.2 fun m hm =>
        ((hmemRest m).1 hm).2 (honly m ((hmemRest m).1 hm).1)
    rw [compose, hranked, hempty]
  case two =>
    obtain ⟨rest', hu', -, -⟩ :=
      eq_cons_of_precedes_all Outranks.asymm hrest ((hmemRest u).2 ⟨hu, hul⟩)
        fun m hm => hnext m ((hmemRest m).1 hm).1 ((hmemRest m).1 hm).2
    rw [compose, hranked, hu']

end Sys2Proof.Machine
end

section
/-! PROOF. What a drawn scanline depends on and what it changes (`44_vdp2_compositor.md` R146, R151, R156, R159,
R160). -/

namespace Sys2Proof.Machine

/-! ### Memory contents from the bytes inside the memory (R33, R34) -/

theorem Memory.read8_congr_of_bytes {size : Nat} {m m' : Memory} (hs : 0 < size) (h : ∀ a < size, m.byte a = m'.byte a)
    (a : Nat) : m.read8 size a = m'.read8 size a :=
  h _ (Nat.mod_lt a hs)

theorem Memory.read16_congr_of_bytes {size : Nat} {m m' : Memory} (hs : 0 < size) (he : size % 2 = 0)
    (h : ∀ a < size, m.byte a = m'.byte a) (a : Nat) : m.read16 size a = m'.read16 size a :=
  Memory.read16_congr (h _ (wordOffset_lt hs a)) (h _ (wordOffset_succ_lt hs he a))

theorem State.content_congr {s t : State} {sp : Space} (h : ∀ a < sp.size, (s.mem sp).byte a = (t.mem sp).byte a) :
    s.content sp = t.content sp :=
  funext (Memory.read8_congr_of_bytes sp.size_pos h)

/-! ### What a scanline is drawn from (R159) -/

/-- Two states look the same to the compositor: the register bank with its layer-enable table, VRAM2, colour RAM, the
display framebuffer with its mode, and the latched resolution. -/
structure SameView (s t : State) : Prop where
  regs2 : s.regs2 = t.regs2
  layerEnable : s.cmp.layerEnable = t.cmp.layerEnable
  vram2 : s.content .vram2 = t.content .vram2
  cram : s.content .cram = t.content .cram
  display8 : ∀ a, s.memRead8 s.displaySpace a = t.memRead8 t.displaySpace a
  display16 : ∀ a, s.memRead16 s.displaySpace a = t.memRead16 t.displaySpace a
  tvm : s.tvm = t.tvm
  resCur : s.tim.resCur = t.tim.resCur

namespace SameView

variable {s t : State}

theorem scan_eq (h : SameView s t) (y : Nat) : s.scan y = t.scan y := by
  simp only [State.scan, h.regs2, h.layerEnable, h.vram2, h.cram]

theorem spriteDatum_eq (h : SameView s t) (x y : Nat) : spriteDatum s x y = spriteDatum t x y := by
  simp only [spriteDatum, spriteColumn, h.tvm, h.resCur, h.display8, h.display16]

theorem spriteAt_eq (h : SameView s t) (c : Scan) (x : Nat) : s.spriteAt c x = t.spriteAt c x := by
  rw [State.spriteAt, h.spriteDatum_eq, State.spriteAt]

theorem maskAt_eq (h : SameView s t) (c : Scan) (ws : WindowSet) (x : Nat) : s.maskAt c ws x = t.maskAt c ws x := by
  rw [State.maskAt, h.vram2, h.spriteAt_eq, State.maskAt]

theorem layerAt_eq (h : SameView s t) (c : Scan) (l : Layer) (x : Nat) : s.layerAt c l x = t.layerAt c l x := by
  unfold State.layerAt
  simp only [h.spriteAt_eq, h.maskAt_eq, h.vram2, h.cram]

theorem pixelAt_eq (h : SameView s t) (c : Scan) (x : Nat) : s.pixelAt c x = t.pixelAt c x := by
  simp only [State.pixelAt, h.layerAt_eq, h.maskAt_eq, h.vram2, h.cram]

end SameView

/-! ### The lines of a picture (R156) -/

/-- The row of output pixels that a scanline stores (R146, R156). -/
def State.scanRow (s : State) (y : Nat) : List Rgb888 :=
  (List.range (dispW s.tim.resCur)).map fun x => s.pixelAt (s.scan y) x

theorem SameView.scanRow_eq {s t : State} (h : SameView s t) (y : Nat) : s.scanRow y = t.scanRow y := by
  simp only [State.scanRow, h.resCur, h.scan_eq, h.pixelAt_eq]

theorem scanRow_length (s : State) (y : Nat) : (s.scanRow y).length = dispW s.tim.resCur := by
  simp [State.scanRow]

theorem find?_line_cons (c : Nat × List Rgb888) (rest : List (Nat × List Rgb888)) (k : Nat) :
    (c :: rest).find? (fun l => l.1 == k) = if k = c.1 then some c else rest.find? fun l => l.1 == k := by
  split
  next h => exact List.find?_cons_of_pos (beq_iff_eq.2 h.symm)
  next h => exact List.find?_cons_of_neg fun hc => h (beq_iff_eq.1 hc).symm

/-- A line put into a picture is the one found at its number, and at any other number is found what was there. -/
theorem find?_putLine (out : List (Nat × List Rgb888)) (n k : Nat) (row : List Rgb888) :
    (putLine out n row).find? (fun l => l.1 == k) = if k = n then some (n, row) else out.find? fun l => l.1 == k := by
  induction out with
  | nil => exact find?_line_cons (n, row) [] k
  | cons c rest ih =>
    simp only [putLine]
    split
    · exact find?_line_cons (n, row) _ k
    · split
      next hn =>
        rw [find?_line_cons, find?_line_cons]
        exact ite_congr rfl (fun _ => rfl) fun hk => (if_neg fun hc => hk (hc.trans hn.symm)).symm
      next hn =>
        rw [find?_line_cons, ih, find?_line_cons]
        by_cases hk : k = n
        · rw [if_pos hk, if_pos hk, if_neg (hk ▸ hn)]
        · rw [if_neg hk, if_neg hk]

theorem drawScanline_lineAt (s : State) (y k : Nat) :
    (s.drawScanline y).cmp.lineAt k =
      if k = outLine s.tim y then some (s.scanRow y) else s.cmp.lineAt k := by
  rw [Cmp.lineAt, State.drawScanline_cmp_out, find?_putLine]
  split <;> rfl

/-- Settles O55: the two states look the same to the compositor, so that the rows are equal; a line is put into the
picture at its own number. -/
theorem scanlinesAreDetermined : Obligations.ScanlinesAreDetermined := by
  intro s t y hs ht hregs2 hvram2 hcram hdisplay htvmr hres hfield n
  have hview : SameView s t :=
    { regs2 := hregs2
      layerEnable := by rw [hs.layerEnable, ht.layerEnable, hregs2]
      vram2 := State.content_congr hvram2
      cram := State.content_congr hcram
      display8 := Memory.read8_congr_of_bytes fbSize_pos hdisplay
      display16 := Memory.read16_congr_of_bytes fbSize_pos fbSize_even hdisplay
      tvm := by rw [State.tvm, State.tvm, htvmr]
      resCur := hres }
  have hn : outLine t.tim y = n := by simp only [n, outLine, hres, hfield]
  refine ⟨hn, ⟨s.scanRow y, scanRow_length s y, ?_, ?_⟩, fun k hk => ?_, rfl⟩
  · rw [drawScanline_lineAt, if_pos rfl]
  · rw [drawScanline_lineAt, if_pos hn.symm, hview.scanRow_eq]
  · rw [drawScanline_lineAt, if_neg hk]

end Sys2Proof.Machine
end

section
/-! PROOF. One chunk of `Advance`, and the entries of the four horizontal phases (`45_timing_controller.md` R166, R167,
R170 to R172). -/

namespace Sys2Proof.Machine

/-! ### A chunk (R167) -/

/-- The grant as one update of the pool. -/
theorem grant_eq (s : State) (chunk : Nat) :
    s.grant chunk =
      { s with
        proc :=
          { s.proc with
            cyclePool := if s.proc.status = .busy then s.proc.cyclePool + chunk else s.proc.cyclePool } } := by
  unfold State.grant
  split
  next h => rw [if_pos h]
  next h => rw [if_neg h]

theorem beginChunk_zero (s : State) : s.beginChunk 0 = s.setCtl .hostTurn := rfl

theorem beginChunk_of_pos {s : State} {remaining : Nat} (h : 0 < remaining) :
    s.beginChunk remaining = (s.grant (s.chunkOf remaining)).setCtl (.serve (s.chunkOf remaining) remaining) :=
  if_neg h.ne'

/-! ### An agent's step, by the control point -/

theorem agentStep_of_advance {s : State} {r : Nat} (hc : s.ctl = .advance r) : s.agentStep = s.beginChunk r := by
  rw [State.agentStep, hc]

theorem agentStep_of_serve {s : State} {c r : Nat} (hc : s.ctl = .serve c r) : s.agentStep = s.endChunk c r := by
  rw [State.agentStep, hc]

theorem agentStep_of_enterH {s : State} {r : Nat} (hc : s.ctl = .enterH r) : s.agentStep = s.enterHStep r := by
  rw [State.agentStep, hc]

theorem agentStep_of_enterV {s : State} {r : Nat} (hc : s.ctl = .enterV r) : s.agentStep = s.enterVStep r := by
  rw [State.agentStep, hc]

/-- Settles O46, by the control point: the top of the loop with and without cycles left, and a chunk. -/
theorem advanceServesOneChunk : Obligations.AdvanceServesOneChunk := by
  intro s r c he
  refine ⟨fun hc => ?_, fun hc => ?_, fun hc => ?_⟩ <;> rw [step_of_not_enabled he]
  · rw [agentStep_of_advance hc, beginChunk_zero]
    rfl
  · rw [agentStep_of_advance hc, beginChunk_of_pos r.succ_pos, grant_eq]
    rfl
  · rw [agentStep_of_serve hc]
    rfl

/-! ### The control flow around a horizontal phase entry (R167, R168, R172) -/

/-- The state in which the action of the next horizontal phase starts (R167). -/
def State.nextHPhase (s : State) : State := { s with tim := { s.tim with hPhase := s.tim.hPhase.succ, hCyc := 0 } }

/-- The entry action of the current horizontal phase, apart from the vertical phase change (R170 to R172). -/
def State.hEntryAction (s : State) : State :=
  match s.tim.hPhase with
  | .active => s.enterHActive
  | .rightBorder => s.enterRightBorder
  | .sync => s.countLine
  | .leftBorder => s

/-- What `Advance` does next in a horizontal phase just entered: one of length 0 is left at once (R168). -/
def State.afterEntry (s : State) (remaining : Nat) : Control :=
  if 0 < s.hLength then .advance remaining else .enterH remaining

/-- What `Advance` does next after the action of a horizontal phase: at `Sync` it leaves a complete vertical phase. -/
def State.afterHEntry (s : State) (remaining : Nat) : Control :=
  match s.tim.hPhase with
  | .sync => if s.tim.vLine = s.vLength then .enterV remaining else s.afterEntry remaining
  | _ => s.afterEntry remaining

theorem afterHEntry_of_sync {s : State} (h : s.tim.hPhase = .sync) (remaining : Nat) :
    s.afterHEntry remaining = if s.tim.vLine = s.vLength then .enterV remaining else s.afterEntry remaining := by
  rw [State.afterHEntry, h]

theorem afterHEntry_of_ne_sync {s : State} (h : s.tim.hPhase ≠ .sync) (remaining : Nat) :
    s.afterHEntry remaining = s.afterEntry remaining := by
  unfold State.afterHEntry
  split
  next hs => exact absurd hs h
  next => rfl

@[simp] theorem State.enterHActive_tim (s : State) : s.enterHActive.tim = { s.tim with hblank := false } := by
  simp only [State.enterHActive]
  split <;> rfl

theorem afterEntry_cases (s : State) (remaining : Nat) :
    (0 < s.hLength ∧ s.afterEntry remaining = .advance remaining) ∨
      (s.hLength = 0 ∧ s.afterEntry remaining = .enterH remaining) := by
  unfold State.afterEntry
  split
  next h => exact .inl ⟨h, rfl⟩
  next h => exact .inr ⟨by omega, rfl⟩

theorem afterHEntry_cases (s : State) (remaining : Nat) :
    (s.tim.hPhase = .sync ∧ s.afterHEntry remaining = .enterV remaining) ∨
      s.afterHEntry remaining = s.afterEntry remaining := by
  by_cases h : s.tim.hPhase = .sync
  · rw [afterHEntry_of_sync h]
    split
    · exact .inl ⟨h, rfl⟩
    · exact .inr rfl
  · exact .inr (afterHEntry_of_ne_sync h remaining)

theorem afterVEntry_cases (s : State) (remaining : Nat) :
    (s.vLength = 0 ∧ s.afterVEntry remaining = .enterV remaining) ∨
      (0 < s.vLength ∧ s.afterVEntry remaining = s.afterEntry remaining) := by
  unfold State.afterVEntry
  split
  next h => exact .inr ⟨h, rfl⟩
  next h => exact .inl ⟨by omega, rfl⟩

theorem afterEntry_ne_serve (s : State) (remaining c r : Nat) : s.afterEntry remaining ≠ .serve c r := by
  rcases afterEntry_cases s remaining with ⟨-, h⟩ | ⟨-, h⟩ <;> simp [h]

/-- One iteration of `NextHPhase` is the change of phase, the action of the phase, and the control flow after it. -/
theorem enterHStep_eq (s : State) (remaining : Nat) :
    s.enterHStep remaining =
      s.nextHPhase.hEntryAction.setCtl (s.nextHPhase.hEntryAction.afterHEntry remaining) := by
  cases hp : s.tim.hPhase <;>
    simp only [State.enterHStep, State.nextHPhase, State.hEntryAction, hp, HPhase.succ]
  case active => rfl
  case rightBorder =>
    rw [State.enterHSync, afterHEntry_of_sync rfl, apply_ite (State.setCtl _)]
    rfl
  case sync => rfl
  case leftBorder =>
    rw [afterHEntry_of_ne_sync (by simp)]
    rfl

theorem step_enterH {s : State} {r : Nat} (he : s.vdp1Enabled = false) (hc : s.ctl = .enterH r) :
    step s = .next (s.nextHPhase.hEntryAction.setCtl (s.nextHPhase.hEntryAction.afterHEntry r)) := by
  rw [step_of_not_enabled he, agentStep_of_enterH hc, enterHStep_eq]

/-! ### The action of each entry -/

/-- A change of HBLANK as one update (R180). -/
theorem changeHblank_eq (s : State) (b : Bool) :
    s.changeHblank b =
      { s with
        tim := { s.tim with hblank := b }
        trace := s.trace ++ [.hBlankStateChange b, .statusReadHint] } := by
  simp only [State.changeHblank, State.emit, List.append_assoc, List.cons_append, List.nil_append]

/-- Settles O47: `step_enterH`, with the action of the phase that is entered. -/
theorem horizontalPhaseEntries : Obligations.HorizontalPhaseEntries := by
  intro s r he hc goOn
  have hstep {p : HPhase} {t : State} (hp : s.tim.hPhase = p)
      (ht : ({ s with tim := { s.tim with hPhase := p.succ, hCyc := 0 } } : State).hEntryAction = t) :
      step s = .next (t.setCtl (t.afterHEntry r)) := by
    rw [step_enterH he hc, State.nextHPhase, hp, ht]
  refine ⟨fun hp => hstep hp (changeHblank_eq _ true), fun hp => hstep hp rfl, fun hp => hstep hp rfl,
    fun hp => ?_⟩
  intro t
  rw [hstep hp rfl, afterHEntry_of_ne_sync (by simp [State.hEntryAction, HPhase.succ])]
  simp only [HPhase.succ, State.hEntryAction, State.enterHActive, changeHblank_eq]
  split <;> rfl

end Sys2Proof.Machine
end

section
/-! PROOF. Every step keeps the blanking flags and the cycles of the phase in hand consistent with the phases, and the
latched resolution but at a frame start or a reset (`45_timing_controller.md` R167, R170 to R173, R175,
R177 to R179). -/

namespace Sys2Proof.Machine

/-! ### What leaves the timing alone

Commands, and all host operations but `Advance` and the resets, leave the control point alone and reach at most the
requested resolution of the timing controller. -/

/-- Going from `s` to `t` leaves alone the control point and all of the timing controller but the requested
resolution. -/
structure SameTiming (s t : State) : Prop where
  tim : t.tim = { s.tim with resReq := t.tim.resReq, resDirty := t.tim.resDirty }
  ctl : t.ctl = s.ctl

namespace SameTiming

variable {s t u : State}

theorem of_eq (htim : t.tim = s.tim) (hctl : t.ctl = s.ctl) : SameTiming s t := ⟨by rw [htim], hctl⟩

theorem refl (s : State) : SameTiming s s := of_eq rfl rfl

theorem trans (h : SameTiming s t) (h' : SameTiming t u) : SameTiming s u :=
  ⟨h'.tim.trans (by rw [h.tim]), h'.ctl.trans h.ctl⟩

theorem resCur (h : SameTiming s t) : t.tim.resCur = s.tim.resCur := by rw [h.tim]

theorem blankingOk (h : SameTiming s t) (hs : s.BlankingOk) : t.BlankingOk :=
  ⟨by rw [h.tim]; exact hs.hblank, by rw [h.tim]; exact hs.vblank⟩

theorem chunkOk (h : SameTiming s t) (hs : s.ChunkOk) : t.ChunkOk := by
  have hlen : t.hLength = s.hLength := by rw [State.hLength, h.tim, State.hLength]
  have hcyc : t.tim.hCyc = s.tim.hCyc := by rw [h.tim]
  exact ⟨by rw [hcyc, hlen]; exact hs.hCyc, by rw [hcyc, hlen, h.ctl]; exact hs.serve,
    by rw [hcyc, h.ctl]; exact hs.enterV⟩

end SameTiming

theorem SameOutside.sameTiming {s t : State} (h : SameOutside s t) : SameTiming s t := .of_eq h.tim h.ctl

theorem setMem_sameTiming (s : State) (sp : Space) (m : Memory) : SameTiming s (s.setMem sp m) :=
  .of_eq (s.setMem_tim sp m) (s.setMem_ctl sp m)

theorem storeReg1_sameTiming (s : State) (g : Reg1) (v : Word) : SameTiming s (s.storeReg1 g v) := by
  cases g <;> exact .of_eq rfl rfl

theorem plotTrigger_sameTiming (s : State) (v : Word) : SameTiming s (s.plotTrigger v) := by
  unfold State.plotTrigger
  split <;> exact .of_eq rfl rfl

theorem writeReg1_sameTiming (s : State) (g : Reg1) (v : Word) : SameTiming s (s.writeReg1 g v) := by
  cases g
  case fbcr => rw [State.writeReg1, requestChange_eq]; exact .of_eq rfl rfl
  case ptmr => exact (storeReg1_sameTiming s .ptmr v).trans (plotTrigger_sameTiming _ v)
  case endr => rw [State.writeReg1, forceEnd_eq]; exact .of_eq rfl rfl
  all_goals exact .of_eq rfl rfl

/-- A write of the VDP2 bank derives the requested resolution from it (R177). -/
theorem writeRegs2Byte_sameTiming (s : State) (off : Nat) (b : Byte) : SameTiming s (s.writeRegs2Byte off b) := by
  unfold State.writeRegs2Byte
  split <;> exact ⟨rfl, rfl⟩

theorem writeRegs2Word_sameTiming (s : State) (off : Nat) (w : Word) : SameTiming s (s.writeRegs2Word off w) := by
  unfold State.writeRegs2Word
  split <;> exact ⟨rfl, rfl⟩

theorem poke8_sameTiming (s : State) (r : Region) (off : Nat) (b : Byte) : SameTiming s (s.poke8 r off b) := by
  unfold State.poke8
  split
  · exact setMem_sameTiming s _ _
  · exact writeRegs2Byte_sameTiming s off b
  · split
    · exact storeReg1_sameTiming s _ _
    · exact .refl s

theorem poke16_sameTiming (s : State) (r : Region) (off : Nat) (w : Word) : SameTiming s (s.poke16 r off w) := by
  unfold State.poke16
  split
  · exact setMem_sameTiming s _ _
  · exact writeRegs2Word_sameTiming s off w
  · split
    · exact storeReg1_sameTiming s _ _
    · exact .refl s

theorem writePenalty_sameTiming (s : State) (r : Region) : SameTiming s (s.writePenalty r) := by
  obtain ⟨p, h⟩ := writePenalty_eq_withProc s r
  rw [h]
  exact .of_eq rfl rfl

theorem write8_sameTiming (s : State) (r : Region) (off : Nat) (b : Byte) : SameTiming s (s.write8 r off b) := by
  unfold State.write8
  split
  · split
    · exact writeReg1_sameTiming s _ _
    · exact .refl s
  · exact (poke8_sameTiming s r off b).trans (writePenalty_sameTiming _ r)

theorem write16_sameTiming (s : State) (r : Region) (off : Nat) (w : Word) : SameTiming s (s.write16 r off w) := by
  unfold State.write16
  split
  · split
    · exact writeReg1_sameTiming s _ _
    · exact .refl s
  · exact (poke16_sameTiming s r off w).trans (writePenalty_sameTiming _ r)

theorem answer8_sameTiming (s : State) (peek : Bool) (r : Region) (off : Nat) :
    SameTiming s (s.answer8 peek r off) := by
  unfold State.answer8
  split <;> exact .of_eq rfl rfl

theorem answer16_sameTiming (s : State) (peek : Bool) (r : Region) (off : Nat) :
    SameTiming s (s.answer16 peek r off) := by
  unfold State.answer16
  split <;> exact .of_eq rfl rfl

/-- A host operation begins an `Advance`, resets the timing controller, or leaves the timing alone (R167, R205). -/
theorem hostOp_timing_cases (s : State) (op : HostOp) :
    (∃ n, op = .advance n ∧ s.hostOp op = s.setCtl (.advance n)) ∨
      (∃ hard, op = .reset hard ∧ (s.hostOp op).tim = resetTim ∧ (s.hostOp op).ctl = .hostTurn) ∨
      SameTiming s (s.hostOp op) := by
  cases op with
  | read8 r off => exact .inr (.inr (answer8_sameTiming s false r off))
  | read16 r off => exact .inr (.inr (answer16_sameTiming s false r off))
  | write8 r off v => exact .inr (.inr (write8_sameTiming s r off v))
  | write16 r off v => exact .inr (.inr (write16_sameTiming s r off v))
  | peek8 r off => exact .inr (.inr (answer8_sameTiming s true r off))
  | peek16 r off => exact .inr (.inr (answer16_sameTiming s true r off))
  | poke8 r off v => exact .inr (.inr (poke8_sameTiming s r off v))
  | poke16 r off v => exact .inr (.inr (poke16_sameTiming s r off v))
  | advance n => exact .inl ⟨n, rfl, rfl⟩
  | requestResolution res => exact .inr (.inr ⟨rfl, rfl⟩)
  | reset hard => exact .inr (.inl ⟨hard, rfl, by cases hard <;> rfl, by cases hard <;> rfl⟩)

/-! ### Phase entries (R170 to R175, R178) -/

/-- Going from `s` to `t` leaves the phases, the cycles of the horizontal one and the latched resolution alone, so that
every length is the same, and VBLANK as well. -/
structure SameFrameTiming (s t : State) : Prop where
  hPhase : t.tim.hPhase = s.tim.hPhase
  vPhase : t.tim.vPhase = s.tim.vPhase
  hCyc : t.tim.hCyc = s.tim.hCyc
  vblank : t.tim.vblank = s.tim.vblank
  resCur : t.tim.resCur = s.tim.resCur

theorem hEntryAction_sameFrameTiming (s : State) : SameFrameTiming s s.hEntryAction := by
  cases hp : s.tim.hPhase <;> simp only [State.hEntryAction, hp]
  case active => constructor <;> rw [State.enterHActive_tim]
  all_goals constructor <;> rfl

/-- HBLANK goes off at `Active` and on at `RightBorder` (R170, R171). -/
theorem hEntryAction_hblank (s : State) :
    s.hEntryAction.tim.hblank =
      if s.tim.hPhase = .active then false else if s.tim.hPhase = .rightBorder then true else s.tim.hblank := by
  cases hp : s.tim.hPhase <;> simp only [State.hEntryAction, hp]
  case active => rw [State.enterHActive_tim]; rfl
  all_goals rfl

theorem enterBottomBorder_tim (s : State) : s.enterBottomBorder.tim = { s.tim with vblank := true } := by
  simp only [State.enterBottomBorder, State.emit_tim, State.vblankErase_tim]
  rfl

theorem enterLastLine_tim (s : State) : s.enterLastLine.tim = { s.tim with vblank := false } := by
  simp only [State.enterLastLine, State.frameBoundary_tim]
  rfl

/-- Going from `s` to `t` leaves the phases, the cycles of the horizontal one and HBLANK alone. -/
structure SameLineTiming (s t : State) : Prop where
  hPhase : t.tim.hPhase = s.tim.hPhase
  vPhase : t.tim.vPhase = s.tim.vPhase
  hCyc : t.tim.hCyc = s.tim.hCyc
  hblank : t.tim.hblank = s.tim.hblank

theorem vEntryAction_sameLineTiming (s : State) : SameLineTiming s s.vEntryAction := by
  cases hp : s.tim.vPhase <;> simp only [State.vEntryAction, hp]
  case active => rw [enterVActive_eq]; constructor <;> rfl
  case bottomBorder => constructor <;> rw [enterBottomBorder_tim]
  case lastLine => constructor <;> rw [enterLastLine_tim]
  all_goals constructor <;> rfl

/-- VBLANK goes on at `BottomBorder` and off at `LastLine` (R173, R175). -/
theorem vEntryAction_vblank (s : State) :
    s.vEntryAction.tim.vblank =
      if s.tim.vPhase = .bottomBorder then true else if s.tim.vPhase = .lastLine then false else s.tim.vblank := by
  cases hp : s.tim.vPhase <;> simp only [State.vEntryAction, hp]
  case active => rw [enterVActive_eq]; rfl
  case bottomBorder => rw [enterBottomBorder_tim]; rfl
  case lastLine => rw [enterLastLine_tim]; rfl
  all_goals rfl

/-! ### The blanking flags (R170, R171, R173, R175, R179) -/

theorem enterHStep_blankingOk {s : State} (h : s.BlankingOk) (remaining : Nat) :
    (s.enterHStep remaining).BlankingOk := by
  have hsame := hEntryAction_sameFrameTiming s.nextHPhase
  rw [enterHStep_eq]
  refine ⟨?_, ?_⟩
  · have hon := h.hblank
    rw [State.setCtl_tim, hsame.hPhase, hEntryAction_hblank]
    cases hp : s.tim.hPhase <;> rw [hp] at hon <;> simp [State.nextHPhase, HPhase.succ, hp, hon]
  · rw [State.setCtl_tim, hsame.vPhase, hsame.vblank]
    exact h.vblank

theorem enterVStep_blankingOk {s : State} (h : s.BlankingOk) (remaining : Nat) :
    (s.enterVStep remaining).BlankingOk := by
  have hsame := vEntryAction_sameLineTiming s.nextVPhase
  rw [enterVStep_eq]
  refine ⟨?_, ?_⟩
  · rw [State.setCtl_tim, hsame.hPhase, hsame.hblank]
    exact h.hblank
  · have hon := h.vblank
    rw [State.setCtl_tim, hsame.vPhase, vEntryAction_vblank]
    cases hp : s.tim.vPhase <;> rw [hp] at hon <;> simp [State.nextVPhase, VPhase.succ, hp, hon]

/-! ### The chunk in hand (R167) -/

/-- At the start of a phase nothing has been served of it. -/
theorem chunkOk_of_phase_start {s : State} (hcyc : s.tim.hCyc = 0) (hctl : ∀ c r, s.ctl ≠ .serve c r) : s.ChunkOk :=
  ⟨hcyc ▸ Nat.zero_le _, fun c r h => absurd h (hctl c r), fun _ _ => hcyc⟩

/-- Outside a phase entry and a served chunk the phase in hand is only not overrun. -/
theorem chunkOk_of_hCyc_le {s : State} (hcyc : s.tim.hCyc ≤ s.hLength) (hserve : ∀ c r, s.ctl ≠ .serve c r)
    (henter : ∀ r, s.ctl ≠ .enterV r) : s.ChunkOk :=
  ⟨hcyc, fun c r h => absurd h (hserve c r), fun r h => absurd h (henter r)⟩

theorem enterHStep_chunkOk (s : State) (remaining : Nat) : (s.enterHStep remaining).ChunkOk := by
  rw [enterHStep_eq]
  refine chunkOk_of_phase_start (hEntryAction_sameFrameTiming _).hCyc fun c r => ?_
  rw [State.setCtl_ctl]
  rcases afterHEntry_cases s.nextHPhase.hEntryAction remaining with ⟨-, h⟩ | h <;> rw [h]
  · simp
  · exact afterEntry_ne_serve _ _ _ _

/-- The vertical phase changes at the entry of horizontal `Sync`, before any cycle of it (R172). -/
theorem enterVStep_chunkOk {s : State} (h : s.tim.hCyc = 0) (remaining : Nat) : (s.enterVStep remaining).ChunkOk := by
  rw [enterVStep_eq]
  refine chunkOk_of_phase_start ((vEntryAction_sameLineTiming _).hCyc.trans h) fun c r => ?_
  rw [State.setCtl_ctl]
  rcases afterVEntry_cases s.nextVPhase.vEntryAction remaining with ⟨-, h⟩ | ⟨-, h⟩ <;> rw [h]
  · simp
  · exact afterEntry_ne_serve _ _ _ _

@[simp] theorem State.beginChunk_tim (s : State) (remaining : Nat) : (s.beginChunk remaining).tim = s.tim := by
  unfold State.beginChunk
  split
  · rfl
  · rw [grant_eq]; rfl

/-- A chunk fits into the phase in hand and into what remains. -/
theorem beginChunk_chunkOk {s : State} (h : s.ChunkOk) (remaining : Nat) : (s.beginChunk remaining).ChunkOk := by
  rcases Nat.eq_zero_or_pos remaining with rfl | hpos
  · exact chunkOk_of_hCyc_le h.hCyc (by simp [beginChunk_zero]) (by simp [beginChunk_zero])
  · have hcyc : s.tim.hCyc ≤ s.hLength := h.hCyc
    have hfits : s.tim.hCyc + s.chunkOf remaining ≤ s.hLength ∧ s.chunkOf remaining ≤ remaining := by
      unfold State.chunkOf
      omega
    rw [beginChunk_of_pos hpos, grant_eq]
    refine ⟨hcyc, fun c r hctl => ?_, fun r hctl => by cases hctl⟩
    obtain ⟨rfl, rfl⟩ : s.chunkOf remaining = c ∧ remaining = r := by simpa using hctl
    exact hfits

/-- A chunk that fits does not overrun the phase. -/
theorem endChunk_chunkOk {s : State} {chunk : Nat} (h : s.tim.hCyc + chunk ≤ s.hLength) (remaining : Nat) :
    (s.endChunk chunk remaining).ChunkOk := by
  refine chunkOk_of_hCyc_le h (fun c r => ?_) (fun r => ?_) <;> simp only [State.endChunk, State.setCtl_ctl] <;>
    split <;> simp

/-! ### Steps -/

theorem hostOp_keepsTiming {s : State} (op : HostOp) (hs : s.BlankingOk ∧ s.ChunkOk) :
    (s.hostOp op).BlankingOk ∧ (s.hostOp op).ChunkOk := by
  obtain ⟨hb, hc⟩ := hs
  rcases hostOp_timing_cases s op with ⟨n, -, h⟩ | ⟨hard, -, htim, hctl⟩ | h
  · rw [h]
    exact ⟨⟨hb.hblank, hb.vblank⟩, chunkOk_of_hCyc_le hc.hCyc (by simp) (by simp)⟩
  · exact ⟨⟨by rw [htim]; decide, by rw [htim]; decide⟩,
      chunkOk_of_phase_start (by rw [htim]; rfl) (by simp [hctl])⟩
  · exact ⟨h.blankingOk hb, h.chunkOk hc⟩

theorem agentStep_keepsTiming {s : State} (hs : s.BlankingOk ∧ s.ChunkOk) :
    s.agentStep.BlankingOk ∧ s.agentStep.ChunkOk := by
  obtain ⟨hb, hc⟩ := hs
  rcases agentStep_cases s with ⟨-, -, h⟩ | ⟨op, rest, -, -, h⟩ | ⟨r, -, h⟩ | ⟨c, r, hctl, h⟩ | ⟨r, -, h⟩ |
    ⟨r, hctl, h⟩ <;> rw [h]
  · exact ⟨hb, hc⟩
  · have hturn : SameTiming s { s with hostOps := rest } := .of_eq rfl rfl
    exact hostOp_keepsTiming op ⟨hturn.blankingOk hb, hturn.chunkOk hc⟩
  · exact ⟨⟨by rw [State.beginChunk_tim]; exact hb.hblank, by rw [State.beginChunk_tim]; exact hb.vblank⟩,
      beginChunk_chunkOk hc r⟩
  · exact ⟨⟨hb.hblank, hb.vblank⟩, endChunk_chunkOk (hc.serve c r hctl).1 r⟩
  · exact ⟨enterHStep_blankingOk hb r, enterHStep_chunkOk s r⟩
  · exact ⟨enterVStep_blankingOk hb r, enterVStep_chunkOk (hc.enterV r hctl) r⟩

/-- Settles O58: a command step leaves the timing alone, and `agentStep_keepsTiming` is the rest. -/
theorem stepKeepsTiming : Obligations.StepKeepsTiming := by
  intro s t hb hc hstep
  rcases step_cases hstep with ⟨-, -, rfl⟩ | ⟨-, -, hexec⟩ | ⟨-, rfl⟩
  · exact ⟨⟨hb.hblank, hb.vblank⟩, ⟨hc.hCyc, hc.serve, hc.enterV⟩⟩
  · have hlatch : SameTiming s s.latchCopr := .of_eq rfl rfl
    have hsame := hlatch.trans (exec_sameOutside hexec).sameTiming
    exact ⟨hsame.blankingOk hb, hsame.chunkOk hc⟩
  · exact agentStep_keepsTiming ⟨hb, hc⟩

/-! ### The latched resolution (R177, R178) -/

theorem enterHStep_resCur (s : State) (remaining : Nat) : (s.enterHStep remaining).tim.resCur = s.tim.resCur := by
  rw [enterHStep_eq]
  exact (hEntryAction_sameFrameTiming _).resCur

theorem VPhase.succ_eq_active_iff (p : VPhase) : p.succ = .active ↔ p = .lastLine := by
  cases p <;> decide

/-- Only the entry of vertical `Active` latches a resolution. -/
theorem vEntryAction_resCur_of_ne_lastLine {s : State} (h : s.tim.vPhase ≠ .lastLine) :
    s.nextVPhase.vEntryAction.tim.resCur = s.tim.resCur :=
  (vEntryAction_sameVideo (s := s.nextVPhase) fun hp => h ((VPhase.succ_eq_active_iff _).1 hp)).resCur

/-- A vertical phase entry keeps the latched resolution, or latches the requested one at the frame start. -/
theorem enterVStep_resCur_cases (s : State) (remaining : Nat) :
    (s.enterVStep remaining).tim.resCur = s.tim.resCur ∨
      s.tim.vPhase = .lastLine ∧ s.tim.resDirty = true ∧ (s.enterVStep remaining).tim.resCur = s.tim.resReq ∧
        (s.enterVStep remaining).trace =
          s.trace ++ [.resolutionChanged (dispW s.tim.resReq) (dispH s.tim.resReq)] := by
  rw [enterVStep_eq, State.setCtl_tim, State.setCtl_trace]
  by_cases hp : s.tim.vPhase = .lastLine
  · have hactive : s.nextVPhase.tim.vPhase = .active := congrArg VPhase.succ hp
    rw [vEntryAction_of_active hactive, enterVActive_eq]
    cases hd : s.tim.resDirty
    · exact .inl (by simp [State.nextVPhase, hd])
    · exact .inr (by simp [State.nextVPhase, hd, hp])
  · exact .inl (vEntryAction_resCur_of_ne_lastLine hp)

/-- Settles O49, by what a step can be: of the agents only a vertical phase entry and a reset reach the latched
resolution. -/
theorem resolutionLatchesAtFrameStart : Obligations.ResolutionLatchesAtFrameStart := by
  refine ⟨fun s t hstep => ?_, fun s res => rfl⟩
  rcases step_cases hstep with ⟨-, -, rfl⟩ | ⟨-, -, hexec⟩ | ⟨-, rfl⟩
  · exact .inl rfl
  · exact .inl (exec_sameOutside hexec).sameTiming.resCur
  · rcases agentStep_cases s with ⟨-, -, h⟩ | ⟨op, rest, hctl, hops, h⟩ | ⟨r, -, h⟩ | ⟨c, r, -, h⟩ | ⟨r, -, h⟩ |
      ⟨r, hctl, h⟩ <;> rw [h]
    · exact .inl rfl
    · rcases hostOp_timing_cases { s with hostOps := rest } op with ⟨n, -, hop⟩ | ⟨hard, rfl, htim, -⟩ | hsame
      · exact .inl (by rw [hop]; rfl)
      · exact .inr (.inr ⟨hard, rest, hctl, hops, by rw [htim]; rfl⟩)
      · exact .inl hsame.resCur
    · exact .inl (by rw [State.beginChunk_tim])
    · exact .inl rfl
    · exact .inl (enterHStep_resCur s r)
    · exact (enterVStep_resCur_cases s r).imp_right fun ⟨hv, hd, hres, htrace⟩ =>
        .inl ⟨r, hctl, hv, hd, hres, htrace⟩

end Sys2Proof.Machine
end

section
/-! PROOF. Phase transitions do not stall (`45_timing_controller.md` R167 to R169, R172). -/

namespace Sys2Proof.Machine

/-! ### Lengths (R168, R169) -/

/-- The constraint `LineCycles ≥ 1`, as the table has it: the phase `hLenPositive` is not empty. -/
theorem hLen_hLenPositive_pos (res : Resolution) : 0 < Config.hLen res (Config.hLenPositive res) := by
  simp [Config.hLen]

theorem hLenPositive_ne_of_hLength {s : State} (h : s.hLength = 0) :
    s.tim.hPhase ≠ Config.hLenPositive s.tim.resCur := by
  intro hp
  have hpos := hLen_hLenPositive_pos s.tim.resCur
  rw [← hp] at hpos
  exact hpos.ne' h

/-- Vertical `Active` and `LastLine` are never empty. -/
theorem vPhase_ne_of_vLength {s : State} (h : s.vLength = 0) : s.tim.vPhase ≠ .active ∧ s.tim.vPhase ≠ .lastLine := by
  refine ⟨fun hp => ?_, fun hp => ?_⟩ <;> rw [State.vLength, hp] at h
  · cases hv : s.tim.resCur.v <;> simp [Config.vLen, Config.VRes.lines, hv] at h
  · simp [Config.vLen] at h

/-! ### No phase entry enables a command step (R66, R132) -/

theorem vdp1Enabled_congr {s t : State} (h : t.proc = s.proc) : t.vdp1Enabled = s.vdp1Enabled := by
  rw [State.vdp1Enabled, State.vdp1Enabled, h]

@[simp] theorem State.erase_proc (s : State) (f : FbId) : (s.erase f).proc = s.proc := by
  rcases erase_cases s f with h | ⟨g, -, h⟩ <;> simp [h]

/-- A swap ends the running list, and a list it starts has no cycles yet (R125, R132). -/
theorem swap_vdp1Enabled (s : State) : s.swap.vdp1Enabled = false := by
  apply vdp1Enabled_eq_false
  rcases swap_cases s with ⟨-, h⟩ | ⟨-, h⟩ <;> rw [h]
  · refine .inl ?_
    rw [State.emit_proc]
    rcases abandonList_cases s.swapRegisters with ⟨-, ha⟩ | ⟨hbusy, ha⟩ <;> rw [ha]
    · simp
    · exact hbusy
  · exact .inr (by simp)

theorem frameBoundary_vdp1Enabled {s : State} (h : s.vdp1Enabled = false) : s.frameBoundary.vdp1Enabled = false := by
  rcases frameBoundary_cases s with hb | hb <;> rw [hb]
  · rw [← h]
    rcases boundaryErase_cases s with he | he <;> rw [he]
    exact vdp1Enabled_congr (State.erase_proc _ _)
  · exact swap_vdp1Enabled _

theorem enterBottomBorder_proc (s : State) : s.enterBottomBorder.proc = s.proc := by
  have herase (t : State) : t.vblankErase.proc = t.proc := by
    rcases vblankErase_cases t with h | h <;> simp [h]
  simp [State.enterBottomBorder, herase]

theorem vEntryAction_vdp1Enabled {s : State} (h : s.vdp1Enabled = false) : s.vEntryAction.vdp1Enabled = false := by
  cases hp : s.tim.vPhase <;> simp only [State.vEntryAction, hp]
  case active => rw [enterVActive_eq]; exact h
  case bottomBorder => rw [vdp1Enabled_congr (enterBottomBorder_proc s)]; exact h
  case lastLine => rw [enterLastLine_eq]; exact frameBoundary_vdp1Enabled h
  all_goals exact h

theorem hEntryAction_proc (s : State) : s.hEntryAction.proc = s.proc := by
  cases hp : s.tim.hPhase <;> simp only [State.hEntryAction, hp]
  case active =>
    simp only [State.enterHActive]
    split <;> simp
  all_goals rfl

/-! ### How many entries are left

Entries end at the latest at the phase `hLenPositive`, which is not empty. On the way to it vertical phases are entered
at most once, at horizontal `Sync`: after an empty `Sync` the way does not come to `Sync` again. A resolution latched
there can move the non-empty phase, but it is latched at the entry of vertical `Active`, which ends the vertical
entries. -/

/-- The horizontal phases in their order from `Active` on. -/
def HPhase.index : HPhase → Nat
  | .active => 0
  | .rightBorder => 1
  | .sync => 2
  | .leftBorder => 3

theorem HPhase.index_lt (p : HPhase) : p.index < 4 := by cases p <;> decide

theorem HPhase.index_succ (p : HPhase) : p.succ.index = (p.index + 1) % 4 := by cases p <;> rfl

theorem HPhase.index_injective : Function.Injective HPhase.index := by
  intro p q h
  cases p <;> cases q <;> simp_all [HPhase.index]

/-- How many entries lead from one horizontal phase to the next occurrence of another; a whole line leads to itself. -/
def HPhase.entriesTo (p q : HPhase) : Nat := (q.index + 3 - p.index) % 4 + 1

/-- How many entries lead at most from a vertical phase to one that is not empty. -/
def VPhase.entriesToLine : VPhase → Nat
  | .active => 5
  | .bottomBorder => 4
  | .blankingAndSync => 3
  | .vCounterSkip => 2
  | .topBorder => 1
  | .lastLine => 1

/-- At a horizontal phase entry: the entries to the non-empty phase, and room for those of vertical phases if `Sync` is
on the way. -/
def State.hEntriesLeft (s : State) : Nat :=
  let q := Config.hLenPositive s.tim.resCur
  s.tim.hPhase.entriesTo q + if s.tim.hPhase.entriesTo .sync ≤ s.tim.hPhase.entriesTo q then 5 else 0

/-- At a vertical phase entry, in horizontal `Sync`: the vertical entries, and then the horizontal ones to the non-empty
phase. The entry of `Active` can latch another non-empty phase, at most three entries away if it is not `Sync`. -/
def State.vEntriesLeft (s : State) : Nat :=
  if s.tim.vPhase = .lastLine then 4
  else s.tim.vPhase.entriesToLine + HPhase.sync.entriesTo (Config.hLenPositive s.tim.resCur) % 4

theorem HPhase.entriesTo_le (p q : HPhase) : p.entriesTo q ≤ 4 := by
  unfold HPhase.entriesTo
  omega

theorem hEntriesLeft_pos (s : State) : 0 < s.hEntriesLeft := by
  simp only [State.hEntriesLeft, HPhase.entriesTo]
  omega

theorem hEntriesLeft_le (s : State) : s.hEntriesLeft ≤ 9 := by
  have hle := s.tim.hPhase.entriesTo_le (Config.hLenPositive s.tim.resCur)
  simp only [State.hEntriesLeft]
  split <;> omega

theorem vEntriesLeft_pos (s : State) : 0 < s.vEntriesLeft := by
  unfold State.vEntriesLeft
  cases s.tim.vPhase <;> simp [VPhase.entriesToLine]

section
variable {s t : State}

/-- An entry of an empty horizontal phase is one entry less. -/
theorem hEntriesLeft_of_hEntry (hp : t.tim.hPhase = s.tim.hPhase.succ) (hres : t.tim.resCur = s.tim.resCur)
    (hlen : t.hLength = 0) : t.hEntriesLeft < s.hEntriesLeft := by
  have hne := HPhase.index_injective.ne (hLenPositive_ne_of_hLength hlen)
  have hlt := s.tim.hPhase.index_lt
  have hlt' := (Config.hLenPositive s.tim.resCur).index_lt
  have hsync : HPhase.sync.index = 2 := rfl
  rw [hp, hres, HPhase.index_succ] at hne
  simp only [State.hEntriesLeft, HPhase.entriesTo, hp, hres, HPhase.index_succ, hsync]
  split <;> split <;> omega

/-- An entry of `Sync` has room for the vertical entries. -/
theorem vEntriesLeft_of_hEntry (hp : s.tim.hPhase.succ = .sync) (hres : t.tim.resCur = s.tim.resCur) :
    t.vEntriesLeft < s.hEntriesLeft := by
  have hlt := (Config.hLenPositive s.tim.resCur).index_lt
  have hsync : HPhase.sync.index = 2 := rfl
  have hindex := congrArg HPhase.index hp
  have hline : t.tim.vPhase.entriesToLine ≤ 5 := by cases t.tim.vPhase <;> decide
  have hbefore := s.tim.hPhase.index_lt
  rw [HPhase.index_succ, hsync] at hindex
  simp only [State.hEntriesLeft, State.vEntriesLeft, HPhase.entriesTo, hres, hsync]
  split <;> split <;> omega

/-- An entry of an empty vertical phase is one entry less, and no frame start. -/
theorem vEntriesLeft_of_vEntry (hv : t.tim.vPhase = s.tim.vPhase.succ)
    (hres : s.tim.vPhase ≠ .lastLine → t.tim.resCur = s.tim.resCur) (hlen : t.vLength = 0) :
    t.vEntriesLeft < s.vEntriesLeft := by
  obtain ⟨hactive, hlast⟩ := vPhase_ne_of_vLength hlen
  cases hp : s.tim.vPhase <;> rw [hp] at hv hres
  case lastLine => exact absurd hv hactive
  case topBorder => exact absurd hv hlast
  all_goals simp [State.vEntriesLeft, hv, hp, hres, VPhase.succ, VPhase.entriesToLine]

/-- From an empty `Sync` at most three entries lead to the non-empty phase, and none of them is of `Sync`. -/
theorem hEntriesLeft_of_vEntry (hp : t.tim.hPhase = .sync)
    (hres : s.tim.vPhase ≠ .lastLine → t.tim.resCur = s.tim.resCur) (hlen : t.hLength = 0) :
    t.hEntriesLeft < s.vEntriesLeft := by
  have hne := HPhase.index_injective.ne (hLenPositive_ne_of_hLength hlen)
  have hlt := (Config.hLenPositive t.tim.resCur).index_lt
  have hsync : HPhase.sync.index = 2 := rfl
  have hline : 0 < s.tim.vPhase.entriesToLine := by cases s.tim.vPhase <;> decide
  rw [hp, hsync] at hne
  simp only [State.hEntriesLeft, State.vEntriesLeft, HPhase.entriesTo, hp, hsync]
  by_cases hv : s.tim.vPhase = .lastLine
  · rw [if_pos hv]
    split <;> omega
  · rw [if_neg hv, ← hres hv]
    split <;> omega

end

/-! ### The run to the top of the loop -/

/-- Where a run through phase entries is: back at the top of `Advance`'s loop, or with at most `n` entries left. -/
inductive State.Entering (s : State) (n r : Nat) : Prop
  | top (hctl : s.ctl = .advance r)
  | horizontal (hctl : s.ctl = .enterH r) (hleft : s.hEntriesLeft ≤ n)
  | vertical (hctl : s.ctl = .enterV r) (hsync : s.tim.hPhase = .sync) (hleft : s.vEntriesLeft ≤ n)

/-- `afterEntry` goes to the top of the loop, or on from an empty phase. -/
theorem entering_of_afterEntry {s : State} {n r : Nat} (h : s.hLength = 0 → s.hEntriesLeft ≤ n) :
    (s.setCtl (s.afterEntry r)).Entering n r := by
  rcases afterEntry_cases s r with ⟨-, hctl⟩ | ⟨hlen, hctl⟩ <;> rw [hctl]
  · exact .top rfl
  · exact .horizontal rfl (h hlen)

theorem enterHStep_entering {s : State} {n : Nat} (h : s.hEntriesLeft ≤ n + 1) (r : Nat) :
    (s.enterHStep r).Entering n r := by
  have hsame := hEntryAction_sameFrameTiming s.nextHPhase
  rw [enterHStep_eq]
  rcases afterHEntry_cases s.nextHPhase.hEntryAction r with ⟨hsync, hctl⟩ | hctl <;> rw [hctl]
  · have hless := vEntriesLeft_of_hEntry (s := s) (hsame.hPhase.symm.trans hsync) hsame.resCur
    exact .vertical rfl hsync (Nat.le_of_lt_succ (hless.trans_le h))
  · exact entering_of_afterEntry fun hlen =>
      Nat.le_of_lt_succ ((hEntriesLeft_of_hEntry (s := s) hsame.hPhase hsame.resCur hlen).trans_le h)

theorem enterVStep_entering {s : State} {n : Nat} (hsync : s.tim.hPhase = .sync) (h : s.vEntriesLeft ≤ n + 1)
    (r : Nat) : (s.enterVStep r).Entering n r := by
  have hsame := vEntryAction_sameLineTiming s.nextVPhase
  have hsync' := hsame.hPhase.trans hsync
  have hres := vEntryAction_resCur_of_ne_lastLine (s := s)
  rw [enterVStep_eq]
  rcases afterVEntry_cases s.nextVPhase.vEntryAction r with ⟨hlen, hctl⟩ | ⟨-, hctl⟩ <;> rw [hctl]
  · exact .vertical rfl hsync' (Nat.le_of_lt_succ ((vEntriesLeft_of_vEntry hsame.vPhase hres hlen).trans_le h))
  · exact entering_of_afterEntry fun hlen =>
      Nat.le_of_lt_succ ((hEntriesLeft_of_vEntry hsync' hres hlen).trans_le h)

/-- Within `n` agent steps, and with no command step enabled on the way, `Advance` is at the top of its loop with `r`
cycles remaining. -/
def State.Resumes (s : State) (n r : Nat) : Prop :=
  ∃ k ≤ n, (s.agentRun k).ctl = .advance r ∧ ∀ j ≤ k, (s.agentRun j).vdp1Enabled = false

theorem resumes_of_top {s : State} {r : Nat} (he : s.vdp1Enabled = false) (hc : s.ctl = .advance r) (n : Nat) :
    s.Resumes n r :=
  ⟨0, n.zero_le, hc, fun j hj => by rwa [Nat.le_zero.1 hj]⟩

theorem resumes_of_agentStep {s : State} {n r : Nat} (he : s.vdp1Enabled = false) (h : s.agentStep.Resumes n r) :
    s.Resumes (n + 1) r := by
  obtain ⟨k, hk, hctl, hoff⟩ := h
  refine ⟨k + 1, Nat.succ_le_succ hk, hctl, fun j hj => ?_⟩
  cases j with
  | zero => exact he
  | succ j => exact hoff j (Nat.le_of_succ_le_succ hj)

theorem enterHStep_vdp1Enabled {s : State} (h : s.vdp1Enabled = false) (r : Nat) :
    (s.enterHStep r).vdp1Enabled = false := by
  rw [enterHStep_eq, ← h]
  exact vdp1Enabled_congr (hEntryAction_proc _)

theorem enterVStep_vdp1Enabled {s : State} (h : s.vdp1Enabled = false) (r : Nat) :
    (s.enterVStep r).vdp1Enabled = false := by
  rw [enterVStep_eq]
  exact vEntryAction_vdp1Enabled (s := s.nextVPhase) h

/-- Each phase entry leaves fewer entries, so the run ends at the top of the loop. -/
theorem resumes_of_entering {n r : Nat} :
    ∀ {s : State}, s.vdp1Enabled = false → s.Entering n r → s.Resumes n r := by
  induction n with
  | zero =>
    intro s he h
    cases h with
    | top hc => exact resumes_of_top he hc 0
    | horizontal hc hleft => exact absurd hleft (hEntriesLeft_pos s).not_ge
    | vertical hc hsync hleft => exact absurd hleft (vEntriesLeft_pos s).not_ge
  | succ n ih =>
    intro s he h
    cases h with
    | top hc => exact resumes_of_top he hc (n + 1)
    | horizontal hc hleft =>
      apply resumes_of_agentStep he
      rw [agentStep_of_enterH hc]
      exact ih (enterHStep_vdp1Enabled he r) (enterHStep_entering hleft r)
    | vertical hc hsync hleft =>
      apply resumes_of_agentStep he
      rw [agentStep_of_enterV hc]
      exact ih (enterVStep_vdp1Enabled he r) (enterVStep_entering hsync hleft r)

/-- Settles O50: at most nine entries are left at a horizontal phase entry. -/
theorem phaseEntriesDoNotStall : Obligations.PhaseEntriesDoNotStall :=
  fun s _ hc he => resumes_of_entering he (.horizontal hc (hEntriesLeft_le s))

end Sys2Proof.Machine
end

section
/-! PROOF. The ways out of `Fault` (`60_exceptions.md` R186, R187): each update either keeps the status or is one of the
named exits. -/

namespace Sys2Proof.Machine

/-! ### The status after a host operation (R126, R128, R205) -/

theorem ne_busy_of_faulted {s : State} (h : s.faulted = true) : s.proc.status ≠ .busy := by
  intro hbusy
  simp [State.faulted, hbusy] at h

/-- What a write at `off` of the VDP1 registers that changes the status has done: PTMR has started drawing, or ENDR has
ended it. -/
def RestartedOrStoppedAt (off : Nat) (t : State) : Prop :=
  off % 0x20 / 2 * 2 = 0x04 ∧ t.proc.status = .busy ∨ off % 0x20 / 2 * 2 = 0x0C ∧ t.proc.status = .idle

theorem storeReg1_proc (s : State) (g : Reg1) (v : Word) : (s.storeReg1 g v).proc = s.proc :=
  (storeReg1_sameControl s g v).proc

theorem plotTrigger_status_cases (s : State) (v : Word) :
    (s.plotTrigger v).proc.status = s.proc.status ∨ (s.plotTrigger v).proc.status = .busy := by
  rw [plotTrigger_eq]
  split
  · exact .inr s.startDrawing_proc_status
  · exact .inl rfl

theorem writeReg1_status_cases {off : Nat} {g : Reg1} (h : reg1At off = some g) (s : State) (v : Word) :
    (s.writeReg1 g v).proc.status = s.proc.status ∨ RestartedOrStoppedAt off (s.writeReg1 g v) := by
  have hoff := reg1At_eq_some_iff.1 h
  cases g
  case fbcr => exact .inl (by rw [State.writeReg1, requestChange_eq, storeReg1_proc])
  case ptmr =>
    rcases plotTrigger_status_cases (s.storeReg1 .ptmr v) v with hkeeps | hbusy
    · exact .inl (by rw [State.writeReg1, hkeeps, storeReg1_proc])
    · exact .inr (.inl ⟨hoff, hbusy⟩)
  case endr => exact .inr (.inr ⟨hoff, by rw [State.writeReg1, forceEnd_eq, State.setStatus_proc_status]⟩)
  all_goals exact .inl rfl

theorem write16_vdp1Regs_status_cases (s : State) (off : Nat) (w : Word) :
    (s.write16 .vdp1Regs off w).proc.status = s.proc.status ∨
      RestartedOrStoppedAt off (s.write16 .vdp1Regs off w) := by
  cases h : reg1At off with
  | none => exact .inl (by rw [write16_of_no_reg1 h])
  | some g => rw [write16_of_reg1At h]; exact writeReg1_status_cases h s w

@[simp] theorem State.writePenalty_proc_status (s : State) (r : Region) :
    (s.writePenalty r).proc.status = s.proc.status := by
  unfold State.writePenalty
  split <;> rfl

theorem write16_status_cases (s : State) (r : Region) (off : Nat) (w : Word) :
    (s.write16 r off w).proc.status = s.proc.status ∨
      r = .vdp1Regs ∧ RestartedOrStoppedAt off (s.write16 r off w) := by
  by_cases hr : r = .vdp1Regs
  · subst hr
    exact (write16_vdp1Regs_status_cases s off w).imp_right fun h => ⟨rfl, h⟩
  · exact .inl (by rw [write16_eq_poke16 hr, State.writePenalty_proc_status, (poke16_sameControl s r off w).proc])

/-- A byte write of the registers is a word write (R49). -/
theorem write8_status_cases (s : State) (r : Region) (off : Nat) (b : Byte) :
    (s.write8 r off b).proc.status = s.proc.status ∨
      r = .vdp1Regs ∧ RestartedOrStoppedAt off (s.write8 r off b) := by
  by_cases hr : r = .vdp1Regs
  · subst hr
    rw [write8_eq_write16]
    exact write16_status_cases s _ off _
  · exact .inl (by rw [write8_eq_poke8 hr, State.writePenalty_proc_status, (poke8_sameControl s r off b).proc])

@[simp] theorem State.answer8_proc (s : State) (peek : Bool) (r : Region) (off : Nat) :
    (s.answer8 peek r off).proc = s.proc := by
  obtain ⟨b, n, h⟩ := answer8_changes_replies s peek r off
  rw [h]

@[simp] theorem State.answer16_proc (s : State) (peek : Bool) (r : Region) (off : Nat) :
    (s.answer16 peek r off).proc = s.proc := by
  obtain ⟨w, n, h⟩ := answer16_changes_replies s peek r off
  rw [h]

/-- A host operation keeps the status, or is a reset, or a write of PTMR or ENDR. -/
theorem hostOp_status_cases (s : State) (op : HostOp) :
    (s.hostOp op).proc.status = s.proc.status ∨
      (∃ hard, op = .reset hard) ∨
        ∃ off, ((∃ w, op = .write16 .vdp1Regs off w) ∨ ∃ b, op = .write8 .vdp1Regs off b) ∧
          RestartedOrStoppedAt off (s.hostOp op) := by
  cases op with
  | read8 r off => exact .inl (congrArg Proc.status (s.answer8_proc false r off))
  | read16 r off => exact .inl (congrArg Proc.status (s.answer16_proc false r off))
  | write8 r off b =>
    refine (write8_status_cases s r off b).imp_right ?_
    rintro ⟨rfl, hleft⟩
    exact .inr ⟨off, .inr ⟨b, rfl⟩, hleft⟩
  | write16 r off w =>
    refine (write16_status_cases s r off w).imp_right ?_
    rintro ⟨rfl, hleft⟩
    exact .inr ⟨off, .inl ⟨w, rfl⟩, hleft⟩
  | peek8 r off => exact .inl (congrArg Proc.status (s.answer8_proc true r off))
  | peek16 r off => exact .inl (congrArg Proc.status (s.answer16_proc true r off))
  | poke8 r off b => exact .inl (congrArg Proc.status (poke8_sameControl s r off b).proc)
  | poke16 r off w => exact .inl (congrArg Proc.status (poke16_sameControl s r off w).proc)
  | advance n => exact .inl rfl
  | requestResolution res => exact .inl rfl
  | reset hard => exact .inr (.inl ⟨hard, rfl⟩)

/-! ### The status after a vertical phase entry (R125, R132, R175) -/

/-- From `s` to `t` the status stays, or the swap of PTM = 2 has started drawing at address 0 (R125, R132). -/
def KeepsStatusOrRestarts (s t : State) : Prop :=
  t.proc.status = s.proc.status ∨ s.ptm = 2 ∧ t.proc.status = .busy ∧ t.proc.cmdAddr = 0

theorem KeepsStatusOrRestarts.of_eq {s t : State} (h : t.proc = s.proc) : KeepsStatusOrRestarts s t :=
  .inl (congrArg Proc.status h)

/-- A swap abandons a list that is running, and no other (R132). -/
theorem swap_keepsStatusOrRestarts {s : State} (h : s.proc.status ≠ .busy) : KeepsStatusOrRestarts s s.swap := by
  rcases swap_cases s with ⟨-, hs⟩ | ⟨hptm, hs⟩ <;> rw [hs]
  · rcases abandonList_cases s.swapRegisters with ⟨hbusy, -⟩ | ⟨-, ha⟩
    · exact absurd hbusy h
    · exact .of_eq (by rw [ha, State.emit_proc, State.swapRegisters_proc])
  · exact .inr ⟨hptm, State.startDrawing_proc_status _, State.startDrawing_proc_cmdAddr _⟩

@[simp] theorem State.boundaryErase_proc (s : State) : s.boundaryErase.proc = s.proc := by
  rcases boundaryErase_cases s with h | h <;> simp [h]

@[simp] theorem State.boundaryErase_ptm (s : State) : s.boundaryErase.ptm = s.ptm := by
  rcases boundaryErase_cases s with h | h <;> simp [h, State.ptm]

theorem frameBoundary_keepsStatusOrRestarts {s : State} (h : s.proc.status ≠ .busy) :
    KeepsStatusOrRestarts s s.frameBoundary := by
  rcases frameBoundary_cases s with hb | hb <;> rw [hb]
  · exact .of_eq s.boundaryErase_proc
  · have hswap : KeepsStatusOrRestarts s.boundaryErase s.boundaryErase.swap :=
      swap_keepsStatusOrRestarts (by rwa [State.boundaryErase_proc])
    rwa [KeepsStatusOrRestarts, State.boundaryErase_proc, State.boundaryErase_ptm] at hswap

/-- Only the entry of `LastLine` reaches the status, by its frame boundary. -/
theorem vEntryAction_status_cases {s : State} (h : s.proc.status ≠ .busy) :
    s.vEntryAction.proc.status = s.proc.status ∨
      s.tim.vPhase = .lastLine ∧ KeepsStatusOrRestarts s s.vEntryAction := by
  cases hp : s.tim.vPhase <;> simp only [State.vEntryAction, hp]
  case active => exact .inl (by rw [enterVActive_eq])
  case bottomBorder => exact .inl (by rw [enterBottomBorder_proc])
  case lastLine =>
    rw [enterLastLine_eq]
    exact .inr ⟨trivial, frameBoundary_keepsStatusOrRestarts h⟩
  case vCounterSkip => exact .inl rfl
  all_goals exact .inl trivial

theorem enterVStep_status_cases {s : State} (h : s.proc.status ≠ .busy) (remaining : Nat) :
    (s.enterVStep remaining).proc.status = s.proc.status ∨
      s.tim.vPhase = .topBorder ∧ s.ptm = 2 ∧ (s.enterVStep remaining).proc.status = .busy ∧
        (s.enterVStep remaining).proc.cmdAddr = 0 := by
  rw [enterVStep_eq, State.setCtl_proc]
  rcases vEntryAction_status_cases (s := s.nextVPhase) h with hkeeps | ⟨hphase, hkeeps | hrestarts⟩
  · exact .inl hkeeps
  · exact .inl hkeeps
  · exact .inr ⟨(VPhase.succ_eq_lastLine_iff _).1 hphase, hrestarts⟩

/-! ### Steps -/

theorem enterHStep_proc (s : State) (remaining : Nat) : (s.enterHStep remaining).proc = s.proc := by
  rw [enterHStep_eq, State.setCtl_proc, hEntryAction_proc]
  rfl

/-- A chunk grants cycles, which is no change of the status (R167). -/
theorem beginChunk_proc_status (s : State) (remaining : Nat) :
    (s.beginChunk remaining).proc.status = s.proc.status := by
  unfold State.beginChunk
  split
  · rw [State.setCtl_proc]
  · rw [State.setCtl_proc, grant_eq]

/-- Settles O34, by what a step can be: a faulted processor has no enabled step, and of the agents only a vertical phase
entry and a host operation reach the status. -/
theorem faultIsLeftOnlyByRestartOrStop : Obligations.FaultIsLeftOnlyByRestartOrStop := by
  intro s t hfault hstep
  have hbusy := ne_busy_of_faulted hfault
  rw [step_of_not_enabled (vdp1Enabled_eq_false (.inl hbusy))] at hstep
  obtain rfl : s.agentStep = t := by injection hstep
  rcases agentStep_cases s with ⟨-, -, h⟩ | ⟨op, rest, hctl, hops, h⟩ | ⟨r, -, h⟩ | ⟨c, r, -, h⟩ | ⟨r, -, h⟩ |
    ⟨r, hctl, h⟩ <;> rw [h]
  · exact .inl rfl
  · exact (hostOp_status_cases { s with hostOps := rest } op).imp_right fun hleft =>
      .inr ⟨op, rest, hctl, hops, hleft⟩
  · exact .inl (beginChunk_proc_status s r)
  · exact .inl rfl
  · exact .inl (by rw [enterHStep_proc])
  · exact (enterVStep_status_cases hbusy r).imp_right fun hrestarts => .inl ⟨r, hctl, hrestarts⟩

end Sys2Proof.Machine
end

section
/-! PROOF. What the two resets set and leave alone, and the conditions that hold right after a reset
(`70_reset_and_hazards.md` R205, R206). -/

namespace Sys2Proof.Machine

/-! ### What a reset sets (R205)

A hard reset replaces the memories after the registers are set, so both resets set the registers alike. -/

section
variable (s : State) (hard : Bool)

@[simp] theorem State.hostReset_regs1 : (s.hostReset hard).regs1 = resetRegs1 := by cases hard <;> rfl
@[simp] theorem State.hostReset_ctx : (s.hostReset hard).ctx = resetCtx := by cases hard <;> rfl
@[simp] theorem State.hostReset_proc : (s.hostReset hard).proc = resetProc := by cases hard <;> rfl
@[simp] theorem State.hostReset_seq : (s.hostReset hard).seq = resetSeq := by cases hard <;> rfl
@[simp] theorem State.hostReset_regs2 : (s.hostReset hard).regs2 = resetRegs2 := by cases hard <;> rfl
@[simp] theorem State.hostReset_tim : (s.hostReset hard).tim = resetTim := by cases hard <;> rfl
@[simp] theorem State.hostReset_cmp : (s.hostReset hard).cmp = resetCmp s.freeCtr := by cases hard <;> rfl
@[simp] theorem State.hostReset_trace : (s.hostReset hard).trace = s.trace := by cases hard <;> rfl
@[simp] theorem State.hostReset_hostOps : (s.hostReset hard).hostOps = s.hostOps := by cases hard <;> rfl
@[simp] theorem State.hostReset_replies : (s.hostReset hard).replies = s.replies := by cases hard <;> rfl

end

/-- Of MODR's fields all but the version are bits of registers, which are 0 (R22). -/
theorem modr_of_resetRegs1 {s : State} (h : s.regs1 = resetRegs1) : s.modr = 0x1000 := by
  simp only [State.modr, State.eos, State.die, State.dil, State.fcm, State.vbe, State.tvm, h]
  decide

theorem resetRegs2_getElem (k : Fin 0x120) : resetRegs2[k] = 0 := Vector.getElem_replicate _

/-! ### The unspecified rows and picture (U2) -/

theorem getElem?_map_range {α : Type} (f : Nat → α) {n x : Nat} (h : x < n) :
    ((List.range n).map f)[x]? = some (f x) := by
  rw [List.getElem?_map, List.getElem?_range h, Option.map_some]

theorem resetCmp_rows_get (fill : Nat) (l : Layer) : (resetCmp fill).rows.get l = freeRow fill l := by
  rcases l with _ | l
  · rfl
  · cases l <;> rfl

/-- A line of the picture that has not been drawn has the picture's unspecified pixels (log 14). -/
theorem picture_getElem?_undrawn {s : State} {n x : Nat} (hline : s.cmp.lineAt n = none) (hn : n < dispH s.tim.resCur)
    (hx : x < dispW s.tim.resCur) :
    (s.picture[n]?.bind fun row => row[x]?) = some (Config.undrawnPixel s.cmp.fill n x) := by
  rw [State.picture, getElem?_map_range _ hn, Option.bind_some, hline, Option.getD_none, getElem?_map_range _ hx]

theorem hostReset_picture_getElem? (s : State) (hard : Bool) {n x : Nat} (hn : n < 224) (hx : x < 320) :
    ((s.hostReset hard).picture[n]?.bind fun row => row[x]?) = some (Config.undrawnPixel s.freeCtr n x) := by
  have hpixel := picture_getElem?_undrawn (s := s.hostReset hard) (n := n) (x := x)
  rw [State.hostReset_cmp, State.hostReset_tim] at hpixel
  exact hpixel rfl hn hx

/-- Settles O45: the tables by the value of each part, the rows and the picture pixel by pixel, the memories by whether
the reset is hard. -/
theorem resetSetsEveryRegister : Obligations.ResetSetsEveryRegister := by
  intro s hard
  have hcmp := s.hostReset_cmp hard
  have hregs2 := s.hostReset_regs2 hard
  refine ⟨⟨s.hostReset_regs1 hard, modr_of_resetRegs1 (s.hostReset_regs1 hard)⟩, s.hostReset_ctx hard,
    s.hostReset_proc hard, s.hostReset_seq hard, fun k => ?regs2, s.hostReset_tim hard, ?resolution, ?lineCfg,
    ?layerEnable, fun l x hx => ?rows, fun x hx => ?outRow, fun n hn x hx => hostReset_picture_getElem? s hard hn hx,
    s.hostReset_trace hard, s.hostReset_hostOps hard, s.hostReset_replies hard, ?soft, ?hard⟩
  case regs2 => rw [hregs2, resetRegs2_getElem]
  case resolution => rw [hcmp, hregs2]; rfl
  case lineCfg => rw [hcmp, hregs2]; rfl
  case layerEnable => rw [hcmp, hregs2]; rfl
  case rows => rw [hcmp, resetCmp_rows_get]; exact getElem?_map_range _ hx
  case outRow => rw [hcmp]; exact getElem?_map_range _ hx
  case soft =>
    rintro rfl
    exact ⟨rfl, rfl⟩
  case hard =>
    rintro rfl
    exact ⟨rfl, rfl, rfl, rfl, rfl, rfl⟩

/-! ### The conditions every step keeps, right after a reset (R205) -/

/-- Every register is 0, and so are the bits it does not store. -/
theorem reset_registersOk : State.reset.RegistersOk := by constructor <;> exact BitVec.zero_and

/-- The list starts at address 0, and there is no return address. -/
theorem reset_addressesOk : State.reset.AddressesOk := ⟨rfl, fun _ h => by cases h⟩

/-- Every group of context registers is wholly unset. -/
theorem reset_contextOk : State.reset.ContextOk := ⟨rfl, rfl, rfl, rfl, rfl⟩

/-- The phases `Active` and `LastLine` are no blanking. -/
theorem reset_blankingOk : State.reset.BlankingOk := ⟨by decide, by decide⟩

/-- A reset is the start of a horizontal phase. -/
theorem reset_chunkOk : State.reset.ChunkOk := chunkOk_of_phase_start rfl fun _ _ h => by cases h

theorem reset_derivedOk : State.reset.DerivedOk := ⟨rfl, rfl⟩

/-- `LastLine` has one line, and a reset starts it. -/
theorem reset_linesOk : State.reset.LinesOk := fun _ => Nat.zero_lt_one

/-- No line has been drawn. -/
theorem reset_pictureOk : State.reset.PictureOk := ⟨List.Pairwise.nil, fun _ h => by cases h⟩

/-- Settles O60, condition by condition. -/
theorem resetHasTheInvariants : Obligations.ResetHasTheInvariants :=
  ⟨(State.memoriesOk_iff _).2 State.reset_mem_good, reset_registersOk, reset_addressesOk, reset_contextOk,
    reset_blankingOk, reset_chunkOk, reset_derivedOk, reset_linesOk, reset_pictureOk⟩

end Sys2Proof.Machine
end
